-- ==== Sys2Proof/Word.lean ====
section
/-! DEFINITION. The words of the Jemkar 8120: bytes, 16-bit and 32-bit words, host addresses, and the
numbers of lanes, job slots, Image Contexts and page buffers. -/

namespace Sys2Proof

/-- One byte of a record, a frame or a page. -/
abbrev Byte := BitVec 8

/-- A 16-bit field (a CRC-16, a detail, a post count). -/
abbrev Half := BitVec 16

/-- A 32-bit register, target address, tag or CRC-32. -/
abbrev Word := BitVec 32

/-- A 64-bit host address (00, Ports of the part). -/
abbrev HostAddr := BitVec 64

/-- A set of lanes, bit n meaning lane n (00, Names). -/
abbrev LaneMask := BitVec 8

/-- A lane number, 0 to 7. -/
abbrev LaneId := Fin 8

/-- A job slot number, 0 to 15 (R1). -/
abbrev SlotId := Fin 16

/-- An Image Context number, 0 to 7 (R81). -/
abbrev CtxId := Fin 8

/-- A page buffer number, 0 to 47 (R86). -/
abbrev BufId := Fin 48

end Sys2Proof
end

