-- ==== Sys2Proof/Syntax.lean ====
section
/-! DEFINITION. The commands of the part: one constructor of `Instr` for each row of
spec/opcode_table.json, with the operands the row's rule needs. A command names one step of the part,
whole and indivisible (95): a register write, a pin event, the end of a memory port transfer, the end of
a timer, an event on a lane's lines, or a step of the part's own blocks. Lengths of time on a lane's
lines are in REFCLK cycles (48 a microsecond), lengths at the supply comparator in microseconds. An operand
`stood` says how long the level that a command reports has stood without a break. -/

namespace Sys2Proof

/-- How a read on the memory port ends: with its bytes, lowest address first, or with a memory port error. -/
inductive ReadEnd where
  | ok (data : List Byte)
  | error
deriving DecidableEq, Repr

/-- How a write on the memory port ends. -/
inductive WriteEnd where
  | ok
  | error
deriving DecidableEq, Repr

/-- What the glitch filter reports of a low on TDAT (R45, R52): a low that still stands, `stood` cycles after it began,
or a low of `low` cycles that has ended, the line high for `stood` cycles since. -/
inductive LowReport where
  | began (stood : Nat)
  | ended (low stood : Nat)
deriving DecidableEq, Repr

/-- A low on TDAT that has ended: `low` cycles long, the line high for `stood` cycles since (R28, R45). -/
structure EndedLow where
  low : Nat
  stood : Nat
deriving DecidableEq, Repr

/-- A low on one lane's TDAT that has ended (R45). -/
structure LaneLow where
  lane : LaneId
  low : Nat
  stood : Nat
deriving DecidableEq, Repr

/-- One lane's TDAT has been high for `stood` cycles (R45). -/
structure LaneHigh where
  lane : LaneId
  stood : Nat
deriving DecidableEq, Repr

/-- The four causes of a framing error (R54). -/
inductive FramingCause where
  /-- The first character is not 0x3C. -/
  | badLead (lead : Byte)
  /-- A character has a low stop bit: the lengths of the line's levels, low and high in turn, from the leading edge of its
  start bit to the report. -/
  | lowStop (levels : List Nat)
  /-- The two Len bytes give a value greater than 264. -/
  | longLen (len : Nat)
  /-- The line stayed high this many REFCLK cycles before the next start bit. -/
  | gap (high : Nat)
deriving DecidableEq, Repr

/-- The two events that end the wait for a quiet line (R55). -/
inductive QuietCause where
  /-- The line has been high this many REFCLK cycles without a break. -/
  | lineHigh (high : Nat)
  /-- The reply timer started at the rejection has expired. -/
  | timerExpired
deriving DecidableEq, Repr

/-- The commands, in the order of spec/opcode_table.json. -/
inductive Instr where
  | enable
  | quiesce
  | quiesceRelease
  | softReset
  | clearMisuse
  | setupLoWrite (be : BitVec 4) (value : Word)
  | setupHiWrite (be : BitVec 4) (value : Word)
  | jobTailWrite (be : BitVec 4) (value : Word)
  | jobHeadWrite (be : BitVec 4) (value : Word)
  | doneHeadWrite (be : BitVec 4) (value : Word)
  | notifyWrite (be : BitVec 4) (value : Word)
  | registerWrite (offset : BitVec 5) (be : BitVec 4) (value : Word)
  | powerOnReset
  | pinReset
  | resetNRelease
  | memoryPortArbitration
  | setupReadEnd (r : ReadEnd)
  | jobRecordReadStart
  | jobRecordReadEnd (r : ReadEnd)
  | jobTake
  | grantScan
  | supplyGood (n : LaneId) (stood : Nat)
  | powerUpLimitExpiry (n : LaneId)
  | settleEnd (n : LaneId)
  | selectPhaseEnd (n : LaneId)
  | presencePulse (n : LaneId) (pulse : EndedLow)
  | entryLimitExpiry (n : LaneId)
  | entryResetEnd (n : LaneId)
  | keyReadEnd (n : LaneId) (r : ReadEnd)
  | frameSendEnd (n : LaneId)
  | tdatLow (n : LaneId) (report : LowReport)
  | busyHoldRecognised (n : LaneId) (low : Nat)
  | busyHoldEnd (line : LaneHigh)
  | busyLimitExpiry (n : LaneId)
  | replyTimeout (n : LaneId)
  | framingError (n : LaneId) (cause : FramingCause)
  | quietLineResend (n : LaneId) (cause : QuietCause)
  | replyFrameComplete (n : LaneId) (frame : List Byte)
  | resetPulseEnd (n : LaneId)
  | descriptorHeaderReadEnd (r : ReadEnd)
  | descriptorTableReadEnd (r : ReadEnd)
  | pageFetchReadEnd (r : ReadEnd)
  | readoutPageWriteEnd (n : LaneId) (w : WriteEnd)
  | exchangePayloadReadEnd (n : LaneId) (r : ReadEnd)
  | exchangeReplyWriteEnd (n : LaneId) (w : WriteEnd)
  | drop (n : LaneId) (stood : Nat)
  | supplyReturn (n : LaneId) (stood : Nat)
  | rideTimerExpiry (n : LaneId)
  | postBegin
  | reportRecordWriteEnd (w : WriteEnd)
  | completionWriteEnd (w : WriteEnd)
  | holdIntervalExpiry
  | drainEnd
  | startBitDiscarded (line : LaneLow)
deriving DecidableEq, Repr

end Sys2Proof
end

