-- ==== Sys2Proof/Machine/Bytes.lean ====
section
/-! DEFINITION. Bytes of records and frames: little-endian fields (12, first paragraph) and pieces of byte lists. -/

namespace Sys2Proof.Machine

/-- The byte at offset `i`. -/
def byteAt (bs : List Byte) (i : Nat) : Byte := bs.getD i 0

/-- The `n`-byte little-endian field at offset `i`, as a number. -/
def fieldAt (bs : List Byte) (i : Nat) : Nat → Nat
  | 0 => 0
  | n + 1 => (byteAt bs i).toNat + 256 * fieldAt bs (i + 1) n

/-- The 2-byte field at offset `i`. -/
def halfAt (bs : List Byte) (i : Nat) : Half := BitVec.ofNat 16 (fieldAt bs i 2)

/-- The 4-byte field at offset `i`. -/
def wordAt (bs : List Byte) (i : Nat) : Word := BitVec.ofNat 32 (fieldAt bs i 4)

/-- The 8-byte field at offset `i`. -/
def hostAddrAt (bs : List Byte) (i : Nat) : HostAddr := BitVec.ofNat 64 (fieldAt bs i 8)

/-- The `n` low bytes of `v`, lowest first. -/
def leBytes : Nat → Nat → List Byte
  | 0, _ => []
  | n + 1, v => BitVec.ofNat 8 v :: leBytes n (v / 256)

/-- `len` bytes from offset `off`. -/
def slice (bs : List Byte) (off len : Nat) : List Byte := (bs.drop off).take len

/-- `bs` with the bytes from offset `off` replaced by `data`. -/
def overwrite (bs : List Byte) (off : Nat) (data : List Byte) : List Byte :=
  bs.take off ++ data ++ bs.drop (off + data.length)

/-- The offset of the first byte in which two lists differ. -/
def firstDiff : List Byte → List Byte → Option Nat
  | a :: as, b :: bs => if a = b then (firstDiff as bs).map (· + 1) else some 0
  | _, _ => none

/-- `base + off` modulo 2^64 (R78, R120, R123, R153). -/
def addrPlus (base : HostAddr) (off : Nat) : HostAddr := base + BitVec.ofNat 64 off

/-- The address `a` rounded down to a multiple of `m`. -/
def roundDown (a m : Nat) : Nat := a / m * m

/-- `a / m` rounded up to the next whole number (00, Numbers and sizes). -/
def ceilDiv (a m : Nat) : Nat := (a + m - 1) / m

/-- Lane `n` belongs to the mask. -/
def hasLane (m : LaneMask) (n : LaneId) : Bool := m.getLsbD n.val

/-- The mask with lane `n` added. -/
def addLane (m : LaneMask) (n : LaneId) : LaneMask := m ||| (1#8 <<< n.val)

/-- The mask with lane `n` removed. -/
def dropLane (m : LaneMask) (n : LaneId) : LaneMask := m &&& ~~~(1#8 <<< n.val)

/-- The entry `i` of a table set to `a`. -/
def vset {α : Type} {k : Nat} (v : Vector α k) (i : Fin k) (a : α) : Vector α k := v.set i.val a i.isLt

end Sys2Proof.Machine
end

