-- ==== Sys2Proof/Config.lean ====
section
/-! DEFINITION. What the part fixes: the sizes of its tables, the address map of its registers, and the
lists that walk its lanes, slots, contexts and buffers in ascending order. The manual leaves no value
free that a command can make observable, so there is no opaque constant here (INVENTORY.md, State). -/

namespace Sys2Proof.Config

/-- The Post Queue's filled and reserved entries together never exceed 32 (R152). -/
def postCapacity : Nat := 32

/-- A job holds at most 14 shared buffers (R86, R87). -/
def sharedLimit : Nat := 14

/-- Buffers 0 to 15 are floor buffers, 16 to 47 shared buffers (R86). -/
def firstShared : Nat := 16

/-- The longest payload of a request or reply, in bytes (R47, R48). -/
def maxPayload : Nat := 264

/-- The lanes in ascending order. -/
def allLanes : List LaneId := [0, 1, 2, 3, 4, 5, 6, 7]

/-- The Image Contexts in ascending order. -/
def allCtxs : List CtxId := [0, 1, 2, 3, 4, 5, 6, 7]

/-- The job slots in ascending order. -/
def allSlots : List SlotId := [0, 1, 2, 3, 4, 5, 6, 7, 8, 9, 10, 11, 12, 13, 14, 15]

/-- The page buffers in ascending order. -/
def allBufs : List BufId :=
  [0, 1, 2, 3, 4, 5, 6, 7, 8, 9, 10, 11, 12, 13, 14, 15] ++
  [16, 17, 18, 19, 20, 21, 22, 23, 24, 25, 26, 27, 28, 29, 30, 31] ++
  [32, 33, 34, 35, 36, 37, 38, 39, 40, 41, 42, 43, 44, 45, 46, 47]

/-- Offsets of the eight registers (Table 12-13). -/
def offControl : BitVec 5 := 0x00#5
def offStatus : BitVec 5 := 0x04#5
def offSetupLo : BitVec 5 := 0x08#5
def offSetupHi : BitVec 5 := 0x0C#5
def offJobTail : BitVec 5 := 0x10#5
def offJobHead : BitVec 5 := 0x14#5
def offDoneHead : BitVec 5 := 0x18#5
def offNotify : BitVec 5 := 0x1C#5

end Sys2Proof.Config
end

