-- ==== Sys2Proof/Machine/State.lean ====
section
/-! DEFINITION. The state of the part as plain data, and the state after a power-on reset. Each type cites
the rule or table whose fields it holds. Fields marked "own" are the model's: the rules imply what they
hold and give it no field of its own (INVENTORY.md, State). Times are REFCLK cycles since reset. -/

namespace Sys2Proof.Machine

/-- Part states, in the order of their STATUS codes (R158, Table 12-14). -/
inductive PartState where
  | disabled | loading | running | quiescing | quiesced | halted | draining
deriving DecidableEq, Repr

/-- Fatal codes (R158). -/
inductive FatalCode where
  | none | setupInvalid | setupReadError | jobReadError | postWriteError
deriving DecidableEq, Repr

/-- Reset causes (R158). -/
inductive ResetCause where
  | powerOn | pin | soft
deriving DecidableEq, Repr

/-- The ten lane states (Table 2-3). -/
inductive LaneState where
  | off | powering | settling | hold | entry | linking | ready | active | run | fault
deriving DecidableEq, Repr

/-- Last step values (Table 1-5). -/
inductive Step where
  | none | powerUp | entry | linking | rangeCheck | clear | write | checkWait | check | sum | guard
  | read | describe | exchange | settings | action
deriving DecidableEq, Repr

/-- Lane results (Table 12-10). -/
inductive LaneResult where
  | done | notRun | supplyFail | supplyDrop | noTarget | keyRejected | geometryMismatch | outOfRange
  | linkLost | targetStuck | targetRefused | compareMismatch | sumMismatch | imageReadError
  | hostWriteError | laneFaulted | cancelled
deriving DecidableEq, Repr

/-- Job status codes (Table 12-8). -/
inductive JobStatus where
  | ok | partialDone | failed | cancelled | refused | imageInvalid | imageUnreadable | cancelDone
  | notFound | tooLate | alreadyCancelling
deriving DecidableEq, Repr

/-- Job states of an occupied slot (Table 1-3). -/
inductive JobState where
  | waiting | running | ending
deriving DecidableEq, Repr

/-- End actions (Table 2-6). -/
inductive EndAction where
  | keep | hold | run | off
deriving DecidableEq, Repr

/-- LANE-ACTION codes (Table 2-7). -/
inductive ActionCode where
  | powerOn | powerOff | hold | run | clearFault
deriving DecidableEq, Repr

/-- Drop policies (Table 2-2). -/
inductive DropPolicy where
  | cut | ride
deriving DecidableEq, Repr

/-- The twelve Lane Settings (Table 2-2); limits in ms. -/
structure Settings where
  rateCode : Nat
  retryLimit : Nat
  replyLimit : Nat
  clearLimit : Nat
  writeLimit : Nat
  sumLimit : Nat
  threshold : Nat
  dropPolicy : DropPolicy
  powerUpLimit : Nat
  settleTime : Nat
  entryLimit : Nat
  entryAttempts : Nat
deriving DecidableEq, Repr

/-- The target descriptor: the 17 bytes of an accepted QUERY reply (Table 4-4). -/
structure TargetDesc where
  device : Word
  base : Word
  size : Word
  pageCode : Byte
  clearCode : Byte
  maxRate : Byte
  protection : Byte
  keyRequired : Byte
deriving DecidableEq, Repr

/-- The step set of a PROGRAM job (Table 6-1). -/
structure StepSet where
  clear : Bool
  write : Bool
  check : Bool
  sum : Bool
  guard : Bool
deriving DecidableEq, Repr

/-- One entry of an EXCHANGE record (Table 12-2). -/
structure ExchangeEntry where
  kind : Byte
  len : Nat
  busyMs : Nat
deriving DecidableEq, Repr

/-- Job arguments by kind (Tables 6-1 and 7-1). The kind of a slot is the constructor. -/
inductive JobArgs where
  | program (steps : StepSet) (fresh clearAll : Bool) (endAct : EndAction) (guardLevel : Nat)
      (descPtr keyPtr : HostAddr)
  | readout (fresh : Bool) (endAct : EndAction) (buffer keyPtr : HostAddr) (start len : Word)
  | identify (fresh : Bool) (endAct : EndAction) (keyPtr : HostAddr)
  | exchange (fresh : Bool) (endAct : EndAction) (block keyPtr : HostAddr) (entries : List ExchangeEntry)
  | laneSet (values : Settings)
  | laneAction (code : ActionCode)
deriving DecidableEq, Repr

/-- The lane outcome copy (R11). -/
structure OutcomeCopy where
  retries : Nat
  drops : Nat
  faultAddr : Option Word
  sumsSkipped : Nat
  rate : Nat
  fallback : Bool
  desc : Option TargetDesc
deriving DecidableEq, Repr

/-- The image failure field of a job slot (Table 1-2). -/
inductive ImageFailure where
  | invalid (detail : Byte)
  | unreadable
deriving DecidableEq, Repr

/-- The cancel link: tag and admission number of the CANCEL (Table 1-2). -/
structure CancelLink where
  tag : Word
  adm : Word
deriving DecidableEq, Repr

/-- An occupied job slot (Table 1-2). -/
structure JobSlot where
  tag : Word
  mask : LaneMask
  live : LaneMask
  results : Vector (Option LaneResult) 8
  lastSteps : Vector Step 8
  copies : Vector (Option OutcomeCopy) 8
  state : JobState
  ctx : Option CtxId
  imageFail : Option ImageFailure
  cancelLink : Option CancelLink
  adm : Word
  reportAddr : HostAddr
  args : JobArgs
deriving DecidableEq, Repr

/-- One requested lane of a completion entry: what its report record is written from (R17, R167). -/
structure LaneReport where
  lane : LaneId
  result : LaneResult
  lastStep : Step
  copy : Option OutcomeCopy
deriving DecidableEq, Repr

/-- A completion entry (R17, R151, Table 12-7). -/
structure Entry where
  tag : Word
  kind : Byte
  adm : Word
  status : JobStatus
  requested : LaneMask
  succeeded : LaneMask
  failed : LaneMask
  notRun : LaneMask
  detail : Half
  jobHead : Nat
  targetTag : Word
  fallback : Bool
  reportAddr : HostAddr
  lanes : List LaneReport
  reportWritten : Bool
  reportFailed : Bool
deriving DecidableEq, Repr

/-- One segment of an image (Table 12-5); the CRC-32 is present when its flag is set. -/
structure Segment where
  addr : Word
  len : Word
  host : HostAddr
  crc : Option Word
deriving DecidableEq, Repr

/-- The two passes (section 5.5). -/
inductive Pass where
  | write | check
deriving DecidableEq, Repr

/-- Image Context states (Table 5-3). -/
inductive CtxState where
  | free | descriptor | writePass | checkPass | idle | stopped | readout
deriving DecidableEq, Repr

/-- A part of the descriptor read (own): the header, or the table under a header that passed its checks (R78). -/
inductive DescPart where
  | header
  | table (count pageCode fill : Byte)
deriving DecidableEq, Repr

/-- A page fetch in flight (Table 5-2). -/
structure Fetch where
  buf : BufId
  page : Nat
deriving DecidableEq, Repr

/-- An Image Context (Table 5-2). `descDue` is the descriptor part still to be read and `descBusy` the part being
read (own). -/
structure ImageCtx where
  state : CtxState
  slot : Option SlotId
  descPtr : HostAddr
  count : Byte
  pageCode : Byte
  fill : Byte
  segs : List Segment
  writeDue : Bool
  checkDue : Bool
  passLanes : LaneMask
  nextPage : Option Nat
  fetch : Option Fetch
  crcReg : Word
  crcSeg : Nat
  computed : List (Option Word)
  sharedHeld : Nat
  descDue : Option DescPart
  descBusy : Option DescPart
deriving DecidableEq, Repr

/-- Page buffer states (Table 5-4). -/
inductive BufState where
  | free | filling | held | failed
deriving DecidableEq, Repr

/-- A page buffer (Table 5-4) and the bytes it holds (section 5.4). -/
structure PageBuf where
  state : BufState
  owner : Option CtxId
  pass : Pass
  page : Nat
  count : Nat
  data : List Byte
deriving DecidableEq, Repr

/-- The page cursor: the start of the pass, a page, or past the last page (R20, R89). -/
inductive Cursor where
  | start
  | at (page : Nat)
  | past
deriving DecidableEq, Repr

/-- The Lane Context (Table 2-1), with the step position of R100. -/
structure LaneCtx where
  state : LaneState
  slot : Option SlotId
  step : Step
  session : Bool
  seq : Byte
  rate : Nat
  fallback : Bool
  trial : Bool
  desc : Option TargetDesc
  fallbackCopy : Option TargetDesc
  answered : Bool
  attempts : Nat
  faultCause : Option LaneResult
  retries : Nat
  drops : Nat
  faultAddr : Option Word
  sumsSkipped : Nat
  cursor : Cursor
  stepPos : Option Nat
deriving DecidableEq, Repr

/-- Link exchange states (Table 3-7). -/
inductive LinkState where
  | idle | sending | awaiting | busyHold | receiving
deriving DecidableEq, Repr

/-- The place that supplies a request's payload (R47): the Lane Engine, the first `len` bytes of a page buffer behind
the address bytes, or the lane's exchange buffer. -/
inductive PayloadSource where
  | engine (bytes : List Byte)
  | pool (addrBytes : List Byte) (buf : BufId) (len : Nat)
  | exchangeBuffer (len : Nat)
deriving DecidableEq, Repr

/-- What a request is sent for: which rule takes the outcome of its exchange (own; Tables 4-1 and 4-7). -/
inductive Purpose where
  | openSession
  | query
  | pace (code : Nat)
  | clear
  | write (page : Nat)
  | checkRead (page : Nat)
  | readout (page : Nat) (buf : BufId)
  | sum (seg : Nat) (reference : Word)
  | guard (level : Nat)
  | entry
  | closeFresh
  | closeEnd (e : EndAction)
  | closeAction (a : ActionCode)
deriving DecidableEq, Repr

/-- A request as the Lane Engine hands it to the Link Unit (R51, R61). -/
structure Request where
  purpose : Purpose
  kind : Byte
  source : PayloadSource
  len : Nat
  busyMs : Nat
deriving DecidableEq, Repr

/-- The reply timer: absent, running to an end time, or paused with its remaining time (R52). -/
inductive ReplyTimer where
  | absent
  | running (ends : Nat)
  | paused (left : Nat)
deriving DecidableEq, Repr

/-- The Link Unit's exchange record (Table 3-6). `released` (own): when the line was released after the last frame sent
(R52). -/
structure LinkUnit where
  state : LinkState
  req : Option Request
  seq : Byte
  check : Half
  rate : Nat
  retryLimit : Nat
  replyLimit : Nat
  busyLimit : Nat
  resends : Nat
  timer : ReplyTimer
  busyStart : Option Nat
  released : Nat
  discarding : Bool
  stopMark : Bool
  replyArea : List Byte
deriving DecidableEq, Repr

/-- Supply states (Table 9-2). -/
inductive SupplyState where
  | unpowered | rising | settling | good | riding
deriving DecidableEq, Repr

/-- The qualified comparator level (Table 9-1). -/
inductive Level where
  | above | below
deriving DecidableEq, Repr

/-- The Supply Monitor record (Table 9-1); a timer holds the time at which it ends. -/
structure Supply where
  state : SupplyState
  threshold : Nat
  powerUp : Option Nat
  settle : Option Nat
  ride : Option Nat
  level : Level
deriving DecidableEq, Repr

/-- The output lines of a lane (R23). -/
structure Lines where
  tpwrOn : Bool
  trstLow : Bool
  tselLow : Bool
  tdatDriven : Bool
deriving DecidableEq, Repr

/-- The timed phase a lane is in (own), with the time at which it ends: the two phases of an entry attempt, the second with the
time at which TRST was released too (R28), the 1 ms reset before an attempt (R27, R29), the 1 ms reset pulse of RUN (R37,
R39). -/
inductive Phase where
  | none
  | select (ends : Nat)
  | presence (released ends : Nat)
  | reset (ends : Nat)
  | pulse (ends : Nat)
deriving DecidableEq, Repr

/-- An action held back by a ride window (own; R144): an entry sequence, the next select phase, the release of TRST
at the end of a select phase or of a reset pulse, the reset pulse that follows a power-up, a request, the key read, the
next piece of the current step, the beginning of a step that needs a request, or the request that a rate fallback sends
again. -/
inductive Held where
  | entry
  | select
  | presence
  | pulse
  | startPulse
  | request (r : Request)
  | keyRead
  | step
  | begin (st : Step)
  | resume
deriving DecidableEq, Repr

/-- Why a lane stops at its next request boundary (own; R94, R134). -/
inductive StopCause where
  | cancel
  | imageError
deriving DecidableEq, Repr

/-- A host transfer of a lane in flight (R121). -/
inductive Xfer where
  | keyRead (addr : HostAddr)
  | payloadRead (addr : HostAddr) (len : Nat)
  | pageWrite (buf : BufId) (page : Nat) (addr : HostAddr) (data : List Byte)
  | replyWrite (addr : HostAddr) (data : List Byte)
deriving DecidableEq, Repr

/-- The part of an EXCHANGE entry that is next or under way (own; R124): payload read, request, reply write. -/
inductive ExchangePart where
  | payload
  | request
  | reply
deriving DecidableEq, Repr

/-- What a rate fallback sends again (own; R32): the request that failed, its step and its step position. -/
structure Resume where
  req : Request
  step : Step
  pos : Option Nat
deriving DecidableEq, Repr

/-- What a Lane Engine remembers beside the Lane Context (own). `stop`: a stop that waits for a request boundary.
`due`: a result that waits for a request or a transfer to end, with its fault address (R121). `resume`: what a
rate fallback sends again (R32). `readPage`: the next page a READOUT reads (R119). `entryIdx` and `exPart`: where an
EXCHANGE stands (R124). `xbuf`: the exchange buffer (R123). `drained`: the lane has reported drained (R42). -/
structure Engine where
  phase : Phase
  held : Option Held
  stop : Option StopCause
  due : Option (LaneResult × Option Word)
  resume : Option Resume
  readPage : Option Nat
  entryIdx : Nat
  exPart : ExchangePart
  xfer : Option Xfer
  xbuf : List Byte
  drained : Bool
deriving DecidableEq, Repr

/-- One lane: Lane Context, Lane Settings, Link Unit, Supply Monitor, lines, and the engine's own memory. -/
structure Lane where
  ctx : LaneCtx
  settings : Settings
  link : LinkUnit
  supply : Supply
  lines : Lines
  eng : Engine
deriving DecidableEq, Repr

/-- What the Job Table, the Image Reader, the Page Pool, the lanes and the Post Queue's list hold. -/
structure Work where
  slots : Vector (Option JobSlot) 16
  grantList : List SlotId
  owner : Vector (Option SlotId) 8
  ctxs : Vector ImageCtx 8
  imgLast : CtxId
  pool : Vector PageBuf 48
  lanes : Vector Lane 8
  queue : List Entry
  reserved : Nat
deriving DecidableEq, Repr

/-- The Part Controller (R158), the level of RESET_N (R163), whether the setup block read is in flight, and the address
that ENABLE found for it (own; R148). -/
structure PartCtl where
  state : PartState
  fatal : FatalCode
  cause : ResetCause
  resetLow : Bool
  setupReading : Bool
  setupAddr : HostAddr
deriving DecidableEq, Repr

/-- The registers that the host writes and that hold no ring index (R148, R156, R157). -/
structure Regs where
  setupLo : Word
  setupHi : Word
  notifyEnable : Bool
  threshold : BitVec 8
  holdCode : BitVec 2
  misuse : Bool
deriving DecidableEq, Repr

/-- The latched ring geometry (R148): bases and size codes. -/
structure Geometry where
  jobBase : HostAddr
  jobCode : Nat
  doneBase : HostAddr
  doneCode : Nat
deriving DecidableEq, Repr

/-- The rings' indexes, marker, post count and post time list, in microseconds (R149, R154, R155). -/
structure Rings where
  geom : Option Geometry
  jobTail : Nat
  jobHead : Nat
  doneHead : Nat
  writeIdx : Nat
  marker : Bool
  postCount : Half
  postTimes : List Nat
deriving DecidableEq, Repr

/-- Job Intake (R3, R150). `readVoid`: the read in flight was overtaken by the part leaving RUNNING (own). -/
structure Intake where
  counter : Word
  held : Option (List Byte)
  reading : Bool
  readVoid : Bool
deriving DecidableEq, Repr

/-- The write that a posting under way is making (R153): the i-th report record, or the completion record. -/
inductive Posting where
  | report (i : Nat)
  | completion
deriving DecidableEq, Repr

/-- One read of a page fetch: host address, length, and offset in the page (R84). -/
structure PageRead where
  addr : HostAddr
  len : Nat
  offset : Nat
deriving DecidableEq, Repr

/-- What the Image Reader does with the port in one turn (R95): a part of the read of the descriptor at `ptr`, or a page
fetch with the reads still to be made, the one under way first. -/
inductive ImageTurn where
  | desc (part : DescPart) (ptr : HostAddr)
  | fetch (f : Fetch) (reads : List PageRead)
deriving DecidableEq, Repr

/-- The user of the memory port (R164). -/
inductive PortUser where
  | postQueue
  | setup
  | intake
  | lane (n : LaneId)
  | image (c : CtxId) (turn : ImageTurn)
deriving DecidableEq, Repr

/-- The state of the part. `clock` is the timebase in REFCLK cycles; `irqHigh` is the level of IRQ_N; `pending` is the
queue of commands not yet taken (own). -/
structure State where
  part : PartCtl
  regs : Regs
  rings : Rings
  intake : Intake
  posting : Option Posting
  port : Option PortUser
  portLast : LaneId
  clock : Nat
  irqHigh : Bool
  work : Work
  pending : List Instr
deriving DecidableEq, Repr

/-- The block has no fault: nothing the spec describes stops it. A fatal error makes it HALTED (R161), a lane's
failure is a lane result (Table 12-10), a misuse of a register sets MISUSE (R157). No meaning raises a fault,
so the type has no constructor. -/
inductive Fault where
deriving DecidableEq, Repr

/-- Why a command has no meaning in the model. -/
inductive Refusal where
  /-- Raised by exec's arm of a command that has no meaning yet, by its mnemonic. Safe: the model stops where the part
  goes on. No arm of this model raises it. -/
  | notModelled (mnemonic : String)
deriving DecidableEq, Repr

/-! ## Values after a power-on reset -/

/-- The defaults of Table 2-2. -/
def Settings.default : Settings :=
  { rateCode := 3, retryLimit := 3, replyLimit := 10, clearLimit := 60, writeLimit := 5, sumLimit := 2,
    threshold := 2, dropPolicy := .cut, powerUpLimit := 20, settleTime := 2, entryLimit := 50, entryAttempts := 3 }

/-- The last column of Table 2-1. -/
def LaneCtx.reset : LaneCtx :=
  { state := .off, slot := none, step := .none, session := false, seq := 0, rate := 0, fallback := false,
    trial := false, desc := none, fallbackCopy := none, answered := true, attempts := 0, faultCause := none,
    retries := 0, drops := 0, faultAddr := none, sumsSkipped := 0, cursor := .start, stepPos := none }

/-- The exchange record when IDLE: every other field absent or clear (R50). -/
def LinkUnit.idle : LinkUnit :=
  { state := .idle, req := none, seq := 0, check := 0, rate := 0, retryLimit := 0, replyLimit := 0, busyLimit := 0,
    resends := 0, timer := .absent, busyStart := none, released := 0, discarding := false, stopMark := false,
    replyArea := [] }

/-- The last column of Table 9-1. -/
def Supply.reset : Supply :=
  { state := .unpowered, threshold := 2, powerUp := none, settle := none, ride := none, level := .below }

/-- The lines of a lane in OFF (Table 2-3, R41). -/
def Lines.off : Lines := { tpwrOn := false, trstLow := true, tselLow := false, tdatDriven := false }

/-- A Lane Engine with nothing to remember. The exchange buffer's contents at reset are not defined and are not read
before they are written (R123): DESIGN CHOICE, empty (log entry 10). -/
def Engine.idle : Engine :=
  { phase := .none, held := none, stop := none, due := none, resume := none, readPage := none, entryIdx := 0,
    exPart := .payload, xfer := none, xbuf := [], drained := false }

/-- A lane after a power-on or pin reset (R41). -/
def Lane.reset : Lane :=
  { ctx := .reset, settings := .default, link := .idle, supply := .reset, lines := .off, eng := .idle }

/-- The FREE values of Table 5-2. -/
def ImageCtx.free : ImageCtx :=
  { state := .free, slot := none, descPtr := 0, count := 0, pageCode := 0, fill := 0, segs := [], writeDue := false,
    checkDue := false, passLanes := 0, nextPage := none, fetch := none, crcReg := 0xFFFFFFFF#32, crcSeg := 0,
    computed := [], sharedHeld := 0, descDue := none, descBusy := none }

/-- The free values of Table 5-4; the bytes of a free buffer are not read before a fetch or a READ fills them:
DESIGN CHOICE, none (log entry 10). -/
def PageBuf.free : PageBuf :=
  { state := .free, owner := none, pass := .write, page := 0, count := 0, data := [] }

/-- Job Table, Image Reader, Page Pool, lanes and Post Queue after a power-on or pin reset (R1, R4, R5, R9, R41, R81,
R86, R95, R152). -/
def Work.reset : Work :=
  { slots := Vector.replicate 16 none, grantList := [], owner := Vector.replicate 8 none,
    ctxs := Vector.replicate 8 .free, imgLast := 7, pool := Vector.replicate 48 .free,
    lanes := Vector.replicate 8 .reset, queue := [], reserved := 0 }

/-- DISABLED, NONE, POWER_ON (R159, R163); RESET_N high. -/
def PartCtl.reset : PartCtl :=
  { state := .disabled, fatal := .none, cause := .powerOn, resetLow := false, setupReading := false, setupAddr := 0 }

/-- The reset values of Table 12-13 (R148, R156, R157). -/
def Regs.reset : Regs :=
  { setupLo := 0, setupHi := 0, notifyEnable := false, threshold := 1, holdCode := 0, misuse := false }

/-- No geometry latched, indexes 0, marker 1, post count 0, no post time (R149, R155, R163). -/
def Rings.reset : Rings :=
  { geom := none, jobTail := 0, jobHead := 0, doneHead := 0, writeIdx := 0, marker := true, postCount := 0,
    postTimes := [] }

/-- Admission counter 0 and no record held or being read (R3, R150). -/
def Intake.reset : Intake := { counter := 0, held := none, reading := false, readVoid := false }

/-- The part after a power-on reset (R163). The timebase starts at 0: DESIGN CHOICE (log entry 10). -/
def State.reset : State :=
  { part := .reset, regs := .reset, rings := .reset, intake := .reset, posting := none, port := none, portLast := 7,
    clock := 0, irqHigh := true, work := .reset, pending := [] }

end Sys2Proof.Machine
end

