-- ==== Sys2Proof/Machine/Operands.lean ====
section
/-! DEFINITION. The formats of chapter 12: codes, records read from host memory (job records, setup block, image
descriptor), records written to it (completion and report records), the target descriptor and the
exchange block. -/

namespace Sys2Proof.Machine

/-! ## Codes -/

/-- Lane result codes (Table 12-10). -/
def resultCode : LaneResult → Byte
  | .done => 1 | .notRun => 2 | .supplyFail => 3 | .supplyDrop => 4 | .noTarget => 5 | .keyRejected => 6
  | .geometryMismatch => 7 | .outOfRange => 8 | .linkLost => 9 | .targetStuck => 10 | .targetRefused => 11
  | .compareMismatch => 12 | .sumMismatch => 13 | .imageReadError => 14 | .hostWriteError => 15
  | .laneFaulted => 16 | .cancelled => 17

/-- Last step codes (Table 12-11). -/
def stepCode : Step → Byte
  | .none => 0 | .powerUp => 1 | .entry => 2 | .linking => 3 | .rangeCheck => 4 | .clear => 5 | .write => 6
  | .checkWait => 7 | .check => 8 | .sum => 9 | .guard => 10 | .read => 11 | .describe => 12
  | .exchange => 13 | .settings => 14 | .action => 15

/-- Job status codes (Table 12-8). -/
def statusCode : JobStatus → Byte
  | .ok => 0 | .partialDone => 1 | .failed => 2 | .cancelled => 3 | .refused => 4 | .imageInvalid => 5
  | .imageUnreadable => 6 | .cancelDone => 7 | .notFound => 8 | .tooLate => 9 | .alreadyCancelling => 10

/-- Part state codes of STATUS (Table 12-14). -/
def partStateCode : PartState → Nat
  | .disabled => 0 | .loading => 1 | .running => 2 | .quiescing => 3 | .quiesced => 4 | .halted => 5 | .draining => 6

/-- Fatal codes of STATUS (Table 12-14). -/
def fatalCode : FatalCode → Nat
  | .none => 0 | .setupInvalid => 1 | .setupReadError => 2 | .jobReadError => 3 | .postWriteError => 4

/-- Reset causes of STATUS (Table 12-14). -/
def causeCode : ResetCause → Nat
  | .powerOn => 0 | .pin => 1 | .soft => 2

/-- Kind codes of job records (Table 12-1). -/
def kindCode : JobArgs → Byte
  | .program .. => 1
  | .readout .. => 2
  | .identify .. => 3
  | .exchange .. => 4
  | .laneSet .. => 5
  | .laneAction .. => 6

/-- The kind code of a CANCEL (Table 12-1). -/
def cancelKind : Byte := 7

/-- Request kind codes (Table 4-1). -/
def kindOpen : Byte := 0x01#8
def kindPace : Byte := 0x02#8
def kindQuery : Byte := 0x03#8
def kindClear : Byte := 0x04#8
def kindWrite : Byte := 0x05#8
def kindRead : Byte := 0x06#8
def kindSum : Byte := 0x07#8
def kindGuard : Byte := 0x08#8
def kindClose : Byte := 0x09#8

/-- Target status codes that the part names (Table 4-2). -/
def statusOk : Byte := 0x00#8
def statusBadFrame : Byte := 0x01#8
def statusDenied : Byte := 0x03#8
def statusKeyWrong : Byte := 0x04#8

/-- The reasons of a cause word (R63). -/
inductive CauseReason where
  | status | length | descriptor | changed | protection
deriving DecidableEq, Repr

/-- Reason codes (R63). -/
def reasonCode : CauseReason → Byte
  | .status => 0 | .length => 1 | .descriptor => 2 | .changed => 3 | .protection => 4

/-- The cause word of TARGET_REFUSED: status, request kind, reason, 0 from the low byte up (R63). -/
def causeWord (status kind : Byte) (reason : CauseReason) : Word :=
  BitVec.ofNat 32 (status.toNat + 256 * kind.toNat + 65536 * (reasonCode reason).toNat)

/-! ## Arguments of a slotted job -/

/-- The end action of a job, for the kinds that have one (Table 1-1). -/
def JobArgs.endAction? : JobArgs → Option EndAction
  | .program _ _ _ e _ _ _ => some e
  | .readout _ e _ _ _ _ => some e
  | .identify _ e _ => some e
  | .exchange _ e _ _ _ => some e
  | .laneSet _ => none
  | .laneAction _ => none

/-- The FRESH flag (Tables 6-1, 7-1). -/
def JobArgs.isFresh : JobArgs → Bool
  | .program _ f _ _ _ _ _ => f
  | .readout f _ _ _ _ _ => f
  | .identify f _ _ => f
  | .exchange f _ _ _ _ => f
  | .laneSet _ => false
  | .laneAction _ => false

/-- The key pointer, 0 for no key (Tables 6-1, 7-1). -/
def JobArgs.keyPointer : JobArgs → HostAddr
  | .program _ _ _ _ _ _ k => k
  | .readout _ _ _ k _ _ => k
  | .identify _ _ k => k
  | .exchange _ _ _ k _ => k
  | .laneSet _ => 0
  | .laneAction _ => 0

/-- A PROGRAM job with a descriptor pointer, or a READOUT job, takes an Image Context at grant (R9). -/
def JobArgs.needsContext : JobArgs → Bool
  | .program _ _ _ _ _ d _ => d ≠ 0
  | .readout .. => true
  | _ => false

/-! ## Intake of a job record -/

/-- Refusal reasons (Table 12-3). -/
inductive RefuseReason where
  | unknownKind | emptyMask | moreThanOneLane | noReportAddress | badSetting | badAction | zeroLength
  | emptyStepSet | imageRequired | refusedExchangeKind
deriving DecidableEq, Repr

/-- Reason codes (Table 12-3). -/
def refuseCode : RefuseReason → Half
  | .unknownKind => 1 | .emptyMask => 2 | .moreThanOneLane => 3 | .noReportAddress => 4 | .badSetting => 5
  | .badAction => 6 | .zeroLength => 7 | .emptyStepSet => 8 | .imageRequired => 9 | .refusedExchangeKind => 10

/-- What Job Intake makes of a record: refused, a CANCEL with its named tag, or a slotted job. -/
inductive Judged where
  | refused (reason : RefuseReason)
  | cancel (named : Word)
  | slotted (args : JobArgs)
deriving DecidableEq, Repr

/-- Tag of a record (Table 12-1). -/
def recordTag (r : List Byte) : Word := wordAt r 0

/-- Kind code of a record (Table 12-1). -/
def recordKind (r : List Byte) : Byte := byteAt r 4

/-- Lane mask of a record (Table 12-1). -/
def recordMask (r : List Byte) : LaneMask := byteAt r 5

/-- Report address of a record (Table 12-1). -/
def recordReport (r : List Byte) : HostAddr := hostAddrAt r 8

/-- End action codes (Table 12-1); 4 to 255 are no end action (R165). -/
def endActionOf (b : Byte) : Option EndAction :=
  if b = 0 then some .keep else if b = 1 then some .hold else if b = 2 then some .run
  else if b = 3 then some .off else none

/-- Action codes (Table 12-2); 5 to 255 are no action (R165). -/
def actionOf (b : Byte) : Option ActionCode :=
  if b = 0 then some .powerOn else if b = 1 then some .powerOff else if b = 2 then some .hold
  else if b = 3 then some .run else if b = 4 then some .clearFault else none

/-- Step set bits (Table 12-2); other bits are not read. -/
def stepSetOf (b : Byte) : StepSet :=
  { clear := b.getLsbD 0, write := b.getLsbD 1, check := b.getLsbD 2, sum := b.getLsbD 3, guard := b.getLsbD 4 }

/-- No step is in the set. -/
def StepSet.isEmpty (s : StepSet) : Bool := !(s.clear || s.write || s.check || s.sum || s.guard)

/-- Whether a mask holds more than one lane. -/
def moreThanOne (m : LaneMask) : Bool := m &&& (m - 1) ≠ 0

/-- The kinds that an EXCHANGE entry may carry (Table 4-6). -/
def exchangeKindPermitted (k : Byte) : Bool :=
  (0x03#8 ≤ k && k ≤ 0x08#8) || (0x10#8 ≤ k && k ≤ 0x7F#8)

/-- Every setting lies within its range in Table 2-2 (R21, R117). -/
def Settings.inRange (v : Settings) : Bool :=
  v.rateCode ≤ 5 && v.retryLimit ≤ 7 && (1 ≤ v.replyLimit && v.replyLimit ≤ 255)
  && (1 ≤ v.clearLimit && v.clearLimit ≤ 1023) && (1 ≤ v.writeLimit && v.writeLimit ≤ 255)
  && (1 ≤ v.sumLimit && v.sumLimit ≤ 255) && v.threshold ≤ 2
  && (1 ≤ v.powerUpLimit && v.powerUpLimit ≤ 255) && v.settleTime ≤ 255
  && (1 ≤ v.entryLimit && v.entryLimit ≤ 255) && (1 ≤ v.entryAttempts && v.entryAttempts ≤ 4)

/-- The twelve values of a LANE-SET record (Table 12-2): none when a value lies outside its range (R117, R165). -/
def settingsOf (r : List Byte) : Option Settings :=
  let policy := byteAt r 25
  let v : Settings :=
    { rateCode := fieldAt r 16 1, retryLimit := fieldAt r 17 1, replyLimit := fieldAt r 18 1,
      clearLimit := fieldAt r 20 2, writeLimit := fieldAt r 22 1, sumLimit := fieldAt r 23 1,
      threshold := fieldAt r 24 1, dropPolicy := if policy = 1 then .ride else .cut,
      powerUpLimit := fieldAt r 26 1, settleTime := fieldAt r 27 1, entryLimit := fieldAt r 28 1,
      entryAttempts := fieldAt r 29 1 }
  if (policy = 0 ∨ policy = 1) ∧ v.inRange then some v else none

/-- Entry `i` of an EXCHANGE record (Table 12-2). -/
def exchangeEntryAt (r : List Byte) (i : Nat) : ExchangeEntry :=
  { kind := byteAt r (36 + 6 * i), len := fieldAt r (38 + 6 * i) 2, busyMs := fieldAt r (40 + 6 * i) 2 }

/-- The entries of an EXCHANGE record, up to its entry count (R165). -/
def exchangeEntries (r : List Byte) : List ExchangeEntry :=
  (List.range (byteAt r 32).toNat).map (exchangeEntryAt r)

/-- The FRESH flag of a record (Table 12-1). -/
def recordFresh (r : List Byte) : Bool := (byteAt r 6).getLsbD 0

/-- The intake checks of a PROGRAM record (R98, Table 6-2). -/
def judgeProgram (r : List Byte) : Judged :=
  let steps := stepSetOf (byteAt r 32)
  let clearAll := (byteAt r 6).getLsbD 1
  let desc := hostAddrAt r 16
  if steps.isEmpty then .refused .emptyStepSet
  else match endActionOf (byteAt r 7) with
    | none => .refused .badAction
    | some e =>
      if steps.guard ∧ 3 < (byteAt r 33).toNat then .refused .badSetting
      else if desc = 0 ∧ (steps.write || steps.check || steps.sum || (steps.clear && !clearAll)) then
        .refused .imageRequired
      else .slotted (.program steps (recordFresh r) clearAll e (byteAt r 33).toNat desc (hostAddrAt r 24))

/-- The intake checks of a READOUT record (R117, Table 7-2). -/
def judgeReadout (r : List Byte) : Judged :=
  if moreThanOne (recordMask r) then .refused .moreThanOneLane
  else match endActionOf (byteAt r 7) with
    | none => .refused .badAction
    | some e =>
      if wordAt r 36 = 0 then .refused .zeroLength
      else .slotted (.readout (recordFresh r) e (hostAddrAt r 16) (hostAddrAt r 24) (wordAt r 32) (wordAt r 36))

/-- The intake checks of an IDENTIFY record (R117, Table 7-2). -/
def judgeIdentify (r : List Byte) : Judged :=
  match endActionOf (byteAt r 7) with
  | none => .refused .badAction
  | some e =>
    if recordReport r = 0 then .refused .noReportAddress
    else .slotted (.identify (recordFresh r) e (hostAddrAt r 24))

/-- The intake checks of an EXCHANGE record (R76, R117, Table 7-2): check 4 for every entry before check 5 for any. -/
def judgeExchange (r : List Byte) : Judged :=
  if moreThanOne (recordMask r) then .refused .moreThanOneLane
  else match endActionOf (byteAt r 7) with
    | none => .refused .badAction
    | some e =>
      let count := (byteAt r 32).toNat
      if count = 0 ∨ 4 < count then .refused .badSetting
      else
        let es := exchangeEntries r
        if es.any (fun x => !exchangeKindPermitted x.kind) then .refused .refusedExchangeKind
        else if es.any (fun x => decide (Config.maxPayload < x.len) || decide (x.busyMs = 0)) then
          .refused .badSetting
        else .slotted (.exchange (recordFresh r) e (hostAddrAt r 16) (hostAddrAt r 24) es)

/-- The intake check of a LANE-SET record (R117, Table 7-2). -/
def judgeLaneSet (r : List Byte) : Judged :=
  match settingsOf r with
  | none => .refused .badSetting
  | some v => .slotted (.laneSet v)

/-- The intake check of a LANE-ACTION record (R117, Table 7-2). -/
def judgeLaneAction (r : List Byte) : Judged :=
  match actionOf (byteAt r 16) with
  | none => .refused .badAction
  | some a => .slotted (.laneAction a)

/-- Job Intake's judgement of a record: the two common checks (R151), then the checks of its kind. -/
def judgeRecord (r : List Byte) : Judged :=
  let k := recordKind r
  if k = 0 ∨ 7 < k.toNat then .refused .unknownKind
  else if k = cancelKind then .cancel (wordAt r 16)
  else if recordMask r = 0 then .refused .emptyMask
  else if k = 1 then judgeProgram r
  else if k = 2 then judgeReadout r
  else if k = 3 then judgeIdentify r
  else if k = 4 then judgeExchange r
  else if k = 5 then judgeLaneSet r
  else judgeLaneAction r

/-! ## Setup block -/

/-- The job ring size in entries (Table 12-4). -/
def Geometry.jobSize (g : Geometry) : Nat := 2 ^ g.jobCode

/-- The completion ring size in entries (Table 12-4). -/
def Geometry.doneSize (g : Geometry) : Nat := 2 ^ g.doneCode

/-- The geometry a setup block gives (Table 12-4). -/
def geometryOf (b : List Byte) : Geometry :=
  { jobBase := hostAddrAt b 0, jobCode := fieldAt b 8 1, doneBase := hostAddrAt b 16, doneCode := fieldAt b 24 1 }

/-- The six checks of R148. -/
def Geometry.valid (g : Geometry) : Bool :=
  g.jobBase.toNat % 64 == 0 && (3 ≤ g.jobCode && g.jobCode ≤ 10)
  && g.doneBase.toNat % 32 == 0 && (3 ≤ g.doneCode && g.doneCode ≤ 10)
  && decide (g.jobBase.toNat + 64 * g.jobSize ≤ 2 ^ 64) && decide (g.doneBase.toNat + 32 * g.doneSize ≤ 2 ^ 64)

/-! ## Image descriptor -/

/-- Segment entry `i` of a segment table (Table 12-5). -/
def segmentAt (t : List Byte) (i : Nat) : Segment :=
  let o := 24 * i
  { addr := wordAt t o, len := wordAt t (o + 4), host := hostAddrAt t (o + 8),
    crc := if (byteAt t (o + 20)).getLsbD 0 then some (wordAt t (o + 16)) else none }

/-- The segments of a table of `n` entries. -/
def segmentsOf (t : List Byte) (n : Nat) : List Segment := (List.range n).map (segmentAt t)

/-- Checks 1 and 2 of Table 5-1. -/
def headerValid (count pageCode : Byte) : Bool :=
  1 ≤ count.toNat && count.toNat ≤ 32 && pageCode.toNat ≤ 2

/-- Checks 3 to 6 of Table 5-1 on one segment; `floor` is the end of the segment before it, 0 for the first. -/
def segmentValid (floor : Nat) (g : Segment) : Bool :=
  (1 ≤ g.len.toNat && g.len.toNat ≤ 16777216) && decide (g.addr.toNat + g.len.toNat ≤ 2 ^ 32)
  && decide (g.host.toNat + g.len.toNat ≤ 2 ^ 64) && decide (floor ≤ g.addr.toNat)

/-- The index of the first segment that fails a check (R79); `i` is the index of the list's head. -/
def firstBadSegment (floor i : Nat) : List Segment → Option Nat
  | [] => none
  | g :: gs => if segmentValid floor g then firstBadSegment (g.addr.toNat + g.len.toNat) (i + 1) gs else some i

/-! ## Target descriptor -/

/-- The 17 bytes of a QUERY reply (Table 12-12). -/
def targetDescOf (p : List Byte) : TargetDesc :=
  { device := wordAt p 0, base := wordAt p 4, size := wordAt p 8, pageCode := byteAt p 12, clearCode := byteAt p 13,
    maxRate := byteAt p 14, protection := byteAt p 15, keyRequired := byteAt p 16 }

/-- The 17 bytes of a descriptor in the order of the QUERY reply (R167). -/
def targetDescBytes (d : TargetDesc) : List Byte :=
  leBytes 4 d.device.toNat ++ leBytes 4 d.base.toNat ++ leBytes 4 d.size.toNat
  ++ [d.pageCode, d.clearCode, d.maxRate, d.protection, d.keyRequired]

/-- Page size of a code: 64, 128 or 256 bytes (Tables 4-4, 12-5). -/
def pageSize (code : Byte) : Nat := 64 * 2 ^ code.toNat

/-- Clear unit size of a code: 1, 2, 4 or 8 KiB (Table 4-4). -/
def unitSize (code : Byte) : Nat := 1024 * 2 ^ code.toNat

/-- The clear unit count of a target (R67). -/
def unitCount (d : TargetDesc) : Nat := d.size.toNat / unitSize d.clearCode

/-- The content checks of R67. -/
def TargetDesc.valid (d : TargetDesc) : Bool :=
  d.pageCode.toNat ≤ 2 && d.clearCode.toNat ≤ 3 && d.maxRate.toNat ≤ 5 && d.protection.toNat ≤ 3
  && d.keyRequired.toNat ≤ 1 && d.size ≠ 0 && d.size.toNat % unitSize d.clearCode == 0
  && d.base.toNat % unitSize d.clearCode == 0 && decide (d.base.toNat + d.size.toNat ≤ 2 ^ 32)
  && decide (unitCount d ≤ 65536)

/-- The fields that must not change over a rate fallback (R68). -/
def sameGeometry (a b : TargetDesc) : Bool :=
  a.base = b.base && a.size = b.size && a.pageCode = b.pageCode && a.clearCode = b.clearCode

/-! ## Records written to host memory -/

/-- A flag as a bit of a byte. -/
def bitByte (flag : Bool) (bit : Nat) : Nat := if flag then 2 ^ bit else 0

/-- The completion record of an entry with the marker and post count of its posting (Table 12-7, R166). -/
def completionRecord (e : Entry) (marker : Bool) (postCount : Half) : List Byte :=
  leBytes 4 e.tag.toNat
  ++ [e.kind, statusCode e.status,
      BitVec.ofNat 8 (bitByte marker 0 + bitByte e.reportWritten 1 + bitByte e.reportFailed 2 + bitByte e.fallback 3),
      e.requested, e.succeeded, e.failed, e.notRun, 0]
  ++ leBytes 2 e.detail.toNat ++ leBytes 2 postCount.toNat ++ leBytes 2 e.jobHead ++ leBytes 2 0
  ++ leBytes 4 e.targetTag.toNat ++ leBytes 8 0

/-- The report record of one lane (Table 12-9, R167). -/
def reportRecord (r : LaneReport) : List Byte :=
  match r.copy with
  | none => [BitVec.ofNat 8 r.lane.val, resultCode r.result, stepCode r.lastStep] ++ List.replicate 29 0
  | some c =>
    [BitVec.ofNat 8 r.lane.val, resultCode r.result, stepCode r.lastStep, BitVec.ofNat 8 c.retries,
      BitVec.ofNat 8 c.drops, BitVec.ofNat 8 c.rate,
      BitVec.ofNat 8 (bitByte c.desc.isSome 0 + bitByte c.faultAddr.isSome 1 + bitByte c.fallback 2),
      BitVec.ofNat 8 c.sumsSkipped]
    ++ leBytes 4 (c.faultAddr.getD 0).toNat
    ++ (match c.desc with | some d => targetDescBytes d | none => List.replicate 17 0)
    ++ List.replicate 3 0

/-- The address of entry `i`'s section of the exchange block (R123). -/
def exchangeSection (block : HostAddr) (i : Nat) : HostAddr := addrPlus block (544 * i)

/-- The address of entry `i`'s reply area (Table 12-6). -/
def exchangeReplyArea (block : HostAddr) (i : Nat) : HostAddr := addrPlus block (544 * i + 272)

end Sys2Proof.Machine
end

