-- ==== Sys2Proof/Machine/Timing.lean ====
section
/-! DEFINITION. Times in REFCLK cycles, 48 a microsecond (00, Time; R44, Table 3-1). -/

namespace Sys2Proof.Machine

/-- REFCLK cycles in one microsecond: REFCLK is 48 MHz. -/
def microsecond : Nat := 48

/-- REFCLK cycles in `n` milliseconds. -/
def ms (n : Nat) : Nat := n * 48000

/-- The bit time of a rate code in REFCLK cycles: its divider (Table 3-1). -/
def bitTime : Nat → Nat
  | 0 => 417
  | 1 => 192
  | 2 => 96
  | 3 => 48
  | 4 => 24
  | _ => 16

/-- A new level has persisted for 3/16 of a bit time (R45). -/
def passesGlitchFilter (rate stood : Nat) : Bool := 3 * bitTime rate ≤ 16 * stood

/-- 20 bit times: a low that lasts longer is a busy hold (R46). -/
def busyHoldTime (rate : Nat) : Nat := 20 * bitTime rate

/-- The presence pulse is a low of at least 20 bit times at rate 0 (R28). -/
def presenceTime : Nat := 20 * bitTime 0

/-- 40 bit times: the longest gap in a frame (R54) and the quiet line before a resend (R55). -/
def quietTime (rate : Nat) : Nat := 40 * bitTime rate

/-- A comparator level that has persisted this many microseconds is taken (R139). -/
def qualifyTime : Nat := 20

/-- The hold interval of a NOTIFY hold code in microseconds (R156); code 0 is no hold rule. -/
def holdInterval (code : BitVec 2) : Option Nat :=
  if code = 0 then none
  else if code = 1 then some 50
  else if code = 2 then some 200
  else some 1000

end Sys2Proof.Machine
end

