-- ==== Sys2Proof/Machine/Ops.lean ====
section
/-! DEFINITION. The shared operations on the tables and on one lane: reading and writing a table entry, what
drives a lane's lines, what ends a session, and the lane states that these give (Table 2-3). -/

namespace Sys2Proof.Machine

/-! ## Table entries -/

def Work.lane (w : Work) (n : LaneId) : Lane := w.lanes.get n
def Work.setLane (w : Work) (n : LaneId) (l : Lane) : Work := { w with lanes := vset w.lanes n l }
def Work.modLane (w : Work) (n : LaneId) (f : Lane → Lane) : Work := w.setLane n (f (w.lane n))

def Work.slot (w : Work) (i : SlotId) : Option JobSlot := w.slots.get i
def Work.setSlot (w : Work) (i : SlotId) (j : Option JobSlot) : Work := { w with slots := vset w.slots i j }

/-- Changes an occupied slot; a free slot stays free. -/
def Work.modSlot (w : Work) (i : SlotId) (f : JobSlot → JobSlot) : Work := w.setSlot i ((w.slot i).map f)

def Work.ctx (w : Work) (c : CtxId) : ImageCtx := w.ctxs.get c
def Work.setCtx (w : Work) (c : CtxId) (x : ImageCtx) : Work := { w with ctxs := vset w.ctxs c x }
def Work.modCtx (w : Work) (c : CtxId) (f : ImageCtx → ImageCtx) : Work := w.setCtx c (f (w.ctx c))

def Work.buf (w : Work) (b : BufId) : PageBuf := w.pool.get b
def Work.setBuf (w : Work) (b : BufId) (p : PageBuf) : Work := { w with pool := vset w.pool b p }
def Work.modBuf (w : Work) (b : BufId) (f : PageBuf → PageBuf) : Work := w.setBuf b (f (w.buf b))

/-- The slot whose job owns lane `n` (R4). -/
def Work.ownerOf (w : Work) (n : LaneId) : Option SlotId := w.owner.get n
def Work.setOwner (w : Work) (n : LaneId) (o : Option SlotId) : Work := { w with owner := vset w.owner n o }

/-- The job that owns lane `n`, by the Lane Context's owning slot (R4, R20). -/
def Work.jobOf (w : Work) (n : LaneId) : Option JobSlot := (w.lane n).ctx.slot.bind w.slot

/-- Lane `n` is live: it still works for its job (R2, R11). -/
def Work.isLive (w : Work) (n : LaneId) : Bool :=
  match w.jobOf n with
  | some j => hasLane j.live n
  | none => false

/-- The lanes of a mask in ascending order. -/
def lanesIn (m : LaneMask) : List LaneId := Config.allLanes.filter (hasLane m)

/-- Does `f` for the lanes of a list, one after another. -/
def Work.forLanes (w : Work) (ns : List LaneId) (f : Work → LaneId → Work) : Work := ns.foldl f w

/-- What the blocks behind `Work` read of the rest of the part: the part state (R19, R96), JOB_HEAD (R17) and the
time. -/
structure Env where
  part : PartState
  jobHead : Nat
  clock : Nat
deriving DecidableEq, Repr

/-- The part states in which the Job Table, the Image Reader and the Page Pool act (R19, R96). -/
def PartState.acts : PartState → Bool
  | .loading | .running | .quiescing | .quiesced => true
  | .disabled | .halted | .draining => false

/-- The Job Table acts (R19). -/
def Env.acting (e : Env) : Bool := e.part.acts

/-- Increments a count that stops at 255 (R20). -/
def saturate (k : Nat) : Nat := if k < 255 then k + 1 else k

/-! ## One lane: session, lines and states -/

/-- A session ends (R34): CLOSED, no descriptor, trial flag clear, rate 0. -/
def Lane.endSession (l : Lane) : Lane :=
  { l with ctx := { l.ctx with session := false, desc := none, trial := false, rate := 0 } }

/-- TRST is driven low, which ends the session (R34). -/
def Lane.driveTrstLow (l : Lane) : Lane :=
  { l.endSession with lines := { l.lines with trstLow := true } }

/-- The lane reaches HOLD: TRST low, TSEL released, no session (Table 2-3). -/
def Lane.toHold (l : Lane) : Lane :=
  let l := l.driveTrstLow
  { l with ctx := { l.ctx with state := .hold }, lines := { l.lines with tselLow := false },
           eng := { l.eng with phase := .none, held := none } }

/-- TPWR is switched off: the session ends and the Supply Monitor is UNPOWERED with level BELOW and no timer, which
also ends a ride window (R34, R138, R142, R145). -/
def Lane.supplyOff (l : Lane) : Lane :=
  let l := l.endSession
  { l with lines := { l.lines with tpwrOn := false },
           supply := { l.supply with state := .unpowered, powerUp := none, settle := none, ride := none,
                                     level := .below } }

/-- The lane reaches OFF: TRST low, TPWR off (Table 2-3); a lane that leaves FAULT so has no fault cause left (R40). -/
def Lane.toOff (l : Lane) : Lane :=
  let l := l.toHold.supplyOff
  { l with ctx := { l.ctx with state := .off, faultCause := none } }

/-- The lane enters FAULT: TRST low, TSEL released, no session, the cause kept (Tables 2-3, 2-5), and a relinking is over
(R32). The supply is as it stands. -/
def Lane.enterFault (cause : LaneResult) (l : Lane) : Lane :=
  let l := l.toHold
  { l with ctx := { l.ctx with state := .fault, faultCause := some cause, fallbackCopy := none } }

/-- CLEAR_FAULT on a lane in FAULT (R40): HOLD if the supply is on and good, otherwise OFF. -/
def Lane.clearFault (l : Lane) : Lane :=
  if l.lines.tpwrOn ∧ l.supply.state = .good then
    let l := l.toHold
    { l with ctx := { l.ctx with faultCause := none } }
  else l.toOff

/-- A ride window runs on the lane (R144). -/
def Lane.riding (l : Lane) : Bool := l.supply.state = .riding

/-- TPWR is switched on (R25, R140): POWERING, the threshold latched, the power-up limit started, RISING. -/
def Lane.powerUp (env : Env) (l : Lane) : Lane :=
  { l with
    ctx := { l.ctx with state := .powering }
    lines := { l.lines with tpwrOn := true, trstLow := true, tselLow := false }
    supply := { l.supply with state := .rising, threshold := l.settings.threshold,
                              powerUp := some (env.clock + ms l.settings.powerUpLimit) } }

/-- The start of an entry sequence (R27), but for its first attempt and the step: no attempt used, no session, the
fallback flag as given (set at a fallback re-entry, otherwise clear). -/
def Lane.startEntry (fallback : Bool) (l : Lane) : Lane :=
  let l := l.driveTrstLow
  { l with ctx := { l.ctx with attempts := 0, fallback := fallback } }

/-- An entry attempt's select phase (R27): ENTRY, TSEL and TRST low for 1 ms. -/
def Lane.selectPhase (env : Env) (l : Lane) : Lane :=
  { l with
    ctx := { l.ctx with state := .entry, attempts := l.ctx.attempts + 1 }
    lines := { l.lines with trstLow := true, tselLow := true }
    eng := { l.eng with phase := .select (env.clock + ms 1), held := none } }

/-- The presence phase (R27): TRST released, now (R28), TSEL low, the entry limit started. -/
def Lane.presencePhase (env : Env) (l : Lane) : Lane :=
  { l with
    lines := { l.lines with trstLow := false }
    eng := { l.eng with phase := .presence env.clock (env.clock + ms l.settings.entryLimit), held := none } }

/-- The 1 ms of TRST low before the next entry attempt (R29) or before a fallback re-entry (R32): ENTRY, TSEL
released. -/
def Lane.entryReset (env : Env) (l : Lane) : Lane :=
  let l := l.toHold
  { l with ctx := { l.ctx with state := .entry }, eng := { l.eng with phase := .reset (env.clock + ms 1) } }

/-- The reset pulse of RUN (R37, R39): HOLD with TRST low for 1 ms. -/
def Lane.startPulse (env : Env) (l : Lane) : Lane :=
  let l := l.toHold
  { l with eng := { l.eng with phase := .pulse (env.clock + ms 1) } }

/-- The end of the reset pulse: TRST released, RUN (R37, R39). -/
def Lane.releasePulse (l : Lane) : Lane :=
  { l with ctx := { l.ctx with state := .run }, lines := { l.lines with trstLow := false },
           eng := { l.eng with phase := .none, held := none } }

/-! ## One lane: the end of an exchange -/

/-- An exchange ends (R57, R58): the Link Unit is IDLE with its record clear, TDAT is released, the sequence number
advances, and the last exchange answered field is set. -/
def Lane.closeExchange (answered : Bool) (l : Lane) : Lane :=
  { l with
    ctx := { l.ctx with seq := l.ctx.seq + 1, answered := answered }
    link := .idle
    lines := { l.lines with tdatDriven := false } }

/-- An exchange is abandoned (R60); nothing changes on a lane with no exchange. -/
def Lane.abandon (l : Lane) : Lane := if l.link.state = .idle then l else l.closeExchange false

/-- A cut (R142): the exchange abandoned, TRST low, TSEL released, TPWR off, FAULT with SUPPLY_DROP. -/
def Lane.cut (l : Lane) : Lane := (l.abandon.enterFault .supplyDrop).supplyOff

/-- The link carries no request (R50). -/
def Lane.linkIdle (l : Lane) : Bool := l.link.state = .idle

/-- The lane is at a request boundary: no request outstanding and no host transfer in flight (R121, R134). -/
def Lane.atBoundary (l : Lane) : Bool := l.linkIdle && l.eng.xfer.isNone

/-- Marks the lane to stop at its next request boundary; the first cause to arrive stays (R135). -/
def Lane.markStop (cause : StopCause) (l : Lane) : Lane :=
  match l.eng.stop with
  | none => { l with eng := { l.eng with stop := some cause } }
  | some _ => l

/-- The result that ends the lane when it reaches a request boundary: the one that waits there (R121), or that of
its stop (R94, R135). -/
def Lane.stopResult (l : Lane) : Option (LaneResult × Option Word) :=
  match l.eng.due with
  | some d => some d
  | none => match l.eng.stop with
    | some .cancel => some (.cancelled, none)
    | some .imageError => some (.imageReadError, none)
    | none => none

/-- The lane rests in HOLD without CLOSE after a halt or in the drain (R42, R161): TRST low, TSEL released; OFF, RUN,
FAULT and a power-up under way are left as they are. A relinking that it ends leaves no fallback copy (R32). -/
def Lane.rest (l : Lane) : Lane :=
  match l.ctx.state with
  | .entry | .linking | .ready | .active | .hold =>
    let l := l.toHold
    { l with ctx := { l.ctx with fallbackCopy := none } }
  | .off | .powering | .settling | .run | .fault => l

end Sys2Proof.Machine
end

