-- ==== Sys2Proof/Machine/Flags.lean ====
section
/-! DEFINITION. The part's flags and the registers as they read: unreleased count and IRQ_N (R154, R156), MISUSE (R157),
the FAULT lane mask (R40), CONTROL and STATUS (R159), and the register window (R168, Table 12-13). -/

namespace Sys2Proof.Machine

/-- The size of the completion ring, 0 with no geometry latched. -/
def Rings.doneSize (r : Rings) : Nat := r.geom.elim 0 Geometry.doneSize

/-- The size of the job ring, 0 with no geometry latched. -/
def Rings.jobSize (r : Rings) : Nat := r.geom.elim 0 Geometry.jobSize

/-- `a` minus `b` modulo `m`. -/
def subMod (a b m : Nat) : Nat := (a + (m - b % m)) % m

/-- The unreleased count (R154): the write index minus DONE_HEAD, modulo size. -/
def Rings.unreleased (r : Rings) : Nat := subMod r.writeIdx r.doneHead r.doneSize

/-- The 1 microsecond timebase (R154). -/
def State.timebase (s : State) : Nat := s.clock / microsecond

/-- The hold rule of R156: a hold code, an unreleased entry, and the oldest one posted longer ago than the interval. -/
def State.holdRule (s : State) : Bool :=
  match holdInterval s.regs.holdCode, s.rings.postTimes.head? with
  | some interval, some t => decide (1 ≤ s.rings.unreleased) && decide (interval < s.timebase - t)
  | _, _ => false

/-- The condition under which IRQ_N is low (R156). -/
def State.irqCondition (s : State) : Bool :=
  s.part.state = .halted
    || (s.regs.notifyEnable && (decide (s.regs.threshold.toNat ≤ s.rings.unreleased) || s.holdRule))

/-- IRQ_N follows its condition (R156). -/
def State.refreshIrq (s : State) : State := { s with irqHigh := !s.irqCondition }

/-- MISUSE is set (R157). -/
def State.setMisuse (s : State) : State := { s with regs := { s.regs with misuse := true } }

/-- The FAULT lane mask of STATUS (R40): the lanes in FAULT. -/
def Work.faultMask (w : Work) : LaneMask :=
  Config.allLanes.foldl (fun m n => if (w.lane n).ctx.state = .fault then addLane m n else m) 0

/-- STATUS as it reads (R159, Table 12-13). -/
def State.status (s : State) : Word :=
  BitVec.ofNat 32 (partStateCode s.part.state + 16 * fatalCode s.part.fatal + 256 * causeCode s.part.cause
    + bitByte s.regs.misuse 12 + 65536 * s.work.faultMask.toNat)

/-- CONTROL as it reads (R159): QUIESCE while QUIESCING or QUIESCED. -/
def State.control (s : State) : Word :=
  if s.part.state = .quiescing ∨ s.part.state = .quiesced then 2 else 0

/-- NOTIFY as it reads (R156, Table 12-13). -/
def Regs.notify (r : Regs) : Word :=
  BitVec.ofNat 32 (bitByte r.notifyEnable 0 + 256 * r.threshold.toNat + 65536 * r.holdCode.toNat)

/-- A read of the register window (R168): the current fields, 0 at an offset that names no register. A read changes
nothing. -/
def State.readRegister (s : State) (offset : BitVec 5) : Word :=
  if offset = Config.offControl then s.control
  else if offset = Config.offStatus then s.status
  else if offset = Config.offSetupLo then s.regs.setupLo
  else if offset = Config.offSetupHi then s.regs.setupHi
  else if offset = Config.offJobTail then BitVec.ofNat 32 s.rings.jobTail
  else if offset = Config.offJobHead then BitVec.ofNat 32 s.rings.jobHead
  else if offset = Config.offDoneHead then BitVec.ofNat 32 s.rings.doneHead
  else if offset = Config.offNotify then s.regs.notify
  else 0

end Sys2Proof.Machine
end

