-- ==== Sys2Proof/Machine/Crc.lean ====
section
/-! DEFINITION. The two checks of the part: CRC-16 over link frames (R49) and CRC-32 over image segments and
target memory (R73). -/

namespace Sys2Proof.Machine

/-- One left shift of the CRC-16 register (R49). -/
def crc16Shift (r : Half) : Half := if r.msb then (r <<< 1) ^^^ 0x1021#16 else r <<< 1

/-- `n` left shifts of the CRC-16 register. -/
def crc16Shifts : Nat → Half → Half
  | 0, r => r
  | n + 1, r => crc16Shifts n (crc16Shift r)

/-- The CRC-16 register after one byte: the byte into the upper eight bits, then eight shifts (R49). -/
def crc16Byte (r : Half) (b : Byte) : Half := crc16Shifts 8 (r ^^^ (b.setWidth 16 <<< 8))

/-- The CRC-16 of a list of bytes, initial value 0xFFFF (R49). -/
def crc16 (bs : List Byte) : Half := bs.foldl crc16Byte 0xFFFF#16

/-- One right shift of the CRC-32 register (R73). -/
def crc32Shift (r : Word) : Word := if r.getLsbD 0 then (r >>> 1) ^^^ 0xEDB88320#32 else r >>> 1

/-- `n` right shifts of the CRC-32 register. -/
def crc32Shifts : Nat → Word → Word
  | 0, r => r
  | n + 1, r => crc32Shifts n (crc32Shift r)

/-- The CRC-32 register after one byte (R73). -/
def crc32Byte (r : Word) (b : Byte) : Word := crc32Shifts 8 (r ^^^ b.setWidth 32)

/-- The CRC-32 register after a list of bytes. -/
def crc32Bytes (r : Word) (bs : List Byte) : Word := bs.foldl crc32Byte r

/-- The initial value of the CRC-32 register (R73). -/
def crc32Init : Word := 0xFFFFFFFF#32

/-- The CRC-32 of a list of bytes: initial value 0xFFFFFFFF, result inverted (R73). -/
def crc32 (bs : List Byte) : Word := ~~~(crc32Bytes crc32Init bs)

end Sys2Proof.Machine
end

