-- ==== Sys2Proof/Machine/Pool.lean ====
section
/-! DEFINITION. The Image Reader's pages and the Page Pool (chapter 5): the page list, page assembly, the segment
CRC-32 values, buffers and their reference counts, passes and their ends. -/

namespace Sys2Proof.Machine

/-! ## The page list (R83) -/

/-- One past the last target byte of a segment. -/
def Segment.stop (g : Segment) : Nat := g.addr.toNat + g.len.toNat

/-- The first page of the list: the page with the first byte of segment 0. -/
def firstPage (segs : List Segment) (size : Nat) : Option Nat :=
  segs.head?.map (fun g => roundDown g.addr.toNat size)

/-- The page after `p`: `p + size` if it contains a segment byte, otherwise the page of the next segment above. -/
def pageAfter (segs : List Segment) (size p : Nat) : Option Nat :=
  (segs.find? (fun g => p + size < g.stop)).map (fun g => max (p + size) (roundDown g.addr.toNat size))

/-- The image page size of a context (R80). -/
def ImageCtx.size (x : ImageCtx) : Nat := pageSize x.pageCode

/-- The page at a cursor. -/
def ImageCtx.pageAt (x : ImageCtx) : Cursor → Option Nat
  | .start => firstPage x.segs x.size
  | .at p => some p
  | .past => none

/-- The cursor moved to the next page of the list (R89). -/
def ImageCtx.advance (x : ImageCtx) (c : Cursor) : Cursor :=
  match x.pageAt c with
  | none => .past
  | some p => match pageAfter x.segs x.size p with
    | some q => .at q
    | none => .past

/-- The page `p` is at or above the cursor (R90). -/
def Cursor.reaches (p : Nat) : Cursor → Bool
  | .start => true
  | .at q => q ≤ p
  | .past => false

/-! ## Page assembly and segment CRC values (R84, R85) -/

/-- The bytes of one segment in one page: the segment, their host address, their offset in the page, how many, and
whether they end the segment. -/
structure Piece where
  seg : Nat
  host : HostAddr
  offset : Nat
  len : Nat
  last : Bool
deriving DecidableEq, Repr

/-- The pieces of page `p`, segment by segment; `i` is the index of the list's head. -/
def piecesFrom (size p i : Nat) : List Segment → List Piece
  | [] => []
  | g :: gs =>
    let lo := max p g.addr.toNat
    let hi := min (p + size) g.stop
    let rest := piecesFrom size p (i + 1) gs
    if lo < hi then
      { seg := i, host := addrPlus g.host (lo - g.addr.toNat), offset := lo - p, len := hi - lo,
        last := decide (hi = g.stop) } :: rest
    else rest

/-- The pieces of page `p` of the context's image, in ascending target order. -/
def ImageCtx.pieces (x : ImageCtx) (p : Nat) : List Piece := piecesFrom x.size p 0 x.segs

/-- The reads of the fetch of page `p`, in ascending target order (R84). -/
def ImageCtx.reads (x : ImageCtx) (p : Nat) : List PageRead :=
  (x.pieces p).map (fun q => { addr := q.host, len := q.len, offset := q.offset })

/-- The running CRC takes in one piece; at a segment's last byte it is inverted into the computed list and starts
again (R85). -/
def ImageCtx.takePiece (data : List Byte) (x : ImageCtx) (q : Piece) : ImageCtx :=
  let reg := crc32Bytes x.crcReg (slice data q.offset q.len)
  if q.last then
    { x with crcReg := crc32Init, crcSeg := q.seg + 1, computed := x.computed.set q.seg (some (~~~reg)) }
  else { x with crcReg := reg, crcSeg := q.seg }

/-- The running CRC takes in the segment bytes of an assembled page (R85). -/
def ImageCtx.takePage (x : ImageCtx) (p : Nat) (data : List Byte) : ImageCtx :=
  (x.pieces p).foldl (fun x q => x.takePiece data q) x

/-! ## Buffers (R86, R87, R90) -/

/-- The floor buffers of context `c`: 2c and 2c + 1 (R86). -/
def floorA (c : CtxId) : BufId := ⟨2 * c.val, by have := c.isLt; omega⟩
def floorB (c : CtxId) : BufId := ⟨2 * c.val + 1, by have := c.isLt; omega⟩

/-- A buffer is one of the 32 shared buffers (R86). -/
def isShared (b : BufId) : Bool := Config.firstShared ≤ b.val

/-- A buffer is FREE. -/
def Work.bufFree (w : Work) (b : BufId) : Bool := (w.buf b).state = .free

/-- The buffer the Image Reader takes for a context (R87): a FREE floor buffer, 2c first, or the lowest-numbered FREE
shared buffer while fewer than 14 are held. -/
def Work.availableBuf (w : Work) (c : CtxId) : Option BufId :=
  if w.bufFree (floorA c) then some (floorA c)
  else if w.bufFree (floorB c) then some (floorB c)
  else if (w.ctx c).sharedHeld < Config.sharedLimit then
    Config.allBufs.find? (fun b => isShared b && w.bufFree b)
  else none

/-- A buffer is freed (R86): a shared one lowers its context's count (R87), a FILLING one voids its fetch (R90). -/
def Work.freeBuf (w : Work) (b : BufId) : Work :=
  let p := w.buf b
  let w := w.setBuf b .free
  match p.owner with
  | none => w
  | some c =>
    w.modCtx c (fun x =>
      { x with sharedHeld := if isShared b then x.sharedHeld - 1 else x.sharedHeld,
               fetch := if x.fetch.map Fetch.buf = some b then none else x.fetch })

/-- A lane's claim on a buffer ends: the count falls by one and the buffer is freed at 0 (R86, R89, R90). -/
def Work.releaseBuf (w : Work) (b : BufId) : Work :=
  let p := w.buf b
  if p.count ≤ 1 then w.freeBuf b else w.setBuf b { p with count := p.count - 1 }

/-- The buffers that a context holds. -/
def Work.bufsOf (w : Work) (c : CtxId) : List BufId :=
  Config.allBufs.filter (fun b => (w.buf b).owner = some c && !w.bufFree b)

/-- The buffer that holds page `p` of a context, whole (HELD). -/
def Work.heldPage (w : Work) (c : CtxId) (p : Nat) : Option BufId :=
  (w.bufsOf c).find? (fun b => (w.buf b).state = .held && (w.buf b).page = p)

/-- Frees both floor buffers of a context, whatever their state (R119). -/
def Work.freeFloors (w : Work) (c : CtxId) : Work := (w.freeBuf (floorA c)).freeBuf (floorB c)

/-! ## Steps of a lane as the Job Table records them -/

/-- The lane begins a step, and the Job Table writes it as the lane's last step while the lane is live (R11). -/
def Work.setStep (w : Work) (n : LaneId) (st : Step) : Work :=
  let w := w.modLane n (fun l => { l with ctx := { l.ctx with step := st, stepPos := none } })
  match (w.lane n).ctx.slot with
  | none => w
  | some i => w.modSlot i (fun j =>
      if hasLane j.live n then { j with lastSteps := vset j.lastSteps n st } else j)

/-! ## Passes (R90 to R93) -/

/-- The live lanes of the job that holds a context. -/
def Work.ctxLive (w : Work) (c : CtxId) : LaneMask :=
  match (w.ctx c).slot.bind w.slot with
  | some j => j.live
  | none => 0

/-- A pass begins (R91): the live lanes are its lane set, the first page of the list is next, and their cursors stand
at it. A pass stops being due when it begins (DESIGN CHOICE, log entry 44). -/
def Work.beginPass (w : Work) (c : CtxId) (p : Pass) : Work :=
  let live := w.ctxLive c
  let w := w.modCtx c (fun x =>
    { x with state := (match p with | .write => .writePass | .check => .checkPass), passLanes := live,
             nextPage := firstPage x.segs x.size,
             writeDue := (match p with | .write => false | .check => x.writeDue),
             checkDue := (match p with | .write => x.checkDue | .check => false) })
  w.forLanes (lanesIn live) (fun w n => w.modLane n (fun l => { l with ctx := { l.ctx with cursor := .start } }))

/-- No pass runs or is still due: IDLE (R82). -/
def ImageCtx.passesOver (x : ImageCtx) : ImageCtx :=
  { x with state := .idle, writeDue := false, checkDue := false, nextPage := none }

/-- A pass ends because its lane set is empty (R93). A WRITE pass is followed by the CHECK pass when that is due and the
job has a live lane, and every live lane takes CHECK as its step (R92), in a ride window too (DESIGN CHOICE, log entry
38). Otherwise the context is IDLE, with no pass due (R82) and no next page (DESIGN CHOICE, log entry 44). A STOPPED
context stays STOPPED. -/
def Work.endPass (w : Work) (c : CtxId) : Work :=
  match (w.ctx c).state with
  | .writePass =>
    if (w.ctx c).checkDue ∧ w.ctxLive c ≠ 0 then
      let w := w.beginPass c .check
      w.forLanes (lanesIn (w.ctxLive c)) (fun w n => w.setStep n .check)
    else w.modCtx c ImageCtx.passesOver
  | .checkPass => w.modCtx c ImageCtx.passesOver
  | .free | .descriptor | .idle | .stopped | .readout => w

/-- Lane `n` is taken out of a context's pass lane set, and the pass ends if it was the last (R90, R93). -/
def Work.dropFromPass (w : Work) (c : CtxId) (n : LaneId) : Work :=
  if hasLane (w.ctx c).passLanes n then
    let w := w.modCtx c (fun x => { x with passLanes := dropLane x.passLanes n })
    if (w.ctx c).passLanes = 0 then w.endPass c else w
  else w

/-- A lane whose result became final leaves its pass (R90): every buffer of the pass at or above its cursor loses its
claim, then it leaves the lane set. -/
def Work.passLeave (w : Work) (c : CtxId) (n : LaneId) : Work :=
  if hasLane (w.ctx c).passLanes n then
    let cur := (w.lane n).ctx.cursor
    let bufs := (w.bufsOf c).filter (fun b => cur.reaches (w.buf b).page)
    (bufs.foldl Work.releaseBuf w).dropFromPass c n
  else w

/-- Lane `n` consumes the page at its cursor (R89): the buffer loses its claim and the cursor moves on. -/
def Work.consumePage (w : Work) (c : CtxId) (n : LaneId) : Work :=
  let x := w.ctx c
  let cur := (w.lane n).ctx.cursor
  let w := match (x.pageAt cur).bind (w.heldPage c) with
    | some b => w.releaseBuf b
    | none => w
  w.modLane n (fun l => { l with ctx := { l.ctx with cursor := x.advance cur } })

/-! ## Fetches (R88, R95) -/

/-- The number of lanes of a mask. -/
def laneCount (m : LaneMask) : Nat := (lanesIn m).length

/-- The job of a context has a cancel link, so no page fetch is begun for it (R133). -/
def Work.ctxCancelled (w : Work) (c : CtxId) : Bool :=
  match (w.ctx c).slot.bind w.slot with
  | some j => j.cancelLink.isSome
  | none => false

/-- A context has a page fetch to make (R95): a pass runs, a next page is present, no fetch is in flight, a buffer is
available, and its job is not cancelled. -/
def Work.fetchWork (w : Work) (c : CtxId) : Bool :=
  let x := w.ctx c
  (x.state = .writePass || x.state = .checkPass) && x.nextPage.isSome && x.fetch.isNone
  && (w.availableBuf c).isSome && !w.ctxCancelled c

/-- A context has a part of its descriptor to be read (R95). -/
def Work.descWork (w : Work) (c : CtxId) : Bool :=
  (w.ctx c).state = .descriptor && (w.ctx c).descDue.isSome

/-- A page fetch starts (R88): the buffer becomes FILLING with the fill bytes of the page (R84), counted for the
lanes of the pass, and the next page advances. -/
def Work.startFetch (w : Work) (c : CtxId) (b : BufId) (p : Nat) : Work :=
  let x := w.ctx c
  let w := w.setBuf b
    { state := .filling, owner := some c, pass := if x.state = .checkPass then .check else .write, page := p,
      count := laneCount x.passLanes, data := List.replicate x.size x.fill }
  w.setCtx c
    { x with fetch := some { buf := b, page := p }, nextPage := pageAfter x.segs x.size p,
             sharedHeld := if isShared b then x.sharedHeld + 1 else x.sharedHeld }

/-- A fetch is complete (R88): the buffer is HELD, and in the WRITE pass the running CRC advances (R85). -/
def Work.fetchDone (w : Work) (c : CtxId) (f : Fetch) : Work :=
  let w := w.modBuf f.buf (fun p => { p with state := .held })
  let data := (w.buf f.buf).data
  w.modCtx c (fun x =>
    let x := { x with fetch := none }
    if x.state = .writePass then x.takePage f.page data else x)

/-- A context is returned by the Job Table (R9, R81): all its fields take their FREE values. -/
def Work.returnCtx (w : Work) (c : CtxId) : Work := w.setCtx c .free

end Sys2Proof.Machine
end

