-- ==== Sys2Proof/Machine/JobTable.lean ====
section
/-! DEFINITION. The Job Table (chapter 1): job outcome, completion entries, final lane results, and lanes leaving
their job. -/

namespace Sys2Proof.Machine

/-! ## Job outcome (R15, R16, R18) -/

/-- The requested lanes whose result satisfies `p`, as a mask. -/
def JobSlot.lanesWith (j : JobSlot) (p : LaneResult → Bool) : LaneMask :=
  (lanesIn j.mask).foldl (fun m n => match j.results.get n with
    | some r => if p r then addLane m n else m
    | none => m) 0

/-- The masks of R16. -/
def JobSlot.succeeded (j : JobSlot) : LaneMask := j.lanesWith (fun r => r = .done)
def JobSlot.notRun (j : JobSlot) : LaneMask := j.lanesWith (fun r => r = .notRun)
def JobSlot.failed (j : JobSlot) : LaneMask := j.lanesWith (fun r => r ≠ .done ∧ r ≠ .notRun)

/-- The status of a completing job: the first row of Table 1-6 that holds (R15). A job removed while WAITING is given
its cancel link before it is formed. -/
def JobSlot.status (j : JobSlot) : JobStatus :=
  if j.cancelLink.isSome then .cancelled
  else match j.imageFail with
    | some (.invalid _) => .imageInvalid
    | some .unreadable => .imageUnreadable
    | none =>
      if j.succeeded = j.mask then .ok
      else if j.succeeded ≠ 0 then .partialDone
      else .failed

/-- The detail of a completing job (R18). -/
def JobSlot.detail (j : JobSlot) : Half :=
  match j.status with
  | .partialDone | .failed =>
    match lanesIn j.failed with
    | [] => 0
    | n :: _ => BitVec.ofNat 16 (n.val + 256 * ((j.results.get n).elim 0 (fun r => (resultCode r).toNat)))
  | .imageInvalid =>
    match j.imageFail with
    | some (.invalid d) => d.setWidth 16
    | _ => 0
  | _ => 0

/-- One requested lane of a completion entry (R17). -/
def JobSlot.report (j : JobSlot) (n : LaneId) : LaneReport :=
  { lane := n, result := (j.results.get n).getD .notRun, lastStep := j.lastSteps.get n, copy := j.copies.get n }

/-- The rate fallback flag of a completing job (R18). -/
def JobSlot.fellBack (j : JobSlot) : Bool :=
  (lanesIn j.mask).any (fun n => match j.copies.get n with | some c => c.fallback | none => false)

/-- The completion entry of a completing job (R17); `jobHead` is JOB_HEAD at forming. -/
def JobSlot.entry (j : JobSlot) (jobHead : Nat) : Entry :=
  { tag := j.tag, kind := kindCode j.args, adm := j.adm, status := j.status, requested := j.mask,
    succeeded := j.succeeded, failed := j.failed, notRun := j.notRun, detail := j.detail, jobHead := jobHead,
    targetTag := 0, fallback := j.fellBack, reportAddr := j.reportAddr,
    lanes := (lanesIn j.mask).map j.report, reportWritten := false, reportFailed := false }

/-- The entry of a CANCEL (R131, R137): empty masks, the named tag as target tag. -/
def cancelEntry (tag adm named : Word) (status : JobStatus) (detail : Half) (jobHead : Nat) : Entry :=
  { tag := tag, kind := cancelKind, adm := adm, status := status, requested := 0, succeeded := 0, failed := 0,
    notRun := 0, detail := detail, jobHead := jobHead, targetTag := named, fallback := false, reportAddr := 0,
    lanes := [], reportWritten := false, reportFailed := false }

/-- The entry of a refused record (R16, R151): no report block. -/
def refusedEntry (r : List Byte) (adm : Word) (reason : RefuseReason) (jobHead : Nat) : Entry :=
  { tag := recordTag r, kind := recordKind r, adm := adm, status := .refused, requested := recordMask r,
    succeeded := 0, failed := 0, notRun := recordMask r, detail := refuseCode reason, jobHead := jobHead,
    targetTag := 0, fallback := false, reportAddr := 0, lanes := [], reportWritten := false, reportFailed := false }

/-! ## Forming entries and completing jobs (R17, R137, R152) -/

/-- A reservation becomes a filled entry at the tail of the Post Queue (R152). -/
def Work.fillEntry (w : Work) (e : Entry) : Work :=
  { w with queue := w.queue ++ [e], reserved := w.reserved - 1 }

/-- A job completes (R17, R137): its entry is formed, the CANCEL's directly behind it when its cancel link is set,
its Image Context is returned and its slot freed. `cancelDetail` is 2 for a job cancelled while RUNNING. -/
def Work.completeAs (w : Work) (env : Env) (i : SlotId) (cancelDetail : Half) : Work :=
  match w.slot i with
  | none => w
  | some j =>
    let w := w.fillEntry (j.entry env.jobHead)
    let w := match j.cancelLink with
      | some k => w.fillEntry (cancelEntry k.tag k.adm j.tag .cancelDone cancelDetail env.jobHead)
      | none => w
    let w := match j.ctx with
      | some c => w.returnCtx c
      | none => w
    w.setSlot i none

/-- A job completes at the Job Table. -/
def Work.complete (w : Work) (env : Env) (i : SlotId) : Work := w.completeAs env i 2

/-- A lane of the job is still held (R13). -/
def Work.anyHeld (w : Work) (i : SlotId) : Bool := Config.allLanes.any (fun n => w.ownerOf n = some i)

/-- A job whose live lanes set is empty moves on (R14): to ENDING while a lane is held, otherwise to completion. -/
def Work.settleJob (w : Work) (env : Env) (i : SlotId) : Work :=
  match w.slot i with
  | none => w
  | some j =>
    if j.live ≠ 0 then w
    else if w.anyHeld i then w.setSlot i (some { j with state := .ending })
    else w.complete env i

/-- The lane has no job: what its engine remembers for one is cleared. -/
def Lane.release (l : Lane) : Lane :=
  { l with
    ctx := { l.ctx with slot := none, step := .none, stepPos := none, fallbackCopy := none }
    eng := { l.eng with stop := none, due := none, resume := none, readPage := none, entryIdx := 0,
                        exPart := .payload, held := none } }

/-- A lane leaves its job (R4, R13): its owner table entry is free, and the job moves on (R14). The grant scan that
follows is the command GRANT_SCAN. -/
def Work.leave (w : Work) (env : Env) (n : LaneId) : Work :=
  match (w.lane n).ctx.slot with
  | none => w
  | some i => ((w.modLane n Lane.release).setOwner n none).settleJob env i

/-! ## Final results (R11) -/

/-- The lane outcome copy taken from the Lane Context (R11). -/
def Lane.outcome (l : Lane) : OutcomeCopy :=
  { retries := l.ctx.retries, drops := l.ctx.drops, faultAddr := l.ctx.faultAddr, sumsSkipped := l.ctx.sumsSkipped,
    rate := l.ctx.rate, fallback := l.ctx.fallback, desc := l.ctx.desc }

/-- The code word of an EXCHANGE lane: entry index and kind code (R124). -/
def exchangeWord (idx : Nat) (entries : List ExchangeEntry) : Word :=
  BitVec.ofNat 32 (idx + 256 * ((entries[idx]?).elim 0 (fun e => e.kind.toNat)))

/-- The fault address of a final result: that of the rule that forms it (R114), but the code word of R124 for a result
final in the EXCHANGE step, and the fault cause kept by LANE-ACTION and LANE_FAULTED (R39, R127). That of CANCELLED is
absent (R135) in the EXCHANGE step too (log entry 14). -/
def JobSlot.faultAddrFor (j : JobSlot) (l : Lane) (r : LaneResult) (fa : Option Word) : Option Word :=
  match j.args with
  | .laneAction _ => l.ctx.faultAddr
  | .exchange _ _ _ _ es =>
    if r = .laneFaulted then l.ctx.faultAddr
    else if l.ctx.step = .exchange ∧ r ≠ .cancelled then some (exchangeWord l.eng.entryIdx es)
    else fa
  | _ => if r = .laneFaulted then l.ctx.faultAddr else fa

/-- The Job Table takes a live lane's final result (R11): result, last step and outcome copy, and the lane leaves the
live lanes set; the job is ENDING once that is empty (R14). A result of a lane no longer live is not taken. What the
engine kept for the job's steps is dropped, the fallback copy of R32 too. The copy shows the Lane Context as the event
has it here: the callers settle whether that is before or after the session's end (log entry 41). -/
def Work.record (w : Work) (n : LaneId) (r : LaneResult) (fa : Option Word) : Work :=
  match (w.lane n).ctx.slot with
  | none => w
  | some i =>
    match w.slot i with
    | none => w
    | some j =>
      if hasLane j.live n then
        let l := w.lane n
        let l := { l with
          ctx := { l.ctx with faultAddr := j.faultAddrFor l r fa, fallbackCopy := none }
          eng := { l.eng with stop := none, due := none, resume := none, held := none } }
        let w := w.setLane n l
        let live := dropLane j.live n
        w.setSlot i (some { j with
          state := if live = 0 then .ending else j.state
          results := vset j.results n (some r)
          lastSteps := vset j.lastSteps n l.ctx.step
          copies := vset j.copies n (some l.outcome)
          live := live })
      else w

end Sys2Proof.Machine
end

