-- ==== Sys2Proof/Machine/Line.lean ====
section
/-! DEFINITION. A character on TDAT (R43) and how one is read (R45). A level is a Bool, true for high. A stretch of line begins
with a low and is given by the lengths in REFCLK cycles of the levels that follow one another on it. -/

namespace Sys2Proof.Machine

/-! ## Sending (R43) -/

/-- The ten bits of a character: a low start bit, eight data bits, the least significant first, a high stop bit. -/
def characterBits (b : Byte) : List Bool :=
  false :: (List.range 8).map (fun i => b.getLsbD i) ++ [true]

/-- The bits of a frame: its characters back to back. -/
def frameBits (frame : List Byte) : List Bool := frame.flatMap characterBits

/-- The level that a sender gives the line `t` cycles after the leading edge of the first start bit. -/
def sentLevel (rate : Nat) (frame : List Byte) (t : Nat) : Bool := (frameBits frame).getD (t / bitTime rate) true

/-! ## Reading (R45) -/

/-- The level at time `t` of a line that is at `level` first and changes after each of the lengths, and how long it has
then stood; the last level stands on. -/
def levelAt (level : Bool) : List Nat → Nat → Bool × Nat
  | [], t => (level, t)
  | [_], t => (level, t)
  | r :: rs, t => if t < r then (level, t) else levelAt (!level) rs (t - r)

/-- What the glitch filter makes of a stretch (R45), from an accepted level that has stood for `acc` cycles; `same` says that
the line is at that level next. A change is accepted, from the instant of the change, once the new level has stood 3/16 of
a bit time, and is otherwise as though the line had not left its level. -/
def filterLevels (rate : Nat) : Bool → Nat → List Nat → List Nat
  | _, acc, [] => [acc]
  | true, acc, r :: rs => filterLevels rate false (acc + r) rs
  | false, acc, r :: rs =>
    if passesGlitchFilter rate r then acc :: filterLevels rate false r rs else filterLevels rate true (acc + r) rs

/-- The level that the Link Unit sees `t` cycles into a stretch, and how long that level has then stood: the line was high
before, and every change has passed the glitch filter (R45). -/
def lineAt (rate : Nat) (levels : List Nat) (t : Nat) : Bool × Nat := levelAt true (filterLevels rate false 0 levels) t

/-- The middle of bit `i` of a character, counted from the leading edge of its start bit. -/
def bitMiddle (rate i : Nat) : Nat := (2 * i + 1) * bitTime rate / 2

/-- Bit `i` of the character whose start bit begins a stretch of line. -/
def sampleBit (rate : Nat) (levels : List Nat) (i : Nat) : Bool := (lineAt rate levels (bitMiddle rate i)).1

/-- What a stretch of line that begins with a start bit is read as. -/
inductive Character where
  | noise
  | lowStop
  | byte (b : Byte)
deriving DecidableEq, Repr

/-- A stretch of line is read: noise when the start bit is high at its middle, a low stop bit, or the eight data bits. -/
def readCharacter (rate : Nat) (levels : List Nat) : Character :=
  if sampleBit rate levels 0 then .noise
  else if sampleBit rate levels 9 then
    .byte (BitVec.ofNat 8 ((List.range 8).foldr (fun i v => (sampleBit rate levels (i + 1)).toNat + 2 * v) 0))
  else .lowStop

/-- How long the low has stood that the line is at when a stretch ends; none when it is high then. -/
def lowAtEnd (rate : Nat) (levels : List Nat) : Option Nat :=
  let now := lineAt rate levels levels.sum
  if now.1 then none else some now.2

/-- A low so short that the start bit it begins is high at its middle. -/
def isNoise (rate low : Nat) : Bool := decide (low ≤ bitMiddle rate 0)

end Sys2Proof.Machine
end

