-- ==== Sys2Proof/Machine/Link.lean ====
section
/-! DEFINITION. The Link Unit (chapter 3): frames, the exchange record, retries, and the judgement of a reply. -/

namespace Sys2Proof.Machine

/-! ## Frames -/

/-- Lead of a request and of a reply (Tables 3-3, 3-4). -/
def requestLead : Byte := 0xC3#8
def replyLead : Byte := 0x3C#8

/-- Kind, Seq, Len and Payload of a request in the order sent (Table 3-3): what the Check covers (R47). -/
def requestBody (kind seq : Byte) (payload : List Byte) : List Byte :=
  kind :: seq :: leBytes 2 payload.length ++ payload

/-- A request frame (Table 3-3). -/
def requestFrame (kind seq : Byte) (payload : List Byte) : List Byte :=
  requestLead :: requestBody kind seq payload ++ leBytes 2 (crc16 (requestBody kind seq payload)).toNat

/-- The fields of a complete reply frame (Table 3-4), with the CRC-16 computed over Kind to Payload (R49). -/
structure Reply where
  kind : Byte
  seq : Byte
  status : Byte
  payload : List Byte
  check : Half
  computed : Half
deriving DecidableEq, Repr

/-- The Len field of the characters of a reply (Table 3-4). -/
def replyLen (frame : List Byte) : Nat := fieldAt frame 4 2

/-- The characters form a complete frame: lead 0x3C, Len at most 264, and 8 + Len characters (R48, R54). -/
def isFrame (frame : List Byte) : Bool :=
  byteAt frame 0 = replyLead && 6 ≤ frame.length && decide (replyLen frame ≤ Config.maxPayload)
  && decide (frame.length = 8 + replyLen frame)

/-- The fields of a complete frame (Table 3-4). -/
def replyOf (frame : List Byte) : Reply :=
  let len := replyLen frame
  { kind := byteAt frame 1, seq := byteAt frame 2, status := byteAt frame 3, payload := slice frame 6 len,
    check := halfAt frame (6 + len), computed := crc16 (slice frame 1 (5 + len)) }

/-! ## Exchange outcomes (Table 3-9) -/

/-- The outcomes handed to the Lane Engine. ABANDONED is `Lane.abandon`: no outcome is acted on. -/
inductive ExchangeOutcome where
  | accepted (status : Byte) (payload : List Byte)
  | exhausted
  | busyLimit
  | stopped
deriving DecidableEq, Repr

/-- What a Link Unit event comes to: the lane goes on in its exchange, or the exchange ends with an outcome. -/
inductive LinkEvent where
  | goesOn (l : Lane)
  | ends (l : Lane) (o : ExchangeOutcome)
deriving DecidableEq, Repr

/-! ## Sending -/

/-- A request is sent for linking, during which the lane stays in LINKING (R35, R61). -/
def Purpose.isLinking : Purpose → Bool
  | .openSession | .query | .pace _ => true
  | _ => false

/-- The Link Unit takes a request (R51): Seq, rate and limits are latched, counts and marks cleared, and the frame
begins. OPEN sets the sequence number to 0 (R30): until then it keeps the value that the ended exchange left, but for a
fallback, which starts at 0 (DEDUCED, log entry 43). The lane enters ACTIVE for every request but OPEN, QUERY and PACE
(R35). -/
def Lane.beginRequest (payload : List Byte) (r : Request) (l : Lane) : Lane :=
  let seq := if r.purpose = .openSession then 0 else l.ctx.seq
  { l with
    ctx := { l.ctx with seq := seq, state := if r.purpose.isLinking then l.ctx.state else .active }
    link := { state := .sending, req := some r, seq := seq, check := crc16 (requestBody r.kind seq payload),
              rate := l.ctx.rate, retryLimit := l.settings.retryLimit, replyLimit := l.settings.replyLimit,
              busyLimit := r.busyMs, resends := 0, timer := .absent, busyStart := none, released := 0, discarding := false,
              stopMark := false, replyArea := [] }
    lines := { l.lines with tdatDriven := true }
    eng := { l.eng with held := none } }

/-- AWAITING with a full reply timer (R51, R53, R55). -/
def Lane.await (env : Env) (l : Lane) : Lane :=
  { l with
    link := { l.link with state := .awaiting, timer := .running (env.clock + ms l.link.replyLimit),
                          busyStart := none, discarding := false }
    lines := { l.lines with tdatDriven := false } }

/-- The last stop bit of a frame has been sent (R51): TDAT is released, which a low already present is timed from (R52). -/
def Lane.frameSent (env : Env) (l : Lane) : Lane :=
  let l := l.await env
  { l with link := { l.link with released := env.clock } }

/-- A resend (R55): resends made and the retries accumulator go up, the identical frame is sent. -/
def Lane.resend (l : Lane) : Lane :=
  { l with
    ctx := { l.ctx with retries := saturate l.ctx.retries }
    link := { l.link with state := .sending, resends := l.link.resends + 1, timer := .absent, busyStart := none,
                          discarding := false }
    lines := { l.lines with tdatDriven := true } }

/-- The wait for a quiet line after a framing error or a rejected frame (R55). -/
def Lane.discard (env : Env) (l : Lane) : Lane :=
  { l with link := { l.link with state := .receiving, discarding := true,
                                 timer := .running (env.clock + ms l.link.replyLimit) } }

/-- An attempt fails (R55): EXHAUSTED, STOPPED, or a resend, at once or after a quiet line. -/
def Lane.attemptFails (env : Env) (quiet : Bool) (l : Lane) : LinkEvent :=
  if l.link.resends = l.link.retryLimit then .ends l .exhausted
  else if l.link.stopMark then .ends l .stopped
  else if quiet then .goesOn (l.discard env)
  else .goesOn l.resend

/-! ## Lows and busy holds -/

/-- The reply timer paused with its remaining time (R52). -/
def ReplyTimer.pause (now : Nat) : ReplyTimer → ReplyTimer
  | .running ends => .paused (ends - now)
  | t => t

/-- The reply timer resumed with the time it had left (R52, R56). -/
def ReplyTimer.resume (now : Nat) : ReplyTimer → ReplyTimer
  | .paused left => .running (now + left)
  | t => t

/-- A low accepted by the glitch filter, dated `start` (R45, R52), is timed: from the release when it was there before
(R52). In AWAITING it pauses the timer; while discarding the timer runs on (R55). While a frame is being assembled a
low is a piece of it (R46). -/
def Lane.low (env : Env) (start : Nat) (l : Lane) : Lane :=
  match l.link.busyStart with
  | some _ => l
  | none =>
    match l.link.state with
    | .awaiting =>
      { l with link := { l.link with timer := l.link.timer.pause env.clock,
                                     busyStart := some (max start l.link.released) } }
    | .receiving => if l.link.discarding then { l with link := { l.link with busyStart := some start } } else l
    | .idle | .sending | .busyHold => l

/-- The low that was timed while discarding is over; a resend that waited for its end begins (R55). -/
def Lane.discardedLowEnds (l : Lane) : Lane :=
  let l := { l with link := { l.link with busyStart := none } }
  if l.link.timer = .absent then l.resend else l

/-- The low being timed has ended after `low` cycles, within 20 bit times, 20 included (R46, R52, R55). In AWAITING it was the start of a
character, unless that is noise: the unit is RECEIVING with the timer paused. -/
def Lane.lowEnded (low : Nat) (l : Lane) : Lane :=
  if l.link.busyStart.isSome ∧ low ≤ busyHoldTime l.link.rate then
    match l.link.state with
    | .awaiting =>
      if isNoise l.link.rate low then l
      else { l with link := { l.link with state := .receiving, busyStart := none } }
    | .receiving => if l.link.discarding then l.discardedLowEnds else l
    | .idle | .sending | .busyHold => l
  else l

/-- A start bit found high at its middle: the low is as though it had not occurred (R45, R52). -/
def Lane.noise (env : Env) (l : Lane) : Lane :=
  if l.link.busyStart.isSome then
    match l.link.state with
    | .awaiting => { l with link := { l.link with timer := l.link.timer.resume env.clock, busyStart := none } }
    | .receiving => if l.link.discarding then l.discardedLowEnds else l
    | .idle | .sending | .busyHold => l
  else l

/-- A busy hold can be recognised: a low is being timed in AWAITING, or while discarding (R46). -/
def Lane.canHold (l : Lane) : Bool :=
  l.link.busyStart.isSome && (l.link.state = .awaiting || (l.link.state = .receiving && l.link.discarding))

/-- A busy hold is recognised (R46, R52, R55): the reply time and a pending resend are dropped, and the limit runs from
the dated start of the low. -/
def Lane.holdRecognised (l : Lane) : Lane :=
  { l with link := { l.link with state := .busyHold, timer := .absent, discarding := false } }

/-! ## The judgement of a reply -/

/-- A frame is being assembled (R54). -/
def Lane.canReceive (l : Lane) : Bool := l.link.state = .receiving && !l.link.discarding

/-- The request kind outstanding. -/
def Lane.kindOut (l : Lane) : Byte := match l.link.req with | some r => r.kind | none => 0

/-- The judgement of a complete frame, first check first (R56). Characters that form no frame are a framing error
(R54). -/
def Lane.judge (env : Env) (frame : List Byte) (l : Lane) : LinkEvent :=
  let l := { l with link := { l.link with busyStart := none, replyArea := frame } }
  let r := replyOf frame
  if !isFrame frame then l.attemptFails env true
  else if r.computed ≠ r.check then l.attemptFails env true
  else if r.seq ≠ l.link.seq then
    .goesOn { l with link := { l.link with state := .awaiting, timer := l.link.timer.resume env.clock } }
  else if r.kind ≠ l.kindOut + 0x80#8 then l.attemptFails env true
  else if r.status = statusBadFrame then l.attemptFails env true
  else .ends l (.accepted r.status r.payload)

/-- A framing error of the given cause really is one (R54). -/
def FramingCause.holds (rate : Nat) : FramingCause → Bool
  | .badLead lead => lead ≠ replyLead
  | .lowStop levels => bitMiddle rate 9 ≤ levels.sum ∧ readCharacter rate levels = .lowStop
  | .longLen len => Config.maxPayload < len
  | .gap high => quietTime rate < high

/-- The dated start of the low that stands when a framing error is reported, which goes on counting (R46, R55): that of a low
stop bit may have ended, as it has when it began the first character (R52). -/
def FramingCause.lowSince (rate now : Nat) : FramingCause → Option Nat
  | .lowStop levels => (lowAtEnd rate levels).map (now - ·)
  | .badLead _ | .longLen _ | .gap _ => none

/-- A framing error (R54): the attempt fails. -/
def Lane.framingError (env : Env) (cause : FramingCause) (l : Lane) : LinkEvent :=
  let l := { l with link := { l.link with busyStart := FramingCause.lowSince l.link.rate env.clock cause } }
  l.attemptFails env true

/-- The reply timer runs. -/
def ReplyTimer.isRunning : ReplyTimer → Bool
  | .running _ => true
  | _ => false

/-- An event that can end the wait for a quiet line (R55): 40 bit times of high level without a break, or the end of the
reply timer. -/
def QuietCause.holds (l : Lane) : QuietCause → Bool
  | .lineHigh high => l.link.busyStart.isNone && quietTime l.link.rate ≤ high
  | .timerExpired => l.link.timer.isRunning

/-- The wait for a quiet line is over: the resend begins, or waits for the end of the low in progress (R55; the timer that
has expired is absent, log entry 37). -/
def Lane.quietOver (l : Lane) : Lane :=
  if l.link.busyStart.isSome then { l with link := { l.link with timer := .absent } } else l.resend

/-- The stop mark is set on an exchange (R59): a discarding wait ends at once as STOPPED, any other state runs on. -/
def Lane.setStopMark (l : Lane) : LinkEvent :=
  if l.link.state = .receiving ∧ l.link.discarding then .ends l .stopped
  else .goesOn { l with link := { l.link with stopMark := true } }

end Sys2Proof.Machine
end

