-- ==== Sys2Proof/Machine/LaneEngine.lean ====
section
/-! DEFINITION. The Lane Engine: requests (R61, Table 4-1), the end of a lane's work (R36 to R38), and the steps of each
job kind (chapters 6 and 7). A step that would begin new work first looks whether the lane has to stop at this
request boundary (R94, R121, R135), and work that a ride window holds back is kept in `held` (R144). -/

namespace Sys2Proof.Machine

/-! ## Requests (Table 4-1, Table 3-8, Table 12-12) -/

/-- A request whose payload the Lane Engine supplies. -/
def engineRequest (p : Purpose) (kind : Byte) (payload : List Byte) (busyMs : Nat) : Request :=
  { purpose := p, kind := kind, source := .engine payload, len := payload.length, busyMs := busyMs }

/-- OPEN with version 1, and the key when there is one (R65). -/
def Lane.openRequest (l : Lane) (key : List Byte) : Request :=
  engineRequest .openSession kindOpen (1 :: key) l.settings.replyLimit

/-- QUERY (Table 4-1). -/
def Lane.queryRequest (l : Lane) : Request := engineRequest .query kindQuery [] l.settings.replyLimit

/-- PACE with a rate code (R66). -/
def Lane.paceRequest (l : Lane) (code : Nat) : Request :=
  engineRequest (.pace code) kindPace (leBytes 1 code) l.settings.replyLimit

/-- CLEAR of `count` units from unit `first` (R69). -/
def Lane.clearRequest (l : Lane) (first count : Nat) : Request :=
  engineRequest .clear kindClear (leBytes 2 first ++ leBytes 2 count) (l.settings.clearLimit * count)

/-- WRITE of a page of `size` bytes from a buffer (R70). -/
def Lane.writeRequest (l : Lane) (page : Nat) (b : BufId) (size : Nat) : Request :=
  { purpose := .write page, kind := kindWrite, source := .pool (leBytes 4 page) b size, len := 4 + size,
    busyMs := l.settings.writeLimit }

/-- READ of a page of `size` bytes (R71). -/
def Lane.readRequest (l : Lane) (p : Purpose) (page size : Nat) : Request :=
  engineRequest p kindRead (leBytes 4 page ++ leBytes 2 size) l.settings.replyLimit

/-- SUM over a segment (R72, R112). -/
def Lane.sumRequest (l : Lane) (i : Nat) (g : Segment) (reference : Word) : Request :=
  engineRequest (.sum i reference) kindSum (leBytes 4 g.addr.toNat ++ leBytes 4 g.len.toNat)
    (l.settings.sumLimit * ceilDiv g.len.toNat 1024)

/-- GUARD with a level (R74). -/
def Lane.guardRequest (l : Lane) (level : Nat) : Request :=
  engineRequest (.guard level) kindGuard (leBytes 1 level) l.settings.clearLimit

/-- CLOSE (R75). -/
def Lane.closeRequest (l : Lane) (p : Purpose) : Request := engineRequest p kindClose [] l.settings.replyLimit

/-- An EXCHANGE entry, with its own busy limit (R77). -/
def entryRequest (e : ExchangeEntry) : Request :=
  { purpose := .entry, kind := e.kind, source := .exchangeBuffer e.len, len := e.len, busyMs := e.busyMs }

/-- The payload of a request, from the place that supplies it (R47). -/
def Work.payload (w : Work) (n : LaneId) (r : Request) : List Byte :=
  match r.source with
  | .engine bytes => bytes
  | .pool addr b len => addr ++ (w.buf b).data.take len
  | .exchangeBuffer len => (w.lane n).eng.xbuf.take len

/-- The frame of a lane's outstanding request (R47). -/
def Work.frameOut (w : Work) (n : LaneId) : Option (List Byte) :=
  (w.lane n).link.req.map (fun r => requestFrame r.kind (w.lane n).link.seq (w.payload n r))

/-- The level that the Link Unit drives on TDAT `t` cycles after its frame began (R43); none while it does not drive the
line. -/
def Work.drivenLevel (w : Work) (n : LaneId) (t : Nat) : Option Bool :=
  if (w.lane n).lines.tdatDriven then (w.frameOut n).map (fun f => sentLevel (w.lane n).link.rate f t) else none

/-- The lane holds back an action until the ride window ends (R144). -/
def Work.holdBack (w : Work) (n : LaneId) (h : Held) : Work :=
  w.modLane n (fun l => { l with eng := { l.eng with held := some h } })

/-- The lane begins a request (R51), or holds it back in a ride window (R144). -/
def Work.request (w : Work) (n : LaneId) (r : Request) : Work :=
  if (w.lane n).riding then w.holdBack n (.request r)
  else w.modLane n (Lane.beginRequest (w.payload n r) r)

/-- The lane begins a host transfer, or holds the action `h` back in a ride window (R121, R144). -/
def Work.transfer (w : Work) (n : LaneId) (x : Xfer) (h : Held) : Work :=
  if (w.lane n).riding then w.holdBack n h
  else w.modLane n (fun l => { l with eng := { l.eng with xfer := some x, held := none } })

/-! ## The end of a lane's work (R36, R37, R38) -/

/-- The end action after a failure: KEEP and RUN replaced by HOLD (Table 2-5). -/
def EndAction.afterFailure : EndAction → EndAction
  | .off => .off
  | .keep | .hold | .run => .hold

/-- The steps of an end action after its CLOSE (Table 2-6). A lane in OFF stays OFF (R136). -/
def Work.finishEnd (w : Work) (env : Env) (n : LaneId) (e : EndAction) : Work :=
  if (w.lane n).ctx.state = .off then w.leave env n
  else match e with
    | .keep => w.leave env n
    | .hold => (w.modLane n Lane.toHold).leave env n
    | .off => (w.modLane n Lane.toOff).leave env n
    | .run => w.modLane n (Lane.startPulse env)

/-- An end action begins (R37): CLOSE first when the session is OPEN and the last exchange was answered. An entry
attempt under way is stopped (R29, R134). -/
def Work.startEnd (w : Work) (env : Env) (n : LaneId) (e : EndAction) : Work :=
  let w := if (w.lane n).ctx.state = .entry then w.modLane n Lane.toHold else w
  let l := w.lane n
  if e = .keep then w.finishEnd env n .keep
  else if l.ctx.session ∧ l.ctx.answered then w.request n (l.closeRequest (.closeEnd e))
  else w.finishEnd env n e

/-- What follows a lane's final result (R36, R90, R119, R143): it leaves its pass or frees its READOUT buffers, then goes
to the destination of Table 2-5. LINK_LOST and TARGET_STUCK enter FAULT here, after the outcome copy was taken (DESIGN
CHOICE, log entry 41). -/
def Work.settle (w : Work) (env : Env) (n : LaneId) (r : LaneResult) : Work :=
  match w.jobOf n with
  | none => w
  | some j =>
    let w := match j.ctx, j.args with
      | some c, .readout .. => w.freeFloors c
      | some c, _ => w.passLeave c n
      | none, _ => w
    match r with
    | .linkLost | .targetStuck | .noTarget => (w.modLane n (Lane.enterFault r)).leave env n
    | .supplyFail | .supplyDrop | .notRun | .laneFaulted => w.leave env n
    | .done => match j.args.endAction? with
      | some e => w.startEnd env n e
      | none => w.leave env n
    | _ => match j.args.endAction? with
      | some e => w.startEnd env n e.afterFailure
      | none => w.leave env n

/-- A live lane's result becomes final (R11, R36). -/
def Work.finalize (w : Work) (env : Env) (n : LaneId) (r : LaneResult) (fa : Option Word) : Work :=
  if w.isLive n then (w.record n r fa).settle env n r else w

/-- Several live lanes end in one event with one result: all results are recorded before any lane goes on (R10, R94,
R134). -/
def Work.finalizeAll (w : Work) (env : Env) (ns : List LaneId) (r : LaneResult) : Work :=
  let ns := ns.filter w.isLive
  (w.forLanes ns (fun w n => w.record n r none)).forLanes ns (fun w n => w.settle env n r)

/-- The lane goes on with `k`, unless it has to stop: then it ends at a request boundary, or waits for one (R121,
R135). -/
def Work.goOn (w : Work) (env : Env) (n : LaneId) (k : Work → Work) : Work :=
  match (w.lane n).stopResult with
  | none => k w
  | some (r, fa) => if (w.lane n).atBoundary then w.finalize env n r fa else w

/-- TARGET_REFUSED with the cause word of R63. -/
def Work.refuse (w : Work) (env : Env) (n : LaneId) (status kind : Byte) (reason : CauseReason) : Work :=
  w.finalize env n .targetRefused (some (causeWord status kind reason))

/-- Sets the lane's step position (R100). -/
def Work.setPos (w : Work) (n : LaneId) (p : Option Nat) : Work :=
  w.modLane n (fun l => { l with ctx := { l.ctx with stepPos := p } })

/-- The lane begins step `st` at position `p`. -/
def Work.enterStep (w : Work) (n : LaneId) (st : Step) (p : Option Nat) : Work := (w.setStep n st).setPos n p

/-- The lane begins step `st` with `k`, or holds the beginning of a step that needs a request back in a ride window, its
current step unchanged (R144). -/
def Work.beginOrHold (w : Work) (n : LaneId) (st : Step) (k : Work → Work) : Work :=
  if (w.lane n).riding then w.holdBack n (.begin st) else k w

/-! ## PROGRAM: the range check (R102 to R104) -/

/-- A segment lies in range (R102). -/
def inRange (d : TargetDesc) (start len : Nat) : Bool :=
  d.base.toNat ≤ start && start + len ≤ d.base.toNat + d.size.toNat

/-- The protection check (R104, Table 6-4): the request kind of the first row that fails. -/
def protectionFault (level : Nat) (s : StepSet) (guardLevel : Nat) : Option Byte :=
  if s.clear ∧ 1 ≤ level then some kindClear
  else if s.write ∧ 1 ≤ level then some kindWrite
  else if s.check ∧ 2 ≤ level then some kindRead
  else if s.sum ∧ 2 ≤ level then some kindSum
  else if s.guard ∧ guardLevel < level then some kindGuard
  else none

/-- The range and geometry checks of a job with an image (R102, R103). -/
def imageFault (d : TargetDesc) (segs : List Segment) (pageCode : Byte) : Option (LaneResult × Word) :=
  match segs.find? (fun g => !inRange d g.addr.toNat g.len.toNat) with
  | some g => some (.outOfRange, g.addr)
  | none =>
    if d.pageCode ≠ pageCode then
      some (.geometryMismatch, BitVec.ofNat 32 (d.pageCode.toNat + 256 * pageCode.toNat))
    else none

/-- The three checks of the range check step, in order; the first that fails decides (R102). -/
def rangeFault (d : TargetDesc) (image : Option (List Segment × Byte)) (s : StepSet) (guardLevel : Nat) :
    Option (LaneResult × Word) :=
  match image.bind (fun im => imageFault d im.1 im.2) with
  | some f => some f
  | none => (protectionFault d.protection.toNat s guardLevel).map
      (fun k => (.targetRefused, causeWord statusDenied k .protection))

/-! ## PROGRAM: the clear plan (R105, R106) -/

/-- The units that a segment touches, first and last (R105). -/
def unitsOf (d : TargetDesc) (g : Segment) : Nat × Nat :=
  let u := unitSize d.clearCode
  ((g.addr.toNat - d.base.toNat) / u, (g.stop - 1 - d.base.toNat) / u)

/-- Adds a range of units to runs held last first; ranges come in ascending order (R105). -/
def addRun (runs : List (Nat × Nat)) (r : Nat × Nat) : List (Nat × Nat) :=
  match runs with
  | (a, b) :: rest => if r.1 ≤ b + 1 then (a, max b r.2) :: rest else r :: runs
  | [] => [r]

/-- The runs of consecutive units that an image touches, ascending (R105). -/
def unitRuns (d : TargetDesc) (segs : List Segment) : List (Nat × Nat) :=
  ((segs.map (unitsOf d)).foldl addRun []).reverse

/-- Requests of 16 units from a run, the last taking what remains; at most `fuel` of them (R105). -/
def splitRun : Nat → Nat → Nat → List (Nat × Nat)
  | 0, _, _ => []
  | fuel + 1, first, last =>
    if last < first then [] else
      let count := min 16 (last - first + 1)
      (first, count) :: splitRun fuel (first + count) last

/-- The requests of one run. -/
def runRequests (r : Nat × Nat) : List (Nat × Nat) := splitRun (ceilDiv (r.2 - r.1 + 1) 16) r.1 r.2

/-- The clear plan: first unit index and unit count of each request (R105, R106). -/
def clearPlan (d : TargetDesc) (clearAll : Bool) (segs : List Segment) : List (Nat × Nat) :=
  if clearAll then runRequests (0, unitCount d - 1) else (unitRuns d segs).flatMap runRequests

/-! ## PROGRAM: the steps, last first (R100, Table 6-3) -/

/-- The Image Context of the job that owns a lane. -/
def Work.laneCtx (w : Work) (n : LaneId) : Option CtxId := (w.jobOf n).bind JobSlot.ctx

/-- The segments of the lane's image; none for a job without an image. -/
def Work.laneSegs (w : Work) (n : LaneId) : List Segment :=
  match w.laneCtx n with
  | some c => (w.ctx c).segs
  | none => []

/-- The GUARD step (R113), or DONE after the last step of the set (R100). -/
def Work.enterGuard (w : Work) (env : Env) (n : LaneId) (s : StepSet) (level : Nat) : Work :=
  if s.guard then
    w.goOn env n (fun w => w.beginOrHold n .guard (fun w =>
      (w.enterStep n .guard none).request n ((w.lane n).guardRequest level)))
  else w.finalize env n .done none

/-- The next segment with a reference, and how many segments are skipped before it (R111); `i` is the index of the
list's head. -/
def nextSum (computed : List (Option Word)) (i : Nat) : List Segment → Nat × Option (Nat × Segment × Word)
  | [] => (0, none)
  | g :: gs =>
    match (match g.crc with | some v => some v | none => (computed[i]?).join) with
    | some v => (0, some (i, g, v))
    | none => let r := nextSum computed (i + 1) gs
      (r.1 + 1, r.2)

/-- SUM goes on from segment `pos` (R111, R112): segments without a reference are skipped and counted, the position moves to
the next one with a reference, which is sent, or beyond the last, and the step completes. A lane that has to stop has
skipped them (DESIGN CHOICE, log entry 46). -/
def Work.sumGo (w : Work) (env : Env) (n : LaneId) (s : StepSet) (level pos : Nat) : Work :=
  let computed := match w.laneCtx n with | some c => (w.ctx c).computed | none => []
  let r := nextSum computed pos ((w.laneSegs n).drop pos)
  let w := (w.setPos n (some (pos + r.1))).modLane n (fun l =>
    { l with ctx := { l.ctx with sumsSkipped := l.ctx.sumsSkipped + r.1 } })
  match r.2 with
  | some (i, g, v) => w.goOn env n (fun w => w.request n ((w.lane n).sumRequest i g v))
  | none => w.enterGuard env n s level

/-- The SUM step has a request to send: a segment with a reference (R111). -/
def Work.sumNeeded (w : Work) (n : LaneId) : Bool :=
  (nextSum (match w.laneCtx n with | some c => (w.ctx c).computed | none => []) 0 (w.laneSegs n)).2.isSome

/-- The SUM step, or what follows it. A SUM step that skips every segment is not held back (R144). -/
def Work.enterSum (w : Work) (env : Env) (n : LaneId) (s : StepSet) (level : Nat) : Work :=
  if s.sum then
    w.goOn env n (fun w =>
      let k := fun w : Work => (w.enterStep n .sum (some 0)).sumGo env n s level 0
      if w.sumNeeded n then w.beginOrHold n .sum k else k w)
  else w.enterGuard env n s level

/-- The page at the lane's cursor and the buffer that holds it whole (R108, R110). -/
def Work.pageReady (w : Work) (c : CtxId) (n : LaneId) : Option (Nat × BufId) :=
  match (w.ctx c).pageAt (w.lane n).ctx.cursor with
  | none => none
  | some p => (w.heldPage c p).map (fun b => (p, b))

/-- CHECK: the READ of the page at the cursor when it is HELD, otherwise the lane waits READY (R110). -/
def Work.checkGo (w : Work) (env : Env) (n : LaneId) (c : CtxId) : Work :=
  w.goOn env n (fun w => match w.pageReady c n with
    | some (p, _) => w.request n ((w.lane n).readRequest (.checkRead p) p (w.ctx c).size)
    | none => w)

/-- The CHECK step of a job without WRITE, or what follows it. -/
def Work.enterCheck (w : Work) (env : Env) (n : LaneId) (s : StepSet) (level : Nat) : Work :=
  match s.check, w.laneCtx n with
  | true, some c =>
    w.goOn env n (fun w => w.beginOrHold n .check (fun w => (w.enterStep n .check none).checkGo env n c))
  | _, _ => w.enterSum env n s level

/-- WRITE: the WRITE of the page at the cursor when it is HELD, otherwise the lane waits READY (R108). -/
def Work.writeGo (w : Work) (env : Env) (n : LaneId) (c : CtxId) : Work :=
  w.goOn env n (fun w => match w.pageReady c n with
    | some (p, b) => w.request n ((w.lane n).writeRequest p b (w.ctx c).size)
    | none => w)

/-- The WRITE step, or what follows it. -/
def Work.enterWrite (w : Work) (env : Env) (n : LaneId) (s : StepSet) (level : Nat) : Work :=
  match s.write, w.laneCtx n with
  | true, some c =>
    w.goOn env n (fun w => w.beginOrHold n .write (fun w => (w.enterStep n .write none).writeGo env n c))
  | _, _ => w.enterCheck env n s level

/-- CLEAR goes on from request `pos` of the plan, the position there; after the last the step completes (R100, R107). -/
def Work.clearGo (w : Work) (env : Env) (n : LaneId) (s : StepSet) (clearAll : Bool) (level pos : Nat) : Work :=
  let plan := match (w.lane n).ctx.desc with
    | some d => clearPlan d clearAll (w.laneSegs n)
    | none => []
  let w := w.setPos n (some pos)
  match plan[pos]? with
  | some (first, count) => w.goOn env n (fun w => w.request n ((w.lane n).clearRequest first count))
  | none => w.enterWrite env n s level

/-- The CLEAR step, or what follows it. -/
def Work.enterClear (w : Work) (env : Env) (n : LaneId) (s : StepSet) (clearAll : Bool) (level : Nat) : Work :=
  if s.clear then
    w.goOn env n (fun w => w.beginOrHold n .clear (fun w =>
      (w.enterStep n .clear (some 0)).clearGo env n s clearAll level 0))
  else w.enterWrite env n s level

/-- The range check of a PROGRAM lane (R102), and the next step in the same event when it passes. -/
def Work.rangeCheck (w : Work) (env : Env) (n : LaneId) (s : StepSet) (clearAll : Bool) (level : Nat) : Work :=
  w.goOn env n (fun w =>
    let w := w.enterStep n .rangeCheck none
    match (w.lane n).ctx.desc with
    | none => w
    | some d =>
      let image := (w.laneCtx n).map (fun c => ((w.ctx c).segs, (w.ctx c).pageCode))
      match rangeFault d image s level with
      | some (r, fa) => w.finalize env n r (some fa)
      | none => w.enterClear env n s clearAll level)

/-- A lane has consumed the last page of the WRITE pass (R109). -/
def Work.finishWrite (w : Work) (env : Env) (n : LaneId) (c : CtxId) (s : StepSet) (level : Nat) : Work :=
  if (s.check || s.sum || s.guard) && (w.lane n).stopResult.isSome then w.goOn env n id
  else
    let w := w.dropFromPass c n
    if s.check then (if (w.ctx c).state = .checkPass then w else w.enterStep n .checkWait none)
    else w.enterSum env n s level

/-- A lane has consumed the last page of the CHECK pass (R110). -/
def Work.finishCheck (w : Work) (env : Env) (n : LaneId) (c : CtxId) (s : StepSet) (level : Nat) : Work :=
  if (s.sum || s.guard) && (w.lane n).stopResult.isSome then w.goOn env n id
  else (w.dropFromPass c n).enterSum env n s level

/-! ## READOUT (R118 to R120) -/

/-- The page size of a READOUT: the target's (R118). -/
def Lane.targetPage (l : Lane) : Nat :=
  match l.ctx.desc with
  | some d => pageSize d.pageCode
  | none => 0

/-- The address of the last page of a range (R118). -/
def lastPage (start len size : Nat) : Nat := roundDown (start + len - 1) size

/-- READOUT begins the READ of its next page when no request is outstanding and a floor buffer is FREE (R119). -/
def Work.readGo (w : Work) (n : LaneId) (c : CtxId) (start len : Nat) : Work :=
  let l := w.lane n
  let floor := if w.bufFree (floorA c) then some (floorA c)
    else if w.bufFree (floorB c) then some (floorB c) else none
  match l.eng.readPage, floor with
  | some p, some b =>
    if l.ctx.state = .ready ∧ l.ctx.step = .read ∧ l.linkIdle ∧ l.stopResult.isNone then
      if l.riding then w.holdBack n .step
      else
        let size := l.targetPage
        let w := w.setBuf b { state := .filling, owner := some c, pass := .write, page := p, count := 1, data := [] }
        let next := if p + size ≤ lastPage start len size then some (p + size) else none
        let w := w.modLane n (fun l => { l with eng := { l.eng with readPage := next } })
        w.request n (l.readRequest (.readout p b) p size)
    else w
  | _, _ => w

/-- The floor buffer whose page is written next: the HELD one with the lower page address (R120). -/
def Work.writeNext (w : Work) (c : CtxId) : Option BufId :=
  let a := w.buf (floorA c)
  let b := w.buf (floorB c)
  if a.state = .held then
    if b.state = .held ∧ b.page < a.page then some (floorB c) else some (floorA c)
  else if b.state = .held then some (floorB c)
  else none

/-- READOUT begins the host write of its oldest HELD page (R120): the bytes of the page in the range, at the host address
of the first of them. -/
def Work.hostWriteGo (w : Work) (n : LaneId) (c : CtxId) (start len : Nat) (hostBuf : HostAddr) : Work :=
  let l := w.lane n
  match w.writeNext c with
  | some b =>
    if l.eng.xfer.isNone ∧ l.stopResult.isNone then
      let p := w.buf b
      let lo := max p.page start
      let hi := min (p.page + p.data.length) (start + len)
      w.transfer n (.pageWrite b p.page (addrPlus hostBuf (lo - start)) (slice p.data (lo - p.page) (hi - lo))) .step
    else w
  | none => w

/-- The READ step begins with the first page of the range (R118, R119). -/
def Work.enterRead (w : Work) (env : Env) (n : LaneId) (c : CtxId) (start len : Nat) : Work :=
  w.goOn env n (fun w => w.beginOrHold n .read (fun w =>
    let w := w.enterStep n .read none
    let first := roundDown start (w.lane n).targetPage
    (w.modLane n (fun l => { l with eng := { l.eng with readPage := some first } })).readGo n c start len))

/-- The READOUT range check (R118), then the READ step. -/
def Work.readoutStart (w : Work) (env : Env) (n : LaneId) (start len : Nat) : Work :=
  w.goOn env n (fun w =>
    let w := w.enterStep n .rangeCheck none
    match (w.lane n).ctx.desc, w.laneCtx n with
    | some d, some c =>
      if !inRange d start len then w.finalize env n .outOfRange (some (BitVec.ofNat 32 start))
      else if 2 ≤ d.protection.toNat then w.refuse env n statusDenied kindRead .protection
      else w.enterRead env n c start len
    | _, _ => w)

/-! ## IDENTIFY and EXCHANGE (R122, R124) -/

/-- The DESCRIBE step: DONE in the event in which it begins (R122). -/
def Work.describe (w : Work) (env : Env) (n : LaneId) : Work :=
  w.goOn env n (fun w => (w.enterStep n .describe none).finalize env n .done none)

/-- The EXCHANGE part that is next (R124): payload read, request, or reply write. -/
def Work.exchangeGo (w : Work) (env : Env) (n : LaneId) (block : HostAddr) (es : List ExchangeEntry) : Work :=
  w.goOn env n (fun w =>
    let l := w.lane n
    let i := l.eng.entryIdx
    match es[i]? with
    | none => w
    | some e =>
      match l.eng.exPart with
      | .payload =>
        if e.len = 0 then
          (w.modLane n (fun l => { l with eng := { l.eng with exPart := .request, xbuf := [] } })).request n
            (entryRequest e)
        else w.transfer n (.payloadRead (exchangeSection block i) e.len) .step
      | .request => w.request n (entryRequest e)
      | .reply =>
        let f := l.eng.xbuf
        let record := [byteAt f 1, byteAt f 2, byteAt f 3, 0] ++ slice f 4 2 ++ [0, 0] ++ slice f 6 (replyLen f)
        w.transfer n (.replyWrite (exchangeReplyArea block i) record) .step)

/-- The EXCHANGE step begins with entry 0 (R124). -/
def Work.exchangeStart (w : Work) (env : Env) (n : LaneId) (block : HostAddr) (es : List ExchangeEntry) : Work :=
  w.goOn env n (fun w => w.beginOrHold n .exchange (fun w =>
    let w := w.enterStep n .exchange none
    let w := w.modLane n (fun l => { l with eng := { l.eng with entryIdx := 0, exPart := .payload } })
    w.exchangeGo env n block es))

/-! ## The first step, and going on after a wait -/

/-- A READY lane with an open session begins its job's first step (R33, R101, R118, R122, R124). -/
def Work.firstStep (w : Work) (env : Env) (n : LaneId) : Work :=
  match (w.jobOf n).map JobSlot.args with
  | some (.program s _ clearAll _ level _ _) => w.rangeCheck env n s clearAll level
  | some (.readout _ _ _ _ start len) => w.readoutStart env n start.toNat len.toNat
  | some (.identify ..) => w.describe env n
  | some (.exchange _ _ block _ es) => w.exchangeStart env n block es
  | _ => w

/-- The lane goes on with the piece of its current step that is due: after a page became HELD (R88) or a ride window
ended (R145). -/
def Work.stepGo (w : Work) (env : Env) (n : LaneId) : Work :=
  let st := (w.lane n).ctx.step
  match (w.jobOf n).map JobSlot.args, w.laneCtx n with
  | some (.program ..), some c =>
    if st = .write then w.writeGo env n c else if st = .check then w.checkGo env n c else w
  | some (.readout _ _ hostBuf _ start len), some c =>
    (w.hostWriteGo n c start.toNat len.toNat hostBuf).readGo n c start.toNat len.toNat
  | some (.exchange _ _ block _ es), _ => if st = .exchange then w.exchangeGo env n block es else w
  | _, _ => w

/-- The lane begins the step whose beginning a ride window held back (R144, R145). -/
def Work.stepBegin (w : Work) (env : Env) (n : LaneId) (st : Step) : Work :=
  match (w.jobOf n).map JobSlot.args with
  | some (.program s _ clearAll _ level _ _) =>
    match st with
    | .clear => w.enterClear env n s clearAll level
    | .write => w.enterWrite env n s level
    | .check => w.enterCheck env n s level
    | .sum => w.enterSum env n s level
    | .guard => w.enterGuard env n s level
    | _ => w
  | some (.readout _ _ _ _ start len) =>
    match w.laneCtx n with
    | some c => w.enterRead env n c start.toNat len.toNat
    | none => w
  | some (.exchange _ _ block _ es) => w.exchangeStart env n block es
  | _ => w

end Sys2Proof.Machine
end

