-- ==== Sys2Proof/Machine/Session.lean ====
section
/-! DEFINITION. How a lane reaches its session (chapter 2): power-up, entry, linking, the rate fallback, the start at
grant, and the LANE-ACTION job (R39, R128). -/

namespace Sys2Proof.Machine

/-! ## Power-up and entry -/

/-- Power-up begins (R25): step POWER_UP. -/
def Work.beginPowerUp (w : Work) (env : Env) (n : LaneId) : Work :=
  (w.setStep n .powerUp).modLane n (Lane.powerUp env)

/-- An entry sequence begins (R26, R27): TRST is driven low, the step is ENTRY and the first select phase runs; in a ride
window the lane rests in HOLD and the entry is held back (R144). -/
def Work.beginEntry (w : Work) (env : Env) (n : LaneId) : Work :=
  if (w.lane n).riding then (w.modLane n Lane.toHold).holdBack n .entry
  else (w.setStep n .entry).modLane n (fun l => (l.startEntry false).selectPhase env)

/-- A rate fallback begins (R32): the descriptor is kept for R68, the session ends without CLOSE, TRST is low for 1 ms, the
sequence number is 0 from here (Table 2-9, row 13; log entry 43), and what has to be sent again is remembered. -/
def Work.beginFallback (w : Work) (env : Env) (n : LaneId) (r : Request) : Work :=
  let w := w.modLane n (fun l =>
    let c := l.ctx
    let l := (l.startEntry true).entryReset env
    { l with
      ctx := { l.ctx with fallbackCopy := c.desc, seq := 0 }
      eng := { l.eng with resume := some { req := r, step := c.step, pos := c.stepPos } } })
  w.setStep n .linking

/-! ## Linking -/

/-- The key pointer of the lane's job (R30). -/
def Work.keyPointer (w : Work) (n : LaneId) : HostAddr := (w.jobOf n).elim 0 (fun j => j.args.keyPointer)

/-- The key read, or OPEN without a key (R27, R30). -/
def Work.sendOpen (w : Work) (n : LaneId) : Work :=
  let k := w.keyPointer n
  if k ≠ 0 then w.transfer n (.keyRead k) .keyRead else w.request n ((w.lane n).openRequest [])

/-- The presence pulse is recognised (R27, R28): TSEL is released, LINKING, and OPEN or the key read follows. -/
def Work.startLinking (w : Work) (n : LaneId) : Work :=
  let w := w.modLane n (fun l =>
    { l with ctx := { l.ctx with state := .linking }, lines := { l.lines with tselLow := false },
             eng := { l.eng with phase := .none } })
  (w.setStep n .linking).sendOpen n

/-- The request that failed before a rate fallback is sent again, its step restored (R32). -/
def Work.resumeStep (w : Work) (env : Env) (n : LaneId) : Work :=
  match (w.lane n).eng.resume with
  | none => w
  | some r =>
    w.goOn env n (fun w =>
      if (w.lane n).riding then w.holdBack n .resume
      else
        let w := w.enterStep n r.step r.pos
        let w := w.modLane n (fun l => { l with eng := { l.eng with resume := none } })
        w.request n r.req)

/-- Linking is over (R31, R32): READY, the fallback copy discarded, and the lane goes on to its job. -/
def Work.finishLink (w : Work) (env : Env) (n : LaneId) : Work :=
  let w := w.modLane n (fun l => { l with ctx := { l.ctx with state := .ready, fallbackCopy := none } })
  if (w.lane n).eng.resume.isSome then w.resumeStep env n else w.firstStep env n

/-- The rate asked for by PACE (R31): the smaller of the setting and the maximum of the descriptor. -/
def Lane.paceCode (l : Lane) : Nat :=
  match l.ctx.desc with
  | some d => min l.settings.rateCode d.maxRate.toNat
  | none => 0

/-- After an accepted QUERY (R31): PACE when it is due, otherwise the end of linking. -/
def Work.afterQuery (w : Work) (env : Env) (n : LaneId) : Work :=
  let l := w.lane n
  if 0 < l.paceCode ∧ l.ctx.fallback = false then w.goOn env n (fun w => w.request n (l.paceRequest l.paceCode))
  else w.finishLink env n

/-! ## LANE-ACTION (R39, R40, R126) -/

/-- The action of a LANE-ACTION job on the lane. -/
def Work.actionOf (w : Work) (n : LaneId) : Option ActionCode :=
  match (w.jobOf n).map JobSlot.args with
  | some (.laneAction a) => some a
  | _ => none

/-- A LANE-ACTION lane reaches the final state of its action, through `f`: DONE with last step ACTION (R39). -/
def Work.actionDone (w : Work) (env : Env) (n : LaneId) (f : Lane → Lane) : Work :=
  ((w.setStep n .action).modLane n f).finalize env n .done none

/-- A LANE-ACTION lane begins, by its state at grant (Table 2-7). The reset pulse of RUN begins in a ride window too, as it drives
TRST low, and its end is held back (R144, R146: DESIGN CHOICE, log entry 38). -/
def Work.actionStart (w : Work) (env : Env) (n : LaneId) (a : ActionCode) : Work :=
  let w := w.setStep n .action
  match (w.lane n).ctx.state, a with
  | .off, .powerOn | .off, .hold | .off, .run => w.beginPowerUp env n
  | .hold, .powerOff | .run, .powerOff | .fault, .powerOff => w.actionDone env n Lane.toOff
  | .run, .hold => w.actionDone env n Lane.toHold
  | .hold, .run | .run, .run => w.modLane n (Lane.startPulse env)
  | .ready, .powerOff | .ready, .hold | .ready, .run => w.request n ((w.lane n).closeRequest (.closeAction a))
  | .fault, .clearFault => w.actionDone env n Lane.clearFault
  | _, _ => w.actionDone env n id

/-- A LANE-ACTION lane that powered up reaches HOLD (Table 2-7); one that a cancel has reached stops there (R128). In a
ride window the reset pulse that follows is held back (Table 9-3). -/
def Work.actionAtHold (w : Work) (env : Env) (n : LaneId) (a : ActionCode) : Work :=
  match a with
  | .run =>
    if (w.lane n).eng.stop.isSome then w.finalize env n .cancelled none
    else
      let w := w.setStep n .action
      if (w.lane n).riding then w.holdBack n .startPulse else w.modLane n (Lane.startPulse env)
  | _ => w.actionDone env n id

/-- A cancel reaches a LANE-ACTION lane that has a CLOSE to send held back by a ride window (R128, R144): it begins no
CLOSE and goes on with the steps that drive TRST low or switch TPWR off. -/
def Work.actionCancelHeld (w : Work) (env : Env) (n : LaneId) (a : ActionCode) : Work :=
  match a with
  | .powerOff => w.actionDone env n Lane.toOff
  | .hold => w.actionDone env n Lane.toHold
  | _ => (w.modLane n Lane.toHold).finalize env n .cancelled none

/-! ## The start of a lane at grant, and at HOLD after power-up -/

/-- The lane's job wants a new session even from READY (R26). -/
def Work.wantsFresh (w : Work) (n : LaneId) : Bool := (w.jobOf n).elim false (fun j => j.args.isFresh)

/-- A session-needing job starts on the lane, by its state (Table 2-4). -/
def Work.sessionStart (w : Work) (env : Env) (n : LaneId) : Work :=
  match (w.lane n).ctx.state with
  | .off => w.beginPowerUp env n
  | .hold | .run => w.beginEntry env n
  | .ready =>
    if w.wantsFresh n then w.request n ((w.lane n).closeRequest .closeFresh) else w.firstStep env n
  | .powering | .settling | .entry | .linking | .active | .fault => w

/-- A LANE-SET is carried out on the lane (R22, R125). -/
def Work.applySettings (w : Work) (env : Env) (n : LaneId) (v : Settings) : Work :=
  ((w.setStep n .settings).modLane n (fun l => { l with settings := v })).finalize env n .done none

/-- A live lane is handed its first step (R8, R26, R39, R125). -/
def Work.startLane (w : Work) (env : Env) (n : LaneId) : Work :=
  if w.isLive n then
    match (w.jobOf n).map JobSlot.args with
    | some (.laneSet v) => w.applySettings env n v
    | some (.laneAction a) => w.actionStart env n a
    | some _ => w.sessionStart env n
    | none => w
  else w

/-- The lane has reached HOLD after its power-up and goes on for its job (R25); a halted or draining part's lane stays
in HOLD (R42, R161). -/
def Work.atHold (w : Work) (env : Env) (n : LaneId) : Work :=
  if env.acting ∧ w.isLive n then
    match w.actionOf n with
    | some a => w.actionAtHold env n a
    | none => w.goOn env n (fun w => w.beginEntry env n)
  else w

/-- The reset pulse of RUN ends (R37, R39): TRST released, RUN, and the action or the end action is complete. -/
def Work.pulseDone (w : Work) (env : Env) (n : LaneId) : Work :=
  let w := w.modLane n Lane.releasePulse
  if w.isLive n then w.finalize env n .done none else w.leave env n

/-! ## The end of a ride window with a return (R145) -/

/-- The action that a ride window held back is taken. -/
def Work.takeHeld (w : Work) (env : Env) (n : LaneId) : Work :=
  let h := (w.lane n).eng.held
  let w := w.modLane n (fun l => { l with eng := { l.eng with held := none } })
  match h with
  | none => w
  | some .entry => w.beginEntry env n
  | some .select => w.modLane n (Lane.selectPhase env)
  | some .presence => w.modLane n (Lane.presencePhase env)
  | some .pulse => w.pulseDone env n
  | some .startPulse => w.modLane n (Lane.startPulse env)
  | some (.request r) => w.request n r
  | some .keyRead => w.sendOpen n
  | some .step => w.stepGo env n
  | some (.begin st) => w.stepBegin env n st
  | some .resume => w.resumeStep env n

end Sys2Proof.Machine
end

