-- ==== Sys2Proof/Machine/Outcome.lean ====
section
/-! DEFINITION. How the Lane Engine takes the end of an exchange (Table 3-9): the outcomes of CLOSE (R33, R38, R39), of a
request of a step or of linking (R30, R31, R32, R58), and the accepted replies (R62 to R75, R124). -/

namespace Sys2Proof.Machine

/-! ## Failures of a live lane -/

/-- A failure makes the lane's result final, or has it wait for a host transfer in flight (R121): the lane is READY while it
waits, and one sent toward FAULT drives TRST low at once, which ends its session (R34) before the outcome is copied (log
entries 15 and 41). -/
def Work.fail (w : Work) (env : Env) (n : LaneId) (r : LaneResult) (fa : Option Word) : Work :=
  if (w.lane n).eng.xfer.isNone then w.finalize env n r fa
  else
    let w := w.modLane n (fun l => { l with eng := { l.eng with due := some (r, fa) } })
    match r with
    | .linkLost | .targetStuck => w.modLane n Lane.driveTrstLow
    | _ => w

/-- TARGET_REFUSED with the cause word of R63, at the end of an exchange. -/
def Work.failRefused (w : Work) (env : Env) (n : LaneId) (status kind : Byte) (reason : CauseReason) : Work :=
  w.fail env n .targetRefused (some (causeWord status kind reason))

/-! ## Accepted replies (R62) -/

/-- The reply length required with status OK (Table 4-3); READ asks for the length field of its request. -/
def Request.replyLength (r : Request) : Nat :=
  match r.purpose, r.source with
  | .query, _ => 17
  | .checkRead _, .engine bytes => fieldAt bytes 4 2
  | .readout _ _, .engine bytes => fieldAt bytes 4 2
  | .sum _ _, _ => 4
  | _, _ => 0

/-- An OK reply to QUERY of the right length (R67, R68): checked, compared with the fallback copy, and cached. -/
def Work.queryReply (w : Work) (env : Env) (n : LaneId) (r : Request) (payload : List Byte) : Work :=
  let d := targetDescOf payload
  if !d.valid then w.failRefused env n statusOk r.kind .descriptor
  else if ((w.lane n).ctx.fallbackCopy.elim true (sameGeometry d)) = false then
    w.failRefused env n statusOk r.kind .changed
  else (w.modLane n (fun l => { l with ctx := { l.ctx with desc := some d } })).afterQuery env n

/-- An OK reply to PACE (R31, R66): the rate is the one sent, and the next request is on trial. -/
def Work.paceReply (w : Work) (env : Env) (n : LaneId) (code : Nat) : Work :=
  (w.modLane n (fun l => { l with ctx := { l.ctx with rate := code, trial := true } })).finishLink env n

/-- The lane's cursor has passed the last page of the list (R89). -/
def Work.pastLast (w : Work) (n : LaneId) : Bool := (w.lane n).ctx.cursor = .past

/-- An OK reply to WRITE (R89, R108, R109): the page is consumed. -/
def Work.writeReply (w : Work) (env : Env) (n : LaneId) (c : CtxId) (s : StepSet) (level : Nat) : Work :=
  let w := w.consumePage c n
  if w.pastLast n then w.finishWrite env n c s level else w.writeGo env n c

/-- The offset of the first byte in which a READ reply differs from the page at the lane's cursor (R110). -/
def Work.compare (w : Work) (n : LaneId) (c : CtxId) (payload : List Byte) : Option Nat :=
  match w.pageReady c n with
  | some (_, b) => firstDiff ((w.buf b).data.take (w.ctx c).size) payload
  | none => none

/-- An OK reply to a READ of the CHECK pass (R89, R110): compared, consumed, and a difference ends the lane. -/
def Work.checkReply (w : Work) (env : Env) (n : LaneId) (c : CtxId) (s : StepSet) (level page : Nat)
    (payload : List Byte) : Work :=
  let diff := w.compare n c payload
  let w := w.consumePage c n
  match diff with
  | some off => w.fail env n .compareMismatch (some (BitVec.ofNat 32 (page + off)))
  | none => if w.pastLast n then w.finishCheck env n c s level else w.checkGo env n c

/-- An OK reply to a READ of a READOUT (R119 to R121): the page is handed to the buffer that it fills, its host write and the
next READ begin unless the lane has to stop. -/
def Work.readoutReply (w : Work) (env : Env) (n : LaneId) (b : BufId) (payload : List Byte) : Work :=
  (w.modBuf b (fun p => if p.state = .filling then { p with state := .held, data := payload } else p)).goOn env n
    (fun w => w.stepGo env n)

/-- An OK reply to SUM (R112): the target's value against the reference. -/
def Work.sumReply (w : Work) (env : Env) (n : LaneId) (s : StepSet) (level seg : Nat) (reference : Word)
    (payload : List Byte) : Work :=
  if wordAt payload 0 = reference then w.sumGo env n s level (seg + 1)
  else w.fail env n .sumMismatch (((w.laneSegs n)[seg]?).map Segment.addr)

/-- An OK reply to GUARD (R74, R113): the cached level is the one sent, and the lane is DONE. -/
def Work.guardReply (w : Work) (env : Env) (n : LaneId) (level : Nat) : Work :=
  (w.modLane n (fun l => { l with ctx := { l.ctx with
      desc := l.ctx.desc.map (fun d => { d with protection := BitVec.ofNat 8 level }) } })).finalize env n .done none

/-- The reply to an EXCHANGE entry (R124): the frame takes the payload's place in the exchange buffer and its record is
written next. -/
def Work.entryReply (w : Work) (env : Env) (n : LaneId) (frame : List Byte) : Work :=
  (w.modLane n (fun l => { l with eng := { l.eng with xbuf := frame, exPart := .reply } })).goOn env n
    (fun w => w.stepGo env n)

/-- The step position of the lane, 0 when it has none. -/
def Work.posOf (w : Work) (n : LaneId) : Nat := (w.lane n).ctx.stepPos.getD 0

/-- A reply that passed the checks of status and length is a success (R62). -/
def Work.replySuccess (w : Work) (env : Env) (n : LaneId) (r : Request) (payload : List Byte) : Work :=
  match r.purpose with
  | .openSession => w.goOn env n (fun w => w.request n (w.lane n).queryRequest)
  | .query => w.queryReply env n r payload
  | .pace code => w.paceReply env n code
  | .readout _ b => w.readoutReply env n b payload
  | .clear | .write _ | .checkRead _ | .sum _ _ | .guard _ =>
    match (w.jobOf n).map JobSlot.args with
    | some (.program s _ clearAll _ level _ _) =>
      match r.purpose, w.laneCtx n with
      | .clear, _ => w.clearGo env n s clearAll level (w.posOf n + 1)
      | .write _, some c => w.writeReply env n c s level
      | .checkRead page, some c => w.checkReply env n c s level page payload
      | .sum seg reference, _ => w.sumReply env n s level seg reference payload
      | .guard g, _ => w.guardReply env n g
      | _, _ => w
    | _ => w
  | .entry | .closeFresh | .closeEnd _ | .closeAction _ => w

/-- A status other than OK (R64, Table 4-2). -/
def Work.refusedStatus (w : Work) (env : Env) (n : LaneId) (r : Request) (status : Byte) : Work :=
  if r.purpose = .openSession ∧ status = statusKeyWrong then w.fail env n .keyRejected none
  else w.failRefused env n status r.kind .status

/-- An accepted reply to a request of linking or of a step (R62); an OK reply to OPEN opens the session (R30). An EXCHANGE
entry's reply is taken whatever it is (R124). -/
def Work.replyTaken (w : Work) (env : Env) (n : LaneId) (r : Request) (frame : List Byte) (status : Byte)
    (payload : List Byte) : Work :=
  if r.purpose = .entry then w.entryReply env n frame
  else if status ≠ statusOk then w.refusedStatus env n r status
  else
    let w := if r.purpose = .openSession then
      w.modLane n (fun l => { l with ctx := { l.ctx with session := true } }) else w
    if payload.length ≠ r.replyLength then w.failRefused env n statusOk r.kind .length
    else w.replySuccess env n r payload

/-! ## Outcomes -/

/-- The end of an exchange that carried a request of linking or of a step. EXHAUSTED is a rate fallback for the first
request after a PACE, unless the lane has to stop (R32, R94, R121, R135). -/
def Work.requestEnd (w : Work) (env : Env) (n : LaneId) (r : Request) (trial : Bool) (frame : List Byte) :
    ExchangeOutcome → Work
  | .accepted status payload => w.replyTaken env n r frame status payload
  | .busyLimit => w.fail env n .targetStuck none
  | .stopped => w.goOn env n id
  | .exhausted =>
    if trial then w.goOn env n (fun w => w.beginFallback env n r) else w.fail env n .linkLost none

/-- The end of an end-action CLOSE (R38). -/
def Work.closeEndDone (w : Work) (env : Env) (n : LaneId) (e : EndAction) (o : ExchangeOutcome) : Work :=
  match e, o with
  | .off, _ => w.finishEnd env n .off
  | _, .exhausted => (w.modLane n (Lane.enterFault .linkLost)).leave env n
  | _, .busyLimit => (w.modLane n (Lane.enterFault .targetStuck)).leave env n
  | _, _ => w.finishEnd env n e

/-- The end of the CLOSE of a LANE-ACTION (R39, Table 7-5). -/
def Work.closeActionDone (w : Work) (env : Env) (n : LaneId) (a : ActionCode) (o : ExchangeOutcome) : Work :=
  match a, o with
  | .powerOff, _ => w.actionDone env n Lane.toOff
  | _, .exhausted => w.finalize env n .linkLost none
  | _, .busyLimit => w.finalize env n .targetStuck none
  | .run, _ =>
    if (w.lane n).eng.stop.isSome then (w.modLane n Lane.toHold).finalize env n .cancelled none
    else w.modLane n (Lane.startPulse env)
  | _, _ => w.actionDone env n Lane.toHold

/-- The end of the CLOSE of a FRESH job (R33): whatever the outcome, TRST is driven low and entry begins. -/
def Work.closeFreshDone (w : Work) (env : Env) (n : LaneId) : Work :=
  (w.modLane n Lane.toHold).goOn env n (fun w => w.beginEntry env n)

/-- An exchange ended with this outcome answered. -/
def ExchangeOutcome.answered : ExchangeOutcome → Bool
  | .accepted _ _ => true
  | _ => false

/-- What every ended exchange does to its lane (R35, R57, R58): the record is clear, the sequence number advances, and an
answered one clears the rate trial flag (R31) and takes ACTIVE to READY. -/
def Lane.afterExchange (o : ExchangeOutcome) (l : Lane) : Lane :=
  let l := l.closeExchange o.answered
  if o.answered then
    { l with ctx := { l.ctx with trial := false, state := if l.ctx.state = .active then .ready else l.ctx.state } }
  else l

/-- The lane comes to rest in a halted part once no host transfer is in flight (R161). -/
def Work.restIfQuiet (w : Work) (n : LaneId) : Work :=
  if (w.lane n).atBoundary then w.modLane n Lane.rest else w

/-- A READY lane whose exchange ended without a reply is between requests (R35): READY, unless a rule takes it further. -/
def Lane.unanswered (l : Lane) : Lane :=
  if l.ctx.state = .active then { l with ctx := { l.ctx with state := .ready } } else l

/-- The purpose is a CLOSE. -/
def Purpose.isClose : Purpose → Bool
  | .closeFresh | .closeEnd _ | .closeAction _ => true
  | _ => false

/-- The lane as the end of an exchange leaves it. That of a CLOSE ends the session whatever the outcome (R34, R75). -/
def Lane.exchangeOver (p : Purpose) (o : ExchangeOutcome) (l : Lane) : Lane :=
  let l := (l.afterExchange o).unanswered
  if p.isClose then l.endSession else l

/-- An exchange ends with an outcome (R58). In a halted part the lane rests in HOLD and nothing else follows (R161). -/
def Work.exchangeEnd (w : Work) (env : Env) (n : LaneId) (o : ExchangeOutcome) : Work :=
  match (w.lane n).link.req with
  | none => w
  | some r =>
    let frame := (w.lane n).link.replyArea
    let trial := (w.lane n).ctx.trial
    let w := w.modLane n (Lane.exchangeOver r.purpose o)
    if !env.acting then w.restIfQuiet n
    else match r.purpose with
      | .closeFresh => w.closeFreshDone env n
      | .closeEnd e => w.closeEndDone env n e o
      | .closeAction a => w.closeActionDone env n a o
      | _ => w.requestEnd env n r trial frame o

/-- What follows a Link Unit event (R58). -/
def Work.linkStep (w : Work) (env : Env) (n : LaneId) : LinkEvent → Work
  | .goesOn l => w.setLane n l
  | .ends l o => (w.setLane n l).exchangeEnd env n o

end Sys2Proof.Machine
end

