-- ==== Sys2Proof/Machine/Lifecycle.lean ====
section
/-! DEFINITION. What reaches lanes from outside their own steps: a grant (R6 to R9), the report on an image descriptor
(R10, R80), a cancel (R132 to R135, R128), an image read error (R94), a cut (R142, R143), a halt (R161) and the soft
reset drain (R42). -/

namespace Sys2Proof.Machine

/-! ## Grant -/

/-- The mask of the lanes that some job owns (R4). -/
def Work.ownedMask (w : Work) : LaneMask :=
  Config.allLanes.foldl (fun m n => if (w.ownerOf n).isSome then addLane m n else m) 0

/-- The jobs of a list that a scan grants (R6): no lane of theirs is in `blocked`, which holds the lanes that are owned
and those of every older waiting job. -/
def Work.grantableFrom (w : Work) (blocked : LaneMask) : List SlotId → List SlotId
  | [] => []
  | i :: is =>
    match w.slot i with
    | none => w.grantableFrom blocked is
    | some j =>
      if j.mask &&& blocked = 0 then i :: w.grantableFrom (blocked ||| j.mask) is
      else w.grantableFrom (blocked ||| j.mask) is

/-- The jobs that one grant scan grants (R6). -/
def Work.grantable (w : Work) : List SlotId := w.grantableFrom w.ownedMask w.grantList

/-- The lowest-numbered FREE Image Context (R9; which one is taken is log entry 22). -/
def Work.freeCtx (w : Work) : Option CtxId := Config.allCtxs.find? (fun c => (w.ctx c).state = .free)

/-- The fault cause code as a fault address (R39). -/
def Lane.causeAddr (l : Lane) : Option Word :=
  if l.ctx.state = .fault then l.ctx.faultCause.map (fun r => (resultCode r).setWidth 32) else none

/-- A lane is granted to the job of slot `i` (R8): its owning slot and its starting accumulators; a lane in FAULT starts
with its fault cause as the fault address (R39, R126). -/
def Lane.granted (i : SlotId) (l : Lane) : Lane :=
  { l with ctx := { l.ctx with slot := some i, step := .none, retries := 0, drops := 0, faultAddr := l.causeAddr,
                               sumsSkipped := 0, cursor := .start, stepPos := none } }

/-- The context as a granted job takes it (R82, R99, R118). -/
def grantedCtx (i : SlotId) (args : JobArgs) : ImageCtx :=
  match args with
  | .program _ _ _ _ _ ptr _ =>
    { ImageCtx.free with state := .descriptor, slot := some i, descPtr := ptr, descDue := some .header }
  | _ => { ImageCtx.free with state := .readout, slot := some i }

/-- A granted job takes its lowest free Image Context when it needs one (R9). -/
def Work.takeCtx (w : Work) (i : SlotId) (j : JobSlot) : Work :=
  if j.args.needsContext then
    match w.freeCtx with
    | some c => (w.setCtx c (grantedCtx i j.args)).setSlot i (some { j with ctx := some c })
    | none => w
  else w

/-- The job takes no other lane action but a LANE-ACTION's (R8). -/
def JobArgs.isLaneAction : JobArgs → Bool
  | .laneAction _ => true
  | _ => false

/-- The job waits for its image descriptor (R10). -/
def JobArgs.waitsForImage : JobArgs → Bool
  | .program _ _ _ _ _ d _ => d ≠ 0
  | _ => false

/-- The slot as its job is granted (R8). -/
def JobSlot.granted (j : JobSlot) : JobSlot :=
  { j with state := .running, live := j.mask, lastSteps := Vector.replicate 8 .none }

/-- What a grant hands over (R8): the slot leaves the Grant List and runs, its lanes are owned, and it takes its context. -/
def Work.handOver (w : Work) (i : SlotId) (j : JobSlot) : Work :=
  let w := { w with grantList := w.grantList.filter (fun k => k ≠ i) }
  let w := w.setSlot i (some j.granted)
  let w := w.forLanes (lanesIn j.mask) (fun w n => (w.modLane n (Lane.granted i)).setOwner n (some i))
  w.takeCtx i j.granted

/-- One job is granted (R8): what it is handed, LANE_FAULTED for the lanes in FAULT, and the start of the live lanes unless
the job waits for its image (R10). -/
def Work.grantJob (env : Env) (w : Work) (i : SlotId) : Work :=
  match w.slot i with
  | none => w
  | some j =>
    let ns := lanesIn j.mask
    let w := w.handOver i j
    let faulted := if j.args.isLaneAction then [] else ns.filter (fun n => (w.lane n).ctx.state = .fault)
    let w := w.finalizeAll env faulted .laneFaulted
    if j.args.waitsForImage then w
    else w.forLanes (ns.filter (fun n => !faulted.contains n)) (fun w n => w.startLane env n)

/-- A grant scan (R6): every job that it grants, oldest first. -/
def Work.grantScan (w : Work) (env : Env) : Work := w.grantable.foldl (Work.grantJob env) w

/-! ## The image descriptor -/

/-- The job whose context this is. -/
def Work.ctxSlot (w : Work) (c : CtxId) : Option SlotId := (w.ctx c).slot

/-- IMAGE_INVALID or IMAGE_UNREADABLE (R10): every live lane is NOT_RUN and leaves, and the job completes. -/
def Work.imageFailed (w : Work) (env : Env) (c : CtxId) (f : ImageFailure) : Work :=
  match w.ctxSlot c with
  | none => w
  | some i =>
    let live := w.ctxLive c
    (w.modSlot i (fun j => { j with imageFail := some f })).finalizeAll env (lanesIn live) .notRun

/-- The step set of the job that holds the context. -/
def Work.ctxSteps (w : Work) (c : CtxId) : StepSet :=
  match ((w.ctxSlot c).bind w.slot).map JobSlot.args with
  | some (.program s _ _ _ _ _ _) => s
  | _ => { clear := false, write := false, check := false, sum := false, guard := false }

/-- The first pass that is due begins; with none due, or no live lane to have one (R93), the context is IDLE (R80). -/
def Work.startPasses (w : Work) (c : CtxId) : Work :=
  if w.ctxLive c = 0 then w.modCtx c ImageCtx.passesOver
  else if (w.ctx c).writeDue then w.beginPass c .write
  else if (w.ctx c).checkDue then w.beginPass c .check
  else w.modCtx c ImageCtx.passesOver

/-- The descriptor is accepted (R10, R80): header and table are copied, the first pass begins, and every live lane
starts. -/
def Work.imageAccepted (w : Work) (env : Env) (c : CtxId) (count pageCode fill : Byte) (segs : List Segment) : Work :=
  let s := w.ctxSteps c
  let w := w.modCtx c (fun x =>
    { x with count := count, pageCode := pageCode, fill := fill, segs := segs, writeDue := s.write, checkDue := s.check,
             computed := List.replicate segs.length none, descDue := none, descBusy := none })
  let live := w.ctxLive c
  (w.startPasses c).forLanes (lanesIn live) (fun w n => w.startLane env n)

/-- A descriptor read whose report is discarded ends: IDLE with no pass due (R133). -/
def Work.descDiscarded (w : Work) (c : CtxId) : Work :=
  w.modCtx c (fun x => { x.passesOver with descDue := none, descBusy := none })

/-- The header read of a held context ends (R78, R79). -/
def Work.headerEnd (w : Work) (env : Env) (c : CtxId) : ReadEnd → Work
  | .error => if w.ctxCancelled c then w.descDiscarded c else w.imageFailed env c .unreadable
  | .ok data =>
    let count := byteAt data 0
    let pageCode := byteAt data 1
    if headerValid count pageCode then
      w.modCtx c (fun x => { x with descDue := some (.table count pageCode (byteAt data 2)), descBusy := none })
    else if w.ctxCancelled c then w.descDiscarded c
    else w.imageFailed env c (.invalid 0xFF#8)

/-- The table read of a held context ends (R79, R80). -/
def Work.tableEnd (w : Work) (env : Env) (c : CtxId) (count pageCode fill : Byte) (r : ReadEnd) : Work :=
  if w.ctxCancelled c then w.descDiscarded c
  else match r with
    | .error => w.imageFailed env c .unreadable
    | .ok data =>
      let segs := segmentsOf data count.toNat
      match firstBadSegment 0 0 segs with
      | some i => w.imageFailed env c (.invalid (BitVec.ofNat 8 i))
      | none => w.imageAccepted env c count pageCode fill segs

/-! ## Stopping live lanes: cancel and image read error -/

/-- A lane stops in the event of a cancel or an image read error: no request outstanding, no host transfer in flight, not
powering up (Table 8-2, R94). -/
def Lane.stopsNow (l : Lane) : Bool :=
  l.atBoundary && !(l.ctx.state = .powering || l.ctx.state = .settling)

/-- A live lane that cannot stop yet is marked; a cancel also sets the Link Unit's stop mark (R59, R134). -/
def Work.markLane (w : Work) (env : Env) (cause : StopCause) (n : LaneId) : Work :=
  let w := w.modLane n (Lane.markStop cause)
  if cause = .cancel ∧ !(w.lane n).linkIdle then w.linkStep env n (w.lane n).setStopMark else w

/-- A cancel or an image read error reaches the live lanes of a job that has end actions (R94, R134): those that can stop
end together, the others are marked. -/
def Work.stopLanes (w : Work) (env : Env) (ns : List LaneId) (cause : StopCause) (r : LaneResult) : Work :=
  let now := ns.filter (fun n => (w.lane n).stopsNow)
  let later := ns.filter (fun n => !(w.lane n).stopsNow)
  (w.finalizeAll env now r).forLanes later (fun w n => if w.isLive n then w.markLane env cause n else w)

/-- A cancel reaches a live LANE-ACTION lane (R128, Table 7-5). -/
def Work.cancelAction (w : Work) (env : Env) (n : LaneId) (a : ActionCode) : Work :=
  let l := w.lane n
  if !l.linkIdle then w.markLane env .cancel n
  else match l.ctx.state with
    | .powering | .settling => w.modLane n (Lane.markStop .cancel)
    | .ready => w.actionCancelHeld env n a
    | _ => (w.modLane n Lane.toHold).finalize env n .cancelled none

/-- A RUNNING job named by a CANCEL (R133, R134): its cancel link is set and the cancel reaches every live lane. -/
def Work.cancelRunning (w : Work) (env : Env) (i : SlotId) (k : CancelLink) : Work :=
  match w.slot i with
  | none => w
  | some j =>
    let w := w.setSlot i (some { j with cancelLink := some k })
    let ns := (lanesIn j.live).filter w.isLive
    match j.args with
    | .laneAction a => w.forLanes ns (fun w n => w.cancelAction env n a)
    | _ => w.stopLanes env ns .cancel .cancelled

/-- A WAITING job named by a CANCEL (R132): off the Grant List, every lane NOT_RUN, and both entries formed. -/
def Work.cancelWaiting (w : Work) (env : Env) (i : SlotId) (k : CancelLink) : Work :=
  let w := { w with grantList := w.grantList.filter (fun x => x ≠ i) }
  (w.modSlot i (fun j =>
    { j with results := Vector.ofFn (fun n : LaneId => if hasLane j.mask n then some .notRun else none),
             cancelLink := some k })).completeAs env i 1

/-- A memory port error on a page fetch (R94): the buffer FAILED, the context STOPPED, and every live lane of the job ends
at its next request boundary. -/
def Work.imageReadError (w : Work) (env : Env) (c : CtxId) (f : Fetch) : Work :=
  let live := w.ctxLive c
  let w := w.modBuf f.buf (fun p => { p with state := .failed })
  let w := w.modCtx c (fun x => { x with state := .stopped, fetch := none })
  w.stopLanes env (lanesIn live) .imageError .imageReadError

/-- A fetch is complete (R88): lanes that wait for the page begin their request in the same event. -/
def Work.pageHeld (w : Work) (env : Env) (c : CtxId) (f : Fetch) : Work :=
  let w := w.fetchDone c f
  let waits := fun (w : Work) (n : LaneId) =>
    w.isLive n && (w.lane n).ctx.state = .ready && (w.lane n).linkIdle && (w.lane n).eng.held.isNone
      && (w.ctx c).pageAt (w.lane n).ctx.cursor = some f.page
  w.forLanes (lanesIn (w.ctx c).passLanes) (fun w n => if waits w n then w.stepGo env n else w)

/-! ## Cut, halt and drain -/

/-- A cut (R142, R143, R146): the lines and the lane at once; a live lane's SUPPLY_DROP is final now or when its host
transfer ends, and a lane carrying out an end action leaves. The session is over before the outcome is copied (DESIGN
CHOICE, log entry 41). -/
def Work.cutLane (w : Work) (env : Env) (n : LaneId) : Work :=
  let w := w.modLane n Lane.cut
  if !env.acting then w
  else if w.isLive n then
    if (w.lane n).eng.xfer.isSome then
      w.modLane n (fun l => { l with eng := { l.eng with due := some (.supplyDrop, none) } })
    else w.finalize env n .supplyDrop none
  else w.leave env n

/-- The part becomes HALTED (R161): an outstanding request runs on with the stop mark, a host transfer in flight to its
end, and every other lane on its way comes to rest. `env` is that of the halted part. -/
def Work.haltLane (env : Env) (w : Work) (n : LaneId) : Work :=
  if !(w.lane n).linkIdle then w.linkStep env n (w.lane n).setStopMark else w.restIfQuiet n

/-- A lane can report that it has drained (R42). -/
def Lane.atRest (l : Lane) : Bool :=
  (l.ctx.state = .off || l.ctx.state = .hold || l.ctx.state = .run || l.ctx.state = .fault)
    && l.atBoundary && !l.riding

/-- The Lane Context of a lane that has come to rest in the drain (R42). -/
def LaneCtx.drained (c : LaneCtx) : LaneCtx :=
  { LaneCtx.reset with state := c.state, answered := c.answered, attempts := c.attempts, faultCause := c.faultCause }

/-- A lane of a draining part that has come to rest reports so, once (R42). -/
def Lane.tryDrain (l : Lane) : Lane :=
  if l.atRest ∧ l.eng.drained = false then
    { l with ctx := l.ctx.drained, eng := { Engine.idle with drained := true } }
  else l

/-- The exchange of a lane of a draining part is abandoned, and the lane comes to rest (R42, R60). -/
def Lane.drainExchange (l : Lane) : Lane := l.abandon.rest

/-- The part enters DRAINING (R42): all but a busy hold is abandoned at once. -/
def Lane.beginDrain (l : Lane) : Lane :=
  let l := { l with eng := { l.eng with drained := false } }
  (if l.link.state = .busyHold then l else l.drainExchange).tryDrain

/-- Does `f` on every lane, in ascending order. -/
def Work.eachLane (w : Work) (f : Work → LaneId → Work) : Work := w.forLanes Config.allLanes f

end Sys2Proof.Machine
end

