-- ==== Sys2Proof/Machine/Admission.lean ====
section
/-! DEFINITION. The taking of a record (R150, R151): the placing of jobs (R1, R2), the search for the job that a CANCEL names
(R3, R130), the resolution of a CANCEL (R131 to R133), and Job Intake's take. -/

namespace Sys2Proof.Machine

/-- What the blocks behind `Work` read of the part. -/
def State.env (s : State) : Env := { part := s.part.state, jobHead := s.rings.jobHead, clock := s.clock }

/-- An event of the Job Table, the Image Reader, the Page Pool or the lanes. -/
def State.onWork (s : State) (f : Env → Work → Work) : State := { s with work := f s.env s.work }

/-- A post reservation is free (R152). -/
def Work.reservationFree (w : Work) : Bool := decide (w.queue.length + w.reserved < Config.postCapacity)

/-! ## The search for the named job (R3, R130) -/

/-- A member of the search set of a CANCEL (R130). -/
inductive Named where
  | slot (i : SlotId) (adm : Word)
  | entry (adm : Word)
deriving DecidableEq, Repr

/-- The admission number of a member. -/
def Named.adm : Named → Word
  | .slot _ a => a
  | .entry a => a

/-- The jobs in occupied slots with the tag (R130). -/
def Work.namedSlots (w : Work) (tag : Word) : List Named :=
  Config.allSlots.filterMap (fun i => (w.slot i).bind (fun j => if j.tag = tag then some (.slot i j.adm) else none))

/-- The filled entries with the tag that are no CANCEL's (R130). -/
def Work.namedEntries (w : Work) (tag : Word) : List Named :=
  w.queue.filterMap (fun e => if e.tag = tag ∧ e.kind ≠ cancelKind then some (.entry e.adm) else none)

/-- `a` is older than `b`: its distance to the counter, modulo 2^32, is the greater (R3). -/
def older (counter a b : Word) : Bool := (counter - b).toNat < (counter - a).toNat

/-- The oldest member of a list (R130). -/
def oldest (counter : Word) : List Named → Option Named
  | [] => none
  | x :: xs => match oldest counter xs with
    | none => some x
    | some y => if older counter y.adm x.adm then some y else some x

/-- The named job of a CANCEL (R130). -/
def Work.findNamed (w : Work) (counter tag : Word) : Option Named :=
  oldest counter (w.namedSlots tag ++ w.namedEntries tag)

/-! ## Taking a record (R150, R151, R131, R2) -/

/-- The lowest-numbered free slot (R1). -/
def Work.freeSlot (w : Work) : Option SlotId := Config.allSlots.find? (fun i => (w.slot i).isNone)

/-- A slot at placement (Table 1-2). -/
def placedSlot (r : List Byte) (adm : Word) (args : JobArgs) : JobSlot :=
  { tag := recordTag r, mask := recordMask r, live := 0, results := Vector.replicate 8 none,
    lastSteps := Vector.replicate 8 .none, copies := Vector.replicate 8 none, state := .waiting, ctx := none,
    imageFail := none, cancelLink := none, adm := adm, reportAddr := recordReport r, args := args }

/-- A slotted record is placed in the lowest-numbered free slot and joins the Grant List at its tail (R1, R5). -/
def Work.place (w : Work) (j : JobSlot) : Work :=
  match w.freeSlot with
  | some i => { w.setSlot i (some j) with grantList := w.grantList ++ [i] }
  | none => w

/-- A CANCEL is resolved (Table 8-1); `counter` is the admission counter after the CANCEL took its number. -/
def Work.resolveCancel (w : Work) (env : Env) (counter tag adm named : Word) : Work :=
  let answer := fun st d => w.fillEntry (cancelEntry tag adm named st d env.jobHead)
  match w.findNamed counter named with
  | none => answer .notFound 0
  | some (.entry _) => answer .tooLate 1
  | some (.slot i _) =>
    match w.slot i with
    | none => answer .notFound 0
    | some j =>
      if j.cancelLink.isSome then answer .alreadyCancelling 0
      else match j.state with
        | .ending => answer .tooLate 2
        | .waiting => w.cancelWaiting env i { tag := tag, adm := adm }
        | .running => w.cancelRunning env i { tag := tag, adm := adm }

/-- A judged record is refused, resolved or placed, its reservation made (R151, R131, R1). -/
def Work.admitRecord (w : Work) (env : Env) (r : List Byte) (adm : Word) : Work :=
  let w := { w with reserved := w.reserved + 1 }
  match judgeRecord r with
  | .refused reason => w.fillEntry (refusedEntry r adm reason env.jobHead)
  | .cancel named => w.resolveCancel env (adm + 1) (recordTag r) adm named
  | .slotted args => w.place (placedSlot r adm args)

/-- The held copy can be taken: refused, a CANCEL, or a slot is free (R150). -/
def State.canTake (s : State) (r : List Byte) : Bool :=
  s.part.state = .running && (match judgeRecord r with
    | .slotted _ => s.work.freeSlot.isSome
    | _ => true)

/-- A record is taken (R150): JOB_HEAD and the admission counter advance, and it is admitted with JOB_HEAD as advanced. -/
def State.take (s : State) (r : List Byte) : State :=
  let adm := s.intake.counter
  let s := { s with rings := { s.rings with jobHead := (s.rings.jobHead + 1) % s.rings.jobSize },
                    intake := { s.intake with counter := adm + 1, held := none } }
  s.onWork (fun env w => w.admitRecord env r adm)

/-- Job Intake takes the held record when it can (R150). -/
def State.jobTake (s : State) : State :=
  match s.intake.held with
  | some r => if s.canTake r then s.take r else s
  | none => s

end Sys2Proof.Machine
end

