-- ==== Sys2Proof/Machine/Part.lean ====
section
/-! DEFINITION. The shared operations on the whole part: what a command answers, halt (R161), the discarding of the held
record (R150), QUIESCED (R160), and an event at one lane. -/

namespace Sys2Proof.Machine

/-- The held record waits for a slot: it is neither refused nor a CANCEL (R150). -/
def State.heldWaits (s : State) : Bool :=
  match s.intake.held.map judgeRecord with
  | some (.slotted _) => true
  | _ => false

/-- The event that frees a slot when none was free takes the held record (R150), after what freed the slot (log entry 4). -/
def State.takeFreed (s t : State) : State :=
  if s.work.freeSlot.isNone ∧ t.work.freeSlot.isSome ∧ t.heldWaits then t.jobTake else t

/-- What every command but the resets answers: while RESET_N is low the part stays as it is (R163); otherwise a record that
waited for a slot is taken if one has been freed (R150), and IRQ_N follows its condition at the end of the event
(R156). -/
def State.answer (s t : State) : Host.Outcome State Fault Refusal :=
  .next (if s.part.resetLow then s else (s.takeFreed t).refreshIrq)

/-- A lane of a draining part reports when it has come to rest (R42). -/
def Work.drainCheck (w : Work) (env : Env) (n : LaneId) : Work :=
  if env.part = .draining then w.modLane n Lane.tryDrain else w

/-- An event at lane `n` (95). -/
def State.laneEvent (s : State) (n : LaneId) (f : Env → Work → Work) : State :=
  s.onWork (fun env w => (f env w).drainCheck env n)

/-- The part leaves RUNNING, or a soft reset begins (R150, R162): the held record is discarded, and the data of a record
read in flight will be. -/
def Intake.stop (i : Intake) : Intake := { i with held := none, readVoid := i.reading }

/-- A fatal error (R161): HALTED with the code, unless the part is HALTED already, whose first code stands. -/
def State.halt (s : State) (code : FatalCode) : State :=
  if s.part.state = .halted then s
  else
    let s := { s with part := { s.part with state := .halted, fatal := code }, intake := s.intake.stop }
    s.onWork (fun env w => w.eachLane (Work.haltLane env))

/-- The part is QUIESCING and empty (R160). -/
def State.isQuiet (s : State) : Bool :=
  s.part.state = .quiescing && Config.allSlots.all (fun i => (s.work.slot i).isNone) && s.work.queue.isEmpty
    && s.work.reserved == 0 && !s.intake.reading

/-- A QUIESCING part enters QUIESCED once it is empty (R160). -/
def State.tryQuiesced (s : State) : State :=
  if s.isQuiet then { s with part := { s.part with state := .quiesced } } else s

/-- The memory port becomes free. -/
def State.freePort (s : State) : State := { s with port := none }

/-- The bytes of a read are as many as it asked for. -/
def ReadEnd.fits (len : Nat) : ReadEnd → Bool
  | .ok data => data.length = len
  | .error => true

end Sys2Proof.Machine
end

