-- ==== Sys2Proof/Machine/EntryEvents.lean ====
section
/-! DEFINITION. The events of a lane's entry attempts (R27 to R29) and the end of the reset pulse of RUN (R37, R39). In a ride
window the start of a select phase and the release of TRST are held back (R144). -/

namespace Sys2Proof.Machine

/-- The select phase of an attempt runs. -/
def Phase.isSelect : Phase → Bool
  | .select _ => true
  | _ => false

/-- The presence phase of an attempt runs. -/
def Phase.isPresence : Phase → Bool
  | .presence _ _ => true
  | _ => false

/-- When TRST was released for the presence phase that runs (R28). -/
def Phase.released : Phase → Nat
  | .presence released _ => released
  | .none | .select _ | .reset _ | .pulse _ => 0

/-- The 1 ms reset before an attempt runs. -/
def Phase.isReset : Phase → Bool
  | .reset _ => true
  | _ => false

/-- The reset pulse of RUN runs. -/
def Phase.isPulse : Phase → Bool
  | .pulse _ => true
  | _ => false

/-- The lane's timed phase. -/
def State.phase (s : State) (n : LaneId) : Phase := (s.work.lane n).eng.phase

/-- The phase is over, and what follows is held back in a ride window, or done by `k` (R144). -/
def Work.phaseOver (w : Work) (n : LaneId) (h : Held) (k : Work → Work) : Work :=
  if (w.lane n).riding then
    w.modLane n (fun l => { l with eng := { l.eng with phase := .none, held := some h } })
  else k w

/-- SELECT_PHASE_END (R27): the presence phase. -/
def execSelectPhaseEnd (n : LaneId) (s : State) : Host.Outcome State Fault Refusal :=
  s.answer (if (s.phase n).isSelect then
    s.laneEvent n (fun env w => w.phaseOver n .presence (fun w => w.modLane n (Lane.presencePhase env))) else s)

/-- The length of a low that has ended, as R28 times it: from the release of TRST when the low was there before (its dates:
log entry 12). -/
def presenceLow (now released : Nat) (pulse : EndedLow) : Nat :=
  if now - pulse.stood - pulse.low < released then now - pulse.stood - released else pulse.low

/-- PRESENCE_PULSE (R28, R45): a low of at least 20 bit times at rate 0 has ended within the entry limit, and the high level
has passed the glitch filter. -/
def execPresencePulse (n : LaneId) (pulse : EndedLow) (s : State) : Host.Outcome State Fault Refusal :=
  s.answer (if (s.phase n).isPresence ∧ presenceTime ≤ presenceLow s.clock (s.phase n).released pulse
      ∧ passesGlitchFilter 0 pulse.stood then
    s.laneEvent n (fun _ w => w.startLinking n) else s)

/-- The entry limit of an attempt expires (R29): the next attempt after 1 ms, or FAULT with NO_TARGET. In the re-entry of a
rate fallback the last step of NO_TARGET is LINKING, the step in which the lane is (DEDUCED, log entry 42). The session
is over before the outcome is copied (log entry 41). -/
def Work.attemptFailed (w : Work) (env : Env) (n : LaneId) : Work :=
  let l := w.lane n
  if l.ctx.attempts < l.settings.entryAttempts then w.modLane n (Lane.entryReset env)
  else (w.modLane n (Lane.enterFault .noTarget)).finalize env n .noTarget none

/-- ENTRY_LIMIT_EXPIRY (R29). -/
def execEntryLimitExpiry (n : LaneId) (s : State) : Host.Outcome State Fault Refusal :=
  s.answer (if (s.phase n).isPresence then
    s.laneEvent n (fun env w => w.attemptFailed env n) else s)

/-- ENTRY_RESET_END (R29, R32): the next select phase. -/
def execEntryResetEnd (n : LaneId) (s : State) : Host.Outcome State Fault Refusal :=
  s.answer (if (s.phase n).isReset then
    s.laneEvent n (fun env w => w.phaseOver n .select (fun w => w.modLane n (Lane.selectPhase env))) else s)

/-- RESET_PULSE_END (R37, R39): RUN. -/
def execResetPulseEnd (n : LaneId) (s : State) : Host.Outcome State Fault Refusal :=
  s.answer (if (s.phase n).isPulse then
    s.laneEvent n (fun env w => w.phaseOver n .pulse (fun w => w.pulseDone env n)) else s)

end Sys2Proof.Machine
end

