-- ==== Sys2Proof/Machine/HostTransfers.lean ====
section
/-! DEFINITION. The ends of a lane's host transfers (R121): the key read of OPEN (R30), READOUT page writes (R120), EXCHANGE
payload reads and reply writes (R124). In a halted part a transfer's end takes the lane to rest, and no result is
formed (R161); in the drain the lane may then report drained (R42). -/

namespace Sys2Proof.Machine

/-- The lane's transfer is over: the port is free and nothing is in flight. -/
def State.xferOver (s : State) (n : LaneId) : State :=
  { s with port := none, work := s.work.modLane n (fun l => { l with eng := { l.eng with xfer := none } }) }

/-- A transfer of lane `n` ends: `k` says what it comes to while the Job Table acts. -/
def State.xferEnd (s : State) (n : LaneId) (k : Env → Work → Work) : State :=
  (s.xferOver n).laneEvent n (fun env w => if env.acting then k env w else w.restIfQuiet n)

/-- A transfer ends with an error (R121): a result that waits for it stands, otherwise the error's. -/
def Work.xferFailed (w : Work) (env : Env) (n : LaneId) (r : LaneResult) (fa : Option Word) : Work :=
  if (w.lane n).eng.due.isSome then w.goOn env n id
  else if (w.lane n).linkIdle then w.finalize env n r fa
  else w.modLane n (fun l => { l with eng := { l.eng with due := some (r, fa) } })

/-- What the key read comes to (R30). -/
def Work.keyReadEnd (w : Work) (env : Env) (n : LaneId) : ReadEnd → Work
  | .ok key => w.goOn env n (fun w => w.request n ((w.lane n).openRequest key))
  | .error => w.xferFailed env n .imageReadError none

/-- KEY_READ_END (R30). -/
def execKeyReadEnd (n : LaneId) (r : ReadEnd) (s : State) : Host.Outcome State Fault Refusal :=
  s.answer (match s.port, (s.work.lane n).eng.xfer with
    | some (.lane m), some (.keyRead _) =>
      if m = n ∧ ReadEnd.fits 16 r then s.xferEnd n (fun env w => w.keyReadEnd env n r) else s
    | _, _ => s)

/-- A READOUT page has been written (R120): its buffer is free, and after the last page of the range the lane is DONE. -/
def Work.pageWritten (w : Work) (env : Env) (n : LaneId) (b : BufId) (page : Nat) : Work :=
  let w := w.freeBuf b
  match (w.jobOf n).map JobSlot.args with
  | some (.readout _ _ _ _ start len) =>
    if (w.lane n).eng.due.isNone ∧ page = lastPage start.toNat len.toNat (w.lane n).targetPage then
      w.finalize env n .done none
    else w.goOn env n (fun w => w.stepGo env n)
  | _ => w.goOn env n id

/-- What a READOUT page write comes to (R120, R121). -/
def Work.pageWriteEnd (w : Work) (env : Env) (n : LaneId) (b : BufId) (page : Nat) : WriteEnd → Work
  | .ok => w.pageWritten env n b page
  | .error => w.xferFailed env n .hostWriteError (some (BitVec.ofNat 32 page))

/-- READOUT_PAGE_WRITE_END (R120). -/
def execReadoutPageWriteEnd (n : LaneId) (r : WriteEnd) (s : State) : Host.Outcome State Fault Refusal :=
  s.answer (match s.port, (s.work.lane n).eng.xfer with
    | some (.lane m), some (.pageWrite b page _ _) =>
      if m = n then s.xferEnd n (fun env w => w.pageWriteEnd env n b page r) else s
    | _, _ => s)

/-- What an EXCHANGE payload read comes to (R124): the request, or IMAGE_READ_ERROR. -/
def Work.payloadReadEnd (w : Work) (env : Env) (n : LaneId) : ReadEnd → Work
  | .ok data =>
    (w.modLane n (fun l => { l with eng := { l.eng with xbuf := data, exPart := .request } })).stepGo env n
  | .error => w.xferFailed env n .imageReadError none

/-- EXCHANGE_PAYLOAD_READ_END (R124). -/
def execExchangePayloadReadEnd (n : LaneId) (r : ReadEnd) (s : State) : Host.Outcome State Fault Refusal :=
  s.answer (match s.port, (s.work.lane n).eng.xfer with
    | some (.lane m), some (.payloadRead _ len) =>
      if m = n ∧ ReadEnd.fits len r then s.xferEnd n (fun env w => w.payloadReadEnd env n r) else s
    | _, _ => s)

/-- A reply record has been written (R124): the next entry begins, or the lane is DONE. A lane that has to stop here ends with
the entry just written in progress; one whose next entry a ride window holds back has begun that entry (DESIGN CHOICE,
log entry 45). -/
def Work.replyWritten (w : Work) (env : Env) (n : LaneId) : Work :=
  match (w.jobOf n).map JobSlot.args with
  | some (.exchange _ _ block _ es) =>
    if (w.lane n).eng.due.isNone ∧ es.length ≤ (w.lane n).eng.entryIdx + 1 then w.finalize env n .done none
    else w.goOn env n (fun w =>
      (w.modLane n (fun l => { l with eng := { l.eng with entryIdx := l.eng.entryIdx + 1, exPart := .payload } })).exchangeGo
        env n block es)
  | _ => w.goOn env n id

/-- What a reply write comes to (R124). -/
def Work.replyWriteEnd (w : Work) (env : Env) (n : LaneId) : WriteEnd → Work
  | .ok => w.replyWritten env n
  | .error => w.xferFailed env n .hostWriteError none

/-- EXCHANGE_REPLY_WRITE_END (R124). -/
def execExchangeReplyWriteEnd (n : LaneId) (r : WriteEnd) (s : State) : Host.Outcome State Fault Refusal :=
  s.answer (match s.port, (s.work.lane n).eng.xfer with
    | some (.lane m), some (.replyWrite _ _) =>
      if m = n then s.xferEnd n (fun env w => w.replyWriteEnd env n r) else s
    | _, _ => s)

end Sys2Proof.Machine
end

