-- ==== Sys2Proof/Machine/ImageEvents.lean ====
section
/-! DEFINITION. The ends of the Image Reader's reads (chapter 5): descriptor header and table (R78 to R80), and page fetches
(R84, R88, R94). A read whose context went on without it is void (R78, R90); a part that does not act takes no report
(R96). -/

namespace Sys2Proof.Machine

/-- The header read on the port is still its context's (R78). -/
def Work.headerStands (w : Work) (c : CtxId) : Bool :=
  (w.ctx c).state = .descriptor && (w.ctx c).descBusy = some .header

/-- DESCRIPTOR_HEADER_READ_END (R78, R79). -/
def execDescriptorHeaderReadEnd (r : ReadEnd) (s : State) : Host.Outcome State Fault Refusal :=
  s.answer (match s.port with
    | some (.image c (.desc .header _)) =>
      if ReadEnd.fits 16 r then
        let t := s.freePort
        if s.env.acting ∧ s.work.headerStands c then t.onWork (fun env w => w.headerEnd env c r) else t
      else s
    | _ => s)

/-- The table read on the port is still its context's (R78). -/
def Work.tableStands (w : Work) (c : CtxId) (part : DescPart) : Bool :=
  (w.ctx c).state = .descriptor && (w.ctx c).descBusy = some part

/-- DESCRIPTOR_TABLE_READ_END (R79, R80). -/
def execDescriptorTableReadEnd (r : ReadEnd) (s : State) : Host.Outcome State Fault Refusal :=
  s.answer (match s.port with
    | some (.image c (.desc (.table count pageCode fill) _)) =>
      if ReadEnd.fits (24 * count.toNat) r then
        let t := s.freePort
        if s.env.acting ∧ s.work.tableStands c (.table count pageCode fill) then
          t.onWork (fun env w => w.tableEnd env c count pageCode fill r)
        else t
      else s
    | _ => s)

/-- The fetch on the port is still that of its context's pass (R90, R94). -/
def Work.fetchStands (w : Work) (c : CtxId) (f : Fetch) : Bool :=
  ((w.ctx c).state = .writePass || (w.ctx c).state = .checkPass) && (w.ctx c).fetch = some f

/-- The bytes of one read are placed in the buffer of a fetch that is not void (R84, R90, R96), in the drain too, where R162
has them discarded (DESIGN CHOICE, log entry 25). -/
def Work.placeRead (w : Work) (c : CtxId) (f : Fetch) (off : Nat) (data : List Byte) : Work :=
  if w.fetchStands c f then w.modBuf f.buf (fun p => { p with data := overwrite p.data off data }) else w

/-- A read of a page fetch ends without error: the turn goes on with its next read, or the fetch is complete (R88). -/
def State.fetchRead (s : State) (c : CtxId) (f : Fetch) (rd : PageRead) (rest : List PageRead) (data : List Byte) :
    State :=
  let s := s.onWork (fun _ w => w.placeRead c f rd.offset data)
  match rest with
  | _ :: _ => { s with port := some (.image c (.fetch f rest)) }
  | [] =>
    let t := s.freePort
    if s.env.acting ∧ s.work.fetchStands c f then t.onWork (fun env w => w.pageHeld env c f) else t

/-- A read of a page fetch ends with an error: the turn ends, and a fetch that is not void is an image read error
(R94). -/
def State.fetchError (s : State) (c : CtxId) (f : Fetch) : State :=
  let t := s.freePort
  if s.env.acting ∧ s.work.fetchStands c f then t.onWork (fun env w => w.imageReadError env c f) else t

/-- PAGE_FETCH_READ_END (R84, R88, R94). -/
def execPageFetchReadEnd (r : ReadEnd) (s : State) : Host.Outcome State Fault Refusal :=
  s.answer (match s.port with
    | some (.image c (.fetch f (rd :: rest))) =>
      match r with
      | .ok data => if data.length = rd.len then s.fetchRead c f rd rest data else s
      | .error => s.fetchError c f
    | _ => s)

end Sys2Proof.Machine
end

