-- ==== Sys2Proof/Machine/Intake.lean ====
section
/-! DEFINITION. The commands of Job Intake (R150) and the grant scan (R6). -/

namespace Sys2Proof.Machine

/-! ## Reading a record (R150) -/

/-- The five conditions for reading a record (R150). -/
def State.mayReadRecord (s : State) : Bool :=
  s.part.state = .running && s.rings.geom.isSome && s.rings.jobHead ≠ s.rings.jobTail && s.work.reservationFree
    && s.intake.held.isNone && !s.intake.reading

/-- Job Intake starts reading the record at JOB_HEAD (R150). -/
def State.startRecordRead (s : State) : State :=
  if s.mayReadRecord then { s with intake := { s.intake with reading := true, readVoid := false } } else s

/-- JOB_RECORD_READ_START (R150). -/
def execJobRecordReadStart (s : State) : Host.Outcome State Fault Refusal := s.answer s.startRecordRead

/-- What the record read comes to (R150): the held copy, a halt, or nothing when the part has left RUNNING since. -/
def State.recordArrives (s : State) (r : ReadEnd) : State :=
  let void := s.intake.readVoid || s.part.state ≠ .running
  let s := { s with port := none, intake := { s.intake with reading := false, readVoid := false } }
  if void then s.tryQuiesced
  else match r with
    | .ok data => { s with intake := { s.intake with held := some data } }
    | .error => s.halt .jobReadError

/-- The record read ends (R150); a held copy that can be taken is taken in the same event. -/
def State.recordReadEnd (s : State) (r : ReadEnd) : State := (s.recordArrives r).jobTake

/-- JOB_RECORD_READ_END (R150). -/
def execJobRecordReadEnd (r : ReadEnd) (s : State) : Host.Outcome State Fault Refusal :=
  s.answer (if s.port = some .intake ∧ ReadEnd.fits 64 r then s.recordReadEnd r else s)

/-! ## The commands that take and grant -/

/-- JOB_TAKE (R150): the take as a command of its own. The events that free a slot or end a record read take the record
themselves (`State.answer`, `State.recordReadEnd`; log entry 4). -/
def execJobTake (s : State) : Host.Outcome State Fault Refusal := s.answer s.jobTake

/-- A grant scan, while the Job Table acts (R6, R19). -/
def State.grantScan (s : State) : State := if s.env.acting then s.onWork (fun env w => w.grantScan env) else s

/-- GRANT_SCAN (R6). -/
def execGrantScan (s : State) : Host.Outcome State Fault Refusal := s.answer s.grantScan

end Sys2Proof.Machine
end

