-- ==== Sys2Proof/Machine/LinkEvents.lean ====
section
/-! DEFINITION. The events on a lane's TDAT line while an exchange lasts (chapter 3): the end of a sent frame, lows and busy
holds, timeouts, framing errors, resends, and complete frames. -/

namespace Sys2Proof.Machine

/-- A Link Unit event at a lane, and what follows it. -/
def State.linkEvent (s : State) (n : LaneId) (f : Env → Lane → LinkEvent) : State :=
  s.laneEvent n (fun env w => w.linkStep env n (f env (w.lane n)))

/-- A Link Unit event that the exchange goes on after. -/
def State.linkUpdate (s : State) (n : LaneId) (f : Env → Lane → Lane) : State :=
  s.laneEvent n (fun env w => w.modLane n (f env))

/-- FRAME_SEND_END (R51): TDAT released, AWAITING, the reply timer started. -/
def execFrameSendEnd (n : LaneId) (s : State) : Host.Outcome State Fault Refusal :=
  s.answer (if (s.work.lane n).link.state = .sending then s.linkUpdate n Lane.frameSent else s)

/-- TDAT_LOW (R45, R52, R55): a low accepted by the glitch filter, dated from the instant the level changed, or the end
of the one being timed, the high level accepted too. -/
def execTdatLow (n : LaneId) (report : LowReport) (s : State) : Host.Outcome State Fault Refusal :=
  s.answer (match report with
    | .began stood =>
      if passesGlitchFilter (s.work.lane n).link.rate stood then
        s.linkUpdate n (fun env l => l.low env (env.clock - stood)) else s
    | .ended low stood =>
      if passesGlitchFilter (s.work.lane n).link.rate stood then s.linkUpdate n (fun _ l => l.lowEnded low) else s)

/-- BUSY_HOLD_RECOGNISED (R46): the low being timed has lasted more than 20 bit times (in whole cycles: log entry 33). -/
def execBusyHoldRecognised (n : LaneId) (low : Nat) (s : State) : Host.Outcome State Fault Refusal :=
  s.answer (if (s.work.lane n).canHold ∧ busyHoldTime (s.work.lane n).link.rate < low then
    s.linkUpdate n (fun _ l => l.holdRecognised) else s)

/-- BUSY_HOLD_END (R45, R53): the high level has passed the glitch filter. AWAITING with a full reply timer; in the drain
the exchange is abandoned (R60). -/
def execBusyHoldEnd (line : LaneHigh) (s : State) : Host.Outcome State Fault Refusal :=
  s.answer (if (s.work.lane line.lane).link.state = .busyHold
      ∧ passesGlitchFilter (s.work.lane line.lane).link.rate line.stood then
    s.linkUpdate line.lane (fun env l => if env.part = .draining then l.drainExchange else l.await env) else s)

/-- BUSY_LIMIT_EXPIRY (R53): BUSY LIMIT; in the drain the exchange is abandoned (R60). -/
def execBusyLimitExpiry (n : LaneId) (s : State) : Host.Outcome State Fault Refusal :=
  s.answer (if (s.work.lane n).link.state = .busyHold then
    s.laneEvent n (fun env w =>
      if env.part = .draining then w.modLane n Lane.drainExchange else w.exchangeEnd env n .busyLimit) else s)

/-- REPLY_TIMEOUT (R52, R55). -/
def execReplyTimeout (n : LaneId) (s : State) : Host.Outcome State Fault Refusal :=
  s.answer (if (s.work.lane n).link.state = .awaiting ∧ (s.work.lane n).link.timer.isRunning then
    s.linkEvent n (fun env l => l.attemptFails env false) else s)

/-- FRAMING_ERROR (R54, R55). -/
def execFramingError (n : LaneId) (cause : FramingCause) (s : State) : Host.Outcome State Fault Refusal :=
  s.answer (if (s.work.lane n).canReceive ∧ FramingCause.holds (s.work.lane n).link.rate cause then
    s.linkEvent n (fun env l => l.framingError env cause) else s)

/-- QUIET_LINE_RESEND (R55). -/
def execQuietLineResend (n : LaneId) (cause : QuietCause) (s : State) : Host.Outcome State Fault Refusal :=
  s.answer (if (s.work.lane n).link.state = .receiving ∧ (s.work.lane n).link.discarding
      ∧ QuietCause.holds (s.work.lane n) cause then
    s.linkUpdate n (fun _ l => l.quietOver) else s)

/-- REPLY_FRAME_COMPLETE (R56). -/
def execReplyFrameComplete (n : LaneId) (frame : List Byte) (s : State) : Host.Outcome State Fault Refusal :=
  s.answer (if (s.work.lane n).canReceive then s.linkEvent n (fun env l => l.judge env frame) else s)

/-- START_BIT_DISCARDED (R45, R52): a low and the high level behind it were both accepted, and the start bit is high at its
middle. -/
def execStartBitDiscarded (line : LaneLow) (s : State) : Host.Outcome State Fault Refusal :=
  s.answer (
    let rate := (s.work.lane line.lane).link.rate
    if passesGlitchFilter rate line.low ∧ isNoise rate line.low ∧ passesGlitchFilter rate line.stood then
      s.linkUpdate line.lane (fun env l => l.noise env) else s)

end Sys2Proof.Machine
end

