-- ==== Sys2Proof/Machine/Port.lean ====
section
/-! DEFINITION. The memory port (R164): the arbiter, the Image Reader's turn (R95), and the transfer on the port as the
host sees it. -/

namespace Sys2Proof.Machine

/-- The members of a list in round-robin order, from the one after `last` (R95, R164). -/
def roundRobin (last : Fin 8) : List (Fin 8) :=
  [last + 1, last + 2, last + 3, last + 4, last + 5, last + 6, last + 7, last]

/-- A lane waits for the memory port: a host transfer of its own is due (R164, class 3). -/
def Work.laneWaits (w : Work) (n : LaneId) : Bool := (w.lane n).eng.xfer.isSome

/-- The Image Reader's turn serves a context (R88, R95): a part of its descriptor read, or a whole page fetch. -/
def State.imageTurn (s : State) (c : CtxId) : State :=
  let w := s.work
  let x := w.ctx c
  match x.descDue, x.nextPage, w.availableBuf c with
  | some part, _, _ =>
    { s with port := some (.image c (.desc part x.descPtr))
             work := { w.setCtx c { x with descDue := none, descBusy := some part } with imgLast := c } }
  | none, some p, some b =>
    { s with port := some (.image c (.fetch { buf := b, page := p } (x.reads p)))
             work := { w.startFetch c b p with imgLast := c } }
  | none, _, _ => s

/-- The context that the Image Reader serves next (R95); none while it does not act (R96). -/
def State.imageNext (s : State) : Option CtxId :=
  if s.env.acting then
    (roundRobin s.work.imgLast).find? (fun c => s.work.descWork c || s.work.fetchWork c)
  else none

/-- The arbiter hands the free port to the waiter of the highest class (Table 11-2). -/
def State.arbitrate (s : State) : State :=
  if s.port.isSome then s
  else if s.posting.isSome then { s with port := some .postQueue }
  else if s.part.setupReading then { s with port := some .setup }
  else if s.intake.reading then { s with port := some .intake }
  else match (roundRobin s.portLast).find? s.work.laneWaits with
    | some n => { s with port := some (.lane n), portLast := n }
    | none =>
      match s.imageNext with
      | some c => s.imageTurn c
      | none => s

/-- MEMORY_PORT_ARBITRATION (R164, R95). -/
def execMemoryPortArbitration (s : State) : Host.Outcome State Fault Refusal := s.answer s.arbitrate

/-! ## The transfer on the port -/

/-- A transfer: a read of `len` bytes, or a write of bytes, at a host address. -/
inductive Transfer where
  | read (addr : HostAddr) (len : Nat)
  | write (addr : HostAddr) (data : List Byte)
deriving DecidableEq, Repr

/-- The completion record of the head entry as it is posted (R154, R166). -/
def State.headRecord (s : State) (e : Entry) : List Byte :=
  completionRecord e s.rings.marker (s.rings.postCount + 1)

/-- The write of the posting under way (R153, R154). -/
def State.postTransfer (s : State) : Option Transfer :=
  match s.posting, s.work.queue.head?, s.rings.geom with
  | some (.report i), some e, _ =>
    (e.lanes[i]?).map (fun r => .write (addrPlus e.reportAddr (32 * i)) (reportRecord r))
  | some .completion, some e, some g => some (.write (addrPlus g.doneBase (32 * s.rings.writeIdx)) (s.headRecord e))
  | _, _, _ => none

/-- The transfer of a lane (R121). -/
def Xfer.transfer : Xfer → Transfer
  | .keyRead a => .read a 16
  | .payloadRead a len => .read a len
  | .pageWrite _ _ a data => .write a data
  | .replyWrite a data => .write a data

/-- The transfer that the Image Reader is making (R78, R84). -/
def ImageTurn.transfer : ImageTurn → Option Transfer
  | .desc .header ptr => some (.read ptr 16)
  | .desc (.table count _ _) ptr => some (.read (addrPlus ptr 16) (24 * count.toNat))
  | .fetch _ (r :: _) => some (.read r.addr r.len)
  | .fetch _ [] => none

/-- The transfer on the memory port. -/
def State.portTransfer (s : State) : Option Transfer :=
  match s.port with
  | none => none
  | some .postQueue => s.postTransfer
  | some .setup => some (.read s.part.setupAddr 32)
  | some .intake => s.rings.geom.map (fun g => .read (addrPlus g.jobBase (64 * s.rings.jobHead)) 64)
  | some (.lane n) => (s.work.lane n).eng.xfer.map Xfer.transfer
  | some (.image _ turn) => turn.transfer

end Sys2Proof.Machine
end

