-- ==== Sys2Proof/Machine/Posting.lean ====
section
/-! DEFINITION. Setup and posting: the end of the setup block read (R148), the posting of completion entries (R153, R154),
and the hold interval of the notification (R156). -/

namespace Sys2Proof.Machine

/-! ## The setup block (R148) -/

/-- The geometry is latched and the part enters RUNNING (R148). -/
def State.latchSetup (s : State) (g : Geometry) : State :=
  { s with
    part := { s.part with state := .running }
    rings := { s.rings with geom := some g, jobHead := 0, writeIdx := 0, marker := true, postCount := 0, postTimes := [] } }

/-- What the setup block comes to (R148). -/
def State.judgeSetup (s : State) : ReadEnd → State
  | .error => s.halt .setupReadError
  | .ok data => if (geometryOf data).valid then s.latchSetup (geometryOf data) else s.halt .setupInvalid

/-- The setup block read ends; one that ends in the drain is discarded (R162). -/
def State.setupEnd (s : State) (r : ReadEnd) : State :=
  let s := { s with port := none, part := { s.part with setupReading := false } }
  if s.part.state = .loading then s.judgeSetup r else s

/-- SETUP_READ_END (R148). -/
def execSetupReadEnd (r : ReadEnd) (s : State) : Host.Outcome State Fault Refusal :=
  s.answer (if s.port = some .setup ∧ ReadEnd.fits 32 r then s.setupEnd r else s)

/-! ## Posting (R153, R154) -/

/-- The part states in which entries are posted (R153). -/
def PartState.posts : PartState → Bool
  | .running | .quiescing | .quiesced => true
  | .disabled | .loading | .halted | .draining => false

/-- The completion ring has room for one more entry (R153). -/
def Rings.hasRoom (r : Rings) : Bool := r.geom.isSome && decide (r.unreleased + 1 < r.doneSize)

/-- The first write of an entry's posting (R153). -/
def Entry.firstPosting (e : Entry) : Posting :=
  if e.reportAddr ≠ 0 ∧ e.lanes ≠ [] then .report 0 else .completion

/-- The Post Queue begins to post its head entry when it can (R153). -/
def State.postBegin (s : State) : State :=
  match s.posting, s.work.queue with
  | none, e :: _ =>
    if s.part.state.posts ∧ s.rings.hasRoom then { s with posting := some e.firstPosting } else s
  | _, _ => s

/-- POST_BEGIN (R153). -/
def execPostBegin (s : State) : Host.Outcome State Fault Refusal := s.answer s.postBegin

/-- Changes the head entry of the Post Queue. -/
def Work.modHead (w : Work) (f : Entry → Entry) : Work :=
  match w.queue with
  | [] => w
  | e :: es => { w with queue := f e :: es }

/-- Report record `i` has been written, or has failed (R153). -/
def State.reportEnd (s : State) (i : Nat) (r : WriteEnd) : State :=
  let s := { s with port := none }
  if !s.part.state.posts then { s with posting := none }
  else match r with
    | .error =>
      { s with posting := some .completion, work := s.work.modHead (fun e => { e with reportFailed := true }) }
    | .ok =>
      if (s.work.queue.head?).elim false (fun e => decide (i + 1 < e.lanes.length)) then
        { s with posting := some (.report (i + 1)) }
      else { s with posting := some .completion, work := s.work.modHead (fun e => { e with reportWritten := true }) }

/-- REPORT_RECORD_WRITE_END (R153). -/
def execReportRecordWriteEnd (r : WriteEnd) (s : State) : Host.Outcome State Fault Refusal :=
  s.answer (match s.port, s.posting with
    | some .postQueue, some (.report i) => s.reportEnd i r
    | _, _ => s)

/-- The head entry is posted (R154). -/
def State.posted (s : State) : State :=
  let r := s.rings
  { s with
    rings := { r with writeIdx := (r.writeIdx + 1) % r.doneSize
                      marker := if r.writeIdx + 1 = r.doneSize then !r.marker else r.marker
                      postCount := r.postCount + 1
                      postTimes := r.postTimes ++ [s.timebase] }
    work := { s.work with queue := s.work.queue.tail } }

/-- The completion record write ends (R154): posted, but in the drain nothing (R162); an error halts the part. -/
def State.completionEnd (s : State) (r : WriteEnd) : State :=
  let s := { s with port := none, posting := none }
  match r with
  | .ok => if s.part.state.posts ∨ s.part.state = .halted then s.posted.tryQuiesced else s
  | .error => if s.part.state.posts then s.halt .postWriteError else s

/-- COMPLETION_WRITE_END (R154). -/
def execCompletionWriteEnd (r : WriteEnd) (s : State) : Host.Outcome State Fault Refusal :=
  s.answer (match s.port, s.posting with
    | some .postQueue, some .completion => s.completionEnd r
    | _, _ => s)

/-! ## The hold interval (R156) -/

/-- The hold interval of the oldest unreleased entry has run out: the timebase stands beyond it (log entry 3). -/
def State.holdExpired (s : State) : State :=
  match holdInterval s.regs.holdCode, s.rings.postTimes.head? with
  | some interval, some t => { s with clock := max s.clock ((t + interval + 1) * microsecond) }
  | _, _ => s

/-- HOLD_INTERVAL_EXPIRY (R156). -/
def execHoldIntervalExpiry (s : State) : Host.Outcome State Fault Refusal := s.answer s.holdExpired

end Sys2Proof.Machine
end

