-- ==== Sys2Proof/Machine/Registers.lean ====
section
/-! DEFINITION. The register write commands: the fields of CONTROL (R159, R160), SETUP_LO and SETUP_HI (R148), JOB_TAIL and
JOB_HEAD (R149), DONE_HEAD (R155), NOTIFY (R156), and a write by offset (R168). A row of CONTROL is the write of 1 to its
field (of 0 for QUIESCE_RELEASE) and of that field alone (log entry 7). -/

namespace Sys2Proof.Machine

/-! ## What the writes do -/

/-- A write without all four byte enables is ignored and sets MISUSE (R168). -/
def State.fullWrite (s : State) (be : BitVec 4) (k : State → State) : State :=
  if be = 0xF#4 then k s else s.setMisuse

/-- 1 written to ENABLE (R148, R159): LOADING, and the setup block read at the address that the registers hold now. -/
def State.enable (s : State) : State :=
  if s.part.state = .disabled then
    { s with part := { s.part with state := .loading, setupReading := true, setupAddr := s.regs.setupHi ++ s.regs.setupLo } }
  else s

/-- 1 written to QUIESCE (R159, R160). -/
def State.quiesce (s : State) : State :=
  if s.part.state = .running then
    State.tryQuiesced { s with part := { s.part with state := .quiescing }, intake := s.intake.stop }
  else s

/-- 0 written to QUIESCE (R159). -/
def State.quiesceRelease (s : State) : State :=
  if s.part.state = .quiescing ∨ s.part.state = .quiesced then { s with part := { s.part with state := .running } }
  else s

/-- 1 written to SOFT_RESET (R159, R162): DRAINING, the held record discarded, every lane carried to rest. -/
def State.softReset (s : State) : State :=
  if s.part.state = .draining then s
  else
    { s with
      part := { s.part with state := .draining }
      intake := s.intake.stop
      work := s.work.eachLane (fun w n => w.modLane n Lane.beginDrain) }

/-- 1 written to CLEAR_MISUSE (R157). -/
def State.clearMisuse (s : State) : State := { s with regs := { s.regs with misuse := false } }

/-- The part states in which JOB_TAIL and DONE_HEAD are taken, with a ring geometry latched (R149, R155). -/
def State.ringWrites (s : State) : Bool :=
  s.rings.geom.isSome && (s.part.state = .running || s.part.state = .quiescing || s.part.state = .quiesced
    || s.part.state = .halted)

/-- A whole write to JOB_TAIL (R149); one that empties the ring discards the held record (R150). -/
def State.writeJobTail (s : State) (v : Word) : State :=
  if s.ringWrites ∧ v.toNat < s.rings.jobSize then
    { s with
      rings := { s.rings with jobTail := v.toNat }
      intake := if v.toNat = s.rings.jobHead then { s.intake with held := none } else s.intake }
  else s.setMisuse

/-- The number of entries that a DONE_HEAD value releases (R155). -/
def Rings.releases (r : Rings) (v : Nat) : Nat := subMod v r.doneHead r.doneSize

/-- A whole write to DONE_HEAD (R155). Accepted, it has the Post Queue begin to post if that was waiting for room. -/
def State.writeDoneHead (s : State) (v : Word) : State :=
  let k := s.rings.releases v.toNat
  if s.ringWrites ∧ v.toNat < s.rings.doneSize ∧ k ≤ s.rings.unreleased then
    let t := { s with rings := { s.rings with doneHead := v.toNat, postTimes := s.rings.postTimes.drop k } }
    if s.rings.hasRoom then t else t.postBegin
  else s.setMisuse

/-- A whole write to NOTIFY (R156, Table 12-13). -/
def State.writeNotify (s : State) (v : Word) : State :=
  if v.extractLsb' 8 8 = 0 then s.setMisuse
  else
    { s with regs := { s.regs with notifyEnable := v.getLsbD 0, threshold := v.extractLsb' 8 8,
                                   holdCode := v.extractLsb' 16 2 } }

/-- A whole write to SETUP_LO and to SETUP_HI, taken in every part state (R148). -/
def State.writeSetupLo (s : State) (v : Word) : State := { s with regs := { s.regs with setupLo := v } }
def State.writeSetupHi (s : State) (v : Word) : State := { s with regs := { s.regs with setupHi := v } }

/-- A whole write to CONTROL, all its fields in one event (R159). -/
def State.writeControl (s : State) (v : Word) : State :=
  if v.getLsbD 2 then s.softReset
  else
    let s := if v.getLsbD 0 then s.enable else s
    let s := if v.getLsbD 1 then s.quiesce else s.quiesceRelease
    if v.getLsbD 3 then s.clearMisuse else s

/-- A whole write by offset (R168): STATUS and an offset that names no register ignore it. -/
def State.writeAt (s : State) (offset : BitVec 5) (v : Word) : State :=
  if offset = Config.offControl then s.writeControl v
  else if offset = Config.offSetupLo then s.writeSetupLo v
  else if offset = Config.offSetupHi then s.writeSetupHi v
  else if offset = Config.offJobTail then s.writeJobTail v
  else if offset = Config.offJobHead then s.setMisuse
  else if offset = Config.offDoneHead then s.writeDoneHead v
  else if offset = Config.offNotify then s.writeNotify v
  else s

/-! ## The commands -/

/-- ENABLE (R148, R159). -/
def execEnable (s : State) : Host.Outcome State Fault Refusal := s.answer s.enable

/-- QUIESCE (R159, R160). -/
def execQuiesce (s : State) : Host.Outcome State Fault Refusal := s.answer s.quiesce

/-- QUIESCE_RELEASE (R159). -/
def execQuiesceRelease (s : State) : Host.Outcome State Fault Refusal := s.answer s.quiesceRelease

/-- SOFT_RESET (R159, R162). -/
def execSoftReset (s : State) : Host.Outcome State Fault Refusal := s.answer s.softReset

/-- CLEAR_MISUSE (R157). -/
def execClearMisuse (s : State) : Host.Outcome State Fault Refusal := s.answer s.clearMisuse

/-- SETUP_LO_WRITE (R148, R168). -/
def execSetupLoWrite (be : BitVec 4) (v : Word) (s : State) : Host.Outcome State Fault Refusal :=
  s.answer (s.fullWrite be (fun s => s.writeSetupLo v))

/-- SETUP_HI_WRITE (R148, R168). -/
def execSetupHiWrite (be : BitVec 4) (v : Word) (s : State) : Host.Outcome State Fault Refusal :=
  s.answer (s.fullWrite be (fun s => s.writeSetupHi v))

/-- JOB_TAIL_WRITE (R149, R168). -/
def execJobTailWrite (be : BitVec 4) (v : Word) (s : State) : Host.Outcome State Fault Refusal :=
  s.answer (s.fullWrite be (fun s => s.writeJobTail v))

/-- JOB_HEAD_WRITE (R149): ignored in every state, MISUSE set, whatever the byte enables and the value. -/
def execJobHeadWrite (_be : BitVec 4) (_v : Word) (s : State) : Host.Outcome State Fault Refusal :=
  s.answer s.setMisuse

/-- DONE_HEAD_WRITE (R155, R168). -/
def execDoneHeadWrite (be : BitVec 4) (v : Word) (s : State) : Host.Outcome State Fault Refusal :=
  s.answer (s.fullWrite be (fun s => s.writeDoneHead v))

/-- NOTIFY_WRITE (R156, R168). -/
def execNotifyWrite (be : BitVec 4) (v : Word) (s : State) : Host.Outcome State Fault Refusal :=
  s.answer (s.fullWrite be (fun s => s.writeNotify v))

/-- REGISTER_WRITE (R168): a write at any offset of the window. -/
def execRegisterWrite (offset : BitVec 5) (be : BitVec 4) (v : Word) (s : State) :
    Host.Outcome State Fault Refusal :=
  s.answer (s.fullWrite be (fun s => s.writeAt offset v))

end Sys2Proof.Machine
end

