-- ==== Sys2Proof/Machine/Resets.lean ====
section
/-! DEFINITION. The reset commands: power-on and pin reset (R41, R163), the return of RESET_N, and the end of the soft reset
drain (R162). -/

namespace Sys2Proof.Machine

/-- A power-on or pin reset (R163): every block takes its reset values. What is outside a reset's reach is kept: the
timebase and the commands not yet taken. `low` is the level of RESET_N afterwards. -/
def State.resetAll (s : State) (cause : ResetCause) (low : Bool) : State :=
  { State.reset with
    part := { PartCtl.reset with cause := cause, resetLow := low }
    clock := s.clock
    pending := s.pending }

/-- POWER_ON_RESET (R163). RESET_N keeps its level (log entry 9). -/
def execPowerOnReset (s : State) : Host.Outcome State Fault Refusal := .next (s.resetAll .powerOn s.part.resetLow)

/-- PIN_RESET (R163): RESET_N goes low. -/
def execPinReset (s : State) : Host.Outcome State Fault Refusal := .next (s.resetAll .pin true)

/-- RESET_N_RELEASE (R163): the part is DISABLED and takes writes. -/
def execResetNRelease (s : State) : Host.Outcome State Fault Refusal :=
  .next { s with part := { s.part with resetLow := false } }

/-- Every lane has reported drained and no memory port transfer is in flight (R162). -/
def State.drainOver (s : State) : Bool :=
  s.part.state = .draining && Config.allLanes.all (fun n => (s.work.lane n).eng.drained && (s.work.lane n).eng.xfer.isNone)
    && s.port.isNone && s.posting.isNone && !s.part.setupReading && !s.intake.reading

/-- What the tables hold at the end of the drain (R162): cleared, the lanes kept. -/
def Work.afterDrain (w : Work) : Work := { Work.reset with lanes := w.lanes }

/-- The end of the drain (R162). The marker and the post count are set at the next ENABLE (R148) and stand until then. -/
def State.endDrain (s : State) : State :=
  { s with
    part := { s.part with state := .disabled, fatal := .none, cause := .soft }
    regs := { s.regs with notifyEnable := false, threshold := 1, holdCode := 0, misuse := false }
    rings := { s.rings with geom := none, jobTail := 0, jobHead := 0, doneHead := 0, writeIdx := 0, postTimes := [] }
    intake := Intake.reset
    portLast := 7
    work := s.work.afterDrain }

/-- DRAIN_END (R162): the end of the drain as a command of its own, which acts once the drain is over (DESIGN CHOICE, log
entry 4). -/
def execDrainEnd (s : State) : Host.Outcome State Fault Refusal :=
  s.answer (if s.drainOver then s.endDrain else s)

end Sys2Proof.Machine
end

