-- ==== Sys2Proof/Machine/SupplyEvents.lean ====
section
/-! DEFINITION. The events of the Supply Monitors (chapter 9): supply good, the end of the power-up limit and of the settle
time (R25, R140), a drop (R141), a return and the end of a ride window (R145). A level is taken when it has stood
for 20 microseconds (R139). -/

namespace Sys2Proof.Machine

/-- The level has persisted long enough to be taken (R139). -/
def qualified (stood : Nat) : Bool := decide (qualifyTime ≤ stood)

/-! ## Power-up (R25, R140) -/

/-- The settle timer expires at the monitor: GOOD, or RIDING still (Table 9-3); the lane enters HOLD (R25). -/
def Lane.settled (l : Lane) : Lane :=
  let l := l.toHold
  { l with supply := { l.supply with settle := none,
                                     state := if l.supply.state = .riding then .riding else .good } }

/-- The settle time ends: HOLD, and onward for the job (R25). -/
def Work.settleEnd (w : Work) (env : Env) (n : LaneId) : Work := (w.modLane n Lane.settled).atHold env n

/-- The level becomes ABOVE in RISING (Table 9-3): the lane enters SETTLING and the settle time starts. -/
def Lane.supplyGood (env : Env) (l : Lane) : Lane :=
  { l with
    ctx := { l.ctx with state := .settling }
    supply := { l.supply with state := .settling, powerUp := none,
                              settle := some (env.clock + ms l.settings.settleTime), level := .above } }

/-- Supply good; a settle time of 0 ms ends in the same event (R140). -/
def Work.supplyGood (w : Work) (env : Env) (n : LaneId) : Work :=
  let w := w.modLane n (Lane.supplyGood env)
  if (w.lane n).settings.settleTime = 0 then w.settleEnd env n else w

/-- SUPPLY_GOOD (R139, R140). The 20 µs are those that the command reports; they are not held against the time at which TPWR
was switched on (DESIGN CHOICE, log entry 47). -/
def execSupplyGood (n : LaneId) (stood : Nat) (s : State) : Host.Outcome State Fault Refusal :=
  s.answer (if (s.work.lane n).supply.state = .rising ∧ qualified stood then
    s.laneEvent n (fun env w => w.supplyGood env n) else s)

/-- The power-up limit expires (Table 9-3): FAULT with the supply off and SUPPLY_FAIL. The lane is in FAULT before its outcome
is copied (DESIGN CHOICE, log entry 41). -/
def Work.powerUpFailed (w : Work) (env : Env) (n : LaneId) : Work :=
  let w := w.modLane n (fun l => (l.enterFault .supplyFail).supplyOff)
  if env.acting then w.finalize env n .supplyFail none else w

/-- POWER_UP_LIMIT_EXPIRY (R140). -/
def execPowerUpLimitExpiry (n : LaneId) (s : State) : Host.Outcome State Fault Refusal :=
  s.answer (if (s.work.lane n).supply.state = .rising then
    s.laneEvent n (fun env w => w.powerUpFailed env n) else s)

/-- SETTLE_END (R140): the settle timer runs in SETTLING, and runs on in RIDING. -/
def execSettleEnd (n : LaneId) (s : State) : Host.Outcome State Fault Refusal :=
  s.answer (if (s.work.lane n).supply.settle.isSome then
    s.laneEvent n (fun env w => w.settleEnd env n) else s)

/-! ## Drops (R141 to R146) -/

/-- The monitor detects drops: SETTLING or GOOD with the level ABOVE (R141). -/
def Supply.watchesDrops (x : Supply) : Bool := x.level = .above && (x.state = .settling || x.state = .good)

/-- A ride window opens (R144). -/
def Lane.startRide (env : Env) (l : Lane) : Lane :=
  { l with supply := { l.supply with state := .riding, ride := some (env.clock + ms 1), level := .below } }

/-- A drop (Table 9-4): a lane in FAULT has its supply switched off, any other follows its drop policy. -/
def Work.drop (w : Work) (env : Env) (n : LaneId) : Work :=
  let l := w.lane n
  if l.ctx.state = .fault then w.modLane n Lane.supplyOff
  else match l.settings.dropPolicy with
    | .cut => w.cutLane env n
    | .ride => w.modLane n (Lane.startRide env)

/-- DROP (R141). -/
def execDrop (n : LaneId) (stood : Nat) (s : State) : Host.Outcome State Fault Refusal :=
  s.answer (if (s.work.lane n).supply.watchesDrops ∧ qualified stood then
    s.laneEvent n (fun env w => w.drop env n) else s)

/-- The supply returns in the window (R145): GOOD, or SETTLING while the settle timer runs, and the drop is counted for a
lane that a job owns. -/
def Lane.supplyBack (l : Lane) : Lane :=
  { l with
    ctx := { l.ctx with drops := if l.ctx.slot.isSome then saturate l.ctx.drops else l.ctx.drops }
    supply := { l.supply with state := if l.supply.settle.isSome then .settling else .good, ride := none,
                              level := .above } }

/-- A return (R145): the actions held back are taken in the same event; a part that does not act takes none. -/
def Work.supplyReturn (w : Work) (env : Env) (n : LaneId) : Work :=
  let w := w.modLane n Lane.supplyBack
  if env.acting then w.takeHeld env n else w

/-- SUPPLY_RETURN (R145). -/
def execSupplyReturn (n : LaneId) (stood : Nat) (s : State) : Host.Outcome State Fault Refusal :=
  s.answer (if (s.work.lane n).riding ∧ qualified stood then
    s.laneEvent n (fun env w => w.supplyReturn env n) else s)

/-- RIDE_TIMER_EXPIRY (R145): a cut. -/
def execRideTimerExpiry (n : LaneId) (s : State) : Host.Outcome State Fault Refusal :=
  s.answer (if (s.work.lane n).riding then s.laneEvent n (fun env w => w.cutLane env n) else s)

end Sys2Proof.Machine
end

