-- ==== Sys2Proof/Machine/Dispatch.lean ====
section
/-! DEFINITION. The meaning of every command, one arm for each row of spec/opcode_table.json. -/

namespace Sys2Proof.Machine

/-- The effect of a command on the part, its queue apart. -/
def exec (i : Instr) (s : State) : Host.Outcome State Fault Refusal :=
  match i with
  | .enable => Sys2Proof.Machine.execEnable s
  | .quiesce => Sys2Proof.Machine.execQuiesce s
  | .quiesceRelease => Sys2Proof.Machine.execQuiesceRelease s
  | .softReset => Sys2Proof.Machine.execSoftReset s
  | .clearMisuse => Sys2Proof.Machine.execClearMisuse s
  | .setupLoWrite be v => Sys2Proof.Machine.execSetupLoWrite be v s
  | .setupHiWrite be v => Sys2Proof.Machine.execSetupHiWrite be v s
  | .jobTailWrite be v => Sys2Proof.Machine.execJobTailWrite be v s
  | .jobHeadWrite be v => Sys2Proof.Machine.execJobHeadWrite be v s
  | .doneHeadWrite be v => Sys2Proof.Machine.execDoneHeadWrite be v s
  | .notifyWrite be v => Sys2Proof.Machine.execNotifyWrite be v s
  | .registerWrite offset be v => Sys2Proof.Machine.execRegisterWrite offset be v s
  | .powerOnReset => Sys2Proof.Machine.execPowerOnReset s
  | .pinReset => Sys2Proof.Machine.execPinReset s
  | .resetNRelease => Sys2Proof.Machine.execResetNRelease s
  | .memoryPortArbitration => Sys2Proof.Machine.execMemoryPortArbitration s
  | .setupReadEnd r => Sys2Proof.Machine.execSetupReadEnd r s
  | .jobRecordReadStart => Sys2Proof.Machine.execJobRecordReadStart s
  | .jobRecordReadEnd r => Sys2Proof.Machine.execJobRecordReadEnd r s
  | .jobTake => Sys2Proof.Machine.execJobTake s
  | .grantScan => Sys2Proof.Machine.execGrantScan s
  | .supplyGood n stood => Sys2Proof.Machine.execSupplyGood n stood s
  | .powerUpLimitExpiry n => Sys2Proof.Machine.execPowerUpLimitExpiry n s
  | .settleEnd n => Sys2Proof.Machine.execSettleEnd n s
  | .selectPhaseEnd n => Sys2Proof.Machine.execSelectPhaseEnd n s
  | .presencePulse n pulse => Sys2Proof.Machine.execPresencePulse n pulse s
  | .entryLimitExpiry n => Sys2Proof.Machine.execEntryLimitExpiry n s
  | .entryResetEnd n => Sys2Proof.Machine.execEntryResetEnd n s
  | .keyReadEnd n r => Sys2Proof.Machine.execKeyReadEnd n r s
  | .frameSendEnd n => Sys2Proof.Machine.execFrameSendEnd n s
  | .tdatLow n report => Sys2Proof.Machine.execTdatLow n report s
  | .busyHoldRecognised n low => Sys2Proof.Machine.execBusyHoldRecognised n low s
  | .busyHoldEnd line => Sys2Proof.Machine.execBusyHoldEnd line s
  | .busyLimitExpiry n => Sys2Proof.Machine.execBusyLimitExpiry n s
  | .replyTimeout n => Sys2Proof.Machine.execReplyTimeout n s
  | .framingError n cause => Sys2Proof.Machine.execFramingError n cause s
  | .quietLineResend n cause => Sys2Proof.Machine.execQuietLineResend n cause s
  | .replyFrameComplete n frame => Sys2Proof.Machine.execReplyFrameComplete n frame s
  | .resetPulseEnd n => Sys2Proof.Machine.execResetPulseEnd n s
  | .descriptorHeaderReadEnd r => Sys2Proof.Machine.execDescriptorHeaderReadEnd r s
  | .descriptorTableReadEnd r => Sys2Proof.Machine.execDescriptorTableReadEnd r s
  | .pageFetchReadEnd r => Sys2Proof.Machine.execPageFetchReadEnd r s
  | .readoutPageWriteEnd n r => Sys2Proof.Machine.execReadoutPageWriteEnd n r s
  | .exchangePayloadReadEnd n r => Sys2Proof.Machine.execExchangePayloadReadEnd n r s
  | .exchangeReplyWriteEnd n r => Sys2Proof.Machine.execExchangeReplyWriteEnd n r s
  | .drop n stood => Sys2Proof.Machine.execDrop n stood s
  | .supplyReturn n stood => Sys2Proof.Machine.execSupplyReturn n stood s
  | .rideTimerExpiry n => Sys2Proof.Machine.execRideTimerExpiry n s
  | .postBegin => Sys2Proof.Machine.execPostBegin s
  | .reportRecordWriteEnd r => Sys2Proof.Machine.execReportRecordWriteEnd r s
  | .completionWriteEnd r => Sys2Proof.Machine.execCompletionWriteEnd r s
  | .holdIntervalExpiry => Sys2Proof.Machine.execHoldIntervalExpiry s
  | .drainEnd => Sys2Proof.Machine.execDrainEnd s
  | .startBitDiscarded line => Sys2Proof.Machine.execStartBitDiscarded line s

end Sys2Proof.Machine
end

