-- ==== Sys2Proof/Machine/Step.lean ====
section
/-! DEFINITION. The step of the part: the command at the front of the queue, or one microsecond of idling. -/

namespace Sys2Proof.Machine

/-- One microsecond passes with no command: the timebase advances and IRQ_N follows its hold rule (R156; log
entry 2). -/
def State.tick (s : State) : State := State.refreshIrq { s with clock := s.clock + microsecond }

/-- Takes the command at the front of the queue and runs it with the queue's rest; an empty queue idles for a
microsecond (log entry 2). -/
def step (s : State) : Host.Outcome State Fault Refusal :=
  match s.pending with
  | [] => .next s.tick
  | c :: rest => exec c { s with pending := rest }

/-- `s` with the command that a word spells at the front of its queue; no word spells a command. -/
def State.withFetchWord (s : State) (nbits w : Nat) : State :=
  match decodeTableWord nbits w with
  | some c => { s with pending := c :: s.pending }
  | none => s

end Sys2Proof.Machine
end

