-- ==== Sys2Proof/Safety.lean ====
section
/-! DEFINITION. What is true of the part in every safe run, in the terms the statements use. A statement that holds "in
every state" is about any state that meets the invariant it names, whether or not a run from reset reaches it. -/

namespace Sys2Proof.Machine

/-- The part with lane `n` as given and everything else as it stands. -/
def State.withLane (s : State) (n : LaneId) (l : Lane) : State := { s with work := s.work.setLane n l }

/-- The settings, the Link Unit, the Supply Monitor and the lines of a lane are unchanged. -/
def Lane.SamePins (l l' : Lane) : Prop :=
  l'.settings = l.settings ∧ l'.link = l.link ∧ l'.supply = l.supply ∧ l'.lines = l.lines

/-- Result `r` of lane `n` has been recorded (R11): in the slot of the job that the lane was live in, or, when that job has
completed, in its completion entry at the Post Queue; its slot is then free, or holds the record that waited for one
(R150), in which no lane is live. Says nothing of a lane that was not live in a job. -/
def Work.ResultTaken (w w' : Work) (n : LaneId) (r : LaneResult) : Prop :=
  ∀ i j, (w.lane n).ctx.slot = some i → w.slot i = some j → hasLane j.live n = true → hasLane j.mask n = true →
    (∃ j', w'.slot i = some j' ∧ j'.tag = j.tag ∧ j'.results.get n = some r ∧ hasLane j'.live n = false)
      ∨ ((∀ j', w'.slot i = some j' → hasLane j'.live n = false)
        ∧ ∃ e ∈ w'.queue, e.tag = j.tag ∧ e.adm = j.adm ∧ ∃ x ∈ e.lanes, x.lane = n ∧ x.result = r)

/-- Result `r` of lane `n` has been recorded with an outcome copy of which `p` holds (R11): as `Work.ResultTaken`. -/
def Work.ResultCopied (w w' : Work) (n : LaneId) (r : LaneResult) (p : OutcomeCopy → Prop) : Prop :=
  ∀ i j, (w.lane n).ctx.slot = some i → w.slot i = some j → hasLane j.live n = true → hasLane j.mask n = true →
    (∃ j', w'.slot i = some j' ∧ j'.tag = j.tag ∧ j'.results.get n = some r ∧ hasLane j'.live n = false
        ∧ ∃ o, j'.copies.get n = some o ∧ p o)
      ∨ ((∀ j', w'.slot i = some j' → hasLane j'.live n = false)
        ∧ ∃ e ∈ w'.queue, e.tag = j.tag ∧ e.adm = j.adm
          ∧ ∃ x ∈ e.lanes, x.lane = n ∧ x.result = r ∧ ∃ o, x.copy = some o ∧ p o)

/-- Result `r` of lane `n` has been recorded with fault address `fa` (R11, R114). -/
def Work.ResultTakenAt (w w' : Work) (n : LaneId) (r : LaneResult) (fa : Option Word) : Prop :=
  w.ResultCopied w' n r (fun o => o.faultAddr = fa)

/-- Result `r` of lane `n` stands in the job that `j` was granted in slot `i`, or in its completion entry: as
`Work.ResultTaken` for a lane that its grant makes live. -/
def Work.Recorded (w : Work) (i : SlotId) (j : JobSlot) (n : LaneId) (r : LaneResult) : Prop :=
  (∃ j', w.slot i = some j' ∧ j'.tag = j.tag ∧ j'.results.get n = some r ∧ hasLane j'.live n = false)
    ∨ ∃ e ∈ w.queue, e.tag = j.tag ∧ e.adm = j.adm ∧ ∃ x ∈ e.lanes, x.lane = n ∧ x.result = r

/-- Result `r` of lane `n` with last step `st` and fault address `fa` stands in the job that `j` was granted in slot `i`, or in its
completion entry: as `Work.Recorded`. -/
def Work.RecordedAt (w : Work) (i : SlotId) (j : JobSlot) (n : LaneId) (r : LaneResult) (st : Step) (fa : Option Word) : Prop :=
  (∃ j' o, w.slot i = some j' ∧ j'.tag = j.tag ∧ j'.results.get n = some r ∧ hasLane j'.live n = false
      ∧ j'.lastSteps.get n = st ∧ j'.copies.get n = some o ∧ o.faultAddr = fa)
    ∨ ∃ e ∈ w.queue, e.tag = j.tag ∧ e.adm = j.adm ∧ ∃ x ∈ e.lanes, x.lane = n ∧ x.result = r ∧ x.lastStep = st
        ∧ ∃ o, x.copy = some o ∧ o.faultAddr = fa

/-- No record waits for a slot to be freed: none is held, or a slot is free (R150). -/
def State.NoneWaits (s : State) : Prop := s.intake.held = none ∨ ∃ i, s.work.slot i = none

/-- The Image Reader may take buffer `b` for context `c` (R87). -/
def Work.MayTake (w : Work) (c : CtxId) (b : BufId) : Prop :=
  (w.buf b).state = .free
    ∧ (b.val = 2 * c.val ∨ b.val = 2 * c.val + 1 ∨ (16 ≤ b.val ∧ (w.ctx c).sharedHeld < 14))

/-- Context `c` waits for the Image Reader's turn at the port (R88, R95, R133): a part of its descriptor is still to be read,
or its pass has a next page, no fetch in flight and a buffer to take, its job not cancelled. -/
def Work.WantsPort (w : Work) (c : CtxId) : Prop :=
  ((w.ctx c).state = .descriptor ∧ (w.ctx c).descDue.isSome = true)
    ∨ ((w.ctx c).state ∈ [.writePass, .checkPass] ∧ (w.ctx c).nextPage.isSome = true ∧ (w.ctx c).fetch = none
      ∧ (∃ b, w.MayTake c b) ∧ ∀ i j, (w.ctx c).slot = some i → w.slot i = some j → j.cancelLink = none)

/-- A reply as Table 3-4 lays it out, with any Check. -/
def replyWith (kind seq status : Byte) (payload : List Byte) (check : Half) : List Byte :=
  [0x3C#8, kind, seq, status] ++ leBytes 2 payload.length ++ payload ++ leBytes 2 check.toNat

/-- The Check that belongs to a reply: the CRC-16 over Kind to Payload (R48, R49). -/
def replyCheck (kind seq status : Byte) (payload : List Byte) : Half :=
  crc16 ([kind, seq, status] ++ leBytes 2 payload.length ++ payload)

/-- A reply as a target sends it (Table 3-4). -/
def replyFrame (kind seq status : Byte) (payload : List Byte) : List Byte :=
  replyWith kind seq status payload (replyCheck kind seq status payload)

/-- The Link Unit assembles a reply: RECEIVING, not discarding (R54). -/
abbrev Lane.Listens (l : Lane) : Prop := l.link.state = .receiving ∧ l.link.discarding = false

/-- Nothing asks the lane to stop at its next request boundary (R94, R121, R135). -/
abbrev Lane.Unstopped (l : Lane) : Prop := l.eng.stop = none ∧ l.eng.due = none

/-- Segment `k` of a table fails a check of Table 5-1. -/
def segmentFails (segs : List Segment) (k : Nat) : Prop :=
  ∃ g, segs[k]? = some g ∧ (g.len.toNat = 0 ∨ 16777216 < g.len.toNat ∨ 2 ^ 32 < g.addr.toNat + g.len.toNat
    ∨ 2 ^ 64 < g.host.toNat + g.len.toNat
    ∨ ∃ before, 0 < k ∧ segs[k - 1]? = some before ∧ g.addr.toNat < before.addr.toNat + before.len.toNat)

/-- `p` is a page of the image (R83): a multiple of the page size that has a byte of a segment. -/
def isPageOf (segs : List Segment) (size p : Nat) : Prop :=
  p % size = 0 ∧ ∃ g ∈ segs, ∃ a, g.addr.toNat ≤ a ∧ a < g.addr.toNat + g.len.toNat ∧ p ≤ a ∧ a < p + size

/-- Clear unit `u` is touched by a segment (R105). -/
def unitTouched (d : TargetDesc) (segs : List Segment) (u : Nat) : Prop :=
  ∃ g ∈ segs, ∃ a, g.addr.toNat ≤ a ∧ a < g.addr.toNat + g.len.toNat
    ∧ (a - d.base.toNat) / (1024 * 2 ^ d.clearCode.toNat) = u

/-- RESET_N is high, so commands are taken (R163). -/
abbrev State.Awake (s : State) : Prop := s.part.resetLow = false

/-- A register write that the port ignores as misuse, in the words of R157. -/
def State.misuses (s : State) : Instr → Prop
  | .setupLoWrite be _ => be ≠ 0xF#4
  | .setupHiWrite be _ => be ≠ 0xF#4
  | .notifyWrite be v => be ≠ 0xF#4 ∨ (v.toNat / 256) % 256 = 0
  | .jobHeadWrite _ _ => True
  | .jobTailWrite be v => be ≠ 0xF#4 ∨ s.rings.geom = none ∨ s.part.state ∈ [.disabled, .loading, .draining]
      ∨ ∃ g, s.rings.geom = some g ∧ 2 ^ g.jobCode ≤ v.toNat
  | .doneHeadWrite be v => be ≠ 0xF#4 ∨ s.rings.geom = none ∨ s.part.state ∈ [.disabled, .loading, .draining]
      ∨ ∃ g, s.rings.geom = some g ∧ (2 ^ g.doneCode ≤ v.toNat ∨ s.rings.unreleased < s.rings.releases v.toNat)
  | .registerWrite o be v => be ≠ 0xF#4 ∨ o = 0x14#5 ∨ (o = 0x1C#5 ∧ (v.toNat / 256) % 256 = 0)
      ∨ (o = 0x10#5 ∧ (s.rings.geom = none ∨ s.part.state ∈ [.disabled, .loading, .draining]
          ∨ ∃ g, s.rings.geom = some g ∧ 2 ^ g.jobCode ≤ v.toNat))
      ∨ (o = 0x18#5 ∧ (s.rings.geom = none ∨ s.part.state ∈ [.disabled, .loading, .draining]
          ∨ ∃ g, s.rings.geom = some g ∧ (2 ^ g.doneCode ≤ v.toNat ∨ s.rings.unreleased < s.rings.releases v.toNat)))
  | _ => False

/-- A command that clears MISUSE, in the words of R157. -/
def State.clearsMisuse (s : State) : Instr → Prop
  | .clearMisuse => True
  | .powerOnReset => True
  | .pinReset => True
  | .drainEnd => s.drainOver = true
  | .registerWrite o be v => o = 0x00#5 ∧ be = 0xF#4 ∧ v.getLsbD 3 = true ∧ v.getLsbD 2 = false
  | _ => False

/-- IRQ_N is low exactly while a condition of R156 holds. -/
def State.IrqFollows (s : State) : Prop := s.irqHigh = !s.irqCondition

/-- TDAT is driven exactly while the Link Unit sends (R23), TPWR is on exactly while the Supply Monitor is not UNPOWERED
(Table 9-2), and an UNPOWERED monitor has no timer and the level BELOW (R138, R142). -/
def Lane.Sound (l : Lane) : Prop :=
  (l.lines.tdatDriven = true ↔ l.link.state = .sending)
    ∧ (l.lines.tpwrOn = true ↔ l.supply.state ≠ .unpowered)
    ∧ (l.supply.state = .unpowered →
        l.supply.powerUp = none ∧ l.supply.settle = none ∧ l.supply.ride = none ∧ l.supply.level = .below)

/-- Every lane is sound. -/
def Work.LanesSound (w : Work) : Prop := ∀ n, (w.lane n).Sound

/-- The values of a LANE-SET are in range (R21, R117); other arguments carry no settings. -/
def JobArgs.SettingsOk : JobArgs → Prop
  | .laneSet v => v.inRange = true
  | _ => True

/-- Every Lane Setting is within its range (R21), and so are the values of every LANE-SET in a slot. -/
def Work.SettingsSound (w : Work) : Prop :=
  (∀ n, (w.lane n).settings.inRange = true) ∧ ∀ i j, w.slot i = some j → j.args.SettingsOk

/-- The entries that the jobs in the slots have still to form: one for each job and one for each cancel link (R152). -/
def JobSlot.owes (j : JobSlot) : Nat := if j.cancelLink.isSome then 2 else 1

/-- The entries still to be formed, over all slots. -/
def Work.owed (w : Work) : Nat := (Config.allSlots.map (fun i => (w.slot i).elim 0 JobSlot.owes)).sum

/-- The Post Queue holds at most 32 filled and reserved entries, and a reservation stands behind every entry still to be
formed (R152). -/
def Work.QueueSound (w : Work) : Prop :=
  w.owed ≤ w.reserved ∧ w.queue.length + w.reserved ≤ Config.postCapacity

/-- A reservation is free. -/
def Work.roomLeft (w : Work) : Prop := w.queue.length + w.reserved < Config.postCapacity

/-- A record held, or being read to be held, has a free reservation waiting for it (R150, R152); the port serves Job Intake
only while a record is being read, and no record is read while one is held. -/
def State.QueueSound (s : State) : Prop :=
  s.work.QueueSound
    ∧ (s.intake.held.isSome = true → s.work.roomLeft ∧ s.intake.reading = false)
    ∧ (s.intake.reading = true → s.intake.readVoid = true ∨ s.work.roomLeft)
    ∧ (s.port = some .intake → s.intake.reading = true)

/-- The rings (R148, R149, R154, R155): no geometry means indexes 0 and no posting; with one, every index is within its ring,
the post time list has one time for each unreleased entry, and a posting under way has its place in the ring. -/
def State.RingsSound (s : State) : Prop :=
  (s.part.state.posts = true → s.rings.geom.isSome) ∧
  (s.part.state = .disabled ∨ s.part.state = .loading → s.rings.geom = none) ∧
  match s.rings.geom with
  | none => s.rings.jobTail = 0 ∧ s.rings.jobHead = 0 ∧ s.rings.doneHead = 0 ∧ s.rings.writeIdx = 0
      ∧ s.rings.postTimes = [] ∧ s.posting = none
  | some g => s.rings.jobTail < g.jobSize ∧ s.rings.jobHead < g.jobSize ∧ s.rings.doneHead < g.doneSize
      ∧ s.rings.writeIdx < g.doneSize ∧ s.rings.postTimes.length = s.rings.unreleased
      ∧ (s.posting.isSome → s.rings.unreleased + 1 < g.doneSize)

/-- The tables agree with one another. The Grant List holds each WAITING job's slot once and nothing else (R5). A lane that
holds a slot number is owned by that slot's job, which has the lane in its mask and is not WAITING; the two change
together, but that a drained lane holds none while the part drains (R4, R42). An Image Context and the job that holds
it name one another, a context that names none is FREE, and a WAITING job has none (R9, R81, R82). -/
structure Work.TablesSound (w : Work) (draining : Prop) : Prop where
  nodup : w.grantList.Nodup
  waiting : ∀ i, i ∈ w.grantList ↔ ∃ j, w.slot i = some j ∧ j.state = .waiting
  lane : ∀ n i, (w.lane n).ctx.slot = some i → w.ownerOf n = some i
  owner : ∀ n i, w.ownerOf n = some i →
    (w.lane n).ctx.slot = some i ∨ (draining ∧ (w.lane n).eng.drained = true)
  drained : draining → ∀ n, (w.lane n).eng.drained = true → (w.lane n).ctx.slot = none
  holder : ∀ n i, w.ownerOf n = some i →
    ∃ j, w.slot i = some j ∧ hasLane j.mask n = true ∧ j.state ≠ .waiting
  noContext : ∀ i j, w.slot i = some j → j.state = .waiting → j.ctx = none
  context : ∀ c i, (w.ctx c).slot = some i ↔ ∃ j, w.slot i = some j ∧ j.ctx = some c
  free : ∀ c, (w.ctx c).state = .free ↔ (w.ctx c).slot = none

/-- The tables of the part agree with one another. -/
def State.TablesSound (s : State) : Prop := s.work.TablesSound (s.part.state = .draining)

/-- An Image Context is within its limits: at most 14 shared buffers (R86, R87), a pass that runs has a lane (R93), and an
IDLE context has no pass due and no next page (R82). -/
def ImageCtx.Limits (x : ImageCtx) : Prop :=
  x.sharedHeld ≤ 14
    ∧ (x.state = .writePass ∨ x.state = .checkPass → x.passLanes ≠ 0)
    ∧ (x.state = .idle → x.writeDue = false ∧ x.checkDue = false ∧ x.nextPage = none)

/-- A page buffer is within its limits: FREE exactly when it has no owner, with count 0 when FREE and 1 to 8 otherwise
(Table 5-4), and a floor buffer is held by its own context only (R86, R87). -/
def PageBuf.Limits (b : BufId) (p : PageBuf) : Prop :=
  (p.state = .free ↔ p.owner = none)
    ∧ (p.state = .free → p.count = 0)
    ∧ (p.state ≠ .free → 1 ≤ p.count ∧ p.count ≤ 8)
    ∧ ∀ c, p.owner = some c → b.val < 16 → b.val / 2 = c.val

/-- The Image Reader and the Page Pool are within their limits, and a fetch in flight fills a buffer of its context
(R88). -/
structure Work.PoolSound (w : Work) : Prop where
  contexts : ∀ c, (w.ctx c).Limits
  buffers : ∀ b, (w.buf b).Limits b
  fetches : ∀ c f, (w.ctx c).fetch = some f → (w.buf f.buf).owner = some c

/-- The fatal code is NONE unless the part is HALTED, or DRAINING out of a halt (R158, R161, R162). -/
def State.FatalSound (s : State) : Prop :=
  s.part.fatal ≠ .none → s.part.state = .halted ∨ s.part.state = .draining

end Sys2Proof.Machine
end

