-- ==== Sys2Proof/Certificates/Slice0/Obligations.lean ====
section
/-! DEFINITION. The statements for the provers. Each docstring names the rules of spec/ that a statement follows, in part
or whole; where it rests on a choice of the model it names the log entry. A statement of what a command does gives the
whole next state where it can, so that it is its own frame. -/

open Sys2Proof Sys2Proof.Machine

/-! ## The queue of commands -/

/-- A step runs the command at the front of the queue with the queue's rest. The rest is the model's: on an empty queue one
microsecond passes, and nothing but the timebase and IRQ_N can change (log entry 2); every command answers a next state, one
that cannot happen in the state or under its operands without an effect (log entries 1 and 30); and no command, a reset
neither, touches the queue (log entry 31). -/
def Obligations.StepRunsFrontCommand : Prop :=
  (∀ (s : State) (c : Instr) (rest : List Instr), s.pending = c :: rest → step s = exec c { s with pending := rest })
  ∧ (∀ s : State, s.pending = [] →
    ∃ h, step s = .next { s with clock := s.clock + 48, irqHigh := h }
      ∧ h = !State.irqCondition { s with clock := s.clock + 48 })
  ∧ ∀ (s : State) (c : Instr), ∃ t, exec c s = .next t ∧ t.pending = s.pending

/-! ## Resets -/

/-- R41, whole: a power-on reset and a pin reset at every lane. -/
def Obligations.ResetActsOnEveryLane : Prop :=
  ∀ (s : State) (c : Instr), c = .powerOnReset ∨ c = .pinReset →
    ∃ t, exec c s = .next t ∧ t.work.faultMask = 0 ∧ ∀ n : LaneId,
      (t.work.lane n).lines = { tpwrOn := false, trstLow := true, tselLow := false, tdatDriven := false }
      ∧ (t.work.lane n).ctx =
        { state := .off, slot := none, step := .none, session := false, seq := 0, rate := 0, fallback := false,
          trial := false, desc := none, fallbackCopy := none, answered := true, attempts := 0, faultCause := none,
          retries := 0, drops := 0, faultAddr := none, sumsSkipped := 0, cursor := .start, stepPos := none }
      ∧ (t.work.lane n).settings =
        { rateCode := 3, retryLimit := 3, replyLimit := 10, clearLimit := 60, writeLimit := 5, sumLimit := 2,
          threshold := 2, dropPolicy := .cut, powerUpLimit := 20, settleTime := 2, entryLimit := 50,
          entryAttempts := 3 }
      ∧ (t.work.lane n).link.state = .idle ∧ (t.work.lane n).link.req = none
      ∧ (t.work.lane n).supply.ride = none ∧ (t.work.lane n).supply.powerUp = none

/-- R163: what the part holds after a power-on or a pin reset, the part held while RESET_N is low, its release. That every
other event is ignored while RESET_N is low, and RESET_N's level after a power-on reset, are log entry 9; that the timebase
runs on is log entry 10. -/
def Obligations.ResetsAndTheResetPin : Prop :=
  (∀ (s : State) (c : Instr), c = .powerOnReset ∨ c = .pinReset →
    ∃ t, exec c s = .next t
      ∧ t.part.state = .disabled ∧ t.part.fatal = .none ∧ t.part.setupReading = false
      ∧ (c = .powerOnReset → t.part.cause = .powerOn ∧ t.readRegister 0x04#5 = 0x00000000#32)
      ∧ (c = .pinReset → t.part.cause = .pin ∧ t.part.resetLow = true ∧ t.readRegister 0x04#5 = 0x00000100#32)
      ∧ t.readRegister 0x00#5 = 0 ∧ t.readRegister 0x08#5 = 0 ∧ t.readRegister 0x0C#5 = 0 ∧ t.readRegister 0x10#5 = 0
      ∧ t.readRegister 0x14#5 = 0 ∧ t.readRegister 0x18#5 = 0 ∧ t.readRegister 0x1C#5 = 0x00000100#32
      ∧ t.port = none ∧ t.posting = none ∧ t.irqHigh = true
      ∧ t.rings.geom = none ∧ t.rings.writeIdx = 0 ∧ t.rings.marker = true ∧ t.rings.postCount = 0
      ∧ t.rings.unreleased = 0 ∧ t.rings.postTimes = []
      ∧ t.intake.counter = 0 ∧ t.intake.held = none ∧ t.intake.reading = false
      ∧ (∀ i, t.work.slot i = none) ∧ t.work.grantList = [] ∧ (∀ n, t.work.ownerOf n = none)
      ∧ (∀ x, (t.work.ctx x).state = .free) ∧ (∀ b, (t.work.buf b).state = .free)
      ∧ t.work.queue = [] ∧ t.work.reserved = 0) ∧
  (∀ (s : State) (c : Instr), s.part.resetLow = true → c ≠ .powerOnReset → c ≠ .pinReset → c ≠ .resetNRelease →
    exec c s = .next s) ∧
  (∀ s : State, exec .resetNRelease s = .next { s with part := { s.part with resetLow := false } })

/-! ## The register port -/

/-- The fields of CONTROL but SOFT_RESET (parts of R148, R159, R160): ENABLE, QUIESCE, its release, and CLEAR_MISUSE. That each
row is the write of its own field alone is the model's choice, log entry 7. -/
def Obligations.ControlFieldWrites : Prop :=
  ∀ s : State, s.Awake →
    exec .enable s = .next (State.refreshIrq
      (if s.part.state = .disabled then
        { s with part := { s.part with state := .loading, setupReading := true
                                       setupAddr := s.regs.setupHi ++ s.regs.setupLo } } else s))
    ∧ (s.part.state = .running → ∀ empty : Prop,
        (empty ↔ (∀ i, s.work.slot i = none) ∧ s.work.queue = [] ∧ s.work.reserved = 0 ∧ s.intake.reading = false) →
        (empty → exec .quiesce s = .next (State.refreshIrq
          { s with part := { s.part with state := .quiesced },
                   intake := { s.intake with held := none, readVoid := s.intake.reading } }))
        ∧ (¬ empty → exec .quiesce s = .next (State.refreshIrq
          { s with part := { s.part with state := .quiescing },
                   intake := { s.intake with held := none, readVoid := s.intake.reading } })))
    ∧ (s.part.state ≠ .running → exec .quiesce s = .next s.refreshIrq)
    ∧ exec .quiesceRelease s = .next (State.refreshIrq
        (if s.part.state = .quiescing ∨ s.part.state = .quiesced then
          { s with part := { s.part with state := .running } } else s))
    ∧ exec .clearMisuse s = .next (State.refreshIrq { s with regs := { s.regs with misuse := false } })

/-- SOFT_RESET (parts of R42, R60, R159, R162): DRAINING, the held record discarded, the tables and registers kept, and
each lane carried to rest: a lane in a busy hold or in a power-up goes on, every other exchange is abandoned. DRAIN_END (part
of R162): the tables, the indexes, NOTIFY and MISUSE cleared, the lanes, SETUP_LO and SETUP_HI kept. That the marker and the
post count stand until the next ENABLE is log entry 32; that DRAIN_END is a command of its own is log entry 4. -/
def Obligations.SoftResetDrainsAndClears : Prop :=
  (∀ s : State, s.Awake → s.part.state = .draining → exec .softReset s = .next s.refreshIrq)
  ∧ (∀ s : State, s.Awake → s.part.state ≠ .draining →
    ∃ t, exec .softReset s = .next t
      ∧ t.part = { s.part with state := .draining } ∧ t.regs = s.regs ∧ t.rings = s.rings
      ∧ t.intake.held = none ∧ t.intake.counter = s.intake.counter ∧ t.port = s.port ∧ t.posting = s.posting
      ∧ t.work = { s.work with lanes := t.work.lanes }
      ∧ ∀ n, (t.work.lane n).supply = (s.work.lane n).supply ∧ (t.work.lane n).settings = (s.work.lane n).settings
        ∧ ((s.work.lane n).link.state = .busyHold →
            (t.work.lane n).link = (s.work.lane n).link ∧ (t.work.lane n).lines = (s.work.lane n).lines
              ∧ (t.work.lane n).ctx = (s.work.lane n).ctx)
        ∧ ((s.work.lane n).link.state ≠ .busyHold →
            (t.work.lane n).link.state = .idle
              ∧ ((s.work.lane n).ctx.state ∈ [.entry, .linking, .ready, .active, .hold] →
                  (t.work.lane n).ctx.state = .hold ∧ (t.work.lane n).ctx.session = false
                    ∧ (t.work.lane n).lines.trstLow = true ∧ (t.work.lane n).lines.tselLow = false)
              ∧ ((s.work.lane n).ctx.state ∈ [.off, .powering, .settling, .run, .fault] →
                  (t.work.lane n).ctx.state = (s.work.lane n).ctx.state
                    ∧ (t.work.lane n).lines.trstLow = (s.work.lane n).lines.trstLow)))
  ∧ ∀ s : State, s.Awake → s.part.state = .draining →
    (∀ n, (s.work.lane n).eng.drained = true ∧ (s.work.lane n).eng.xfer = none) →
    s.port = none → s.posting = none → s.part.setupReading = false → s.intake.reading = false →
    exec .drainEnd s = .next
      { s with
        part := { s.part with state := .disabled, fatal := .none, cause := .soft }
        regs := { s.regs with notifyEnable := false, threshold := 1, holdCode := 0, misuse := false }
        rings := { geom := none, jobTail := 0, jobHead := 0, doneHead := 0, writeIdx := 0, marker := s.rings.marker,
                   postCount := s.rings.postCount, postTimes := [] }
        intake := { counter := 0, held := none, reading := false, readVoid := false }
        portLast := 7
        irqHigh := true
        work := { Work.reset with lanes := s.work.lanes } }

/-- The register window (parts of R40, R148, R156, R159, R168 and Table 12-13). SETUP_LO, SETUP_HI and NOTIFY are taken in every
part state; a write of CONTROL without SOFT_RESET is one event, in which ENABLE, QUIESCE or its release, and CLEAR_MISUSE take
effect; with SOFT_RESET set it does nothing else. A write by offset does what the write of the register there does; STATUS
ignores it, and so does an offset that names no register, which sets no MISUSE (the model's choice, log entry 8). Every register
as it reads, 0 in the bits that it does not name, and as it reads after a write that was taken and after one that was ignored. -/
def Obligations.RegisterWindow : Prop :=
  (∀ (s : State) (v : Word), s.Awake →
    exec (.setupLoWrite 0xF#4 v) s = .next (State.refreshIrq { s with regs := { s.regs with setupLo := v } })
    ∧ exec (.setupHiWrite 0xF#4 v) s = .next (State.refreshIrq { s with regs := { s.regs with setupHi := v } })
    ∧ (1 ≤ (v.toNat / 256) % 256 → ∃ t, exec (.notifyWrite 0xF#4 v) s = .next t
        ∧ t = State.refreshIrq { s with regs := { s.regs with
            notifyEnable := t.regs.notifyEnable, threshold := t.regs.threshold, holdCode := t.regs.holdCode } }
        ∧ t.regs.notifyEnable = decide (v.toNat % 2 = 1) ∧ t.regs.threshold.toNat = (v.toNat / 256) % 256
        ∧ t.regs.holdCode.toNat = (v.toNat / 65536) % 4)
    ∧ ((v.toNat / 256) % 256 = 0 → exec (.notifyWrite 0xF#4 v) s = .next (State.refreshIrq
        { s with regs := { s.regs with misuse := true } }))
    ∧ (v.getLsbD 2 = false → ∀ c : Instr,
        c = (if v.getLsbD 0 = true ∧ s.part.state = .disabled then .enable
          else if v.getLsbD 1 = true then .quiesce else .quiesceRelease) →
        ∃ u, exec c s = .next u ∧ exec (.registerWrite 0x00#5 0xF#4 v) s = .next
          (if v.getLsbD 3 = true then { u with regs := { u.regs with misuse := false } } else u))
    ∧ exec (.registerWrite 0x08#5 0xF#4 v) s = .next (State.refreshIrq { s with regs := { s.regs with setupLo := v } })
    ∧ exec (.registerWrite 0x04#5 0xF#4 v) s = .next s.refreshIrq
    ∧ ∀ o : BitVec 5, o.toNat % 4 ≠ 0 → exec (.registerWrite o 0xF#4 v) s = .next s.refreshIrq)
  ∧ (∀ (s : State) (be : BitVec 4) (v : Word),
    exec (.registerWrite 0x08#5 be v) s = exec (.setupLoWrite be v) s
    ∧ exec (.registerWrite 0x0C#5 be v) s = exec (.setupHiWrite be v) s
    ∧ exec (.registerWrite 0x10#5 be v) s = exec (.jobTailWrite be v) s
    ∧ exec (.registerWrite 0x14#5 be v) s = exec (.jobHeadWrite be v) s
    ∧ exec (.registerWrite 0x18#5 be v) s = exec (.doneHeadWrite be v) s
    ∧ exec (.registerWrite 0x1C#5 be v) s = exec (.notifyWrite be v) s
    ∧ (v.getLsbD 2 = true → exec (.registerWrite 0x00#5 0xF#4 v) s = exec .softReset s))
  ∧ ∀ s : State,
    (∀ n : LaneId, (s.readRegister 0x04#5).getLsbD (16 + n.val) = decide ((s.work.lane n).ctx.state = .fault))
    ∧ (s.readRegister 0x04#5).toNat % 16 = partStateCode s.part.state
    ∧ (s.readRegister 0x04#5).toNat / 16 % 16 = fatalCode s.part.fatal
    ∧ (s.readRegister 0x04#5).toNat / 256 % 16 = causeCode s.part.cause
    ∧ (s.readRegister 0x04#5).getLsbD 12 = s.regs.misuse
    ∧ (s.readRegister 0x04#5).toNat / 8192 % 8 = 0 ∧ (s.readRegister 0x04#5).toNat < 2 ^ 24
    ∧ (s.readRegister 0x00#5).toNat = (if s.part.state = .quiescing ∨ s.part.state = .quiesced then 2 else 0)
    ∧ s.readRegister 0x08#5 = s.regs.setupLo ∧ s.readRegister 0x0C#5 = s.regs.setupHi
    ∧ (s.readRegister 0x10#5).toNat = s.rings.jobTail % 2 ^ 32 ∧ (s.readRegister 0x14#5).toNat = s.rings.jobHead % 2 ^ 32
    ∧ (s.readRegister 0x18#5).toNat = s.rings.doneHead % 2 ^ 32
    ∧ (s.readRegister 0x1C#5).toNat = (if s.regs.notifyEnable = true then 1 else 0) + 256 * s.regs.threshold.toNat
        + 65536 * s.regs.holdCode.toNat
    ∧ (s.Awake → ∀ (v : Word) (others : State → BitVec 5 → Prop), (∀ t o, others t o ↔
          ∀ o', o' ≠ o → o' ≠ 0x04#5 → t.readRegister o' = s.readRegister o') →
      (∃ t, exec (.setupLoWrite 0xF#4 v) s = .next t ∧ t.readRegister 0x08#5 = v ∧ others t 0x08#5)
      ∧ (∃ t, exec (.setupHiWrite 0xF#4 v) s = .next t ∧ t.readRegister 0x0C#5 = v ∧ others t 0x0C#5)
      ∧ (1 ≤ v.toNat / 256 % 256 → ∃ t, exec (.notifyWrite 0xF#4 v) s = .next t ∧ others t 0x1C#5
          ∧ (t.readRegister 0x1C#5).toNat = v.toNat % 2 + 256 * (v.toNat / 256 % 256) + 65536 * (v.toNat / 65536 % 4))
      ∧ (¬ s.misuses (.jobTailWrite 0xF#4 v) →
          ∃ t, exec (.jobTailWrite 0xF#4 v) s = .next t ∧ t.readRegister 0x10#5 = v ∧ others t 0x10#5)
      ∧ (¬ s.misuses (.doneHeadWrite 0xF#4 v) →
          ∃ t, exec (.doneHeadWrite 0xF#4 v) s = .next t ∧ t.readRegister 0x18#5 = v ∧ others t 0x18#5)
      ∧ ∀ c, s.misuses c → ∃ t, exec c s = .next t ∧ ∀ o, o ≠ 0x04#5 → t.readRegister o = s.readRegister o)

/-- JOB_TAIL (parts of R149, R150): a write taken, with the held record discarded when it empties the ring, and a write
ignored. That a record read in flight goes on when the value empties the ring is log entry 24; that the next record read is
a command of its own is log entry 4. DONE_HEAD (parts of R154, R155): a write taken releases the entries from DONE_HEAD to the
value and their times, and the Post Queue begins to post in the same event if it was waiting for room. -/
def Obligations.RingIndexWrites : Prop :=
  (∀ (s : State) (v : Word), s.Awake →
    (∀ g, s.rings.geom = some g → s.part.state ∈ [.running, .quiescing, .quiesced, .halted] → v.toNat < 2 ^ g.jobCode →
      exec (.jobTailWrite 0xF#4 v) s = .next (State.refreshIrq
        { s with rings := { s.rings with jobTail := v.toNat }
                 intake := if v.toNat = s.rings.jobHead then { s.intake with held := none } else s.intake }))
    ∧ ((s.rings.geom = none ∨ s.part.state ∈ [.disabled, .loading, .draining]
          ∨ ∃ g, s.rings.geom = some g ∧ 2 ^ g.jobCode ≤ v.toNat) →
      exec (.jobTailWrite 0xF#4 v) s = .next (State.refreshIrq { s with regs := { s.regs with misuse := true } })))
  ∧ ∀ (s : State) (v : Word) (g : Geometry), s.Awake → s.rings.geom = some g →
    s.rings.doneHead < 2 ^ g.doneCode → s.rings.writeIdx < 2 ^ g.doneCode →
    s.part.state ∈ [.running, .quiescing, .quiesced, .halted] → v.toNat < 2 ^ g.doneCode →
    ∀ released unreleased : Nat,
      released = (v.toNat + 2 ^ g.doneCode - s.rings.doneHead) % 2 ^ g.doneCode →
      unreleased = (s.rings.writeIdx + 2 ^ g.doneCode - s.rings.doneHead) % 2 ^ g.doneCode →
      (released ≤ unreleased → ∃ t, exec (.doneHeadWrite 0xF#4 v) s = .next t
        ∧ t = State.refreshIrq
            { s with rings := { s.rings with doneHead := v.toNat, postTimes := s.rings.postTimes.drop released }
                     posting := t.posting }
        ∧ t.rings.unreleased = unreleased - released
        ∧ (∀ e es, unreleased = 2 ^ g.doneCode - 1 → 0 < released → s.posting = none → s.work.queue = e :: es →
            s.part.state ≠ .halted →
            t.posting = some (if e.reportAddr ≠ 0 ∧ e.lanes ≠ [] then .report 0 else .completion))
        ∧ (unreleased < 2 ^ g.doneCode - 1 ∨ released = 0 ∨ s.posting.isSome = true ∨ s.work.queue = []
            ∨ s.part.state = .halted → t.posting = s.posting))
      ∧ (unreleased < released →
          exec (.doneHeadWrite 0xF#4 v) s = .next (State.refreshIrq { s with regs := { s.regs with misuse := true } }))

/-- MISUSE (R157): what sets it and that it changes nothing else, and what clears it. Two writes that arrive together are two
commands in the order of the queue. It says more than the rule: that every other write leaves MISUSE as it is, a full write to
STATUS or to an offset that names no register among them, is the model's choice, log entry 8; that nothing but a reset changes
it while RESET_N is low is log entry 9. -/
def Obligations.MisuseFlag : Prop :=
  ∀ (s : State) (c : Instr),
    (s.Awake → s.misuses c → exec c s = .next (State.refreshIrq { s with regs := { s.regs with misuse := true } }))
    ∧ (s.Awake ∨ c = .powerOnReset ∨ c = .pinReset → s.clearsMisuse c → ∃ t, exec c s = .next t ∧ t.regs.misuse = false)
    ∧ ((s.Awake ∧ ¬ s.misuses c ∧ ¬ s.clearsMisuse c) ∨ (¬ s.Awake ∧ c ≠ .powerOnReset ∧ c ≠ .pinReset) →
        ∃ t, exec c s = .next t ∧ t.regs.misuse = s.regs.misuse)
    ∧ (∃ t, exec c s = .next t ∧ (t.readRegister 0x04#5).getLsbD 12 = t.regs.misuse)

/-! ## Setup, intake and posting -/

/-- SETUP_READ_END (part of R148): the checks of the setup block, the latching of the geometry, and the two halts. -/
def Obligations.SetupBlockJudged : Prop :=
  ∀ s : State, s.Awake → s.part.state = .loading → s.port = some .setup →
    (∀ data : List Byte, data.length = 32 →
      ∀ jobBase jobCode doneBase doneCode : Nat,
        jobBase = fieldAt data 0 8 → jobCode = fieldAt data 8 1 → doneBase = fieldAt data 16 8 → doneCode = fieldAt data 24 1 →
        ∀ good : Prop,
          (good ↔ jobBase % 64 = 0 ∧ 3 ≤ jobCode ∧ jobCode ≤ 10 ∧ doneBase % 32 = 0 ∧ 3 ≤ doneCode ∧ doneCode ≤ 10
            ∧ jobBase + 64 * 2 ^ jobCode ≤ 2 ^ 64 ∧ doneBase + 32 * 2 ^ doneCode ≤ 2 ^ 64) →
          (good → exec (.setupReadEnd (.ok data)) s = .next (State.refreshIrq
            { s with
              port := none
              part := { s.part with state := .running, setupReading := false }
              rings := { s.rings with
                geom := some { jobBase := BitVec.ofNat 64 jobBase, jobCode := jobCode,
                               doneBase := BitVec.ofNat 64 doneBase, doneCode := doneCode }
                jobHead := 0, writeIdx := 0, marker := true, postCount := 0, postTimes := [] } }))
          ∧ (¬ good → ∃ t, exec (.setupReadEnd (.ok data)) s = .next t ∧ t.part.state = .halted
              ∧ t.part.fatal = .setupInvalid ∧ t.rings = s.rings ∧ t.irqHigh = false))
    ∧ ∃ t, exec (.setupReadEnd .error) s = .next t ∧ t.part.state = .halted ∧ t.part.fatal = .setupReadError
        ∧ t.rings = s.rings ∧ t.irqHigh = false

/-- JOB_RECORD_READ_START and JOB_RECORD_READ_END (parts of R150, R160, R161): the five conditions of a read; a record that
has arrived is taken in the same event as JOB_TAKE takes it, and waits held when it needs a slot and none is free; the halt of a
read that fails; and the end of a read that the part left RUNNING before, its data discarded and its error ignored: in RUNNING
again, in QUIESCING, which the part leaves for QUIESCED when it is empty then, and in every other part state. That the start of a
read is a command of its own is log entry 4. -/
def Obligations.JobRecordRead : Prop :=
  ∀ s : State, s.Awake →
    (s.part.state = .running → s.rings.geom.isSome = true → s.rings.jobHead ≠ s.rings.jobTail →
      s.work.queue.length + s.work.reserved < 32 → s.intake.held = none → s.intake.reading = false →
      exec .jobRecordReadStart s = .next (State.refreshIrq
        { s with intake := { s.intake with reading := true, readVoid := false } }))
    ∧ (s.part.state ≠ .running ∨ s.rings.jobHead = s.rings.jobTail ∨ 32 ≤ s.work.queue.length + s.work.reserved
        ∨ s.intake.held.isSome = true ∨ s.intake.reading = true →
      exec .jobRecordReadStart s = .next s.refreshIrq)
    ∧ (s.port = some .intake → s.part.state = .running → s.intake.readVoid = false →
      (∀ (data : List Byte) (u : State), data.length = 64 →
        u = { s with port := none, intake := { s.intake with held := some data, reading := false } } →
        exec (.jobRecordReadEnd (.ok data)) s = exec .jobTake u
        ∧ (∀ args, judgeRecord data = .slotted args → (∀ i, s.work.slot i ≠ none) →
            exec (.jobRecordReadEnd (.ok data)) s = .next u.refreshIrq))
      ∧ ∃ t, exec (.jobRecordReadEnd .error) s = .next t ∧ t.part.state = .halted ∧ t.part.fatal = .jobReadError
          ∧ t.rings = s.rings ∧ t.intake.held = none ∧ t.intake.reading = false ∧ t.irqHigh = false)
    ∧ (s.port = some .intake → ∀ (r : ReadEnd) (u : State), (∀ data, r = .ok data → data.length = 64) →
        u = { s with port := none, intake := { s.intake with reading := false, readVoid := false } } →
        (s.part.state ∈ [.disabled, .loading, .quiesced, .halted, .draining] →
          exec (.jobRecordReadEnd r) s = .next u.refreshIrq)
        ∧ (s.part.state = .running → s.intake.readVoid = true → s.intake.held = none →
          exec (.jobRecordReadEnd r) s = .next u.refreshIrq)
        ∧ (s.part.state = .quiescing → ∀ empty : Prop,
          (empty ↔ (∀ i, s.work.slot i = none) ∧ s.work.queue = [] ∧ s.work.reserved = 0) →
          (empty → exec (.jobRecordReadEnd r) s = .next (State.refreshIrq
            { u with part := { s.part with state := .quiesced } }))
          ∧ (¬ empty → exec (.jobRecordReadEnd r) s = .next u.refreshIrq)))

/-- JOB_TAKE of a refused record (parts of R16, R150, R151): JOB_HEAD and the admission counter advance and the entry stands
at the tail of the Post Queue. JOB_TAKE of an accepted slotted record (parts of R1, R2, R5, R150, R152): the lowest-numbered
free slot, the tail of the Grant List, one more reservation; with no slot free the record waits. The take as a command of its
own is log entry 4. -/
def Obligations.JobTakeRefusesOrPlaces : Prop :=
  ∀ (s : State) (g : Geometry) (r : List Byte), s.Awake → s.part.state = .running → s.rings.geom = some g →
    s.intake.held = some r → ∀ head : Nat, head = (s.rings.jobHead + 1) % 2 ^ g.jobCode →
    (∀ reason : RefuseReason, judgeRecord r = .refused reason →
      exec .jobTake s = .next (State.refreshIrq
        { s with
          rings := { s.rings with jobHead := head }
          intake := { s.intake with counter := s.intake.counter + 1, held := none }
          work := { s.work with queue := s.work.queue ++
            [{ tag := wordAt r 0, kind := byteAt r 4, adm := s.intake.counter, status := .refused, requested := byteAt r 5,
               succeeded := 0, failed := 0, notRun := byteAt r 5, detail := refuseCode reason, jobHead := head,
               targetTag := 0, fallback := false, reportAddr := 0, lanes := [], reportWritten := false,
               reportFailed := false }] } }))
    ∧ ∀ args : JobArgs, judgeRecord r = .slotted args →
      (∀ i : SlotId, s.work.slot i = none → (∀ k : SlotId, k < i → s.work.slot k ≠ none) →
        exec .jobTake s = .next (State.refreshIrq
          { s with
            rings := { s.rings with jobHead := head }
            intake := { s.intake with counter := s.intake.counter + 1, held := none }
            work := { s.work.setSlot i (some
              { tag := wordAt r 0, mask := byteAt r 5, live := 0, results := Vector.replicate 8 none,
                lastSteps := Vector.replicate 8 .none, copies := Vector.replicate 8 none, state := .waiting, ctx := none,
                imageFail := none, cancelLink := none, adm := s.intake.counter, reportAddr := hostAddrAt r 8,
                args := args }) with
              grantList := s.work.grantList ++ [i]
              reserved := s.work.reserved + 1 } }))
      ∧ ((∀ i, s.work.slot i ≠ none) → exec .jobTake s = .next s.refreshIrq)

/-- The checks of a record by its bytes (parts of R76, R98, R117, R151, R165; Tables 2-2, 6-2, 7-2, 12-1, 12-2): the two common
checks; then those of each kind in their order, as the first that fails decides them, with the arguments of the record that
passes them all. -/
def Obligations.RecordChecks : Prop :=
  ∀ (r : List Byte) (end_ : Nat), end_ = (byteAt r 7).toNat →
    ((byteAt r 4 = 0 ∨ 7 < (byteAt r 4).toNat) → judgeRecord r = .refused .unknownKind)
    ∧ (1 ≤ (byteAt r 4).toNat → (byteAt r 4).toNat ≤ 6 → byteAt r 5 = 0 → judgeRecord r = .refused .emptyMask)
    ∧ (byteAt r 4 = 7 → judgeRecord r = .cancel (wordAt r 16))
    ∧ (∀ args, judgeRecord r = .slotted args → kindCode args = byteAt r 4 ∧ byteAt r 5 ≠ 0)
    ∧ (byteAt r 5 ≠ 0 → byteAt r 4 = 1 → ∀ (steps : StepSet) (level : Nat) (imageless : Prop),
      steps = { clear := (byteAt r 32).getLsbD 0, write := (byteAt r 32).getLsbD 1, check := (byteAt r 32).getLsbD 2,
                sum := (byteAt r 32).getLsbD 3, guard := (byteAt r 32).getLsbD 4 } →
      level = (byteAt r 33).toNat →
      (imageless ↔ steps.write = false ∧ steps.check = false ∧ steps.sum = false
        ∧ (steps.clear = true → (byteAt r 6).getLsbD 1 = true)) →
      ((byteAt r 32).toNat % 32 = 0 → judgeRecord r = .refused .emptyStepSet)
      ∧ ((byteAt r 32).toNat % 32 ≠ 0 →
        (3 < end_ → judgeRecord r = .refused .badAction)
        ∧ (end_ ≤ 3 → steps.guard = true → 3 < level → judgeRecord r = .refused .badSetting)
        ∧ (end_ ≤ 3 → (steps.guard = true → level ≤ 3) →
          (hostAddrAt r 16 = 0 → ¬ imageless → judgeRecord r = .refused .imageRequired)
          ∧ (hostAddrAt r 16 ≠ 0 ∨ imageless → ∀ e, (end_, e) ∈ [(0, .keep), (1, .hold), (2, .run), (3, .off)] →
            judgeRecord r = .slotted (.program steps ((byteAt r 6).getLsbD 0) ((byteAt r 6).getLsbD 1) e level
              (hostAddrAt r 16) (hostAddrAt r 24))))))
    ∧ (byteAt r 5 ≠ 0 → byteAt r 4 = 2 → ∀ severalLanes : Prop,
      (severalLanes ↔ ∃ n m, n ≠ m ∧ hasLane (byteAt r 5) n = true ∧ hasLane (byteAt r 5) m = true) →
      (severalLanes → judgeRecord r = .refused .moreThanOneLane)
      ∧ (¬ severalLanes →
        (3 < end_ → judgeRecord r = .refused .badAction)
        ∧ (end_ ≤ 3 → wordAt r 36 = 0 → judgeRecord r = .refused .zeroLength)
        ∧ (wordAt r 36 ≠ 0 → ∀ e, (end_, e) ∈ [(0, .keep), (1, .hold), (2, .run), (3, .off)] →
          judgeRecord r = .slotted (.readout ((byteAt r 6).getLsbD 0) e (hostAddrAt r 16) (hostAddrAt r 24) (wordAt r 32)
            (wordAt r 36)))))
    ∧ (byteAt r 5 ≠ 0 → byteAt r 4 = 3 →
      (3 < end_ → judgeRecord r = .refused .badAction)
      ∧ (end_ ≤ 3 → hostAddrAt r 8 = 0 → judgeRecord r = .refused .noReportAddress)
      ∧ (hostAddrAt r 8 ≠ 0 → ∀ e, (end_, e) ∈ [(0, .keep), (1, .hold), (2, .run), (3, .off)] →
        judgeRecord r = .slotted (.identify ((byteAt r 6).getLsbD 0) e (hostAddrAt r 24))))
    ∧ (byteAt r 5 ≠ 0 → byteAt r 4 = 4 → ∀ (severalLanes : Prop) (count : Nat) (permitted fits : Nat → Prop),
      (severalLanes ↔ ∃ n m, n ≠ m ∧ hasLane (byteAt r 5) n = true ∧ hasLane (byteAt r 5) m = true) →
      count = (byteAt r 32).toNat →
      (∀ i, permitted i ↔ (byteAt r (36 + 6 * i)).toNat ∈ [3, 4, 5, 6, 7, 8]
        ∨ (16 ≤ (byteAt r (36 + 6 * i)).toNat ∧ (byteAt r (36 + 6 * i)).toNat ≤ 127)) →
      (∀ i, fits i ↔ fieldAt r (38 + 6 * i) 2 ≤ 264 ∧ 1 ≤ fieldAt r (40 + 6 * i) 2) →
      (severalLanes → judgeRecord r = .refused .moreThanOneLane)
      ∧ (¬ severalLanes →
        (3 < end_ → judgeRecord r = .refused .badAction)
        ∧ (end_ ≤ 3 → count = 0 ∨ 4 < count → judgeRecord r = .refused .badSetting)
        ∧ (end_ ≤ 3 → 1 ≤ count → count ≤ 4 →
          ((∃ i, i < count ∧ ¬ permitted i) → judgeRecord r = .refused .refusedExchangeKind)
          ∧ ((∀ i, i < count → permitted i) →
            ((∃ i, i < count ∧ ¬ fits i) → judgeRecord r = .refused .badSetting)
            ∧ ((∀ i, i < count → fits i) → ∀ e, (end_, e) ∈ [(0, .keep), (1, .hold), (2, .run), (3, .off)] →
              ∃ es, judgeRecord r = .slotted (.exchange ((byteAt r 6).getLsbD 0) e (hostAddrAt r 16) (hostAddrAt r 24) es)
                ∧ es.length = count ∧ ∀ i, i < count → es[i]? = some
                  { kind := byteAt r (36 + 6 * i), len := fieldAt r (38 + 6 * i) 2, busyMs := fieldAt r (40 + 6 * i) 2 })))))
    ∧ (byteAt r 5 ≠ 0 → byteAt r 4 = 5 →
      ((∃ v, judgeRecord r = .slotted (.laneSet v)) ↔
        fieldAt r 16 1 ≤ 5 ∧ fieldAt r 17 1 ≤ 7 ∧ 1 ≤ fieldAt r 18 1 ∧ 1 ≤ fieldAt r 20 2 ∧ fieldAt r 20 2 ≤ 1023
          ∧ 1 ≤ fieldAt r 22 1 ∧ 1 ≤ fieldAt r 23 1 ∧ fieldAt r 24 1 ≤ 2 ∧ fieldAt r 25 1 ≤ 1 ∧ 1 ≤ fieldAt r 26 1
          ∧ 1 ≤ fieldAt r 28 1 ∧ 1 ≤ fieldAt r 29 1 ∧ fieldAt r 29 1 ≤ 4)
      ∧ (∀ v, judgeRecord r = .slotted (.laneSet v) → v =
          { rateCode := fieldAt r 16 1, retryLimit := fieldAt r 17 1, replyLimit := fieldAt r 18 1,
            clearLimit := fieldAt r 20 2, writeLimit := fieldAt r 22 1, sumLimit := fieldAt r 23 1,
            threshold := fieldAt r 24 1, dropPolicy := if fieldAt r 25 1 = 1 then .ride else .cut,
            powerUpLimit := fieldAt r 26 1, settleTime := fieldAt r 27 1, entryLimit := fieldAt r 28 1,
            entryAttempts := fieldAt r 29 1 })
      ∧ ((∀ v, judgeRecord r ≠ .slotted (.laneSet v)) → judgeRecord r = .refused .badSetting))
    ∧ (byteAt r 5 ≠ 0 → byteAt r 4 = 6 →
      (∀ a, (fieldAt r 16 1, a) ∈ [(0, .powerOn), (1, .powerOff), (2, .hold), (3, .run), (4, .clearFault)] →
        judgeRecord r = .slotted (.laneAction a))
      ∧ (5 ≤ fieldAt r 16 1 → judgeRecord r = .refused .badAction))

/-- The event that frees a slot takes the record that waited for one (part of R150), whatever the command: what the command
does with no record held, and then the taking, JOB_HEAD and the admission counter advanced. That the completion entry of the
job that freed the slot shows JOB_HEAD from before the advance is log entry 4. -/
def Obligations.FreedSlotTakesTheWaitingRecord : Prop :=
  ∀ (s t : State) (c : Instr) (g : Geometry) (r : List Byte) (args : JobArgs) (i : SlotId), s.Awake →
    s.part.state = .running → s.rings.geom = some g → s.intake.held = some r → judgeRecord r = .slotted args →
    (∀ k, s.work.slot k ≠ none) → (∀ e, c ≠ .jobRecordReadEnd e) →
    exec c { s with intake := { s.intake with held := none } } = .next t → t.part.state = .running →
    t.work.slot i = none → (∀ k, k < i → t.work.slot k ≠ none) →
    exec c s = .next (State.refreshIrq
      { t with
        rings := { t.rings with jobHead := (s.rings.jobHead + 1) % 2 ^ g.jobCode }
        intake := { t.intake with counter := s.intake.counter + 1 }
        work := { t.work.setSlot i (some
          { tag := wordAt r 0, mask := byteAt r 5, live := 0, results := Vector.replicate 8 none,
            lastSteps := Vector.replicate 8 .none, copies := Vector.replicate 8 none, state := .waiting, ctx := none,
            imageFail := none, cancelLink := none, adm := s.intake.counter, reportAddr := hostAddrAt r 8,
            args := args }) with
          grantList := t.work.grantList ++ [i]
          reserved := t.work.reserved + 1 } })

/-- A CANCEL that is answered at intake, rows 1 to 4 of Table 8-1 (part of R131): one entry at the tail, and nothing about the
named job changes. A CANCEL that names a WAITING job, row 5 (part of R132): the job leaves the Grant List and its slot, both
entries stand at the tail, the CANCEL's behind the job's, and every requested lane is NOT_RUN. The named job of a CANCEL is the
oldest job with the tag, in a slot or as an entry that is not a CANCEL's (part of R130, age by R3). -/
def Obligations.CancelIsResolvedAtIntake : Prop :=
  (∀ (w : Work) (counter tag : Word),
    (w.findNamed counter tag = none ↔
      (∀ i j, w.slot i = some j → j.tag ≠ tag) ∧ ∀ e ∈ w.queue, e.tag = tag → e.kind = 7)
    ∧ ∀ x, w.findNamed counter tag = some x →
      ((∃ i j, x = .slot i j.adm ∧ w.slot i = some j ∧ j.tag = tag)
        ∨ ∃ e ∈ w.queue, x = .entry e.adm ∧ e.tag = tag ∧ e.kind ≠ 7)
      ∧ (∀ i j, w.slot i = some j → j.tag = tag → (counter - j.adm).toNat ≤ (counter - x.adm).toNat)
      ∧ ∀ e ∈ w.queue, e.tag = tag → e.kind ≠ 7 → (counter - e.adm).toNat ≤ (counter - x.adm).toNat)
  ∧ ∀ (s : State) (g : Geometry) (r : List Byte), s.Awake → s.part.state = .running → s.rings.geom = some g →
    s.intake.held = some r → byteAt r 4 = 7 →
    (∀ (st : JobStatus) (d : Half),
      ((s.work.findNamed (s.intake.counter + 1) (wordAt r 16) = none ∧ st = .notFound ∧ d = 0)
        ∨ (∃ i a j, s.work.findNamed (s.intake.counter + 1) (wordAt r 16) = some (.slot i a) ∧ s.work.slot i = some j
            ∧ ((j.cancelLink.isSome = true ∧ st = .alreadyCancelling ∧ d = 0)
              ∨ (j.cancelLink = none ∧ j.state = .ending ∧ st = .tooLate ∧ d = 2)))
        ∨ (∃ a, s.work.findNamed (s.intake.counter + 1) (wordAt r 16) = some (.entry a) ∧ st = .tooLate ∧ d = 1)) →
      ∀ head : Nat, head = (s.rings.jobHead + 1) % 2 ^ g.jobCode →
      exec .jobTake s = .next (State.refreshIrq
        { s with
          rings := { s.rings with jobHead := head }
          intake := { s.intake with counter := s.intake.counter + 1, held := none }
          work := { s.work with queue := s.work.queue ++
            [{ tag := wordAt r 0, kind := 7, adm := s.intake.counter, status := st, requested := 0, succeeded := 0,
               failed := 0, notRun := 0, detail := d, jobHead := head, targetTag := wordAt r 16, fallback := false,
               reportAddr := 0, lanes := [], reportWritten := false, reportFailed := false }] } }))
    ∧ ∀ (i : SlotId) (a : Word) (j : JobSlot),
      s.work.findNamed (s.intake.counter + 1) (wordAt r 16) = some (.slot i a) → s.work.slot i = some j →
      j.cancelLink = none → j.state = .waiting → j.ctx = none →
      ∃ t e k, exec .jobTake s = .next t ∧ t.work.queue = s.work.queue ++ [e, k]
        ∧ t.work.slot i = none ∧ (∀ m, m ≠ i → t.work.slot m = s.work.slot m)
        ∧ t.work.grantList = s.work.grantList.filter (fun x => x ≠ i) ∧ t.work.lanes = s.work.lanes
        ∧ t.work.owner = s.work.owner ∧ t.work.ctxs = s.work.ctxs
        ∧ e.tag = j.tag ∧ e.adm = j.adm ∧ e.status = .cancelled ∧ e.detail = 0 ∧ e.requested = j.mask
        ∧ e.notRun = j.mask ∧ e.succeeded = 0 ∧ e.failed = 0
        ∧ k.tag = wordAt r 0 ∧ k.kind = 7 ∧ k.adm = s.intake.counter ∧ k.status = .cancelDone ∧ k.detail = 1
        ∧ k.requested = 0 ∧ k.targetTag = j.tag

/-- POST_BEGIN and REPORT_RECORD_WRITE_END (part of R153): when posting begins, and with which write; then the next record,
and the completion record after the last one or after an error, with the two flags. POST_BEGIN as a command of its own is log
entry 4. -/
def Obligations.PostingWritesReportsFirst : Prop :=
  (∀ (s : State) (g : Geometry), s.Awake → s.rings.geom = some g → s.posting = none →
    (∀ e es, s.work.queue = e :: es → s.part.state ∈ [.running, .quiescing, .quiesced] →
      s.rings.unreleased < 2 ^ g.doneCode - 1 →
      exec .postBegin s = .next (State.refreshIrq
        { s with posting := some (if e.reportAddr ≠ 0 ∧ e.lanes ≠ [] then .report 0 else .completion) }))
    ∧ (s.work.queue = [] ∨ s.part.state ∈ [.disabled, .loading, .halted, .draining]
        ∨ 2 ^ g.doneCode - 1 ≤ s.rings.unreleased →
      exec .postBegin s = .next s.refreshIrq))
  ∧ ∀ (s : State) (i : Nat) (e : Entry) (es : List Entry), s.Awake → s.part.state ∈ [.running, .quiescing, .quiesced] →
    s.port = some .postQueue → s.posting = some (.report i) → s.work.queue = e :: es →
    (i + 1 < e.lanes.length → exec (.reportRecordWriteEnd .ok) s = .next (State.refreshIrq
      { s with port := none, posting := some (.report (i + 1)) }))
    ∧ (e.lanes.length ≤ i + 1 → exec (.reportRecordWriteEnd .ok) s = .next (State.refreshIrq
      { s with port := none, posting := some .completion
               work := { s.work with queue := { e with reportWritten := true } :: es } }))
    ∧ exec (.reportRecordWriteEnd .error) s = .next (State.refreshIrq
      { s with port := none, posting := some .completion
               work := { s.work with queue := { e with reportFailed := true } :: es } })

/-- COMPLETION_WRITE_END (parts of R154, R160, R161): the entry is posted, and the part that is then empty enters QUIESCED; a
write that fails halts the part and posts nothing; in the drain nothing is posted. -/
def Obligations.CompletionWritePosts : Prop :=
  ∀ (s : State) (g : Geometry) (e : Entry) (es : List Entry), s.Awake → s.rings.geom = some g →
    s.rings.writeIdx < 2 ^ g.doneCode → s.port = some .postQueue → s.posting = some .completion → s.work.queue = e :: es →
    (s.part.state ∈ [.running, .quiescing, .quiesced, .halted] → ∀ empty : Prop,
      (empty ↔ s.part.state = .quiescing ∧ es = [] ∧ (∀ i, s.work.slot i = none) ∧ s.work.reserved = 0
        ∧ s.intake.reading = false) →
      ∀ u : State, u =
        { s with
          port := none
          posting := none
          rings := { s.rings with
            writeIdx := if s.rings.writeIdx + 1 = 2 ^ g.doneCode then 0 else s.rings.writeIdx + 1
            marker := if s.rings.writeIdx + 1 = 2 ^ g.doneCode then !s.rings.marker else s.rings.marker
            postCount := s.rings.postCount + 1
            postTimes := s.rings.postTimes ++ [s.clock / 48] }
          work := { s.work with queue := es } } →
      (empty → exec (.completionWriteEnd .ok) s = .next (State.refreshIrq
        { u with part := { s.part with state := .quiesced } }))
      ∧ (¬ empty → exec (.completionWriteEnd .ok) s = .next u.refreshIrq))
    ∧ (s.part.state ∈ [.running, .quiescing, .quiesced] →
      ∃ t, exec (.completionWriteEnd .error) s = .next t ∧ t.part.state = .halted ∧ t.part.fatal = .postWriteError
        ∧ t.rings = s.rings ∧ t.work.queue = s.work.queue ∧ t.posting = none ∧ t.irqHigh = false)
    ∧ (s.part.state ∈ [.halted, .draining] →
      exec (.completionWriteEnd .error) s = .next (State.refreshIrq { s with port := none, posting := none }))
    ∧ (s.part.state = .draining →
      exec (.completionWriteEnd .ok) s = .next (State.refreshIrq { s with port := none, posting := none }))

/-- The halt's effect on the lanes (parts of R59, R161), for each of the three read and write errors that halt the part: an
exchange runs on with its stop mark set, a wait for a quiet line ends at once, a host transfer in flight goes on, and every
lane without either rests in HOLD, but for those in OFF, in a power-up, in RUN and in FAULT; nothing else of the tables
changes. That a READY lane without an owner rests in HOLD too is log entry 26. -/
def Obligations.HaltBringsTheLanesToRest : Prop :=
  ∀ (s : State) (c : Instr), s.Awake →
    (s.part.state = .loading ∧ s.port = some .setup ∧ c = .setupReadEnd .error)
      ∨ (s.part.state = .running ∧ s.port = some .intake ∧ s.intake.readVoid = false ∧ c = .jobRecordReadEnd .error)
      ∨ (s.part.state ∈ [.running, .quiescing, .quiesced] ∧ s.port = some .postQueue ∧ s.posting = some .completion
          ∧ c = .completionWriteEnd .error) →
    ∃ t, exec c s = .next t ∧ t.part.state = .halted ∧ t.irqHigh = false ∧ t.port = none ∧ t.intake.held = none
      ∧ t.regs = s.regs ∧ t.rings = s.rings ∧ t.work = { s.work with lanes := t.work.lanes }
      ∧ ∀ n l, l = s.work.lane n →
        (l.link.state = .idle → l.eng.xfer.isSome = true ∨ l.ctx.state ∈ [.off, .powering, .settling, .run, .fault] →
          t.work.lane n = l)
        ∧ (l.link.state = .idle → l.eng.xfer = none → l.ctx.state ∈ [.entry, .linking, .ready, .active, .hold] →
          (t.work.lane n).ctx.state = .hold ∧ (t.work.lane n).ctx.session = false
          ∧ (t.work.lane n).ctx.fallbackCopy = none ∧ (t.work.lane n).ctx.slot = l.ctx.slot
          ∧ (t.work.lane n).lines = { l.lines with trstLow := true, tselLow := false }
          ∧ (t.work.lane n).supply = l.supply ∧ (t.work.lane n).settings = l.settings)
        ∧ (l.link.state ∈ [.sending, .awaiting, .busyHold] ∨ l.Listens →
          t.work.lane n = { l with link := { l.link with stopMark := true } })
        ∧ (l.link.state = .receiving → l.link.discarding = true → l.link.req.isSome = true →
          (t.work.lane n).link.state = .idle ∧ (t.work.lane n).lines.tdatDriven = false
          ∧ (t.work.lane n).ctx.answered = false ∧ (t.work.lane n).ctx.seq = l.ctx.seq + 1
          ∧ (t.work.lane n).supply = l.supply
          ∧ (l.eng.xfer = none → l.ctx.state ∈ [.linking, .active] →
              (t.work.lane n).ctx.state = .hold ∧ (t.work.lane n).ctx.session = false
              ∧ (t.work.lane n).lines.trstLow = true ∧ (t.work.lane n).lines.tselLow = false))

/-- The records written to host memory (Tables 12-7 and 12-9, parts of R166 and R167): 32 bytes each, every field at its
place, 0 in every other byte and bit, and what a report record holds with and without an outcome copy, a descriptor and a fault address. -/
def Obligations.HostRecordLayouts : Prop :=
  (∀ (e : Entry) (marker : Bool) (count : Half) (r : List Byte), r = completionRecord e marker count → e.jobHead < 1024 →
    r.length = 32 ∧ wordAt r 0 = e.tag ∧ byteAt r 4 = e.kind ∧ byteAt r 5 = statusCode e.status
      ∧ (byteAt r 6).getLsbD 0 = marker ∧ (byteAt r 6).getLsbD 1 = e.reportWritten
      ∧ (byteAt r 6).getLsbD 2 = e.reportFailed ∧ (byteAt r 6).getLsbD 3 = e.fallback ∧ (byteAt r 6).toNat < 16
      ∧ byteAt r 7 = e.requested ∧ byteAt r 8 = e.succeeded ∧ byteAt r 9 = e.failed ∧ byteAt r 10 = e.notRun
      ∧ halfAt r 12 = e.detail ∧ halfAt r 14 = count ∧ fieldAt r 16 2 = e.jobHead ∧ wordAt r 20 = e.targetTag
      ∧ byteAt r 11 = 0 ∧ fieldAt r 18 2 = 0 ∧ fieldAt r 24 8 = 0)
  ∧ ∀ (x : LaneReport) (r : List Byte), r = reportRecord x →
    r.length = 32 ∧ (byteAt r 0).toNat = x.lane.val ∧ byteAt r 1 = resultCode x.result ∧ byteAt r 2 = stepCode x.lastStep
      ∧ fieldAt r 29 3 = 0 ∧ (byteAt r 6).toNat < 8
      ∧ (x.copy = none → ∀ k, 3 ≤ k → byteAt r k = 0)
      ∧ ∀ c, x.copy = some c → c.retries < 256 → c.drops < 256 → c.rate < 256 → c.sumsSkipped < 256 →
        (byteAt r 3).toNat = c.retries ∧ (byteAt r 4).toNat = c.drops ∧ (byteAt r 5).toNat = c.rate
        ∧ (byteAt r 6).getLsbD 0 = c.desc.isSome ∧ (byteAt r 6).getLsbD 1 = c.faultAddr.isSome
        ∧ (byteAt r 6).getLsbD 2 = c.fallback ∧ (byteAt r 7).toNat = c.sumsSkipped
        ∧ wordAt r 8 = c.faultAddr.getD 0
        ∧ (∀ d, c.desc = some d → targetDescOf (slice r 12 17) = d)
        ∧ (c.desc = none → slice r 12 17 = List.replicate 17 0)

/-- IRQ_N (the conditions of R156), in every state that a command answers with RESET_N high before it; RESET_N_RELEASE is no
event then. HOLD_INTERVAL_EXPIRY moves the timebase to where the interval has run out: log entry 3. -/
def Obligations.IrqLineFollowsItsConditions : Prop :=
  (∀ (s t : State) (c : Instr), s.Awake → c ≠ .resetNRelease → exec c s = .next t →
    (t.irqHigh = false ↔ t.part.state = .halted
      ∨ (t.regs.notifyEnable = true
        ∧ (t.regs.threshold.toNat ≤ t.rings.unreleased
          ∨ ∃ us oldest, (t.regs.holdCode, us) ∈ [(1#2, 50), (2#2, 200), (3#2, 1000)]
              ∧ t.rings.postTimes.head? = some oldest ∧ 1 ≤ t.rings.unreleased ∧ us < t.clock / 48 - oldest))))
  ∧ ∀ (s : State) (oldest us : Nat), s.Awake → (s.regs.holdCode, us) ∈ [(1#2, 50), (2#2, 200), (3#2, 1000)] →
      s.rings.postTimes.head? = some oldest →
      ∃ t, exec .holdIntervalExpiry s = .next t ∧ us < t.clock / 48 - oldest ∧ s.clock ≤ t.clock
        ∧ t = { s with clock := t.clock, irqHigh := t.irqHigh }
        ∧ (s.regs.notifyEnable = true → 1 ≤ s.rings.unreleased → t.irqHigh = false)

/-- The transfer on the memory port, its direction, host address, length and bytes (parts of R65, R78, R84, R120, R123, R148,
R150, R153, R154): the setup block's at the address that ENABLE latched, the record's at JOB_HEAD, a report record's by its index, the
completion record's at the write index with the marker and the next post count, a lane's and the Image Reader's. The arbiter of the
port (parts of R78, R84, R87, R88, R95, R164): a transfer under way stays; a free port goes to the
highest class that waits, a lane in round-robin order; in the lowest class to the next Image Context in round-robin order, for
the part of its descriptor that is due or for a page fetch into the first buffer it may take. A posting or a lane's transfer
that waits takes the port in a part that is halted or drains too: the model's reading, log entry 6. -/
def Obligations.PortGoesToTheHighestClass : Prop :=
  (∀ (s : State) (x : Option Transfer), x = s.portTransfer →
    (s.port = none → x = none)
    ∧ (s.port = some .setup → x = some (.read s.part.setupAddr 32))
    ∧ (s.Awake → s.part.state = .disabled → s.posting = none → s.port = none →
        ∃ t u, exec .enable s = .next t ∧ exec .memoryPortArbitration t = .next u
          ∧ u.portTransfer = some (.read (s.regs.setupHi ++ s.regs.setupLo) 32))
    ∧ (∀ g, s.rings.geom = some g →
        (s.port = some .intake → x = some (.read (g.jobBase + BitVec.ofNat 64 (64 * s.rings.jobHead)) 64))
        ∧ ∀ e es, s.port = some .postQueue → s.work.queue = e :: es →
          (s.posting = some .completion → x = some (.write (g.doneBase + BitVec.ofNat 64 (32 * s.rings.writeIdx))
            (completionRecord e s.rings.marker (s.rings.postCount + 1))))
          ∧ ∀ i lane, s.posting = some (.report i) → e.lanes[i]? = some lane →
            x = some (.write (e.reportAddr + BitVec.ofNat 64 (32 * i)) (reportRecord lane)))
    ∧ (∀ n a, s.port = some (.lane n) →
        ((s.work.lane n).eng.xfer = some (.keyRead a) → x = some (.read a 16))
        ∧ (∀ len, (s.work.lane n).eng.xfer = some (.payloadRead a len) → x = some (.read a len))
        ∧ (∀ b p data, (s.work.lane n).eng.xfer = some (.pageWrite b p a data) → x = some (.write a data))
        ∧ ∀ data, (s.work.lane n).eng.xfer = some (.replyWrite a data) → x = some (.write a data))
    ∧ ∀ c a,
        (s.port = some (.image c (.desc .header a)) → x = some (.read a 16))
        ∧ (∀ count code fill, s.port = some (.image c (.desc (.table count code fill) a)) →
            x = some (.read (a + BitVec.ofNat 64 16) (24 * count.toNat)))
        ∧ ∀ f q rs, s.port = some (.image c (.fetch f (q :: rs))) → x = some (.read q.addr q.len))
  ∧ ∀ s : State, s.Awake →
    (s.port.isSome = true → exec .memoryPortArbitration s = .next s.refreshIrq)
    ∧ (s.port = none → s.posting.isSome = true →
        exec .memoryPortArbitration s = .next (State.refreshIrq { s with port := some .postQueue }))
    ∧ (s.port = none → s.posting = none → s.part.setupReading = true →
        exec .memoryPortArbitration s = .next (State.refreshIrq { s with port := some .setup }))
    ∧ (s.port = none → s.posting = none → s.part.setupReading = false → s.intake.reading = true →
        exec .memoryPortArbitration s = .next (State.refreshIrq { s with port := some .intake }))
    ∧ (s.port = none → s.posting = none → s.part.setupReading = false → s.intake.reading = false →
        (∀ k : Nat, k < 8 → (s.work.lane (s.portLast + 1 + Fin.ofNat 8 k)).eng.xfer.isSome = true →
          (∀ m, m < k → (s.work.lane (s.portLast + 1 + Fin.ofNat 8 m)).eng.xfer = none) →
          exec .memoryPortArbitration s = .next (State.refreshIrq
            { s with port := some (.lane (s.portLast + 1 + Fin.ofNat 8 k)), portLast := s.portLast + 1 + Fin.ofNat 8 k }))
        ∧ ((∀ n, (s.work.lane n).eng.xfer = none) →
          (s.part.state ∈ [.halted, .draining, .disabled] ∨ (∀ c, ¬ s.work.WantsPort c) →
            exec .memoryPortArbitration s = .next s.refreshIrq)
          ∧ (s.part.state ∈ [.loading, .running, .quiescing, .quiesced] →
            ∀ (k : Nat) (c : CtxId) (x : ImageCtx), k < 8 → c = s.work.imgLast + 1 + Fin.ofNat 8 k → s.work.WantsPort c →
              (∀ m, m < k → ¬ s.work.WantsPort (s.work.imgLast + 1 + Fin.ofNat 8 m)) → x = s.work.ctx c →
              (∀ part, x.state = .descriptor → x.descDue = some part →
                exec .memoryPortArbitration s = .next (State.refreshIrq
                  { s with port := some (.image c (.desc part x.descPtr))
                           work := { s.work.setCtx c { x with descDue := none, descBusy := some part } with
                             imgLast := c } }))
              ∧ (∀ p b, x.state ∈ [.writePass, .checkPass] → x.descDue = none → x.nextPage = some p →
                s.work.MayTake c b → (∀ b', b' < b → ¬ s.work.MayTake c b') →
                exec .memoryPortArbitration s = .next (State.refreshIrq
                  { s with port := some (.image c (.fetch { buf := b, page := p } (x.reads p)))
                           work := { (s.work.setBuf b
                               { state := .filling, owner := some c
                                 pass := if x.state = .checkPass then .check else .write
                                 page := p, count := (lanesIn x.passLanes).length
                                 data := List.replicate (64 * 2 ^ x.pageCode.toNat) x.fill }).setCtx c
                               { x with fetch := some { buf := b, page := p }
                                        nextPage := pageAfter x.segs (64 * 2 ^ x.pageCode.toNat) p
                                        sharedHeld := if 16 ≤ b.val then x.sharedHeld + 1 else x.sharedHeld } with
                             imgLast := c } })))))

/-! ## Grants and outcomes -/

/-- The jobs that one grant scan grants, as the last paragraph of R6 gives them: the waiting jobs whose lanes are free and
asked for by no older waiting job. No two of them share a lane; they leave the Grant List and are no longer WAITING, the
others keep their place in it; and a part in which the Job Table does not act grants nothing (R19). The scan as a command of
its own is log entry 4. -/
def Obligations.ScanGrantsEveryJobThatCanStart : Prop :=
  (∀ s : State, s.Awake → s.part.state ∈ [.halted, .draining, .disabled] → exec .grantScan s = .next s.refreshIrq)
  ∧ ∀ s : State, s.Awake → s.part.state ∈ [.loading, .running, .quiescing, .quiesced] → s.TablesSound → s.NoneWaits →
    ∀ starts : SlotId → Prop,
    (∀ i, starts i ↔ ∃ before after j, s.work.grantList = before ++ i :: after ∧ s.work.slot i = some j
      ∧ (∀ n, hasLane j.mask n = true → s.work.ownerOf n = none)
      ∧ ∀ k ∈ before, ∀ j', s.work.slot k = some j' → j'.mask &&& j.mask = 0) →
    (∀ i k j j', starts i → starts k → i ≠ k → s.work.slot i = some j → s.work.slot k = some j' → j.mask &&& j'.mask = 0)
    ∧ ∃ t, exec .grantScan s = .next t
      ∧ t.work.grantList.Sublist s.work.grantList ∧ (∀ i, i ∈ t.work.grantList ↔ i ∈ s.work.grantList ∧ ¬ starts i)
      ∧ (∀ i j, starts i → s.work.slot i = some j → t.work.slot i = none
          ∨ ∃ j', t.work.slot i = some j' ∧ j'.tag = j.tag ∧ j'.adm = j.adm ∧ j'.mask = j.mask ∧ j'.state ≠ .waiting)
      ∧ ∀ i, ¬ starts i → i ∈ s.work.grantList → t.work.slot i = s.work.slot i

/-- GRANT_SCAN of one PROGRAM job with a descriptor pointer whose lanes are all free (parts of R8, R9, R10, R39, R78): a lane in
FAULT is LANE_FAULTED with its fault cause as fault address and leaves; while any other lane is left, the job is RUNNING with its
context in DESCRIPTOR, and those lanes wait in the state in which they were granted; with every lane in FAULT the job completes
in the event. Which free context is taken is the model's choice, log entry 22. -/
def Obligations.GrantOfAnImageJob : Prop :=
  ∀ (s : State) (i : SlotId) (j : JobSlot) (c : CtxId) (steps : StepSet) (fresh clearAll : Bool) (e : EndAction)
    (level : Nat) (ptr key : HostAddr) (inFault : LaneId → Prop), s.Awake →
    s.part.state ∈ [.loading, .running, .quiescing, .quiesced] → s.work.grantList = [i] → s.work.slot i = some j →
    j.args = .program steps fresh clearAll e level ptr key → ptr ≠ 0 → j.mask ≠ 0 →
    (∀ n, s.work.ownerOf n ≠ some i) → (∀ n, hasLane j.mask n = true → s.work.ownerOf n = none) →
    (s.work.ctx c).state = .free → (∀ c', c' < c → (s.work.ctx c').state ≠ .free) →
    (∀ n, inFault n ↔ (s.work.lane n).ctx.state = .fault) →
    ((∃ n, hasLane j.mask n = true ∧ ¬ inFault n) →
      ∃ t j', exec .grantScan s = .next t ∧ t = { s with work := t.work, irqHigh := t.irqHigh }
        ∧ t.work.grantList = [] ∧ t.work.queue = s.work.queue ∧ t.work.reserved = s.work.reserved
        ∧ t.work.pool = s.work.pool ∧ t.work.slot i = some j'
        ∧ j' = { j with state := .running, live := j'.live, lastSteps := Vector.replicate 8 .none, ctx := some c
                        results := j'.results, copies := j'.copies }
        ∧ (∀ k, k ≠ i → t.work.slot k = s.work.slot k)
        ∧ t.work.ctx c = { ImageCtx.free with state := .descriptor, slot := some i, descPtr := ptr, descDue := some .header }
        ∧ (∀ c', c' ≠ c → t.work.ctx c' = s.work.ctx c')
        ∧ ∀ n,
          (hasLane j.mask n = false → hasLane j'.live n = false ∧ t.work.ownerOf n = s.work.ownerOf n
            ∧ t.work.lane n = s.work.lane n)
          ∧ (hasLane j.mask n = true → ¬ inFault n → hasLane j'.live n = true ∧ t.work.ownerOf n = some i
            ∧ j'.results.get n = j.results.get n ∧ t.work.lane n = { s.work.lane n with ctx := { (s.work.lane n).ctx with
                slot := some i, step := .none, retries := 0, drops := 0, faultAddr := none, sumsSkipped := 0,
                cursor := .start, stepPos := none } })
          ∧ (hasLane j.mask n = true → inFault n → hasLane j'.live n = false ∧ t.work.ownerOf n = none
            ∧ j'.results.get n = some .laneFaulted ∧ (t.work.lane n).ctx.state = .fault
            ∧ (t.work.lane n).ctx.faultCause = (s.work.lane n).ctx.faultCause ∧ (t.work.lane n).ctx.slot = none
            ∧ (s.work.lane n).SamePins (t.work.lane n)
            ∧ ∀ cause, (s.work.lane n).ctx.faultCause = some cause → ∃ o, j'.copies.get n = some o
              ∧ o.faultAddr = some ((resultCode cause).setWidth 32)))
    ∧ ((∀ n, hasLane j.mask n = true → inFault n) → s.NoneWaits → j.cancelLink = none → j.imageFail = none →
      ∃ t k, exec .grantScan s = .next t ∧ t.work.queue = s.work.queue ++ [k] ∧ k.tag = j.tag ∧ k.adm = j.adm
        ∧ k.status = .failed ∧ k.requested = j.mask ∧ k.failed = j.mask ∧ k.succeeded = 0 ∧ k.notRun = 0
        ∧ t.work.slot i = none ∧ t.work.grantList = [] ∧ t.work.ctx c = ImageCtx.free ∧ t.work.pool = s.work.pool
        ∧ ∀ n, t.work.ownerOf n = s.work.ownerOf n ∧ (s.work.lane n).SamePins (t.work.lane n)
          ∧ (t.work.lane n).ctx.state = (s.work.lane n).ctx.state)

/-- GRANT_SCAN of one job that needs a session and does not wait for an image (parts of R8, R25 to R27, R33, R39, R144; Tables
2-4 and 2-5), lane by lane: LANE_FAULTED in FAULT; power-up from OFF; entry from HOLD and RUN, held back in a ride window; in
READY the session reused, here by IDENTIFY, which is DONE at once, or with FRESH set closed first. The state of a lane whose
entry is held back is log entry 21. -/
def Obligations.SessionJobStartsAtItsGrant : Prop :=
  ∀ (s : State) (i : SlotId) (j : JobSlot) (e : EndAction), s.Awake → s.NoneWaits →
    s.part.state ∈ [.loading, .running, .quiescing, .quiesced] → s.work.grantList = [i] → s.work.slot i = some j →
    j.args.endAction? = some e → (∀ st f ca lv ptr key, j.args = .program st f ca e lv ptr key → ptr = 0) → j.ctx = none →
    (∀ n, s.work.ownerOf n ≠ some i) → (∀ n, hasLane j.mask n = true → s.work.ownerOf n = none) →
    ∃ t, exec .grantScan s = .next t ∧ t.work.grantList = []
      ∧ (∀ n, hasLane j.mask n = false → t.work.ownerOf n = s.work.ownerOf n ∧ t.work.lane n = s.work.lane n)
      ∧ ∀ n l, hasLane j.mask n = true → l = s.work.lane n →
        (l.ctx.state = .fault → t.work.Recorded i j n .laneFaulted ∧ t.work.isLive n = false
          ∧ t.work.ownerOf n = none ∧ (t.work.lane n).ctx.state = .fault ∧ l.SamePins (t.work.lane n))
        ∧ (l.ctx.state = .off → t.work.isLive n = true ∧ t.work.ownerOf n = some i
          ∧ (t.work.lane n).ctx.state = .powering ∧ (t.work.lane n).ctx.step = .powerUp
          ∧ (t.work.lane n).lines = { l.lines with tpwrOn := true, trstLow := true, tselLow := false }
          ∧ (t.work.lane n).supply = { l.supply with state := .rising, threshold := l.settings.threshold
                                                     powerUp := some (s.clock + 48000 * l.settings.powerUpLimit) })
        ∧ (l.ctx.state ∈ [.hold, .run] → t.work.isLive n = true ∧ t.work.ownerOf n = some i
          ∧ (t.work.lane n).ctx.session = false ∧ (t.work.lane n).link = l.link ∧ (t.work.lane n).supply = l.supply
          ∧ (l.supply.state ≠ .riding →
              (t.work.lane n).ctx.state = .entry ∧ (t.work.lane n).ctx.step = .entry ∧ (t.work.lane n).ctx.attempts = 1
              ∧ (t.work.lane n).ctx.fallback = false ∧ (t.work.lane n).lines = { l.lines with trstLow := true, tselLow := true }
              ∧ (t.work.lane n).eng.phase = .select (s.clock + 48000))
          ∧ (l.supply.state = .riding →
              (t.work.lane n).ctx.state = .hold ∧ (t.work.lane n).eng.held = some .entry
              ∧ (t.work.lane n).lines = { l.lines with trstLow := true, tselLow := false }))
        ∧ (l.ctx.state = .ready → j.args.isFresh = true → l.supply.state ≠ .riding →
          t.work.isLive n = true ∧ t.work.ownerOf n = some i ∧ (t.work.lane n).ctx.state = .active
          ∧ (t.work.lane n).ctx.session = l.ctx.session ∧ (t.work.lane n).link.state = .sending
          ∧ (t.work.lane n).link.busyLimit = l.settings.replyLimit
          ∧ (t.work.lane n).lines = { l.lines with tdatDriven := true }
          ∧ t.work.frameOut n = some (requestFrame 0x09#8 l.ctx.seq []))
        ∧ (l.ctx.state = .ready → l.Unstopped → ∀ key, j.args = .identify false e key →
          t.work.Recorded i j n .done ∧ t.work.isLive n = false
          ∧ (e = .keep → (t.work.lane n).ctx.state = .ready ∧ (t.work.lane n).ctx.session = l.ctx.session
              ∧ (t.work.lane n).ctx.desc = l.ctx.desc ∧ (t.work.lane n).ctx.seq = l.ctx.seq
              ∧ (t.work.lane n).ctx.rate = l.ctx.rate ∧ t.work.ownerOf n = none ∧ l.SamePins (t.work.lane n)))

/-- GRANT_SCAN of one LANE-ACTION job (parts of R8, R25, R39, R40, R126, Table 2-7), lane by lane and action by action: no change,
power-up, OFF, HOLD, the reset pulse, CLOSE first from READY, and CLEAR_FAULT. A lane in FAULT takes part, its fault cause as its
fault address. That the reset pulse of a RUN that is granted in a ride window starts at its grant is the model's choice, log entry
38. -/
def Obligations.LaneActionStartsAtItsGrant : Prop :=
  ∀ (s : State) (i : SlotId) (j : JobSlot) (a : ActionCode), s.Awake → s.NoneWaits →
    s.part.state ∈ [.loading, .running, .quiescing, .quiesced] → s.work.grantList = [i] → s.work.slot i = some j →
    j.args = .laneAction a → j.ctx = none → (∀ n, s.work.ownerOf n ≠ some i) →
    (∀ n, hasLane j.mask n = true → s.work.ownerOf n = none) →
    ∃ t, exec .grantScan s = .next t ∧ t.work.grantList = []
      ∧ (∀ n, hasLane j.mask n = false → t.work.ownerOf n = s.work.ownerOf n ∧ t.work.lane n = s.work.lane n)
      ∧ ∀ n l, hasLane j.mask n = true → l = s.work.lane n →
        ((a, l.ctx.state) ∈ [(.powerOn, .hold), (.powerOn, .ready), (.powerOn, .run), (.powerOn, .fault), (.powerOff, .off),
            (.hold, .hold), (.hold, .fault), (.run, .fault), (.clearFault, .off), (.clearFault, .hold),
            (.clearFault, .ready), (.clearFault, .run)] →
          t.work.Recorded i j n .done ∧ t.work.ownerOf n = none ∧ (t.work.lane n).ctx.state = l.ctx.state
          ∧ (t.work.lane n).ctx.session = l.ctx.session ∧ (t.work.lane n).ctx.desc = l.ctx.desc
          ∧ (t.work.lane n).ctx.faultCause = l.ctx.faultCause ∧ l.SamePins (t.work.lane n))
        ∧ ((a, l.ctx.state) ∈ [(.powerOn, .off), (.hold, .off), (.run, .off)] →
          t.work.isLive n = true ∧ t.work.ownerOf n = some i
          ∧ (t.work.lane n).ctx.state = .powering ∧ (t.work.lane n).ctx.step = .powerUp
          ∧ (t.work.lane n).lines = { l.lines with tpwrOn := true, trstLow := true, tselLow := false }
          ∧ (t.work.lane n).supply = { l.supply with state := .rising, threshold := l.settings.threshold
                                                     powerUp := some (s.clock + 48000 * l.settings.powerUpLimit) })
        ∧ ((a, l.ctx.state) ∈ [(.powerOff, .hold), (.powerOff, .run), (.powerOff, .fault)] →
          t.work.Recorded i j n .done ∧ t.work.ownerOf n = none ∧ (t.work.lane n).ctx.state = .off
          ∧ (t.work.lane n).ctx.faultCause = none
          ∧ (t.work.lane n).lines = { l.lines with tpwrOn := false, trstLow := true, tselLow := false }
          ∧ (t.work.lane n).supply = { l.supply with state := .unpowered, powerUp := none, settle := none, ride := none,
                                                     level := .below })
        ∧ ((a, l.ctx.state) = (.hold, .run) →
          t.work.Recorded i j n .done ∧ t.work.ownerOf n = none ∧ (t.work.lane n).ctx.state = .hold
          ∧ (t.work.lane n).lines = { l.lines with trstLow := true, tselLow := false } ∧ (t.work.lane n).supply = l.supply)
        ∧ ((a, l.ctx.state) ∈ [(.run, .hold), (.run, .run)] →
          t.work.isLive n = true ∧ t.work.ownerOf n = some i ∧ (t.work.lane n).ctx.state = .hold
          ∧ (t.work.lane n).ctx.step = .action ∧ (t.work.lane n).eng.phase = .pulse (s.clock + 48000)
          ∧ (t.work.lane n).lines = { l.lines with trstLow := true, tselLow := false } ∧ (t.work.lane n).supply = l.supply)
        ∧ ((a, l.ctx.state) ∈ [(.powerOff, .ready), (.hold, .ready), (.run, .ready)] → l.supply.state ≠ .riding →
          t.work.isLive n = true ∧ t.work.ownerOf n = some i ∧ (t.work.lane n).ctx.state = .active
          ∧ (t.work.lane n).ctx.step = .action ∧ (t.work.lane n).link.state = .sending
          ∧ t.work.frameOut n = some (requestFrame 0x09#8 l.ctx.seq []))
        ∧ ((a, l.ctx.state) = (.clearFault, .fault) →
          t.work.Recorded i j n .done ∧ t.work.ownerOf n = none ∧ (t.work.lane n).ctx.faultCause = none
          ∧ (t.work.lane n).lines.trstLow = true ∧ (t.work.lane n).lines.tselLow = false
          ∧ (l.lines.tpwrOn = true → l.supply.state = .good →
              (t.work.lane n).ctx.state = .hold ∧ (t.work.lane n).lines.tpwrOn = true ∧ (t.work.lane n).supply = l.supply)
          ∧ (l.lines.tpwrOn = false ∨ l.supply.state ≠ .good →
              (t.work.lane n).ctx.state = .off ∧ (t.work.lane n).lines.tpwrOn = false
              ∧ (t.work.lane n).supply.state = .unpowered))
        ∧ (l.ctx.state = .fault → ∀ cause, l.ctx.faultCause = some cause →
          (∃ j' o, t.work.slot i = some j' ∧ j'.copies.get n = some o ∧ o.faultAddr = some ((resultCode cause).setWidth 32))
          ∨ ∃ e ∈ t.work.queue, e.tag = j.tag ∧ e.adm = j.adm ∧ ∃ x ∈ e.lanes, x.lane = n
              ∧ ∃ o, x.copy = some o ∧ o.faultAddr = some ((resultCode cause).setWidth 32))

/-- GRANT_SCAN of one LANE-SET job (parts of R8, R22, R125, R17): every lane not in FAULT takes the values, a lane in FAULT is
LANE_FAULTED and untouched, and the job completes in the same event. No record waits for the slot that it frees. -/
def Obligations.LaneSetIsCarriedOutAtItsGrant : Prop :=
  ∀ (s : State) (i : SlotId) (j : JobSlot) (v : Settings), s.Awake → s.NoneWaits →
    s.part.state ∈ [.loading, .running, .quiescing, .quiesced] → s.work.grantList = [i] → s.work.slot i = some j →
    j.args = .laneSet v → j.mask ≠ 0 → j.cancelLink = none → j.imageFail = none → j.ctx = none →
    (∀ n, s.work.ownerOf n ≠ some i) → (∀ n, hasLane j.mask n = true → s.work.ownerOf n = none) →
    ∃ t e, exec .grantScan s = .next t ∧ t = { s with work := t.work, irqHigh := t.irqHigh }
      ∧ t.work.grantList = [] ∧ t.work.queue = s.work.queue ++ [e] ∧ t.work.reserved = s.work.reserved - 1
      ∧ t.work.slot i = none ∧ (∀ k, k ≠ i → t.work.slot k = s.work.slot k)
      ∧ e.tag = j.tag ∧ e.kind = 5 ∧ e.requested = j.mask ∧ e.notRun = 0
      ∧ (∀ n, hasLane e.succeeded n = (hasLane j.mask n && (s.work.lane n).ctx.state != .fault))
      ∧ (∀ n, hasLane e.failed n = (hasLane j.mask n && (s.work.lane n).ctx.state == .fault))
      ∧ (e.status = .ok ↔ ∀ n, hasLane j.mask n = true → (s.work.lane n).ctx.state ≠ .fault)
      ∧ ∀ n, t.work.ownerOf n = s.work.ownerOf n
        ∧ (t.work.lane n).link = (s.work.lane n).link ∧ (t.work.lane n).supply = (s.work.lane n).supply
        ∧ (t.work.lane n).lines = (s.work.lane n).lines ∧ (t.work.lane n).ctx.state = (s.work.lane n).ctx.state
        ∧ (t.work.lane n).ctx.session = (s.work.lane n).ctx.session ∧ (t.work.lane n).ctx.desc = (s.work.lane n).ctx.desc
        ∧ (t.work.lane n).settings =
          if hasLane j.mask n = true ∧ (s.work.lane n).ctx.state ≠ .fault then v else (s.work.lane n).settings

/-- The masks, the status and the detail of a completed job, and what its report records are written from, lane by lane in
ascending order (parts of R15, R16, R18, R153). -/
def Obligations.OutcomeOfACompletedJob : Prop :=
  ∀ (j : JobSlot) (head : Nat), (∀ n, hasLane j.mask n = true → (j.results.get n).isSome = true) → j.mask ≠ 0 →
    ∀ e : Entry, e = j.entry head →
      e.requested = j.mask
      ∧ (∀ n, hasLane e.succeeded n = true ↔ hasLane j.mask n = true ∧ j.results.get n = some .done)
      ∧ (∀ n, hasLane e.notRun n = true ↔ hasLane j.mask n = true ∧ j.results.get n = some .notRun)
      ∧ (∀ n, hasLane e.failed n = true ↔ hasLane j.mask n = true
          ∧ ∃ r, j.results.get n = some r ∧ r ≠ .done ∧ r ≠ .notRun)
      ∧ e.succeeded &&& e.notRun = 0 ∧ e.succeeded &&& e.failed = 0 ∧ e.notRun &&& e.failed = 0
      ∧ e.succeeded ||| e.notRun ||| e.failed = j.mask
      ∧ e.lanes.map (fun x => x.lane) = (List.finRange 8).filter (fun n => hasLane j.mask n)
      ∧ (∀ x ∈ e.lanes, j.results.get x.lane = some x.result ∧ x.lastStep = j.lastSteps.get x.lane
          ∧ x.copy = j.copies.get x.lane)
      ∧ (j.cancelLink.isSome = true → e.status = .cancelled ∧ e.detail = 0)
      ∧ (j.cancelLink = none → ∀ d, j.imageFail = some (.invalid d) → e.status = .imageInvalid ∧ e.detail.toNat = d.toNat)
      ∧ (j.cancelLink = none → j.imageFail = some .unreadable → e.status = .imageUnreadable ∧ e.detail = 0)
      ∧ (j.cancelLink = none → j.imageFail = none →
          (e.succeeded = j.mask → e.status = .ok ∧ e.detail = 0)
          ∧ (e.succeeded ≠ j.mask → e.succeeded ≠ 0 → e.status = .partialDone)
          ∧ (e.succeeded = 0 → e.status = .failed)
          ∧ (e.succeeded ≠ j.mask → ∀ n r, hasLane e.failed n = true → (∀ m, m < n → hasLane e.failed m = false) →
              j.results.get n = some r → e.detail.toNat = n.val + 256 * (resultCode r).toNat))

/-- The end of a lane's work for its job (parts of R33 to R39, R57, R75; Tables 2-5 to 2-7), first the beginning of an end
action after DONE, at an accepted GUARD: none under KEEP, CLOSE under HOLD, RUN and OFF. Then the end of each CLOSE, by a
reply of any status, by retry exhaustion or by the busy limit: an end action's, a LANE-ACTION's, whose outcome copies show no
session (log entry 41), and that before a FRESH entry. -/
def Obligations.EndActionsAndTheirCloses : Prop :=
  (∀ (s : State) (n : LaneId) (l : Lane) (r : Request) (j : JobSlot) (steps : StepSet) (fresh clearAll : Bool)
    (e : EndAction) (level k : Nat) (ptr key : HostAddr), s.Awake → l = s.work.lane n →
    s.part.state ∈ [.loading, .running, .quiescing, .quiesced] → s.work.isLive n = true → s.work.jobOf n = some j →
    j.args = .program steps fresh clearAll e level ptr key → l.ctx.state = .active → l.ctx.session = true → l.Listens →
    l.link.req = some r → r.purpose = .guard k → r.kind = 0x08#8 → l.eng.xfer = none → l.supply.state ≠ .riding →
    ∃ t, exec (.replyFrameComplete n (replyFrame 0x88#8 l.link.seq 0 [])) s = .next t
      ∧ s.work.ResultTaken t.work n .done ∧ (∀ m, m ≠ n → (s.work.lane m).SamePins (t.work.lane m))
      ∧ (e = .keep → (t.work.lane n).ctx.state = .ready ∧ (t.work.lane n).ctx.slot = none
          ∧ (t.work.lane n).ctx.session = true ∧ (t.work.lane n).ctx.seq = l.ctx.seq + 1
          ∧ (t.work.lane n).ctx.rate = l.ctx.rate ∧ (t.work.lane n).link.state = .idle
          ∧ (t.work.lane n).lines = { l.lines with tdatDriven := false })
      ∧ (e ≠ .keep → (t.work.lane n).ctx.state = .active ∧ (t.work.lane n).ctx.slot = l.ctx.slot
          ∧ (t.work.lane n).ctx.session = true ∧ (t.work.lane n).link.state = .sending
          ∧ (t.work.lane n).link.busyLimit = l.settings.replyLimit
          ∧ t.work.frameOut n = some (requestFrame 0x09#8 (l.ctx.seq + 1) [])))
  ∧ ∀ (s : State) (n : LaneId) (l : Lane) (r : Request) (c : Instr) (answered : Bool) (failure : Option LaneResult), s.Awake →
    l = s.work.lane n → s.part.state ∈ [.loading, .running, .quiescing, .quiesced] → l.ctx.state = .active →
    l.link.req = some r → r.kind = 0x09#8 → l.eng.xfer = none →
    (r.purpose = .closeFresh ∨ (∃ e, e ≠ .keep ∧ r.purpose = .closeEnd e)
      ∨ ∃ a, r.purpose = .closeAction a ∧ s.work.isLive n = true) →
    ((answered = true ∧ failure = none ∧ l.Listens ∧ ∃ status p, status ≠ 0x01#8 ∧ p.length ≤ 264
        ∧ c = .replyFrameComplete n (replyFrame 0x89#8 l.link.seq status p))
      ∨ (answered = false ∧ failure = some .linkLost ∧ l.link.resends = l.link.retryLimit ∧ l.link.state = .awaiting
        ∧ (∃ ends, l.link.timer = .running ends) ∧ c = .replyTimeout n)
      ∨ (answered = false ∧ failure = some .targetStuck ∧ l.link.state = .busyHold ∧ c = .busyLimitExpiry n)) →
    ∃ t, exec c s = .next t ∧ (∀ m, m ≠ n → (s.work.lane m).SamePins (t.work.lane m))
      ∧ (t.work.lane n).link.state = .idle ∧ (t.work.lane n).link.req = none ∧ (t.work.lane n).lines.tdatDriven = false
      ∧ (t.work.lane n).lines.trstLow = true ∧ (t.work.lane n).ctx.session = false ∧ (t.work.lane n).ctx.desc = none
      ∧ (t.work.lane n).ctx.rate = 0 ∧ (t.work.lane n).ctx.answered = answered ∧ (t.work.lane n).ctx.seq = l.ctx.seq + 1
      ∧ (∀ e, r.purpose = .closeEnd e → s.work.isLive n = false → l.ctx.slot.isSome = true →
          (e = .off → (t.work.lane n).ctx.state = .off ∧ (t.work.lane n).lines.tpwrOn = false
            ∧ (t.work.lane n).supply.state = .unpowered ∧ (t.work.lane n).ctx.slot = none ∧ t.work.ownerOf n = none)
          ∧ (e ≠ .off → ∀ cause, failure = some cause →
            (t.work.lane n).ctx.state = .fault ∧ (t.work.lane n).ctx.faultCause = some cause
            ∧ (t.work.lane n).supply = l.supply ∧ (t.work.lane n).ctx.slot = none ∧ t.work.ownerOf n = none)
          ∧ (e = .hold → failure = none →
            (t.work.lane n).ctx.state = .hold ∧ (t.work.lane n).supply = l.supply ∧ (t.work.lane n).ctx.slot = none
            ∧ t.work.ownerOf n = none)
          ∧ (e = .run → failure = none →
            (t.work.lane n).ctx.state = .hold ∧ (t.work.lane n).supply = l.supply ∧ (t.work.lane n).ctx.slot = l.ctx.slot
            ∧ (t.work.lane n).lines.tselLow = false ∧ (t.work.lane n).eng.phase = .pulse (s.clock + 48000)))
      ∧ (∀ a, r.purpose = .closeAction a → s.work.actionOf n = some a →
          (a = .powerOff → (t.work.lane n).ctx.state = .off ∧ (t.work.lane n).lines.tpwrOn = false
            ∧ s.work.ResultTaken t.work n .done)
          ∧ (a ∈ [.hold, .run] → ∀ cause, failure = some cause →
            (t.work.lane n).ctx.state = .fault ∧ (t.work.lane n).ctx.faultCause = some cause
            ∧ (t.work.lane n).supply = l.supply ∧ s.work.ResultCopied t.work n cause (fun o => o.rate = 0 ∧ o.desc = none))
          ∧ (a = .hold → failure = none → (t.work.lane n).ctx.state = .hold ∧ s.work.ResultTaken t.work n .done)
          ∧ (a = .run → failure = none → l.eng.stop = none →
            (t.work.lane n).ctx.state = .hold ∧ t.work.isLive n = true
            ∧ (t.work.lane n).eng.phase = .pulse (s.clock + 48000))
          ∧ (a = .run → failure = none → l.eng.stop.isSome = true →
            (t.work.lane n).ctx.state = .hold ∧ (t.work.lane n).eng.phase = .none
            ∧ s.work.ResultTaken t.work n .cancelled))
      ∧ (r.purpose = .closeFresh → s.work.isLive n = true → l.Unstopped → l.supply.state ≠ .riding →
          (t.work.lane n).ctx.state = .entry ∧ (t.work.lane n).ctx.step = .entry ∧ (t.work.lane n).ctx.attempts = 1
          ∧ (t.work.lane n).ctx.fallback = false ∧ (t.work.lane n).lines.tselLow = true ∧ t.work.isLive n = true
          ∧ (t.work.lane n).supply = l.supply ∧ (t.work.lane n).eng.phase = .select (s.clock + 48000))

/-! ## Supply, entry and the reset pulse -/

/-- SUPPLY_GOOD and POWER_UP_LIMIT_EXPIRY (parts of R25, R139, R140): a level that has not stood 20 microseconds is not taken;
then SETTLING, or GOOD at once with a settle time of 0; and the failed power-up. That the settle time is read here is log
entry 39; what the 20 microseconds may count is log entry 47. -/
def Obligations.PowerUpEndsGoodOrFails : Prop :=
  ∀ (s : State) (n : LaneId), s.Awake → (s.work.lane n).supply.state = .rising →
    (∀ stood, stood < 20 → exec (.supplyGood n stood) s = .next s.refreshIrq)
    ∧ (∀ stood, 20 ≤ stood → (s.work.lane n).settings.settleTime ≠ 0 →
        exec (.supplyGood n stood) s = .next (State.refreshIrq (s.withLane n
          { s.work.lane n with
            ctx := { (s.work.lane n).ctx with state := .settling }
            supply := { (s.work.lane n).supply with
              state := .settling, powerUp := none, level := .above
              settle := some (s.clock + 48000 * (s.work.lane n).settings.settleTime) } })))
    ∧ (∀ stood, 20 ≤ stood → (s.work.lane n).settings.settleTime = 0 → (s.work.lane n).eng.stop = none →
        (s.work.lane n).eng.due = none →
        ∃ t, exec (.supplyGood n stood) s = .next t
          ∧ (t.work.lane n).supply = { (s.work.lane n).supply with
              state := .good, powerUp := none, settle := none, level := .above })
    ∧ ∃ t, exec (.powerUpLimitExpiry n) s = .next t
        ∧ (t.work.lane n).ctx.state = .fault ∧ (t.work.lane n).ctx.faultCause = some .supplyFail
        ∧ (t.work.lane n).lines.tpwrOn = false ∧ (t.work.lane n).lines.trstLow = true
        ∧ (t.work.lane n).supply.state = .unpowered ∧ (t.work.lane n).supply.powerUp = none
        ∧ (∀ m, m ≠ n → (s.work.lane m).SamePins (t.work.lane m))
        ∧ (s.part.state ∈ [.loading, .running, .quiescing, .quiesced] →
            t.work.isLive n = false ∧ s.work.ResultTaken t.work n .supplyFail)

/-- SETTLE_END (parts of R25, R27, R144): the lane enters HOLD and, live in a job that needs a session, begins its first entry
attempt in the same event; in a ride window the attempt is held back. In a halted part the lane stays in HOLD. -/
def Obligations.SettleEndLeadsToHoldAndEntry : Prop :=
  ∀ (s : State) (n : LaneId), s.Awake → (s.work.lane n).supply.settle.isSome = true →
    (s.part.state ∈ [.loading, .running, .quiescing, .quiesced] → s.work.isLive n = true →
      (∃ j, s.work.jobOf n = some j ∧ j.args.endAction?.isSome = true) →
      (s.work.lane n).eng.stop = none → (s.work.lane n).eng.due = none →
      ∃ t, exec (.settleEnd n) s = .next t ∧ (t.work.lane n).lines.trstLow = true ∧ (t.work.lane n).ctx.session = false
        ∧ (t.work.lane n).supply.settle = none ∧ (∀ m, m ≠ n → t.work.lane m = s.work.lane m)
        ∧ ((s.work.lane n).supply.state ≠ .riding →
            (t.work.lane n).supply.state = .good ∧ (t.work.lane n).ctx.state = .entry
              ∧ (t.work.lane n).ctx.step = .entry ∧ (t.work.lane n).ctx.attempts = 1
              ∧ (t.work.lane n).lines.tselLow = true ∧ (t.work.lane n).eng.phase = .select (s.clock + 48000))
        ∧ ((s.work.lane n).supply.state = .riding →
            (t.work.lane n).supply.state = .riding ∧ (t.work.lane n).ctx.state = .hold
              ∧ (t.work.lane n).ctx.step = (s.work.lane n).ctx.step
              ∧ (t.work.lane n).lines.tselLow = false ∧ (t.work.lane n).eng.held = some .entry))
    ∧ (s.part.state = .halted →
      ∃ t, exec (.settleEnd n) s = .next t ∧ t = { s with work := t.work, irqHigh := t.irqHigh }
        ∧ t.work = s.work.setLane n (t.work.lane n) ∧ (t.work.lane n).ctx.state = .hold
        ∧ (t.work.lane n).lines.trstLow = true ∧ (t.work.lane n).lines.tselLow = false
        ∧ (t.work.lane n).supply = { (s.work.lane n).supply with
            settle := none, state := if (s.work.lane n).supply.state = .riding then .riding else .good })

/-- SELECT_PHASE_END, ENTRY_RESET_END and ENTRY_LIMIT_EXPIRY (parts of R27, R29, R144): the two phases of an attempt, the
millisecond before the next, what a ride window holds back, and NO_TARGET after the last attempt. PRESENCE_PULSE (parts of R27,
R28, R30, R45, R51): a low below 20 bit times at rate 0 is no presence pulse, nor is one whose end the glitch filter has not
passed; a longer one brings the lane to LINKING, with OPEN sent at once, or the key read begun. A low that was there before TRST
was released is timed from the release; the date by which the model tells such a low is log entry 12. -/
def Obligations.EntryAttemptsAndThePresencePulse : Prop :=
  ∀ (s : State) (n : LaneId) (l : Lane) (released ends : Nat), s.Awake → l = s.work.lane n →
    (l.ctx.state = .entry →
      (l.eng.phase = .select ends → l.supply.state ≠ .riding →
        exec (.selectPhaseEnd n) s = .next (State.refreshIrq (s.withLane n
          { l with lines := { l.lines with trstLow := false }
                   eng := { l.eng with
                            phase := .presence s.clock (s.clock + 48000 * l.settings.entryLimit), held := none } })))
      ∧ (l.eng.phase = .select ends → l.supply.state = .riding →
        exec (.selectPhaseEnd n) s = .next (State.refreshIrq (s.withLane n
          { l with eng := { l.eng with phase := .none, held := some .presence } })))
      ∧ (l.eng.phase = .reset ends → l.supply.state ≠ .riding →
        exec (.entryResetEnd n) s = .next (State.refreshIrq (s.withLane n
          { l with ctx := { l.ctx with attempts := l.ctx.attempts + 1 }
                   lines := { l.lines with trstLow := true, tselLow := true }
                   eng := { l.eng with phase := .select (s.clock + 48000), held := none } })))
      ∧ (l.eng.phase = .reset ends → l.supply.state = .riding →
        exec (.entryResetEnd n) s = .next (State.refreshIrq (s.withLane n
          { l with eng := { l.eng with phase := .none, held := some .select } })))
      ∧ (l.eng.phase = .presence released ends → l.ctx.attempts < l.settings.entryAttempts →
        exec (.entryLimitExpiry n) s = .next (State.refreshIrq (s.withLane n
          { l with ctx := { l.ctx with session := false, desc := none, trial := false, rate := 0 }
                   lines := { l.lines with trstLow := true, tselLow := false }
                   eng := { l.eng with phase := .reset (s.clock + 48000), held := none } })))
      ∧ (l.eng.phase = .presence released ends → l.settings.entryAttempts ≤ l.ctx.attempts →
        s.part.state ∈ [.loading, .running, .quiescing, .quiesced] →
        ∃ t, exec (.entryLimitExpiry n) s = .next t
          ∧ (t.work.lane n).ctx.state = .fault ∧ (t.work.lane n).ctx.faultCause = some .noTarget
          ∧ (t.work.lane n).lines = { l.lines with trstLow := true, tselLow := false }
          ∧ (t.work.lane n).supply = l.supply ∧ (∀ m, m ≠ n → (s.work.lane m).SamePins (t.work.lane m))
          ∧ t.work.isLive n = false ∧ s.work.ResultTaken t.work n .noTarget))
    ∧ (l.eng.phase = .presence released ends → ∀ low stood timed : Nat,
      timed = (if s.clock - stood - low < released then s.clock - stood - released else low) →
      (timed < 20 * 417 ∨ 16 * stood < 3 * 417 → exec (.presencePulse n ⟨low, stood⟩) s = .next s.refreshIrq)
      ∧ (20 * 417 ≤ timed → 3 * 417 ≤ 16 * stood → l.supply.state ≠ .riding →
        ∃ t, exec (.presencePulse n ⟨low, stood⟩) s = .next t
          ∧ (t.work.lane n).ctx.state = .linking ∧ (t.work.lane n).ctx.step = .linking
          ∧ (t.work.lane n).lines.tselLow = false ∧ (t.work.lane n).lines.trstLow = l.lines.trstLow
          ∧ (∀ m, m ≠ n → t.work.lane m = s.work.lane m) ∧ t.work.queue = s.work.queue ∧ t.work.owner = s.work.owner
          ∧ (s.work.keyPointer n = 0 →
              (t.work.lane n).lines.tdatDriven = true ∧ (t.work.lane n).ctx.seq = 0
              ∧ (t.work.lane n).link.state = .sending ∧ (t.work.lane n).link.seq = 0
              ∧ (t.work.lane n).link.rate = l.ctx.rate ∧ (t.work.lane n).link.resends = 0
              ∧ (t.work.lane n).link.retryLimit = l.settings.retryLimit
              ∧ (t.work.lane n).link.replyLimit = l.settings.replyLimit
              ∧ (t.work.lane n).link.busyLimit = l.settings.replyLimit
              ∧ t.work.frameOut n = some (requestFrame 0x01#8 0 [1]))
          ∧ (s.work.keyPointer n ≠ 0 →
              (t.work.lane n).eng.xfer = some (.keyRead (s.work.keyPointer n)) ∧ (t.work.lane n).link = l.link)))

/-- RESET_PULSE_END (parts of R37, R39, R144): TRST is released and the lane is in RUN; a LANE-ACTION lane is DONE, a lane that
carried out the end action RUN leaves its job; a ride window holds the release back. -/
def Obligations.ResetPulseEndsInRun : Prop :=
  ∀ (s : State) (n : LaneId) (l : Lane) (ends : Nat), s.Awake → l = s.work.lane n → l.eng.phase = .pulse ends →
    s.part.state ∈ [.loading, .running, .quiescing, .quiesced] →
    (l.supply.state = .riding → exec (.resetPulseEnd n) s = .next (State.refreshIrq (s.withLane n
      { l with eng := { l.eng with phase := .none, held := some .pulse } })))
    ∧ (l.supply.state ≠ .riding → (s.work.isLive n = true → s.work.actionOf n = some .run) →
      ∃ t, exec (.resetPulseEnd n) s = .next t ∧ (t.work.lane n).ctx.state = .run
        ∧ (t.work.lane n).lines = { l.lines with trstLow := false } ∧ (t.work.lane n).ctx.slot = none
        ∧ (l.ctx.slot.isSome = true → t.work.ownerOf n = none)
        ∧ (∀ m, m ≠ n → (s.work.lane m).SamePins (t.work.lane m)) ∧ s.work.ResultTaken t.work n .done)

/-- DROP under CUT and RIDE_TIMER_EXPIRY (parts of R139, R141 to R143, R145): everything a cut does at the lane, the result of
a live lane, and a result that waits for a host transfer in flight. That the fault cause of a lane that is in FAULT when its
window runs out becomes SUPPLY_DROP is log entry 20. -/
def Obligations.CutSwitchesTheLaneOff : Prop :=
  ∀ (s : State) (n : LaneId) (l : Lane) (c : Instr), s.Awake → l = s.work.lane n →
    ((c = .rideTimerExpiry n ∧ l.supply.state = .riding)
      ∨ ∃ stood, c = .drop n stood ∧ 20 ≤ stood ∧ l.supply.level = .above ∧ l.supply.state ∈ [.settling, .good]
          ∧ l.settings.dropPolicy = .cut ∧ l.ctx.state ≠ .fault) →
    ∃ t, exec c s = .next t
      ∧ (t.work.lane n).ctx.state = .fault ∧ (t.work.lane n).ctx.faultCause = some .supplyDrop
      ∧ (t.work.lane n).ctx.session = false ∧ (t.work.lane n).ctx.desc = none
      ∧ (t.work.lane n).lines.tpwrOn = false ∧ (t.work.lane n).lines.trstLow = true
      ∧ (t.work.lane n).lines.tselLow = false
      ∧ (l.link.state ≠ .idle → (t.work.lane n).lines.tdatDriven = false ∧ (t.work.lane n).ctx.answered = false)
      ∧ (l.link.state ≠ .idle → s.part.state ≠ .draining → (t.work.lane n).ctx.seq = l.ctx.seq + 1)
      ∧ (t.work.lane n).link.state = .idle
      ∧ (t.work.lane n).supply = { l.supply with
          state := .unpowered, powerUp := none, settle := none, ride := none, level := .below }
      ∧ (t.work.lane n).eng.phase = .none ∧ (t.work.lane n).settings = l.settings
      ∧ (∀ m, m ≠ n → (s.work.lane m).SamePins (t.work.lane m))
      ∧ (s.part.state ∈ [.loading, .running, .quiescing, .quiesced] →
          (l.eng.xfer = none → t.work.isLive n = false ∧ s.work.ResultTaken t.work n .supplyDrop)
          ∧ (l.eng.xfer.isSome = true → s.work.isLive n = true →
              t.work.isLive n = true ∧ (t.work.lane n).eng.due = some (.supplyDrop, none)
                ∧ (t.work.lane n).eng.xfer = l.eng.xfer)
          ∧ (s.work.isLive n = false → (t.work.lane n).ctx.slot = none))

/-- DROP under RIDE and in FAULT, and SUPPLY_RETURN (parts of R32, R37, R39, R100, R113, R123, R124, R139, R141, R144, R145):
the window opens and nothing else changes; a lane in FAULT has its supply switched off; the return counts the drop of an owned
lane and takes what was held back, whichever of the ten it is. What is kept of an action held back is log entry 38. -/
def Obligations.RideWindow : Prop :=
  ∀ (s : State) (n : LaneId) (l : Lane) (stood : Nat), s.Awake → l = s.work.lane n →
    (stood < 20 → exec (.drop n stood) s = .next s.refreshIrq ∧ exec (.supplyReturn n stood) s = .next s.refreshIrq)
    ∧ (20 ≤ stood → l.supply.level = .above → l.supply.state ∈ [.settling, .good] → l.settings.dropPolicy = .ride →
        l.ctx.state ≠ .fault → exec (.drop n stood) s = .next (State.refreshIrq (s.withLane n
          { l with supply := { l.supply with state := .riding, ride := some (s.clock + 48000), level := .below } })))
    ∧ (20 ≤ stood → l.supply.level = .above → l.supply.state ∈ [.settling, .good] → l.ctx.state = .fault →
        s.part.state ≠ .draining → exec (.drop n stood) s = .next (State.refreshIrq (s.withLane n
          { l with ctx := { l.ctx with session := false, desc := none, trial := false, rate := 0 }
                   lines := { l.lines with tpwrOn := false }
                   supply := { l.supply with state := .unpowered, powerUp := none, settle := none, ride := none,
                                             level := .below } })))
    ∧ (20 ≤ stood → l.supply.state = .riding → s.part.state ≠ .draining →
        ∀ (u : Lane) (onlyLane : Lane → State), u = { l with
          ctx := { l.ctx with drops := if l.ctx.slot.isSome = true ∧ l.ctx.drops < 255 then l.ctx.drops + 1
                                       else l.ctx.drops }
          supply := { l.supply with state := if l.supply.settle.isSome then .settling else .good, ride := none,
                                    level := .above } } →
        (∀ l', onlyLane l' = State.refreshIrq (s.withLane n l')) →
        (s.part.state ∈ [.halted, .disabled] ∨ l.eng.held = none →
          exec (.supplyReturn n stood) s = .next (onlyLane u))
        ∧ (s.part.state ∈ [.loading, .running, .quiescing, .quiesced] →
          (l.eng.held = some .select → exec (.supplyReturn n stood) s = .next (onlyLane
            { u with ctx := { u.ctx with state := .entry, attempts := u.ctx.attempts + 1 }
                     lines := { u.lines with trstLow := true, tselLow := true }
                     eng := { u.eng with phase := .select (s.clock + 48000), held := none } }))
          ∧ (l.eng.held = some .presence → exec (.supplyReturn n stood) s = .next (onlyLane
            { u with lines := { u.lines with trstLow := false }
                     eng := { u.eng with
                              phase := .presence s.clock (s.clock + 48000 * l.settings.entryLimit), held := none } }))
          ∧ (l.eng.held = some .startPulse → exec (.supplyReturn n stood) s = .next (onlyLane
            { u with ctx := { u.ctx with state := .hold, session := false, desc := none, trial := false, rate := 0 }
                     lines := { u.lines with trstLow := true, tselLow := false }
                     eng := { u.eng with phase := .pulse (s.clock + 48000), held := none } }))
          ∧ (l.eng.held = some .keyRead → s.work.keyPointer n ≠ 0 → exec (.supplyReturn n stood) s = .next (onlyLane
            { u with eng := { u.eng with xfer := some (.keyRead (s.work.keyPointer n)), held := none } }))
          ∧ ∃ t, exec (.supplyReturn n stood) s = .next t ∧ (∀ m, m ≠ n → (s.work.lane m).SamePins (t.work.lane m))
            ∧ (l.eng.held = some .entry → (t.work.lane n).ctx.state = .entry ∧ (t.work.lane n).ctx.step = .entry
              ∧ (t.work.lane n).ctx.attempts = 1 ∧ (t.work.lane n).ctx.drops = u.ctx.drops
              ∧ (t.work.lane n).lines = { l.lines with trstLow := true, tselLow := true }
              ∧ (t.work.lane n).supply = u.supply
              ∧ (t.work.lane n).eng.phase = .select (s.clock + 48000) ∧ (t.work.lane n).eng.held = none)
            ∧ (l.eng.held = some .pulse → (s.work.isLive n = true → s.work.actionOf n = some .run) →
              (t.work.lane n).ctx.state = .run ∧ (t.work.lane n).lines = { l.lines with trstLow := false }
              ∧ (t.work.lane n).ctx.slot = none ∧ s.work.ResultTaken t.work n .done)
            ∧ (∀ r, l.eng.held = some (.request r) → t.work = s.work.setLane n (t.work.lane n)
              ∧ (t.work.lane n).supply = u.supply ∧ (t.work.lane n).ctx.drops = u.ctx.drops
              ∧ (t.work.lane n).eng.held = none ∧ (t.work.lane n).link.state = .sending ∧ (t.work.lane n).link.req = some r
              ∧ (t.work.lane n).lines.tdatDriven = true)
            ∧ (∀ j fresh e block key es k x, l.eng.held = some .step → l.Unstopped → s.work.jobOf n = some j →
              j.args = .exchange fresh e block key es → l.ctx.step = .exchange → l.eng.entryIdx = k → es[k]? = some x →
              (l.eng.exPart = .payload → x.len ≠ 0 →
                (t.work.lane n).eng.xfer = some (.payloadRead (block + BitVec.ofNat 64 (544 * k)) x.len))
              ∧ (l.eng.exPart = .reply → ∃ data,
                (t.work.lane n).eng.xfer = some (.replyWrite (block + BitVec.ofNat 64 (544 * k + 272)) data)))
            ∧ (∀ j steps fresh clearAll e level ptr key, l.eng.held = some (.begin .guard) → l.Unstopped →
              s.work.jobOf n = some j → j.args = .program steps fresh clearAll e level ptr key → steps.guard = true →
              (t.work.lane n).ctx.step = .guard ∧ (t.work.lane n).ctx.state = .active
              ∧ (t.work.lane n).link.state = .sending
              ∧ t.work.frameOut n = some (requestFrame 0x08#8 l.ctx.seq [BitVec.ofNat 8 level]))
            ∧ (∀ q, l.eng.held = some .resume → l.Unstopped → l.eng.resume = some q →
              (t.work.lane n).ctx.step = q.step ∧ (t.work.lane n).ctx.stepPos = q.pos ∧ (t.work.lane n).eng.resume = none
              ∧ (t.work.lane n).link.state = .sending ∧ (t.work.lane n).link.req = some q.req)))

/-! ## The target link -/

/-- FRAME_SEND_END, TDAT_LOW, START_BIT_DISCARDED, BUSY_HOLD_RECOGNISED and BUSY_HOLD_END (parts of R45, R46, R51 to R53, R55,
R60): every timer and every low of an exchange that goes on. A level counts once it has stood 3/16 of a bit time, and from its
edge, but not from before the release; a low whose bit is high again at its middle is none. `bit` is the bit time of the
active rate code (Table 3-1). RECEIVING is entered at the low's end, and a hold is recognised a whole cycle past 20 bit times: log
entries 11 and 33; the dates, log entry 12; the middle of a bit, log entry 40. -/
def Obligations.ExchangeTimers : Prop :=
  ∀ (s : State) (n : LaneId) (l : Lane) (bit : Nat), s.Awake → l = s.work.lane n →
    (l.link.rate, bit) ∈ [(0, 417), (1, 192), (2, 96), (3, 48), (4, 24), (5, 16)] →
    ∀ onLink : LinkUnit → State, (∀ u, onLink u = State.refreshIrq (s.withLane n { l with link := u })) →
    (l.link.state = .sending → exec (.frameSendEnd n) s = .next (State.refreshIrq (s.withLane n
      { l with link := { l.link with state := .awaiting, timer := .running (s.clock + 48000 * l.link.replyLimit),
                                     busyStart := none, released := s.clock, discarding := false }
               lines := { l.lines with tdatDriven := false } })))
    ∧ (∀ stood low, 16 * stood < 3 * bit →
        exec (.tdatLow n (.began stood)) s = .next s.refreshIrq ∧ exec (.tdatLow n (.ended low stood)) s = .next s.refreshIrq
        ∧ exec (.busyHoldEnd ⟨n, stood⟩) s = .next s.refreshIrq
        ∧ exec (.startBitDiscarded ⟨n, low, stood⟩) s = .next s.refreshIrq
        ∧ exec (.startBitDiscarded ⟨n, stood, low⟩) s = .next s.refreshIrq)
    ∧ (∀ stood, 3 * bit ≤ 16 * stood → s.part.state ≠ .draining → l.link.state ∈ [.idle, .sending, .busyHold] → ∀ low,
        exec (.tdatLow n (.began stood)) s = .next s.refreshIrq ∧ exec (.tdatLow n (.ended low stood)) s = .next s.refreshIrq
        ∧ exec (.startBitDiscarded ⟨n, low, stood⟩) s = .next s.refreshIrq
        ∧ exec (.busyHoldRecognised n stood) s = .next s.refreshIrq)
    ∧ (∀ stood, 3 * bit ≤ 16 * stood → l.link.state = .receiving → l.link.discarding = false → ∀ low,
        exec (.tdatLow n (.began stood)) s = .next s.refreshIrq ∧ exec (.tdatLow n (.ended low stood)) s = .next s.refreshIrq
        ∧ exec (.startBitDiscarded ⟨n, low, stood⟩) s = .next s.refreshIrq
        ∧ exec (.busyHoldRecognised n low) s = .next s.refreshIrq)
    ∧ (∀ stood, 3 * bit ≤ 16 * stood → l.link.busyStart = none →
        (∀ ends, l.link.state = .awaiting → l.link.timer = .running ends →
          exec (.tdatLow n (.began stood)) s = .next (onLink
            { l.link with timer := .paused (ends - s.clock), busyStart := some (max (s.clock - stood) l.link.released) }))
        ∧ (l.link.state = .receiving → l.link.discarding = true →
          exec (.tdatLow n (.began stood)) s = .next (onLink { l.link with busyStart := some (s.clock - stood) }))
        ∧ ∀ low, l.link.state ∈ [.awaiting, .receiving] →
          exec (.tdatLow n (.ended low stood)) s = .next s.refreshIrq
          ∧ exec (.startBitDiscarded ⟨n, low, stood⟩) s = .next s.refreshIrq
          ∧ exec (.busyHoldRecognised n low) s = .next s.refreshIrq)
    ∧ (∀ low stood start, 3 * bit ≤ 16 * stood → l.link.busyStart = some start → l.link.state = .awaiting →
        (bit / 2 < low → low ≤ 20 * bit → exec (.tdatLow n (.ended low stood)) s = .next (onLink
          { l.link with state := .receiving, busyStart := none }))
        ∧ (low ≤ bit / 2 ∨ 20 * bit < low → exec (.tdatLow n (.ended low stood)) s = .next s.refreshIrq)
        ∧ (∀ left, 3 * bit ≤ 16 * low → low ≤ bit / 2 → l.link.timer = .paused left →
          exec (.startBitDiscarded ⟨n, low, stood⟩) s = .next (onLink
            { l.link with timer := .running (s.clock + left), busyStart := none }))
        ∧ (bit / 2 < low → exec (.startBitDiscarded ⟨n, low, stood⟩) s = .next s.refreshIrq))
    ∧ (∀ low stood start, 3 * bit ≤ 16 * stood → l.link.busyStart = some start → l.link.state = .receiving →
        l.link.discarding = true →
        (20 * bit < low → exec (.tdatLow n (.ended low stood)) s = .next s.refreshIrq)
        ∧ ∀ c, ((c = .tdatLow n (.ended low stood) ∧ low ≤ 20 * bit)
            ∨ (c = .startBitDiscarded ⟨n, low, stood⟩ ∧ 3 * bit ≤ 16 * low ∧ low ≤ bit / 2)) →
          (l.link.timer ≠ .absent → exec c s = .next (onLink { l.link with busyStart := none }))
          ∧ (l.link.timer = .absent → exec c s = .next (State.refreshIrq (s.withLane n
            { l with ctx := { l.ctx with retries := if l.ctx.retries < 255 then l.ctx.retries + 1 else l.ctx.retries }
                     link := { l.link with state := .sending, resends := l.link.resends + 1, timer := .absent,
                                           busyStart := none, discarding := false }
                     lines := { l.lines with tdatDriven := true } }))))
    ∧ (∀ low, low ≤ 20 * bit → exec (.busyHoldRecognised n low) s = .next s.refreshIrq)
    ∧ (∀ low start, 20 * bit < low → l.link.busyStart = some start →
        l.link.state = .awaiting ∨ (l.link.state = .receiving ∧ l.link.discarding = true) →
        exec (.busyHoldRecognised n low) s = .next (onLink
          { l.link with state := .busyHold, timer := .absent, discarding := false }))
    ∧ ∀ stood, 3 * bit ≤ 16 * stood → l.link.state = .busyHold →
      (s.part.state ≠ .draining → exec (.busyHoldEnd ⟨n, stood⟩) s = .next (State.refreshIrq (s.withLane n
        { l with link := { l.link with state := .awaiting, timer := .running (s.clock + 48000 * l.link.replyLimit),
                                       busyStart := none, discarding := false }
                 lines := { l.lines with tdatDriven := false } })))
      ∧ (s.part.state = .draining →
        ∃ t, exec (.busyHoldEnd ⟨n, stood⟩) s = .next t ∧ t.part = s.part ∧ (t.work.lane n).link.state = .idle
          ∧ (t.work.lane n).lines.tdatDriven = false ∧ (t.work.lane n).supply = l.supply
          ∧ (l.ctx.state ∈ [.linking, .active] →
              (t.work.lane n).ctx.state = .hold ∧ (t.work.lane n).ctx.session = false
                ∧ (t.work.lane n).lines.trstLow = true)
          ∧ ∀ m, m ≠ n → t.work.lane m = s.work.lane m)

/-- REPLY_TIMEOUT, FRAMING_ERROR and QUIET_LINE_RESEND where a resend follows (parts of R45, R54, R55): the identical frame at
once after a timeout, otherwise after a quiet line, with the resend counted. The low stop bit is found by the levels at the
middles of its start and stop bits, and is timed as a low that goes on; a timer that expires while a low is timed leaves the
resend to the low's end (its being absent says so: log entry 37). The levels run from the start bit's edge to the report
(log entry 40), and a low that has ended by then leaves nothing that is timed. -/
def Obligations.FailedAttemptsAreSentAgain : Prop :=
  ∀ (s : State) (n : LaneId) (l : Lane) (bit : Nat), s.Awake → l = s.work.lane n →
    (l.link.rate, bit) ∈ [(0, 417), (1, 192), (2, 96), (3, 48), (4, 24), (5, 16)] →
    l.link.resends < l.link.retryLimit → l.link.stopMark = false →
    ∀ (again : State) (waiting : Option Nat → State),
      again = State.refreshIrq (s.withLane n
        { l with ctx := { l.ctx with retries := if l.ctx.retries < 255 then l.ctx.retries + 1 else l.ctx.retries }
                 link := { l.link with state := .sending, resends := l.link.resends + 1, timer := .absent,
                                       busyStart := none, discarding := false }
                 lines := { l.lines with tdatDriven := true } }) →
      (∀ low, waiting low = State.refreshIrq (s.withLane n
        { l with link := { l.link with state := .receiving, discarding := true, busyStart := low,
                                       timer := .running (s.clock + 48000 * l.link.replyLimit) } })) →
      again.work.frameOut n = s.work.frameOut n
      ∧ (∀ ends, l.link.state = .awaiting → l.link.timer = .running ends → exec (.replyTimeout n) s = .next again)
      ∧ (∀ left, l.link.timer = .paused left → exec (.replyTimeout n) s = .next s.refreshIrq)
      ∧ (l.Listens → ∀ cause : FramingCause,
          ((∃ b, cause = .badLead b ∧ b ≠ 0x3C#8) ∨ (∃ k, cause = .longLen k ∧ 264 < k)
              ∨ ∃ high, cause = .gap high ∧ 40 * bit < high) →
          exec (.framingError n cause) s = .next (waiting none))
      ∧ (l.Listens → ∀ levels : List Nat, 19 * bit / 2 ≤ levels.sum →
          (lineAt l.link.rate levels (bit / 2)).1 = false → (lineAt l.link.rate levels (19 * bit / 2)).1 = false →
          exec (.framingError n (.lowStop levels)) s = .next (waiting
            (if (lineAt l.link.rate levels levels.sum).1 then none
             else some (s.clock - (lineAt l.link.rate levels levels.sum).2))))
      ∧ (∀ cause : FramingCause,
          (¬ l.Listens ∨ cause = .badLead 0x3C#8 ∨ (∃ k, cause = .longLen k ∧ k ≤ 264)
            ∨ (∃ high, cause = .gap high ∧ high ≤ 40 * bit)
            ∨ ∃ levels, cause = .lowStop levels ∧ (levels.sum < 19 * bit / 2 ∨ (lineAt l.link.rate levels (bit / 2)).1 = true
                ∨ (lineAt l.link.rate levels (19 * bit / 2)).1 = true)) →
          exec (.framingError n cause) s = .next s.refreshIrq)
      ∧ (l.link.state = .receiving → l.link.discarding = true →
          (∀ high, high < 40 * bit ∨ l.link.busyStart.isSome = true →
            exec (.quietLineResend n (.lineHigh high)) s = .next s.refreshIrq)
          ∧ (∀ high, 40 * bit ≤ high → l.link.busyStart = none → exec (.quietLineResend n (.lineHigh high)) s = .next again)
          ∧ (∀ ends, l.link.timer = .running ends → l.link.busyStart = none →
            exec (.quietLineResend n .timerExpired) s = .next again)
          ∧ ∀ ends start, l.link.timer = .running ends → l.link.busyStart = some start →
            exec (.quietLineResend n .timerExpired) s = .next (State.refreshIrq (s.withLane n
              { l with link := { l.link with timer := .absent } })))

/-- REPLY_FRAME_COMPLETE of a frame that is not accepted (parts of R55, R56): rows 1 to 4 of R56, with a resend to follow a
rejected frame, and the reply timer of a stale one resumed with the time it had left. -/
def Obligations.RejectedAndStaleReplies : Prop :=
  ∀ (s : State) (n : LaneId) (l : Lane) (r : Request) (kind seq status : Byte) (payload : List Byte) (check : Half)
    (frame : List Byte), s.Awake → l = s.work.lane n → l.Listens → l.link.req = some r → payload.length ≤ 264 →
    frame = replyWith kind seq status payload check →
    (l.link.resends < l.link.retryLimit → l.link.stopMark = false →
      (check ≠ replyCheck kind seq status payload
        ∨ (check = replyCheck kind seq status payload ∧ seq = l.link.seq ∧ (kind ≠ r.kind + 0x80#8 ∨ status = 0x01#8))) →
      exec (.replyFrameComplete n frame) s = .next (State.refreshIrq (s.withLane n
        { l with link := { l.link with state := .receiving, discarding := true, replyArea := frame, busyStart := none,
                                       timer := .running (s.clock + 48000 * l.link.replyLimit) } })))
    ∧ (check = replyCheck kind seq status payload → seq ≠ l.link.seq → ∀ left, l.link.timer = .paused left →
      exec (.replyFrameComplete n frame) s = .next (State.refreshIrq (s.withLane n
        { l with link := { l.link with state := .awaiting, replyArea := frame, busyStart := none,
                                       timer := .running (s.clock + left) } })))

/-- The ends of an exchange without an accepted reply, for a live lane's request of linking or of a step (parts of R31, R32,
R53, R55, R57 to R59, R134, R135; Tables 2-5 and 3-9): LINK_LOST, TARGET_STUCK, CANCELLED after STOPPED, and the rate fallback of
the first request after a PACE, whose sequence number is 0 from its start (log entry 43). -/
def Obligations.ExchangesThatEndWithoutAReply : Prop :=
  ∀ (s : State) (n : LaneId) (l : Lane) (r : Request) (c : Instr), s.Awake → l = s.work.lane n →
    s.part.state ∈ [.loading, .running, .quiescing, .quiesced] → s.work.isLive n = true → l.link.req = some r →
    (r.purpose ∈ [.openSession, .query, .clear, .entry] ∨ (∃ k, r.purpose = .pace k) ∨ (∃ p, r.purpose = .write p)
      ∨ (∃ p, r.purpose = .checkRead p) ∨ (∃ p b, r.purpose = .readout p b) ∨ (∃ i v, r.purpose = .sum i v)
      ∨ ∃ k, r.purpose = .guard k) →
    l.eng.xfer = none →
    (∀ cause : LaneResult,
      ((cause = .targetStuck ∧ c = .busyLimitExpiry n ∧ l.link.state = .busyHold)
        ∨ (cause = .linkLost ∧ l.ctx.trial = false ∧ l.link.resends = l.link.retryLimit
            ∧ ((∃ f, FramingCause.holds l.link.rate f = true ∧ c = .framingError n f ∧ l.Listens)
              ∨ (c = .replyTimeout n ∧ l.link.state = .awaiting ∧ ∃ ends, l.link.timer = .running ends)))) →
      ∃ t, exec c s = .next t ∧ (t.work.lane n).ctx.state = .fault ∧ (t.work.lane n).ctx.faultCause = some cause
        ∧ (t.work.lane n).ctx.session = false ∧ (t.work.lane n).ctx.answered = false
        ∧ (t.work.lane n).ctx.seq = l.ctx.seq + 1 ∧ (t.work.lane n).link.state = .idle ∧ (t.work.lane n).link.req = none
        ∧ (t.work.lane n).lines = { l.lines with tdatDriven := false, trstLow := true, tselLow := false }
        ∧ (t.work.lane n).supply = l.supply ∧ (∀ m, m ≠ n → (s.work.lane m).SamePins (t.work.lane m))
        ∧ t.work.isLive n = false ∧ s.work.ResultTaken t.work n cause)
    ∧ (c = .replyTimeout n → l.link.state = .awaiting → (∃ ends, l.link.timer = .running ends) →
        l.link.resends = l.link.retryLimit → l.ctx.trial = true → l.Unstopped →
        ∃ t, exec c s = .next t
          ∧ t.work.lane n =
            { l with
              ctx := { l.ctx with
                state := .entry, step := .linking, stepPos := none, session := false, desc := none, trial := false,
                rate := 0, fallback := true, fallbackCopy := l.ctx.desc, attempts := 0, answered := false
                seq := 0 }
              link := LinkUnit.idle
              lines := { l.lines with tdatDriven := false, trstLow := true, tselLow := false }
              eng := { l.eng with phase := .reset (s.clock + 48000), held := none
                                  resume := some { req := r, step := l.ctx.step, pos := l.ctx.stepPos } } }
          ∧ (∀ m, m ≠ n → t.work.lane m = s.work.lane m) ∧ t.work.isLive n = true)
    ∧ (c = .replyTimeout n → l.link.state = .awaiting → (∃ ends, l.link.timer = .running ends) →
        l.link.resends < l.link.retryLimit → l.link.stopMark = true → l.eng.stop = some .cancel → l.eng.due = none →
        ∃ t, exec c s = .next t ∧ t.work.isLive n = false ∧ s.work.ResultTaken t.work n .cancelled
          ∧ (t.work.lane n).ctx.answered = false ∧ (t.work.lane n).ctx.seq = l.ctx.seq + 1
          ∧ (t.work.lane n).link.state = .idle ∧ (t.work.lane n).lines.tdatDriven = false
          ∧ (∀ m, m ≠ n → (s.work.lane m).SamePins (t.work.lane m)))

/-- An OK reply to OPEN opens the session and QUERY is sent in the same event; KEY_WRONG is KEY_REJECTED; another status is
TARGET_REFUSED with its cause word (parts of R30, R57, R61 to R64). -/
def Obligations.OpenReplyIsTaken : Prop :=
  ∀ (s : State) (n : LaneId) (l : Lane) (r : Request) (status : Byte) (payload : List Byte), s.Awake →
    l = s.work.lane n → s.part.state ∈ [.loading, .running, .quiescing, .quiesced] → s.work.isLive n = true →
    (∃ j, s.work.jobOf n = some j ∧ j.args.endAction?.isSome = true) → l.ctx.state = .linking → l.ctx.step = .linking →
    l.Listens → l.link.req = some r → r.purpose = .openSession → r.kind = 0x01#8 →
    l.eng.xfer = none → l.Unstopped → payload.length ≤ 264 →
    ∃ t, exec (.replyFrameComplete n (replyFrame 0x81#8 l.link.seq status payload)) s = .next t
      ∧ (status = 0 → payload = [] → l.supply.state ≠ .riding →
          t = State.refreshIrq (s.withLane n
            { l with
              ctx := { l.ctx with session := true, answered := true, trial := false, seq := l.ctx.seq + 1 }
              link := (t.work.lane n).link
              lines := { l.lines with tdatDriven := true }
              eng := { l.eng with held := none } })
          ∧ (t.work.lane n).link.state = .sending ∧ (t.work.lane n).link.seq = l.ctx.seq + 1
          ∧ (t.work.lane n).link.rate = l.ctx.rate ∧ (t.work.lane n).link.resends = 0
          ∧ (t.work.lane n).link.busyLimit = l.settings.replyLimit
          ∧ t.work.frameOut n = some (requestFrame 0x03#8 (l.ctx.seq + 1) []))
      ∧ (status = 4 → t.work.isLive n = false ∧ s.work.ResultTakenAt t.work n .keyRejected none)
      ∧ (status ∉ [0, 1, 4] → t.work.isLive n = false
          ∧ s.work.ResultTakenAt t.work n .targetRefused (some (BitVec.ofNat 32 (status.toNat + 256))))

/-- An OK reply to QUERY of 17 bytes and an OK reply to PACE (parts of R31, R32, R62, R63, R66 to R68, R122, R124): the nine
conditions on the descriptor and, in the relinking of a fallback, the four that must not have changed, TARGET_REFUSED with
reason 2 or 3 when one fails; otherwise the descriptor cached and PACE sent with the smaller of the two rate codes. Where no
PACE is due, and after PACE's reply, linking is over: the request of a fallback is sent again in its step, and a lane without one
goes on to its job, here IDENTIFY and EXCHANGE. -/
def Obligations.QueryReplyIsJudged : Prop :=
  ∀ (s : State) (n : LaneId) (l : Lane) (r : Request) (j : JobSlot) (p : List Byte), s.Awake → l = s.work.lane n →
    s.part.state ∈ [.loading, .running, .quiescing, .quiesced] → s.work.isLive n = true →
    s.work.jobOf n = some j → j.args.endAction?.isSome = true → l.ctx.state = .linking → l.ctx.step = .linking →
    l.Listens → l.link.req = some r → l.eng.xfer = none → l.Unstopped →
    -- what the end of linking leads to: the descriptor, the rate and the trial flag of the lane from then on
    ∀ linked : State → TargetDesc → Nat → Bool → Prop,
    (∀ t d rate trial, linked t d rate trial ↔
      (∀ q, l.eng.resume = some q → l.supply.state ≠ .riding →
        t.work.isLive n = true ∧ (t.work.lane n).link.state = .sending ∧ (t.work.lane n).link.req = some q.req
        ∧ (t.work.lane n).link.rate = rate ∧ (t.work.lane n).ctx.step = q.step ∧ (t.work.lane n).ctx.stepPos = q.pos
        ∧ (t.work.lane n).ctx.fallbackCopy = none ∧ (t.work.lane n).eng.resume = none
        ∧ (t.work.lane n).ctx.desc = some d ∧ (t.work.lane n).ctx.rate = rate ∧ (t.work.lane n).ctx.trial = trial)
      ∧ (∀ fresh e key, l.eng.resume = none → j.args = .identify fresh e key →
        t.work.isLive n = false ∧ s.work.ResultCopied t.work n .done (fun o => o.desc = some d ∧ o.rate = rate)
        ∧ (e = .keep → (t.work.lane n).ctx.state = .ready ∧ (t.work.lane n).ctx.slot = none
            ∧ (t.work.lane n).ctx.desc = some d ∧ (t.work.lane n).ctx.rate = rate ∧ (t.work.lane n).ctx.trial = trial))
      ∧ ∀ fresh e block key x es, l.eng.resume = none → j.args = .exchange fresh e block key (x :: es) →
        l.supply.state ≠ .riding →
        t.work.isLive n = true ∧ (t.work.lane n).ctx.step = .exchange ∧ (t.work.lane n).ctx.desc = some d
        ∧ (t.work.lane n).ctx.rate = rate ∧ (t.work.lane n).ctx.trial = trial
        ∧ (x.len ≠ 0 → (t.work.lane n).ctx.state = .ready
            ∧ (t.work.lane n).eng.xfer = some (.payloadRead block x.len))
        ∧ (x.len = 0 → (t.work.lane n).ctx.state = .active ∧ (t.work.lane n).link.rate = rate
            ∧ t.work.frameOut n = some (requestFrame x.kind (l.ctx.seq + 1) []))) →
    (r.purpose = .query → r.kind = 0x03#8 → p.length = 17 →
      ∀ base size unit : Nat, base = fieldAt p 4 4 → size = fieldAt p 8 4 → unit = 1024 * 2 ^ fieldAt p 13 1 →
      ∀ invalid changed : Prop,
        (invalid ↔ 2 < fieldAt p 12 1 ∨ 3 < fieldAt p 13 1 ∨ 5 < fieldAt p 14 1 ∨ 3 < fieldAt p 15 1 ∨ 1 < fieldAt p 16 1
          ∨ size = 0 ∨ size % unit ≠ 0 ∨ base % unit ≠ 0 ∨ 2 ^ 32 < base + size ∨ 65536 < size / unit) →
        (changed ↔ ∃ old, l.ctx.fallbackCopy = some old ∧ (old.base.toNat ≠ base ∨ old.size.toNat ≠ size
          ∨ old.pageCode.toNat ≠ fieldAt p 12 1 ∨ old.clearCode.toNat ≠ fieldAt p 13 1)) →
      (∀ rate, rate = min l.settings.rateCode (fieldAt p 14 1) → ¬ invalid → ¬ changed → 0 < rate → l.ctx.fallback = false →
        l.supply.state ≠ .riding →
        ∃ t, exec (.replyFrameComplete n (replyFrame 0x83#8 l.link.seq 0 p)) s = .next t
          ∧ t = State.refreshIrq (s.withLane n
            { l with
              ctx := { l.ctx with desc := (t.work.lane n).ctx.desc, answered := true, trial := false, seq := l.ctx.seq + 1 }
              link := (t.work.lane n).link
              lines := { l.lines with tdatDriven := true }
              eng := { l.eng with held := none } })
          ∧ (∃ d, (t.work.lane n).ctx.desc = some d ∧ targetDescBytes d = p)
          ∧ t.work.frameOut n = some (requestFrame 0x02#8 (l.ctx.seq + 1) [BitVec.ofNat 8 rate]))
      ∧ (¬ invalid → ¬ changed → min l.settings.rateCode (fieldAt p 14 1) = 0 ∨ l.ctx.fallback = true →
          ∃ t d, exec (.replyFrameComplete n (replyFrame 0x83#8 l.link.seq 0 p)) s = .next t ∧ targetDescBytes d = p
            ∧ linked t d l.ctx.rate false)
      ∧ (invalid → ∃ t, exec (.replyFrameComplete n (replyFrame 0x83#8 l.link.seq 0 p)) s = .next t
          ∧ t.work.isLive n = false ∧ s.work.ResultTakenAt t.work n .targetRefused (some 0x00020300#32))
      ∧ (¬ invalid → changed → ∃ t, exec (.replyFrameComplete n (replyFrame 0x83#8 l.link.seq 0 p)) s = .next t
          ∧ t.work.isLive n = false ∧ s.work.ResultTakenAt t.work n .targetRefused (some 0x00030300#32)))
    ∧ ∀ code d, r.purpose = .pace code → r.kind = 0x02#8 → l.ctx.desc = some d →
      ∃ t, exec (.replyFrameComplete n (replyFrame 0x82#8 l.link.seq 0 [])) s = .next t ∧ linked t d code true

/-- The replies that decide a PROGRAM lane (parts of R62, R74, R110, R112, R113): a SUM value that differs, a compare that
fails at its first differing byte, the GUARD that ends the steps, and an OK reply of the wrong length to WRITE. -/
def Obligations.ProgramRepliesDecideTheLane : Prop :=
  ∀ (s : State) (n : LaneId) (l : Lane) (r : Request) (j : JobSlot) (c : CtxId) (steps : StepSet) (fresh clearAll : Bool)
    (e : EndAction) (level : Nat) (ptr key : HostAddr) (p : List Byte), s.Awake → l = s.work.lane n →
    s.part.state ∈ [.loading, .running, .quiescing, .quiesced] → s.work.isLive n = true → s.work.jobOf n = some j →
    j.args = .program steps fresh clearAll e level ptr key → j.ctx = some c → l.ctx.state = .active → l.Listens →
    l.link.req = some r → l.eng.xfer = none → p.length ≤ 264 →
    ∃ t, exec (.replyFrameComplete n (replyFrame (r.kind + 0x80#8) l.link.seq 0 p)) s = .next t
      ∧ (∀ i v g, r.purpose = .sum i v → (s.work.ctx c).segs[i]? = some g → p.length = 4 → wordAt p 0 ≠ v →
          t.work.isLive n = false ∧ s.work.ResultTakenAt t.work n .sumMismatch (some g.addr))
      ∧ (∀ page b size off, r.purpose = .checkRead page → r.source = .engine (leBytes 4 page ++ leBytes 2 size) →
          page < 2 ^ 32 → size < 2 ^ 16 → p.length = size → size = pageSize (s.work.ctx c).pageCode →
          l.ctx.cursor = .at page → (s.work.buf b).state = .held → (s.work.buf b).owner = some c →
          (s.work.buf b).page = page →
          (∀ b', b' ≠ b → (s.work.buf b').owner = some c → (s.work.buf b').page ≠ page) →
          size ≤ (s.work.buf b).data.length → off < size → byteAt (s.work.buf b).data off ≠ byteAt p off →
          (∀ k, k < off → byteAt (s.work.buf b).data k = byteAt p k) →
          t.work.isLive n = false
            ∧ s.work.ResultTakenAt t.work n .compareMismatch (some (BitVec.ofNat 32 (page + off))))
      ∧ (∀ k d, r.purpose = .guard k → p = [] → l.ctx.desc = some d →
          t.work.isLive n = false ∧ s.work.ResultTaken t.work n .done
            ∧ (e = .keep → (t.work.lane n).ctx.desc = some { d with protection := BitVec.ofNat 8 k }))
      ∧ (∀ page, r.purpose = .write page → r.kind = 0x05#8 → p ≠ [] →
          t.work.isLive n = false ∧ s.work.ResultTakenAt t.work n .targetRefused (some 0x00010500#32))

/-- The replies after which a PROGRAM lane goes on (parts of R62, R69, R71, R72, R83, R89, R92, R93, R100, R105, R107 to R113):
CLEAR's next request, and the step after the last; the page that a WRITE or a matching READ consumes, its buffer's claim and the
cursor, with the next page's request or the wait for it; the end of the page list, with the wait at the barrier and the barrier's
passing; the next SUM with the segments skipped before it, and what follows the last. That CHECK is no longer due once its pass
has begun is the model's choice, log entry 44; that a lane takes the step CHECK at the barrier's passing although a ride window
holds its requests back is log entry 38. -/
def Obligations.ProgramRepliesGoOn : Prop :=
  ∀ (s : State) (n : LaneId) (l : Lane) (r : Request) (j : JobSlot) (steps : StepSet) (fresh clearAll : Bool)
    (e : EndAction) (level : Nat) (ptr key : HostAddr) (p : List Byte), s.Awake → l = s.work.lane n →
    s.part.state ∈ [.loading, .running, .quiescing, .quiesced] → s.work.isLive n = true → s.work.jobOf n = some j →
    j.args = .program steps fresh clearAll e level ptr key → l.ctx.state = .active → l.Listens → l.Unstopped →
    l.supply.state ≠ .riding → l.link.req = some r → l.eng.xfer = none → p.length ≤ 264 →
    ∃ t, exec (.replyFrameComplete n (replyFrame (r.kind + 0x80#8) l.link.seq 0 p)) s = .next t
      ∧ (∀ k d segs first count, r.purpose = .clear → p = [] → l.ctx.stepPos = some k → l.ctx.desc = some d →
          (∀ c, j.ctx = some c → segs = (s.work.ctx c).segs) → (j.ctx = none → segs = []) →
          (clearPlan d clearAll segs)[k + 1]? = some (first, count) →
          t.work.isLive n = true ∧ (t.work.lane n).ctx.state = .active ∧ (t.work.lane n).ctx.stepPos = some (k + 1)
          ∧ (t.work.lane n).link.busyLimit = l.settings.clearLimit * count
          ∧ t.work.frameOut n = some (requestFrame 0x04#8 (l.ctx.seq + 1) (leBytes 2 first ++ leBytes 2 count)))
      ∧ (∀ k d segs, r.purpose = .clear → p = [] → l.ctx.stepPos = some k → l.ctx.desc = some d →
          (∀ c, j.ctx = some c → segs = (s.work.ctx c).segs) → (j.ctx = none → segs = []) →
          (clearPlan d clearAll segs).length = k + 1 →
          (∀ c, j.ctx = some c → steps.write = true ∨ steps.check = true →
            t.work.isLive n = true ∧ (t.work.lane n).ctx.step = (if steps.write = true then .write else .check)
            ∧ (t.work.lane n).ctx.stepPos = none ∧ (t.work.lane n).ctx.cursor = l.ctx.cursor
            ∧ ((∀ page b, (s.work.buf b).state = .held → (s.work.buf b).owner = some c →
                  (s.work.ctx c).pageAt l.ctx.cursor = some page → (s.work.buf b).page ≠ page) →
                (t.work.lane n).ctx.state = .ready ∧ (t.work.lane n).link.state = .idle))
          ∧ (steps.write = false → steps.check = false →
            (∀ c m g v, j.ctx = some c → steps.sum = true → segs[m]? = some g → g.crc = some v →
              (∀ i h, i < m → segs[i]? = some h → h.crc = none ∧ ((s.work.ctx c).computed[i]?).join = none) →
              t.work.isLive n = true ∧ (t.work.lane n).ctx.step = .sum ∧ (t.work.lane n).ctx.stepPos = some m
              ∧ (t.work.lane n).ctx.sumsSkipped = l.ctx.sumsSkipped + m
              ∧ t.work.frameOut n = some (requestFrame 0x07#8 (l.ctx.seq + 1)
                  (leBytes 4 g.addr.toNat ++ leBytes 4 g.len.toNat)))
            ∧ ((steps.sum = true → ∀ (c : CtxId) (i : Nat) (h : Segment), j.ctx = some c → segs[i]? = some h →
                  h.crc = none ∧ ((s.work.ctx c).computed[i]?).join = none) →
              (steps.guard = true → t.work.isLive n = true ∧ (t.work.lane n).ctx.step = .guard
                ∧ (t.work.lane n).ctx.stepPos = none
                ∧ t.work.frameOut n = some (requestFrame 0x08#8 (l.ctx.seq + 1) [BitVec.ofNat 8 level]))
              ∧ (steps.guard = false → t.work.isLive n = false ∧ s.work.ResultCopied t.work n .done
                  (fun o => o.sumsSkipped = l.ctx.sumsSkipped + if steps.sum = true then segs.length else 0)))))
      ∧ (∀ c x size page b old, j.ctx = some c → x = s.work.ctx c → size = 64 * 2 ^ x.pageCode.toNat → size < 2 ^ 16 →
          l.ctx.cursor = .at page → old = s.work.buf b → old.state = .held → old.owner = some c → old.page = page →
          (∀ b', b' ≠ b → (s.work.buf b').owner = some c → (s.work.buf b').page ≠ page) →
          hasLane x.passLanes n = true → (∀ m, hasLane x.passLanes m = true → hasLane j.live m = true) →
          (x.checkDue = true → steps.check = true) →
          (x.state = .writePass ∧ r.purpose = .write page ∧ p = [])
            ∨ (x.state = .checkPass ∧ r.purpose = .checkRead page
                ∧ r.source = .engine (leBytes 4 page ++ leBytes 2 size) ∧ p.length = size ∧ old.data = p) →
          (1 < old.count → t.work.buf b = { old with count := old.count - 1 })
          ∧ (old.count ≤ 1 → t.work.buf b = PageBuf.free)
          ∧ (∀ b', b' ≠ b → t.work.buf b' = s.work.buf b')
          ∧ (∀ q, pageAfter x.segs size page = some q →
              t.work.isLive n = true ∧ (t.work.lane n).ctx.cursor = .at q ∧ (t.work.lane n).ctx.step = l.ctx.step
              ∧ (t.work.ctx c).passLanes = x.passLanes ∧ (t.work.ctx c).state = x.state
              ∧ ((∀ b', (s.work.buf b').owner = some c → (s.work.buf b').state = .held → (s.work.buf b').page ≠ q) →
                  (t.work.lane n).ctx.state = .ready ∧ (t.work.lane n).link.state = .idle)
              ∧ ∀ next, (s.work.buf next).state = .held → (s.work.buf next).owner = some c → (s.work.buf next).page = q →
                  (∀ b', b' ≠ next → (s.work.buf b').owner = some c → (s.work.buf b').page ≠ q) →
                  (t.work.lane n).ctx.state = .active
                  ∧ (x.state = .writePass → t.work.frameOut n = some (requestFrame 0x05#8 (l.ctx.seq + 1)
                      (leBytes 4 q ++ (s.work.buf next).data.take size)))
                  ∧ (x.state = .checkPass → t.work.frameOut n = some (requestFrame 0x06#8 (l.ctx.seq + 1)
                      (leBytes 4 q ++ leBytes 2 size))))
          ∧ (pageAfter x.segs size page = none → x.state = .writePass → steps.check = true →
              t.work.isLive n = true
              ∧ ((∃ m, m ≠ n ∧ hasLane x.passLanes m = true) →
                  (t.work.lane n).ctx.step = .checkWait ∧ (t.work.lane n).ctx.cursor = .past
                  ∧ (t.work.lane n).ctx.state = .ready ∧ (t.work.lane n).link.state = .idle
                  ∧ (t.work.ctx c).state = .writePass ∧ (t.work.ctx c).passLanes = dropLane x.passLanes n)
              ∧ ((∀ m, m ≠ n → hasLane x.passLanes m = false) → x.checkDue = true → x.slot = l.ctx.slot →
                  (t.work.ctx c).state = .checkPass ∧ (t.work.ctx c).passLanes = j.live
                  ∧ (t.work.ctx c).checkDue = false ∧ (t.work.ctx c).nextPage = firstPage x.segs size
                  ∧ ∀ m, hasLane j.live m = true → (s.work.lane m).ctx.slot = l.ctx.slot →
                      (t.work.lane m).ctx.step = .check ∧ (t.work.lane m).ctx.cursor = .start
                      ∧ (m = n ∨ (s.work.lane m).link.state = .idle → (t.work.lane m).link.state = .idle)))
          ∧ (pageAfter x.segs size page = none → x.state = .checkPass →
              ((∃ m, m ≠ n ∧ hasLane x.passLanes m = true) → (t.work.ctx c).state = .checkPass
                ∧ (t.work.ctx c).passLanes = dropLane x.passLanes n)
              ∧ ((∀ m, m ≠ n → hasLane x.passLanes m = false) → x.slot = l.ctx.slot →
                (t.work.ctx c).state ∈ [.idle, .free])))
      ∧ (∀ c i v segs (reference : Nat → Option Word), j.ctx = some c → segs = (s.work.ctx c).segs →
          (∀ m g, segs[m]? = some g → reference m =
            match g.crc with
            | some supplied => some supplied
            | none => ((s.work.ctx c).computed[m]?).join) →
          r.purpose = .sum i v → p.length = 4 → wordAt p 0 = v →
          (∀ m g v', i < m → segs[m]? = some g → reference m = some v' → (∀ k, i < k → k < m → reference k = none) →
            t.work.isLive n = true ∧ (t.work.lane n).ctx.step = l.ctx.step ∧ (t.work.lane n).ctx.stepPos = some m
            ∧ (t.work.lane n).ctx.sumsSkipped = l.ctx.sumsSkipped + (m - i - 1)
            ∧ (t.work.lane n).link.busyLimit = l.settings.sumLimit * ((g.len.toNat + 1023) / 1024)
            ∧ t.work.frameOut n = some (requestFrame 0x07#8 (l.ctx.seq + 1)
                (leBytes 4 g.addr.toNat ++ leBytes 4 g.len.toNat)))
          ∧ ((∀ k, i < k → k < segs.length → reference k = none) →
            (steps.guard = true → t.work.isLive n = true ∧ (t.work.lane n).ctx.step = .guard
              ∧ (t.work.lane n).ctx.stepPos = none
              ∧ (t.work.lane n).ctx.sumsSkipped = l.ctx.sumsSkipped + (segs.length - i - 1)
              ∧ t.work.frameOut n = some (requestFrame 0x08#8 (l.ctx.seq + 1) [BitVec.ofNat 8 level]))
            ∧ (steps.guard = false → t.work.isLive n = false
              ∧ s.work.ResultCopied t.work n .done
                  (fun o => o.sumsSkipped = l.ctx.sumsSkipped + (segs.length - i - 1)))))

/-! ## Cancellation -/

/-- JOB_TAKE of a CANCEL that names a RUNNING job with end actions, row 6 of Table 8-1 (parts of R133 to R135): the cancel
link, the lane that stops in the event with no fault address, the lanes on their way to their stopping point, the stop mark,
and the wait for a quiet line, which ends at once as STOPPED (R59). That a CANCELLED lane has no fault address in the EXCHANGE
step too is the model's choice, log entry 14. -/
def Obligations.CancelOfARunningJob : Prop :=
  ∀ (s : State) (g : Geometry) (rec : List Byte) (i : SlotId) (a : Word) (j : JobSlot), s.Awake → s.part.state = .running →
    s.rings.geom = some g → s.intake.held = some rec → byteAt rec 4 = 7 →
    s.work.findNamed (s.intake.counter + 1) (wordAt rec 16) = some (.slot i a) → s.work.slot i = some j →
    j.cancelLink = none → j.state = .running → j.args.endAction?.isSome = true →
    (∀ n, hasLane j.live n = true → hasLane j.mask n = true ∧ (s.work.lane n).ctx.slot = some i ∧ (s.work.lane n).Unstopped) →
    ∃ t, exec .jobTake s = .next t
      ∧ (∀ j', t.work.slot i = some j' → j'.cancelLink = some { tag := wordAt rec 0, adm := s.intake.counter })
      ∧ ∀ n l, hasLane j.live n = true → l = s.work.lane n →
        (l.link.state = .idle → l.eng.xfer = none → l.ctx.state ≠ .powering → l.ctx.state ≠ .settling →
            t.work.isLive n = false ∧ s.work.ResultTakenAt t.work n .cancelled none)
        ∧ (l.link.state = .idle → l.ctx.state ∈ [.powering, .settling] ∨ l.eng.xfer.isSome = true →
            t.work.isLive n = true ∧ (t.work.lane n).eng = { l.eng with stop := some .cancel }
              ∧ (t.work.lane n).ctx.state = l.ctx.state ∧ l.SamePins (t.work.lane n))
        ∧ (l.link.state ∈ [.sending, .awaiting, .busyHold] ∨ l.Listens →
            t.work.isLive n = true ∧ (t.work.lane n).eng = { l.eng with stop := some .cancel }
              ∧ (t.work.lane n).ctx.state = l.ctx.state ∧ (t.work.lane n).link = { l.link with stopMark := true }
              ∧ (t.work.lane n).lines = l.lines ∧ (t.work.lane n).supply = l.supply)
        ∧ (∀ q, l.link.state = .receiving → l.link.discarding = true → l.link.req = some q → l.eng.xfer = none →
            (∀ e, q.purpose ≠ .closeEnd e) → (∀ b, q.purpose ≠ .closeAction b) →
            t.work.isLive n = false ∧ s.work.ResultTakenAt t.work n .cancelled none
              ∧ (t.work.lane n).ctx.answered = false ∧ (t.work.lane n).ctx.seq = l.ctx.seq + 1
              ∧ (t.work.lane n).link.state = .idle ∧ (t.work.lane n).lines.tdatDriven = false)

/-- The end of a cancelled RUNNING job (parts of R15, R18, R136, R137): when its last lane leaves, its entry with status CANCELLED
and directly behind it the CANCEL's, CANCEL_DONE with detail 2. Here every lane stops in the event of the CANCEL and has no CLOSE
to send. Then a CANCEL of a LANE-ACTION job (part of R128, Table 7-5): what it does in a power-up, in the reset pulse and while
a CLOSE is outstanding, and where a power-up that was cancelled stops. The absent fault address of a CANCELLED lane in the
EXCHANGE step is log entry 14. -/
def Obligations.CancelledJobsComplete : Prop :=
  (∀ (s : State) (g : Geometry) (rec : List Byte) (i : SlotId) (adm : Word) (j : JobSlot), s.Awake →
    s.part.state = .running → s.rings.geom = some g → s.intake.held = some rec → byteAt rec 4 = 7 →
    s.work.findNamed (s.intake.counter + 1) (wordAt rec 16) = some (.slot i adm) → s.work.slot i = some j →
    j.cancelLink = none → j.state = .running → (∀ n, hasLane j.live n = true → hasLane j.mask n = true
      ∧ (s.work.lane n).ctx.slot = some i) →
    (∀ e, j.args.endAction? = some e → j.live ≠ 0 → (∀ n, s.work.ownerOf n = some i ↔ hasLane j.live n = true) →
      (∀ n, hasLane j.live n = true → (s.work.lane n).link.state = .idle ∧ (s.work.lane n).eng.xfer = none
        ∧ (s.work.lane n).ctx.state ∈ [.hold, .entry, .linking, .ready]
        ∧ ((s.work.lane n).ctx.session = false ∨ (s.work.lane n).ctx.answered = false)) →
      ∃ t k m, exec .jobTake s = .next t ∧ t.work.queue = s.work.queue ++ [k, m]
        ∧ k.tag = j.tag ∧ k.adm = j.adm ∧ k.status = .cancelled ∧ k.detail = 0 ∧ k.requested = j.mask
        ∧ (∀ n, hasLane j.live n = true → hasLane k.failed n = true
            ∧ ∃ x ∈ k.lanes, x.lane = n ∧ x.result = .cancelled ∧ ∃ o, x.copy = some o ∧ o.faultAddr = none)
        ∧ m.tag = wordAt rec 0 ∧ m.kind = 7 ∧ m.adm = s.intake.counter ∧ m.status = .cancelDone ∧ m.detail = 2
        ∧ m.requested = 0 ∧ m.targetTag = j.tag
        ∧ t.work.slot i = none ∧ (∀ c, j.ctx = some c → t.work.ctx c = ImageCtx.free)
        ∧ ∀ n, hasLane j.live n = true → t.work.ownerOf n = none ∧ (t.work.lane n).ctx.slot = none
            ∧ (t.work.lane n).lines.trstLow = true ∧ (t.work.lane n).lines.tselLow = false
            ∧ (e = .off → (t.work.lane n).ctx.state = .off ∧ (t.work.lane n).lines.tpwrOn = false)
            ∧ (e ≠ .off → (t.work.lane n).ctx.state = .hold ∧ (t.work.lane n).supply = (s.work.lane n).supply))
    ∧ ∀ a, j.args = .laneAction a → j.ctx = none →
      ∃ t, exec .jobTake s = .next t
        ∧ (∀ j', t.work.slot i = some j' → j'.cancelLink = some { tag := wordAt rec 0, adm := s.intake.counter })
        ∧ ∀ n l, hasLane j.live n = true → l = s.work.lane n → l.Unstopped →
          (l.link.state = .idle → l.ctx.state ∈ [.powering, .settling] →
            t.work.isLive n = true ∧ t.work.lane n = { l with eng := { l.eng with stop := some .cancel } })
          ∧ (∀ ends, l.link.state = .idle → l.ctx.state = .hold → l.eng.phase = .pulse ends →
            t.work.isLive n = false ∧ s.work.ResultTaken t.work n .cancelled ∧ (t.work.lane n).ctx.state = .hold
            ∧ (t.work.lane n).lines = { l.lines with trstLow := true, tselLow := false }
            ∧ (t.work.lane n).eng.phase = .none ∧ (t.work.lane n).supply = l.supply)
          ∧ (l.link.state ∈ [.sending, .awaiting, .busyHold] ∨ l.Listens →
            t.work.isLive n = true ∧ t.work.lane n =
              { l with link := { l.link with stopMark := true }, eng := { l.eng with stop := some .cancel } }))
  ∧ ∀ (s : State) (n : LaneId) (l : Lane) (a : ActionCode), s.Awake → l = s.work.lane n →
    s.part.state ∈ [.loading, .running, .quiescing, .quiesced] → s.work.isLive n = true → s.work.actionOf n = some a →
    l.supply.settle.isSome = true → l.eng.stop = some .cancel →
    ∃ t, exec (.settleEnd n) s = .next t ∧ (t.work.lane n).ctx.state = .hold ∧ t.work.isLive n = false
      ∧ (t.work.lane n).lines = { l.lines with trstLow := true, tselLow := false } ∧ t.work.ownerOf n = none
      ∧ (a = .run → s.work.ResultTaken t.work n .cancelled) ∧ (a ≠ .run → s.work.ResultTaken t.work n .done)

/-! ## Image descriptors, pages and host transfers -/

/-- KEY_READ_END (parts of R30, R65, R121, R161): OPEN with the key in the event in which the read ends, IMAGE_READ_ERROR, and
the lane of a halted part at rest. A read that fails while a cancel is pending gives IMAGE_READ_ERROR too: log entry 18. -/
def Obligations.KeyReadLeadsToOpen : Prop :=
  ∀ (s : State) (n : LaneId) (l : Lane) (a : HostAddr), s.Awake → l = s.work.lane n → s.port = some (.lane n) →
    l.eng.xfer = some (.keyRead a) → l.link.state = .idle → l.ctx.state = .linking →
    (s.part.state ∈ [.loading, .running, .quiescing, .quiesced] → l.Unstopped → l.supply.state ≠ .riding →
      ∀ key : List Byte, key.length = 16 → ∃ t, exec (.keyReadEnd n (.ok key)) s = .next t
        ∧ t = State.refreshIrq (State.withLane { s with port := none } n
          { l with
            ctx := { l.ctx with seq := 0 }
            link := (t.work.lane n).link
            lines := { l.lines with tdatDriven := true }
            eng := { l.eng with xfer := none, held := none } })
        ∧ (t.work.lane n).link.state = .sending ∧ (t.work.lane n).link.seq = 0
        ∧ (t.work.lane n).link.rate = l.ctx.rate ∧ t.work.frameOut n = some (requestFrame 0x01#8 0 (0x01#8 :: key)))
    ∧ (s.part.state ∈ [.loading, .running, .quiescing, .quiesced] → s.work.isLive n = true → l.eng.due = none →
      ∃ t, exec (.keyReadEnd n .error) s = .next t ∧ t.port = none ∧ (t.work.lane n).eng.xfer = none
        ∧ t.work.isLive n = false ∧ s.work.ResultTaken t.work n .imageReadError)
    ∧ (s.part.state = .halted → ∀ r : ReadEnd, (∀ key, r = .ok key → key.length = 16) →
      ∃ t, exec (.keyReadEnd n r) s = .next t ∧ t = { s with port := none, work := t.work, irqHigh := t.irqHigh }
        ∧ t.work = s.work.setLane n (t.work.lane n) ∧ (t.work.lane n).ctx.state = .hold
        ∧ (t.work.lane n).lines = { l.lines with trstLow := true, tselLow := false }
        ∧ (t.work.lane n).eng.xfer = none ∧ (t.work.lane n).supply = l.supply)

/-- DESCRIPTOR_HEADER_READ_END and DESCRIPTOR_TABLE_READ_END of a descriptor that is invalid or cannot be read (parts of R10, R15,
R17, R18, R78, R79): every lane NOT_RUN and gone in the event, the job complete with its status and detail. No record
waits for the slot that it frees. -/
def Obligations.DescriptorRejectionEndsTheJob : Prop :=
  ∀ (s : State) (c : CtxId) (i : SlotId) (j : JobSlot) (part : DescPart) (ptr : HostAddr) (cmd : Instr) (r : ReadEnd)
    (st : JobStatus) (d : Half), s.Awake → s.NoneWaits → s.part.state ∈ [.loading, .running, .quiescing, .quiesced] →
    s.port = some (.image c (.desc part ptr)) → (s.work.ctx c).state = .descriptor → (s.work.ctx c).descBusy = some part →
    (s.work.ctx c).slot = some i → (s.work.ctx c).passLanes = 0 → s.work.slot i = some j → j.ctx = some c →
    (∃ st f ca e lv p k, j.args = .program st f ca e lv p k) → j.cancelLink = none → j.mask ≠ 0 → j.live = j.mask →
    (∀ n, hasLane j.mask n = true ↔ s.work.ownerOf n = some i) →
    (∀ n, hasLane j.mask n = true → (s.work.lane n).ctx.slot = some i) →
    ((part = .header ∧ cmd = .descriptorHeaderReadEnd r)
      ∨ ∃ count pageCode fill, part = .table count pageCode fill ∧ cmd = .descriptorTableReadEnd r) →
    ((r = .error ∧ st = .imageUnreadable ∧ d = 0)
      ∨ ∃ data, r = .ok data ∧ st = .imageInvalid
        ∧ ((part = .header ∧ data.length = 16 ∧ d = 0xFF#16
              ∧ (fieldAt data 0 1 = 0 ∨ 32 < fieldAt data 0 1 ∨ 2 < fieldAt data 1 1))
          ∨ ∃ count pageCode fill k, part = .table count pageCode fill ∧ data.length = 24 * count.toNat
              ∧ segmentFails (segmentsOf data count.toNat) k ∧ (∀ m, m < k → ¬ segmentFails (segmentsOf data count.toNat) m)
              ∧ count.toNat ≤ 32 ∧ d = BitVec.ofNat 16 k)) →
    ∃ t e, exec cmd s = .next t ∧ t = { s with port := none, work := t.work, irqHigh := t.irqHigh }
      ∧ t.work.queue = s.work.queue ++ [e] ∧ e.tag = j.tag ∧ e.adm = j.adm ∧ e.status = st ∧ e.detail = d
      ∧ e.requested = j.mask ∧ e.notRun = j.mask ∧ e.succeeded = 0 ∧ e.failed = 0
      ∧ t.work.slot i = none ∧ (∀ k, k ≠ i → t.work.slot k = s.work.slot k)
      ∧ t.work.ctx c = ImageCtx.free ∧ (∀ c', c' ≠ c → t.work.ctx c' = s.work.ctx c') ∧ t.work.pool = s.work.pool
      ∧ ∀ n, (s.work.lane n).SamePins (t.work.lane n) ∧ (t.work.lane n).ctx.state = (s.work.lane n).ctx.state
        ∧ t.work.ownerOf n = if hasLane j.mask n = true then none else s.work.ownerOf n

/-- DESCRIPTOR_HEADER_READ_END and DESCRIPTOR_TABLE_READ_END of an accepted descriptor (parts of R10, R25, R78 to R80, R82, R91,
R93, R140): the header kept for the table read; the image in its context, the first pass that is due, or IDLE with none due when
no lane is live, and every lane, here each in OFF, powered up. When a pass stops being due is log entry 44. -/
def Obligations.DescriptorAcceptanceStartsTheLanes : Prop :=
  ∀ (s : State) (c : CtxId) (x : ImageCtx) (p : HostAddr), s.Awake →
    s.part.state ∈ [.loading, .running, .quiescing, .quiesced] → x = s.work.ctx c → x.state = .descriptor →
    (∀ data : List Byte, s.port = some (.image c (.desc .header p)) → x.descBusy = some .header → data.length = 16 →
      1 ≤ fieldAt data 0 1 → fieldAt data 0 1 ≤ 32 → fieldAt data 1 1 ≤ 2 →
      exec (.descriptorHeaderReadEnd (.ok data)) s = .next (State.refreshIrq
        { s with port := none
                 work := s.work.setCtx c { x with
                   descDue := some (.table (byteAt data 0) (byteAt data 1) (byteAt data 2)), descBusy := none } }))
    ∧ ∀ (data : List Byte) (count pageCode fill : Byte) (segs : List Segment) (g : Segment) (i : SlotId) (j : JobSlot)
        (steps : StepSet) (fresh clearAll runs : Bool) (e : EndAction) (level : Nat) (ptr key : HostAddr),
      s.port = some (.image c (.desc (.table count pageCode fill) p)) → x.descBusy = some (.table count pageCode fill) →
      data.length = 24 * count.toNat → segs = segmentsOf data count.toNat → segs.head? = some g →
      (∀ k, ¬ segmentFails segs k) → x.slot = some i → s.work.slot i = some j → j.cancelLink = none →
      j.args = .program steps fresh clearAll e level ptr key → runs = ((steps.write || steps.check) && j.live != 0) →
      (∀ n, hasLane j.live n = true → (s.work.lane n).ctx.slot = some i ∧ (s.work.lane n).ctx.state = .off) →
      ∃ t j', exec (.descriptorTableReadEnd (.ok data)) s = .next t
        ∧ t = { s with port := none, work := t.work, irqHigh := t.irqHigh }
        ∧ t.work = { s.work with slots := t.work.slots, ctxs := t.work.ctxs, lanes := t.work.lanes }
        ∧ t.work.ctx c = { x with
            count := count, pageCode := pageCode, fill := fill, segs := segs, writeDue := false
            computed := List.replicate segs.length none, descDue := none, descBusy := none
            checkDue := runs && steps.write && steps.check
            state := if runs = false then .idle else if steps.write then .writePass else .checkPass
            passLanes := if runs then j.live else x.passLanes
            nextPage := if runs then
                some (g.addr.toNat / (64 * 2 ^ pageCode.toNat) * (64 * 2 ^ pageCode.toNat)) else none }
        ∧ (∀ c', c' ≠ c → t.work.ctx c' = s.work.ctx c')
        ∧ t.work.slot i = some j' ∧ j' = { j with lastSteps := j'.lastSteps }
        ∧ (∀ k, k ≠ i → t.work.slot k = s.work.slot k)
        ∧ ∀ n l, l = s.work.lane n →
          if hasLane j.live n = true then
            j'.lastSteps.get n = .powerUp ∧ t.work.lane n = { l with
              ctx := { l.ctx with state := .powering, step := .powerUp, stepPos := none
                                  cursor := if runs then .start else l.ctx.cursor }
              lines := { l.lines with tpwrOn := true, trstLow := true, tselLow := false }
              supply := { l.supply with state := .rising, threshold := l.settings.threshold
                                        powerUp := some (s.clock + 48000 * l.settings.powerUpLimit) } }
          else j'.lastSteps.get n = j.lastSteps.get n ∧ t.work.lane n = l

/-- PAGE_FETCH_READ_END (parts of R84, R85, R88, R94, R108): the bytes of each read at their place, the whole page HELD and the
lane that waits for it sending its WRITE in the same event, the CRC-32 of a segment that one page holds, and a read that
fails. -/
def Obligations.PageFetchFillsABuffer : Prop :=
  ∀ (s : State) (c : CtxId) (x : ImageCtx) (f : Fetch) (rd : PageRead) (rest : List PageRead) (b : PageBuf), s.Awake →
    s.part.state ∈ [.loading, .running, .quiescing, .quiesced] → s.port = some (.image c (.fetch f (rd :: rest))) →
    x = s.work.ctx c → x.fetch = some f → x.state ∈ [.writePass, .checkPass] → b = s.work.buf f.buf → b.owner = some c →
    b.page = f.page →
    (∀ data page : List Byte, data.length = rd.len →
      page = b.data.take rd.offset ++ data ++ b.data.drop (rd.offset + data.length) →
      (rest ≠ [] → exec (.pageFetchReadEnd (.ok data)) s = .next (State.refreshIrq
        { s with port := some (.image c (.fetch f rest)), work := s.work.setBuf f.buf { b with data := page } }))
      ∧ (rest = [] → (∀ n, hasLane x.passLanes n = true → (s.work.lane n).ctx.state ≠ .ready) →
        ∃ t, exec (.pageFetchReadEnd (.ok data)) s = .next t
          ∧ t = State.refreshIrq
            { s with port := none
                     work := (s.work.setBuf f.buf { b with state := .held, data := page }).setCtx c (t.work.ctx c) }
          ∧ t.work.ctx c = { x with fetch := none, crcReg := (t.work.ctx c).crcReg, crcSeg := (t.work.ctx c).crcSeg,
                                    computed := (t.work.ctx c).computed }
          ∧ (x.state = .checkPass → t.work.ctx c = { x with fetch := none })
          ∧ ∀ g, x.state = .writePass → x.segs = [g] → x.computed = [none] → x.crcReg = 0xFFFFFFFF#32 → 0 < g.len.toNat →
              f.page ≤ g.addr.toNat → g.addr.toNat + g.len.toNat ≤ f.page + 64 * 2 ^ x.pageCode.toNat →
              (t.work.ctx c).computed = [some (crc32 (slice page (g.addr.toNat - f.page) g.len.toNat))])
      ∧ (∀ n l j steps fresh clearAll e level ptr key, rest = [] → l = s.work.lane n → hasLane x.passLanes n = true →
          l.ctx.state = .ready → l.ctx.step = .write → l.ctx.cursor = .at f.page → l.link.state = .idle →
          l.eng.held = none → l.Unstopped → l.supply.state ≠ .riding → s.work.isLive n = true → s.work.jobOf n = some j →
          j.ctx = some c → j.args = .program steps fresh clearAll e level ptr key →
          (∀ b', b' ≠ f.buf → (s.work.buf b').page ≠ f.page) →
          (∀ m, m ≠ n → hasLane x.passLanes m = true → (s.work.lane m).ctx.state ≠ .ready) →
          ∃ t, exec (.pageFetchReadEnd (.ok data)) s = .next t ∧ t.port = none ∧ (t.work.buf f.buf).state = .held
            ∧ (t.work.lane n).ctx.state = .active ∧ (t.work.lane n).link.state = .sending
            ∧ (t.work.lane n).link.busyLimit = l.settings.writeLimit ∧ (t.work.lane n).link.rate = l.ctx.rate
            ∧ t.work.frameOut n = some (requestFrame 0x05#8 l.ctx.seq
                (leBytes 4 f.page ++ page.take (64 * 2 ^ x.pageCode.toNat)))))
    ∧ ∀ i j n, x.slot = some i → s.work.slot i = some j → hasLane j.live n = true →
        (∀ m, hasLane j.live m = true → (s.work.lane m).ctx.slot = some i) → (s.work.lane n).eng.xfer = none →
        (s.work.lane n).eng.stop = none →
        ∃ t, exec (.pageFetchReadEnd .error) s = .next t ∧ t.port = none
          ∧ ((s.work.lane n).link.state = .idle → (s.work.lane n).ctx.state ∉ [.powering, .settling] →
              t.work.isLive n = false ∧ s.work.ResultTaken t.work n .imageReadError)
          ∧ ((s.work.lane n).link.state ≠ .idle ∨ (s.work.lane n).ctx.state ∈ [.powering, .settling] →
              t.work.isLive n = true ∧ (t.work.lane n).eng.stop = some .imageError
                ∧ (s.work.lane n).SamePins (t.work.lane n)
                ∧ (t.work.ctx c).state = .stopped ∧ (t.work.ctx c).fetch = none)

/-- The end of a lane's part in a pass (parts of R82, R86, R87, R90, R92, R93): the buffers of the pass at or above its page
cursor lose its claim and are freed at 0, and the pass ends with its last lane, into the CHECK pass when that is due and the job
has a live lane. When a pass stops being due, and the next page of an IDLE context, are log entry 44. -/
def Obligations.LeavingAPassReleasesItsPages : Prop :=
  ∀ (w w' : Work) (c : CtxId) (n : LaneId) (x : ImageCtx), w.PoolSound → x = w.ctx c → x.slot.isSome = true →
    hasLane x.passLanes n = true → w' = w.passLeave c n →
    (∀ b, ((w.buf b).owner = some c ∧ ((w.lane n).ctx.cursor = .start
          ∨ ∃ q, (w.lane n).ctx.cursor = .at q ∧ q ≤ (w.buf b).page) →
        ((w.buf b).count ≤ 1 → w'.buf b = PageBuf.free)
        ∧ (1 < (w.buf b).count → w'.buf b = { w.buf b with count := (w.buf b).count - 1 }))
      ∧ (¬ ((w.buf b).owner = some c ∧ ((w.lane n).ctx.cursor = .start
          ∨ ∃ q, (w.lane n).ctx.cursor = .at q ∧ q ≤ (w.buf b).page)) → w'.buf b = w.buf b))
    ∧ (∀ f, x.fetch = some f → (w.buf f.buf).state = .filling → (w'.ctx c).fetch
        = if (w'.buf f.buf).state = .free then none else some f)
    ∧ ((∃ m, m ≠ n ∧ hasLane x.passLanes m = true) →
        (w'.ctx c).passLanes = dropLane x.passLanes n ∧ (w'.ctx c).state = x.state ∧ (w'.ctx c).nextPage = x.nextPage
        ∧ ∀ m, w'.lane m = w.lane m)
    ∧ ((∀ m, m ≠ n → hasLane x.passLanes m = false) → ∀ i j, x.slot = some i → w.slot i = some j →
        (x.state = .writePass → x.checkDue = true → j.live ≠ 0 →
          (w'.ctx c).state = .checkPass ∧ (w'.ctx c).passLanes = j.live ∧ (w'.ctx c).checkDue = false
          ∧ (w'.ctx c).nextPage = firstPage x.segs (64 * 2 ^ x.pageCode.toNat)
          ∧ ∀ m, hasLane j.live m = true → (w'.lane m).ctx.step = .check ∧ (w'.lane m).ctx.cursor = .start)
        ∧ (x.state = .checkPass ∨ (x.state = .writePass ∧ (x.checkDue = false ∨ j.live = 0)) →
          (w'.ctx c).state = .idle ∧ (w'.ctx c).writeDue = false ∧ (w'.ctx c).checkDue = false
          ∧ (w'.ctx c).nextPage = none ∧ ∀ m, w'.lane m = w.lane m)
        ∧ (x.state = .stopped → (w'.ctx c).state = .stopped ∧ ∀ m, w'.lane m = w.lane m))

/-- READOUT on a lane (parts of R118 to R121): the reply to a READ put in its buffer, the host write of the bytes in the range
and the next READ begun; READOUT_PAGE_WRITE_END of the last page, of an earlier one, and with an error. -/
def Obligations.ReadoutPagesReachTheHost : Prop :=
  ∀ (s : State) (n : LaneId) (l : Lane) (j : JobSlot) (c : CtxId) (fresh : Bool) (e : EndAction) (host key : HostAddr)
    (start len : Word) (d : TargetDesc) (size : Nat) (b other : BufId) (page : Nat), s.Awake → l = s.work.lane n →
    s.part.state ∈ [.loading, .running, .quiescing, .quiesced] → s.work.isLive n = true → s.work.jobOf n = some j →
    j.ctx = some c → j.args = .readout fresh e host key start len → l.Unstopped → l.supply.state ≠ .riding →
    l.ctx.step = .read → l.ctx.desc = some d → size = 64 * 2 ^ d.pageCode.toNat → size < 65536 →
    ((b.val = 2 * c.val ∧ other.val = 2 * c.val + 1) ∨ (b.val = 2 * c.val + 1 ∧ other.val = 2 * c.val)) →
    (∀ r p, l.eng.xfer = none → l.ctx.state = .active → l.Listens → l.link.req = some r → r.purpose = .readout page b →
      r.kind = 0x06#8 → r.source = .engine (leBytes 4 page ++ leBytes 2 size) → p.length = size → size ≤ 264 →
      (s.work.buf b).state = .filling → (s.work.buf b).page = page → (s.work.buf other).state ≠ .held →
      ∃ t, exec (.replyFrameComplete n (replyFrame 0x86#8 l.link.seq 0 p)) s = .next t
        ∧ (t.work.buf b).state = .held ∧ (t.work.buf b).data = p ∧ t.port = s.port
        ∧ (∀ lo hi, lo = max page start.toNat → hi = min (page + size) (start.toNat + len.toNat) →
            (t.work.lane n).eng.xfer = some (.pageWrite b page (host + BitVec.ofNat 64 (lo - start.toNat))
              ((p.drop (lo - page)).take (hi - lo))))
        ∧ ∀ q, l.eng.readPage = some q → (s.work.buf other).state = .free →
            (t.work.buf other).state = .filling ∧ (t.work.lane n).ctx.state = .active
              ∧ t.work.frameOut n = some (requestFrame 0x06#8 (l.ctx.seq + 1) (leBytes 4 q ++ leBytes 2 size)))
    ∧ (∀ a data, s.port = some (.lane n) → l.eng.xfer = some (.pageWrite b page a data) → l.link.state = .idle →
      ∃ t u, exec (.readoutPageWriteEnd n .ok) s = .next t ∧ exec (.readoutPageWriteEnd n .error) s = .next u
        ∧ t.port = none ∧ u.port = none
        ∧ (page = (start.toNat + len.toNat - 1) / size * size →
            (t.work.buf b).state = .free ∧ t.work.isLive n = false ∧ s.work.ResultTaken t.work n .done)
        ∧ (page ≠ (start.toNat + len.toNat - 1) / size * size → l.eng.readPage = none → (s.work.buf other).state ≠ .held →
            (t.work.buf b).state = .free ∧ t.work.isLive n = true ∧ (t.work.lane n).eng.xfer = none)
        ∧ u.work.isLive n = false ∧ s.work.ResultTakenAt u.work n .hostWriteError (some (BitVec.ofNat 32 page)))

/-- EXCHANGE on a lane (parts of R123, R124 and Table 12-6): EXCHANGE_PAYLOAD_READ_END, the reply of any status, and
EXCHANGE_REPLY_WRITE_END, with the next entry, DONE after the last, and the code word of a failure. -/
def Obligations.ExchangeEntriesInOrder : Prop :=
  ∀ (s : State) (n : LaneId) (l : Lane) (j : JobSlot) (fresh : Bool) (e : EndAction) (block key : HostAddr)
    (es : List ExchangeEntry) (k : Nat) (x : ExchangeEntry) (code : Word), s.Awake → l = s.work.lane n →
    s.part.state ∈ [.loading, .running, .quiescing, .quiesced] → s.work.isLive n = true → s.work.jobOf n = some j →
    j.args = .exchange fresh e block key es → l.Unstopped → l.supply.state ≠ .riding → l.ctx.step = .exchange →
    l.eng.entryIdx = k → es[k]? = some x → code = BitVec.ofNat 32 (k + 256 * x.kind.toNat) →
    (∀ a, s.port = some (.lane n) → l.eng.xfer = some (.payloadRead a x.len) → l.link.state = .idle →
      (∀ data : List Byte, data.length = x.len → ∃ t, exec (.exchangePayloadReadEnd n (.ok data)) s = .next t
        ∧ t.port = none ∧ (t.work.lane n).eng.xfer = none ∧ (t.work.lane n).ctx.state = .active
        ∧ (t.work.lane n).link.state = .sending ∧ (t.work.lane n).link.busyLimit = x.busyMs
        ∧ (t.work.lane n).link.retryLimit = l.settings.retryLimit
        ∧ t.work.frameOut n = some (requestFrame x.kind l.ctx.seq data) ∧ ∀ m, m ≠ n → t.work.lane m = s.work.lane m)
      ∧ ∃ t, exec (.exchangePayloadReadEnd n .error) s = .next t ∧ t.port = none ∧ t.work.isLive n = false
          ∧ s.work.ResultTakenAt t.work n .imageReadError (some code))
    ∧ (∀ r status p, l.eng.xfer = none → l.ctx.state = .active → l.Listens → l.link.req = some r → r.purpose = .entry →
        r.kind = x.kind → status ≠ 0x01#8 → p.length ≤ 264 →
        ∃ t, exec (.replyFrameComplete n (replyFrame (x.kind + 0x80#8) l.link.seq status p)) s = .next t
          ∧ (t.work.lane n).ctx.state = .ready ∧ (t.work.lane n).link.state = .idle
          ∧ (t.work.lane n).eng.xfer = some (.replyWrite (block + BitVec.ofNat 64 (544 * k + 272))
              ([x.kind + 0x80#8, l.link.seq, status, 0] ++ leBytes 2 p.length ++ [0, 0] ++ p)))
    ∧ (∀ a data, s.port = some (.lane n) → l.eng.xfer = some (.replyWrite a data) → l.link.state = .idle →
        ∃ t u, exec (.exchangeReplyWriteEnd n .ok) s = .next t ∧ exec (.exchangeReplyWriteEnd n .error) s = .next u
          ∧ t.port = none ∧ u.port = none
          ∧ (es.length = k + 1 → t.work.isLive n = false ∧ s.work.ResultTakenAt t.work n .done (some code))
          ∧ (∀ y, es[k + 1]? = some y → (t.work.lane n).eng.entryIdx = k + 1
              ∧ (y.len ≠ 0 → (t.work.lane n).eng.xfer =
                  some (.payloadRead (block + BitVec.ofNat 64 (544 * (k + 1))) y.len))
              ∧ (y.len = 0 → t.work.frameOut n = some (requestFrame y.kind l.ctx.seq [])))
          ∧ u.work.isLive n = false ∧ s.work.ResultTakenAt u.work n .hostWriteError (some code))

/-! ## The plans of a PROGRAM job, and the checks on bytes -/

/-- The page list (R83) and the reads of one page (part of R84): the first page, the page after each page, the last; and the
reads of a page, which cover the segment bytes in it at their host addresses, in ascending target order. -/
def Obligations.PageListWalksTheImage : Prop :=
  ∀ (x : ImageCtx) (size : Nat), x.pageCode.toNat ≤ 2 → size = 64 * 2 ^ x.pageCode.toNat → x.segs ≠ [] →
    (∀ k, ¬ segmentFails x.segs k) →
    (∃ p, firstPage x.segs size = some p ∧ isPageOf x.segs size p ∧ ∀ q, isPageOf x.segs size q → p ≤ q)
    ∧ ∀ p, isPageOf x.segs size p →
      (∀ q, pageAfter x.segs size p = some q ↔
        isPageOf x.segs size q ∧ p < q ∧ ∀ r, isPageOf x.segs size r → p < r → q ≤ r)
      ∧ (pageAfter x.segs size p = none ↔ ∀ r, isPageOf x.segs size r → r ≤ p)
      ∧ (x.reads p).Pairwise (fun a b => a.offset + a.len ≤ b.offset)
      ∧ (∀ rd ∈ x.reads p, 1 ≤ rd.len ∧ rd.offset + rd.len ≤ size ∧ ∃ g ∈ x.segs, g.addr.toNat ≤ p + rd.offset
          ∧ p + rd.offset + rd.len ≤ g.addr.toNat + g.len.toNat
          ∧ rd.addr = g.host + BitVec.ofNat 64 (p + rd.offset - g.addr.toNat))
      ∧ ∀ g ∈ x.segs, ∀ a, g.addr.toNat ≤ a → a < g.addr.toNat + g.len.toNat → p ≤ a → a < p + size →
          ∃ rd ∈ x.reads p, p + rd.offset ≤ a ∧ a < p + rd.offset + rd.len

/-- The clear plan (R105, R106): 1 to 16 units in each request, ascending, every unit that a segment touches and no other,
and a request of fewer than 16 units only at the end of a run; with CLEAR_ALL every unit of the target. -/
def Obligations.ClearPlanCoversTheUnits : Prop :=
  ∀ (d : TargetDesc) (segs : List Segment), d.valid = true →
    (∀ k, ¬ segmentFails segs k) →
    (∀ g ∈ segs, d.base.toNat ≤ g.addr.toNat ∧ g.addr.toNat + g.len.toNat ≤ d.base.toNat + d.size.toNat) →
    ∀ (clearAll : Bool) (plan : List (Nat × Nat)) (wanted : Nat → Prop), plan = clearPlan d clearAll segs →
      (∀ u, wanted u ↔ if clearAll = true then u < d.size.toNat / (1024 * 2 ^ d.clearCode.toNat)
        else unitTouched d segs u) →
      (∀ r ∈ plan, 1 ≤ r.2 ∧ r.2 ≤ 16 ∧ (r.2 < 16 → ¬ wanted (r.1 + r.2)))
      ∧ plan.Pairwise (fun a b => a.1 + a.2 ≤ b.1)
      ∧ (∀ u, wanted u ↔ ∃ r ∈ plan, r.1 ≤ u ∧ u < r.1 + r.2)
      ∧ (segs ≠ [] ∨ clearAll = true → plan ≠ [])

/-- The range, geometry and protection checks of PROGRAM (R102 to R104, Table 6-4), in order, as the first that fails decides
them. Then those of READOUT (parts of R118, R119), at the grant of a lane whose session is reused: a range that fails, and then a
protection level of 2 or 3, end the lane in RANGE_CHECK with CLOSE in place of READ; a lane that passes sends the READ of its first
page into a floor buffer in the same event. Which free context is taken is the model's choice, log entry 22. -/
def Obligations.RangeGeometryAndProtection : Prop :=
  (∀ (s : State) (i : SlotId) (j : JobSlot) (n : LaneId) (l : Lane) (c : CtxId) (e : EndAction) (host key : HostAddr)
      (start len : Word) (d : TargetDesc) (outside : Prop), s.Awake → s.NoneWaits →
    s.part.state ∈ [.loading, .running, .quiescing, .quiesced] → s.work.grantList = [i] → s.work.slot i = some j →
    j.args = .readout false e host key start len → (∀ m, hasLane j.mask m = true ↔ m = n) →
    (∀ m, s.work.ownerOf m ≠ some i) → s.work.ownerOf n = none →
    (s.work.ctx c).state = .free → (∀ c', c' < c → (s.work.ctx c').state ≠ .free) →
    l = s.work.lane n → l.ctx.state = .ready → l.ctx.session = true → l.ctx.answered = true → l.ctx.desc = some d →
    l.Unstopped → l.link.state = .idle → l.eng.xfer = none → l.supply.state ≠ .riding →
    (outside ↔ start.toNat < d.base.toNat ∨ d.base.toNat + d.size.toNat < start.toNat + len.toNat) →
    ∃ t, exec .grantScan s = .next t
      ∧ (outside → t.work.isLive n = false ∧ t.work.RecordedAt i j n .outOfRange .rangeCheck (some start)
          ∧ t.work.frameOut n = some (requestFrame 0x09#8 l.ctx.seq []))
      ∧ (¬ outside → 2 ≤ d.protection.toNat → t.work.isLive n = false
          ∧ t.work.RecordedAt i j n .targetRefused .rangeCheck (some 0x00040603#32)
          ∧ t.work.frameOut n = some (requestFrame 0x09#8 l.ctx.seq []))
      ∧ (¬ outside → d.protection.toNat < 2 → ∀ (size page : Nat) (b : BufId), size = 64 * 2 ^ d.pageCode.toNat →
          page = start.toNat / size * size → b.val = 2 * c.val → (s.work.buf b).state = .free →
          t.work.isLive n = true ∧ (t.work.lane n).ctx.step = .read ∧ (t.work.lane n).ctx.state = .active
          ∧ (t.work.buf b).state = .filling ∧ (t.work.buf b).owner = some c ∧ (t.work.buf b).page = page
          ∧ (t.work.buf b).count = 1 ∧ (t.work.lane n).link.busyLimit = l.settings.replyLimit
          ∧ t.work.frameOut n = some (requestFrame 0x06#8 l.ctx.seq (leBytes 4 page ++ leBytes 2 size))))
  ∧ ∀ (d : TargetDesc) (segs : List Segment) (code : Byte) (steps : StepSet) (guardLevel level : Nat),
    level = d.protection.toNat →
    ∀ outside : Segment → Prop,
      (∀ g, outside g ↔ g.addr.toNat < d.base.toNat ∨ d.base.toNat + d.size.toNat < g.addr.toNat + g.len.toNat) →
    (∀ before g after, segs = before ++ g :: after → (∀ h ∈ before, ¬ outside h) → outside g →
      rangeFault d (some (segs, code)) steps guardLevel = some (.outOfRange, g.addr))
    ∧ ((∀ g ∈ segs, ¬ outside g) → d.pageCode ≠ code →
      rangeFault d (some (segs, code)) steps guardLevel
        = some (.geometryMismatch, BitVec.ofNat 32 (d.pageCode.toNat + 256 * code.toNat)))
    ∧ ∀ image, image = none ∨ (image = some (segs, code) ∧ (∀ g ∈ segs, ¬ outside g) ∧ d.pageCode = code) →
      (∀ kind : Nat,
        ((kind = 4 ∧ steps.clear = true ∧ 1 ≤ level)
          ∨ (kind = 5 ∧ steps.write = true ∧ steps.clear = false ∧ 1 ≤ level)
          ∨ (kind = 6 ∧ steps.check = true ∧ steps.clear = false ∧ steps.write = false ∧ 2 ≤ level)
          ∨ (kind = 7 ∧ steps.sum = true ∧ steps.clear = false ∧ steps.write = false ∧ steps.check = false ∧ 2 ≤ level)
          ∨ (kind = 8 ∧ steps.guard = true ∧ guardLevel < level
              ∧ ¬ ((steps.clear = true ∨ steps.write = true) ∧ 1 ≤ level)
              ∧ ¬ ((steps.check = true ∨ steps.sum = true) ∧ 2 ≤ level))) →
        rangeFault d image steps guardLevel = some (.targetRefused, BitVec.ofNat 32 (0x00040003 + 256 * kind)))
      ∧ (¬ ((steps.clear = true ∨ steps.write = true) ∧ 1 ≤ level) →
          ¬ ((steps.check = true ∨ steps.sum = true) ∧ 2 ≤ level) → ¬ (steps.guard = true ∧ guardLevel < level) →
          rangeFault d image steps guardLevel = none)

/-- The characters on TDAT (R43, parts of R45). A sender gives each character a low start bit, its bits from the least
significant, and a high stop bit, one bit time each and back to back; a reader takes the level at each bit's middle, a start bit
high there is noise and a low stop bit an error. What it reads has passed the glitch filter: a stretch all of whose levels pass
is read as it stands, a level of less than 3/16 of a bit time as though the line had not left the level before it. The cycle of
a bit's middle and the stretch of levels are log entry 40. -/
def Obligations.CharactersOnTheLine : Prop :=
  (∀ (rate bit : Nat), (rate, bit) ∈ [(0, 417), (1, 192), (2, 96), (3, 48), (4, 24), (5, 16)] →
    (∀ bits : Byte → List Bool,
      (∀ b, bits b = [false, b.getLsbD 0, b.getLsbD 1, b.getLsbD 2, b.getLsbD 3, b.getLsbD 4, b.getLsbD 5, b.getLsbD 6,
        b.getLsbD 7, true]) →
      (∀ (frame : List Byte) (k i t : Nat) (b : Byte), frame[k]? = some b → i < 10 → (10 * k + i) * bit ≤ t →
        t < (10 * k + i + 1) * bit → some (sentLevel rate frame t) = (bits b)[i]?)
      ∧ (∀ frame t, 10 * frame.length * bit ≤ t → sentLevel rate frame t = true)
      ∧ ∀ (levels : List Nat) (at_ : Nat → Bool), (∀ i, at_ i = (lineAt rate levels ((2 * i + 1) * bit / 2)).1) →
        (at_ 0 = true → readCharacter rate levels = .noise)
        ∧ (at_ 0 = false → at_ 9 = false → readCharacter rate levels = .lowStop)
        ∧ ∀ b, (∀ i, i < 10 → some (at_ i) = (bits b)[i]?) → readCharacter rate levels = .byte b)
    ∧ (∀ levels t, levels ≠ [] → (∀ r ∈ levels, 3 * bit ≤ 16 * r) → lineAt rate levels t = levelAt false levels t)
    ∧ (∀ stood glitch next t before after, 3 * bit ≤ 16 * stood → 16 * glitch < 3 * bit →
        lineAt rate (before ++ stood :: glitch :: next :: after) t
            = lineAt rate (before ++ (stood + glitch + next) :: after) t
        ∧ lineAt rate (before ++ [stood, glitch]) t = lineAt rate (before ++ [stood + glitch]) t)
    ∧ ∀ glitch next t after, 16 * glitch < 3 * bit → t < glitch + next →
        (lineAt rate (glitch :: next :: after) t).1 = true)
  ∧ ∀ (w : Work) (n : LaneId) (frame : List Byte) (t : Nat), w.frameOut n = some frame →
    w.drivenLevel n t = if (w.lane n).lines.tdatDriven = true then some (sentLevel (w.lane n).link.rate frame t) else none

/-- The checks on bytes (parts of R49; R73, whole): the CRC-16 and the CRC-32 as divisions one bit at a time, the most
significant bit of each byte first for the CRC-16, the least significant first for the CRC-32, with their check values. -/
def Obligations.CrcsOfFramesAndImages : Prop :=
  (∀ bs : List Byte, crc16 bs =
    (bs.flatMap (fun b => [7, 6, 5, 4, 3, 2, 1, 0].map b.getLsbD)).foldl
      (fun (r : Half) bit => if (r.getLsbD 15 != bit) = true then (r <<< 1) ^^^ 0x1021#16 else r <<< 1) 0xFFFF#16)
  ∧ (∀ bs : List Byte, crc32 bs = ~~~
    ((bs.flatMap (fun b => [0, 1, 2, 3, 4, 5, 6, 7].map b.getLsbD)).foldl
      (fun (r : Word) bit => if (r.getLsbD 0 != bit) = true then (r >>> 1) ^^^ 0xEDB88320#32 else r >>> 1) 0xFFFFFFFF#32))
  ∧ crc16 [0x31, 0x32, 0x33, 0x34, 0x35, 0x36, 0x37, 0x38, 0x39] = 0x29B1#16
  ∧ crc32 [0x31, 0x32, 0x33, 0x34, 0x35, 0x36, 0x37, 0x38, 0x39] = 0xCBF43926#32

/-! ## Invariants that every step keeps -/

/-- Every step keeps every Lane Setting, and every LANE-SET waiting in a slot, within the ranges of Table 2-2 (R21, R117); and it
keeps TDAT driven exactly while its Link Unit sends, TPWR on exactly while its Supply Monitor is not UNPOWERED, and an UNPOWERED
monitor without timers (R23, R138, R142). -/
def Obligations.StepKeepsSettingsAndLanesSound : Prop :=
  (∀ s t : State, s.work.SettingsSound → step s = .next t → t.work.SettingsSound)
  ∧ ∀ s t : State, s.work.LanesSound → step s = .next t → t.work.LanesSound

/-- Every step keeps at most 32 filled and reserved entries in the Post Queue, with a reservation behind every entry that a
slotted job has still to form and room for the record being read or held (R150, R152); the rings' indexes within their rings,
one post time for each unreleased entry, and a place in the completion ring for the posting under way; and a fatal code only in a
part that is or was halted (R148, R149, R154, R155, R158). -/
def Obligations.StepKeepsRingsAndReservations : Prop :=
  (∀ s t : State, s.QueueSound → step s = .next t → t.QueueSound)
  ∧ ∀ s t : State, s.RingsSound ∧ s.FatalSound → step s = .next t → t.RingsSound ∧ t.FatalSound

/-- Every step keeps the tables in agreement: the Grant List with the WAITING jobs, the lane owner table with the owning slots of
the Lane Contexts and with the jobs' masks, and the Image Contexts with the jobs that hold them (R4, R5, R9, R42, R82). -/
def Obligations.StepKeepsTheTablesSound : Prop :=
  ∀ s t : State, s.TablesSound → step s = .next t → t.TablesSound

/-- Every step keeps the Image Contexts and the page buffers within their limits: at most 14 shared buffers counted to a
context, a lane in every pass that runs, no pass due and no next page in IDLE; a buffer FREE exactly without an owner and with
count 0, otherwise with 1 to 8 claims; floor buffers with their own context; and a fetch in flight with a buffer of its
context (R82, R86 to R88, R93). That the next page is absent in IDLE is log entry 44. -/
def Obligations.StepKeepsThePoolWithinItsLimits : Prop :=
  ∀ s t : State, s.work.PoolSound → step s = .next t → t.work.PoolSound

/-- The part after a power-on reset meets every invariant. -/
def Obligations.ResetMeetsEveryInvariant : Prop :=
  State.reset.IrqFollows ∧ State.reset.work.SettingsSound ∧ State.reset.work.LanesSound ∧ State.reset.QueueSound
    ∧ State.reset.RingsSound ∧ State.reset.FatalSound ∧ State.reset.TablesSound ∧ State.reset.work.PoolSound
end

