-- ==== Sys2Proof/Laws/State.lean ====
section
/-! SUPPORT. What a table entry reads after another is written: one lemma for each accessor and each update, so that no
proof unfolds a record update. -/

namespace Sys2Proof.Laws

-- One theorem at a time: a thread for each would ask for more stack than the check allows.
set_option Elab.async false

open Sys2Proof.Machine

/-! ## Tables -/

@[simp] theorem vset_get {α : Type} {k : Nat} (v : Vector α k) (i j : Fin k) (a : α) :
    (vset v i a).get j = if j = i then a else v.get j := by
  unfold vset
  simp only [Vector.get_eq_getElem, Vector.getElem_set, Fin.ext_iff]
  by_cases h : i.val = j.val
  · simp [h]
  · simp [h, Ne.symm h]

@[simp] theorem vset_self {α : Type} {k : Nat} (v : Vector α k) (i : Fin k) : vset v i (v.get i) = v := by
  unfold vset
  apply Vector.ext
  intro j hj
  simp only [Vector.get_eq_getElem, Vector.getElem_set]
  split
  · rename_i h; subst h; rfl
  · rfl

@[simp] theorem vset_vset {α : Type} {k : Nat} (v : Vector α k) (i : Fin k) (a b : α) :
    vset (vset v i a) i b = vset v i b := by
  unfold vset
  exact Vector.set_set ..

variable (w : Work) (n m : LaneId) (l : Lane) (i k : SlotId) (j : Option JobSlot) (c d : CtxId) (x : ImageCtx)
  (b e : BufId) (p : PageBuf) (o : Option SlotId)

/-! ## The accessor of what was written -/

@[simp] theorem lane_setLane : (w.setLane n l).lane m = if m = n then l else w.lane m := by
  simp [Work.lane, Work.setLane]
@[simp] theorem slot_setSlot : (w.setSlot i j).slot k = if k = i then j else w.slot k := by
  simp [Work.slot, Work.setSlot]
@[simp] theorem ctx_setCtx : (w.setCtx c x).ctx d = if d = c then x else w.ctx d := by
  simp [Work.ctx, Work.setCtx]
@[simp] theorem buf_setBuf : (w.setBuf b p).buf e = if e = b then p else w.buf e := by
  simp [Work.buf, Work.setBuf]
@[simp] theorem ownerOf_setOwner : (w.setOwner n o).ownerOf m = if m = n then o else w.ownerOf m := by
  simp [Work.ownerOf, Work.setOwner]

theorem setCtx_self : w.setCtx c (w.ctx c) = w := by simp [Work.ctx, Work.setCtx]
theorem setBuf_self : w.setBuf b (w.buf b) = w := by simp [Work.buf, Work.setBuf]
@[simp] theorem setLane_self : w.setLane n (w.lane n) = w := by simp [Work.lane, Work.setLane]
@[simp] theorem setLane_setLane (l' : Lane) : (w.setLane n l).setLane n l' = w.setLane n l' := by
  simp [Work.setLane]

/-! ## The accessors of what was not -/

@[simp] theorem slot_setLane : (w.setLane n l).slot k = w.slot k := rfl
@[simp] theorem ctx_setLane : (w.setLane n l).ctx d = w.ctx d := rfl
@[simp] theorem buf_setLane : (w.setLane n l).buf e = w.buf e := rfl
@[simp] theorem ownerOf_setLane : (w.setLane n l).ownerOf m = w.ownerOf m := rfl
@[simp] theorem queue_setLane : (w.setLane n l).queue = w.queue := rfl
@[simp] theorem reserved_setLane : (w.setLane n l).reserved = w.reserved := rfl
@[simp] theorem grantList_setLane : (w.setLane n l).grantList = w.grantList := rfl
@[simp] theorem imgLast_setLane : (w.setLane n l).imgLast = w.imgLast := rfl

@[simp] theorem lane_setSlot : (w.setSlot i j).lane m = w.lane m := rfl
@[simp] theorem ctx_setSlot : (w.setSlot i j).ctx d = w.ctx d := rfl
@[simp] theorem buf_setSlot : (w.setSlot i j).buf e = w.buf e := rfl
@[simp] theorem ownerOf_setSlot : (w.setSlot i j).ownerOf m = w.ownerOf m := rfl
@[simp] theorem queue_setSlot : (w.setSlot i j).queue = w.queue := rfl
@[simp] theorem reserved_setSlot : (w.setSlot i j).reserved = w.reserved := rfl
@[simp] theorem grantList_setSlot : (w.setSlot i j).grantList = w.grantList := rfl
@[simp] theorem imgLast_setSlot : (w.setSlot i j).imgLast = w.imgLast := rfl

@[simp] theorem lane_setCtx : (w.setCtx c x).lane m = w.lane m := rfl
@[simp] theorem slot_setCtx : (w.setCtx c x).slot k = w.slot k := rfl
@[simp] theorem buf_setCtx : (w.setCtx c x).buf e = w.buf e := rfl
@[simp] theorem ownerOf_setCtx : (w.setCtx c x).ownerOf m = w.ownerOf m := rfl
@[simp] theorem queue_setCtx : (w.setCtx c x).queue = w.queue := rfl
@[simp] theorem reserved_setCtx : (w.setCtx c x).reserved = w.reserved := rfl
@[simp] theorem grantList_setCtx : (w.setCtx c x).grantList = w.grantList := rfl
@[simp] theorem imgLast_setCtx : (w.setCtx c x).imgLast = w.imgLast := rfl

@[simp] theorem lane_setBuf : (w.setBuf b p).lane m = w.lane m := rfl
@[simp] theorem slot_setBuf : (w.setBuf b p).slot k = w.slot k := rfl
@[simp] theorem ctx_setBuf : (w.setBuf b p).ctx d = w.ctx d := rfl
@[simp] theorem ownerOf_setBuf : (w.setBuf b p).ownerOf m = w.ownerOf m := rfl
@[simp] theorem queue_setBuf : (w.setBuf b p).queue = w.queue := rfl
@[simp] theorem reserved_setBuf : (w.setBuf b p).reserved = w.reserved := rfl
@[simp] theorem grantList_setBuf : (w.setBuf b p).grantList = w.grantList := rfl
@[simp] theorem imgLast_setBuf : (w.setBuf b p).imgLast = w.imgLast := rfl

@[simp] theorem lane_setOwner : (w.setOwner n o).lane m = w.lane m := rfl
@[simp] theorem slot_setOwner : (w.setOwner n o).slot k = w.slot k := rfl
@[simp] theorem ctx_setOwner : (w.setOwner n o).ctx d = w.ctx d := rfl
@[simp] theorem buf_setOwner : (w.setOwner n o).buf e = w.buf e := rfl
@[simp] theorem queue_setOwner : (w.setOwner n o).queue = w.queue := rfl
@[simp] theorem reserved_setOwner : (w.setOwner n o).reserved = w.reserved := rfl
@[simp] theorem grantList_setOwner : (w.setOwner n o).grantList = w.grantList := rfl
@[simp] theorem imgLast_setOwner : (w.setOwner n o).imgLast = w.imgLast := rfl

@[simp] theorem lane_fillEntry (en : Entry) : (w.fillEntry en).lane m = w.lane m := rfl
@[simp] theorem slot_fillEntry (en : Entry) : (w.fillEntry en).slot k = w.slot k := rfl
@[simp] theorem ctx_fillEntry (en : Entry) : (w.fillEntry en).ctx d = w.ctx d := rfl
@[simp] theorem buf_fillEntry (en : Entry) : (w.fillEntry en).buf e = w.buf e := rfl
@[simp] theorem ownerOf_fillEntry (en : Entry) : (w.fillEntry en).ownerOf m = w.ownerOf m := rfl
@[simp] theorem queue_fillEntry (en : Entry) : (w.fillEntry en).queue = w.queue ++ [en] := rfl
@[simp] theorem reserved_fillEntry (en : Entry) : (w.fillEntry en).reserved = w.reserved - 1 := rfl
@[simp] theorem grantList_fillEntry (en : Entry) : (w.fillEntry en).grantList = w.grantList := rfl

/-! ## Updates by a function -/

@[simp] theorem lane_modLane (f : Lane → Lane) : (w.modLane n f).lane m = if m = n then f (w.lane n) else w.lane m := by
  simp [Work.modLane]
@[simp] theorem modLane_modLane (f g : Lane → Lane) : (w.modLane n f).modLane n g = w.modLane n (fun l => g (f l)) := by
  simp [Work.modLane]
@[simp] theorem slot_modLane (f : Lane → Lane) : (w.modLane n f).slot k = w.slot k := rfl
@[simp] theorem ctx_modLane (f : Lane → Lane) : (w.modLane n f).ctx d = w.ctx d := rfl
@[simp] theorem buf_modLane (f : Lane → Lane) : (w.modLane n f).buf e = w.buf e := rfl
@[simp] theorem ownerOf_modLane (f : Lane → Lane) : (w.modLane n f).ownerOf m = w.ownerOf m := rfl
@[simp] theorem queue_modLane (f : Lane → Lane) : (w.modLane n f).queue = w.queue := rfl
@[simp] theorem reserved_modLane (f : Lane → Lane) : (w.modLane n f).reserved = w.reserved := rfl
@[simp] theorem grantList_modLane (f : Lane → Lane) : (w.modLane n f).grantList = w.grantList := rfl
@[simp] theorem lane_modSlot (f : JobSlot → JobSlot) : (w.modSlot i f).lane m = w.lane m := rfl
@[simp] theorem slot_modSlot (f : JobSlot → JobSlot) :
    (w.modSlot i f).slot k = if k = i then (w.slot i).map f else w.slot k := by
  simp [Work.modSlot]
@[simp] theorem lane_modCtx (f : ImageCtx → ImageCtx) : (w.modCtx c f).lane m = w.lane m := rfl
@[simp] theorem slot_modCtx (f : ImageCtx → ImageCtx) : (w.modCtx c f).slot k = w.slot k := rfl
@[simp] theorem ctx_modCtx (f : ImageCtx → ImageCtx) :
    (w.modCtx c f).ctx d = if d = c then f (w.ctx c) else w.ctx d := by
  simp [Work.modCtx]
@[simp] theorem modCtx_modCtx (f g : ImageCtx → ImageCtx) :
    (w.modCtx c f).modCtx c g = w.modCtx c (fun x => g (f x)) := by
  have h : (w.setCtx c (f (w.ctx c))).ctx c = f (w.ctx c) := by simp
  unfold Work.modCtx
  rw [h]
  simp [Work.setCtx]
@[simp] theorem buf_modCtx (f : ImageCtx → ImageCtx) : (w.modCtx c f).buf e = w.buf e := rfl
@[simp] theorem ctx_modBuf (f : PageBuf → PageBuf) : (w.modBuf b f).ctx d = w.ctx d := rfl
@[simp] theorem lane_modBuf (f : PageBuf → PageBuf) : (w.modBuf b f).lane m = w.lane m := rfl
@[simp] theorem slot_modBuf (f : PageBuf → PageBuf) : (w.modBuf b f).slot k = w.slot k := rfl
@[simp] theorem buf_modBuf (f : PageBuf → PageBuf) :
    (w.modBuf b f).buf e = if e = b then f (w.buf b) else w.buf e := by
  simp [Work.modBuf]

/-! ## The whole part -/

variable (s : State)

@[simp] theorem refreshIrq_part : s.refreshIrq.part = s.part := rfl
@[simp] theorem refreshIrq_regs : s.refreshIrq.regs = s.regs := rfl
@[simp] theorem refreshIrq_rings : s.refreshIrq.rings = s.rings := rfl
@[simp] theorem refreshIrq_intake : s.refreshIrq.intake = s.intake := rfl
@[simp] theorem refreshIrq_posting : s.refreshIrq.posting = s.posting := rfl
@[simp] theorem refreshIrq_port : s.refreshIrq.port = s.port := rfl
@[simp] theorem refreshIrq_portLast : s.refreshIrq.portLast = s.portLast := rfl
@[simp] theorem refreshIrq_clock : s.refreshIrq.clock = s.clock := rfl
@[simp] theorem refreshIrq_work : s.refreshIrq.work = s.work := rfl
@[simp] theorem refreshIrq_pending : s.refreshIrq.pending = s.pending := rfl
@[simp] theorem refreshIrq_irqCondition : s.refreshIrq.irqCondition = s.irqCondition := rfl
@[simp] theorem refreshIrq_irqHigh : s.refreshIrq.irqHigh = !s.irqCondition := rfl

variable (f : Env → Work → Work)

@[simp] theorem onWork_part : (s.onWork f).part = s.part := rfl
@[simp] theorem onWork_regs : (s.onWork f).regs = s.regs := rfl
@[simp] theorem onWork_rings : (s.onWork f).rings = s.rings := rfl
@[simp] theorem onWork_intake : (s.onWork f).intake = s.intake := rfl
@[simp] theorem onWork_posting : (s.onWork f).posting = s.posting := rfl
@[simp] theorem onWork_port : (s.onWork f).port = s.port := rfl
@[simp] theorem onWork_portLast : (s.onWork f).portLast = s.portLast := rfl
@[simp] theorem onWork_clock : (s.onWork f).clock = s.clock := rfl
@[simp] theorem onWork_irqHigh : (s.onWork f).irqHigh = s.irqHigh := rfl
@[simp] theorem onWork_pending : (s.onWork f).pending = s.pending := rfl
@[simp] theorem onWork_work : (s.onWork f).work = f s.env s.work := rfl

@[simp] theorem laneEvent_part : (s.laneEvent n f).part = s.part := rfl
@[simp] theorem laneEvent_regs : (s.laneEvent n f).regs = s.regs := rfl
@[simp] theorem laneEvent_rings : (s.laneEvent n f).rings = s.rings := rfl
@[simp] theorem laneEvent_intake : (s.laneEvent n f).intake = s.intake := rfl
@[simp] theorem laneEvent_posting : (s.laneEvent n f).posting = s.posting := rfl
@[simp] theorem laneEvent_port : (s.laneEvent n f).port = s.port := rfl
@[simp] theorem laneEvent_portLast : (s.laneEvent n f).portLast = s.portLast := rfl
@[simp] theorem laneEvent_clock : (s.laneEvent n f).clock = s.clock := rfl
@[simp] theorem laneEvent_irqHigh : (s.laneEvent n f).irqHigh = s.irqHigh := rfl
@[simp] theorem laneEvent_pending : (s.laneEvent n f).pending = s.pending := rfl
@[simp] theorem laneEvent_work : (s.laneEvent n f).work = (f s.env s.work).drainCheck s.env n := rfl

end Sys2Proof.Laws
end

