-- ==== Sys2Proof/Laws/Reach.lean ====
section
/-! SUPPORT. Everything that an event inside `Work` can do, said once: `Reach w w'` holds when `w'` comes from `w` by moves of
a lane that keep its settings, its owning slot and its soundness, by the settings of a LANE-SET, by moves of a job in
progress that keep what is fixed at placement and every result that is final, by lanes leaving their jobs, and by moves
of the Image Reader and the Page Pool that keep their limits. Every shared operation is such a path, so an invariant
that each move keeps is kept by every event. A grant scan is a `Path True _`, which may also hand jobs their lanes; an
event of a draining part is a `Path _ True`, in which a lane may report that it has drained. -/

namespace Sys2Proof.Laws

-- One theorem at a time: a thread for each would ask for more stack than the check allows.
set_option Elab.async false

open Sys2Proof.Machine

/-- A lane keeps its settings, its soundness if it has it, its owning slot, and whether it has drained. -/
def LaneMove (l l' : Lane) : Prop :=
  l'.settings = l.settings ∧ (l.Sound → l'.Sound) ∧ l'.ctx.slot = l.ctx.slot ∧ l'.eng.drained = l.eng.drained

/-- A lane of a draining part may report that it has drained, with no owning slot (R42). -/
def DrainMove (l l' : Lane) : Prop :=
  l'.settings = l.settings ∧ (l.Sound → l'.Sound)
    ∧ ((l'.ctx.slot = l.ctx.slot ∧ l'.eng.drained = l.eng.drained) ∨ (l'.ctx.slot = none ∧ l'.eng.drained = true))

/-- A slot keeps the fields fixed at placement, its cancel link and its context. -/
def SlotSame (j j' : JobSlot) : Prop :=
  j'.tag = j.tag ∧ j'.mask = j.mask ∧ j'.adm = j.adm ∧ j'.reportAddr = j.reportAddr ∧ j'.args = j.args
    ∧ j'.cancelLink = j.cancelLink ∧ j'.ctx = j.ctx

/-- A lane that is not live stays so and keeps its result, last step and outcome copy. -/
def ResultsKept (j j' : JobSlot) : Prop :=
  ∀ n, hasLane j.live n = false → hasLane j'.live n = false ∧ j'.results.get n = j.results.get n
    ∧ j'.lastSteps.get n = j.lastSteps.get n ∧ j'.copies.get n = j.copies.get n

/-- A slot moves on within its job. -/
def SlotMove (j j' : JobSlot) : Prop :=
  SlotSame j j' ∧ ResultsKept j j' ∧ (j'.state = j.state ∨ j'.state = .ending)

/-- A lane or an Image Context names the slot: its job is not WAITING. -/
def InUse (w : Work) (i : SlotId) : Prop := (∃ n, (w.lane n).ctx.slot = some i) ∨ ∃ c, (w.ctx c).slot = some i

/-- Contexts and buffers change, within their limits; a context keeps its job and stays FREE or held. -/
structure PoolMove (w v : Work) : Prop where
  same : v = { w with ctxs := v.ctxs, pool := v.pool }
  slot : ∀ c, (v.ctx c).slot = (w.ctx c).slot
  free : ∀ c, (v.ctx c).state = .free ↔ (w.ctx c).state = .free
  sound : w.PoolSound → v.PoolSound

/-- What events inside `Work` can do; with `g`, grants too; with `d`, in a draining part. -/
inductive Path (g d : Prop) (w : Work) : Work → Prop
  | refl : Path g d w w
  | lane {w' : Work} (n : LaneId) (l : Lane) : Path g d w w' → LaneMove (w'.lane n) l → Path g d w (w'.setLane n l)
  | drain {w' : Work} (n : LaneId) (l : Lane) : d → Path g d w w' → DrainMove (w'.lane n) l →
      Path g d w (w'.setLane n l)
  | settings {w' : Work} (n : LaneId) (i : SlotId) (j : JobSlot) (v : Settings) : Path g d w w' → w'.slot i = some j →
      j.args = .laneSet v → Path g d w (w'.setLane n { w'.lane n with settings := v })
  | slot {w' : Work} (i : SlotId) (j j' : JobSlot) : Path g d w w' → w'.slot i = some j → InUse w' i → SlotMove j j' →
      Path g d w (w'.setSlot i (some j'))
  | leave {w' : Work} (env : Env) (n : LaneId) : Path g d w w' → Path g d w (w'.leave env n)
  | pool {w' : Work} (v : Work) : Path g d w w' → PoolMove w' v → Path g d w v
  | served {w' : Work} (c : CtxId) : Path g d w w' → Path g d w { w' with imgLast := c }
  | handOver {w' : Work} (i : SlotId) (j : JobSlot) : g → Path g d w w' → w'.slot i = some j →
      Path g d w (w'.handOver i j)

/-- What an event inside `Work` can do that is no grant scan, in a part that does not drain. -/
abbrev Reach : Work → Work → Prop := Path False False

theorem Path.trans {g d : Prop} {a b c : Work} (h : Path g d a b) (k : Path g d b c) : Path g d a c := by
  induction k with
  | refl => exact h
  | lane n l _ m ih => exact .lane n l ih m
  | drain n l x _ m ih => exact .drain n l x ih m
  | settings n i j v _ e f ih => exact .settings n i j v ih e f
  | slot i j j' _ e u m ih => exact .slot i j j' ih e u m
  | leave env n _ ih => exact .leave env n ih
  | pool v _ m ih => exact .pool v ih m
  | served c _ ih => exact .served c ih
  | handOver i j x _ e ih => exact .handOver i j x ih e

/-- A path stays one where more is allowed. -/
theorem Path.mono {g d g' d' : Prop} {a b : Work} (hg : g → g') (hd : d → d') (h : Path g d a b) : Path g' d' a b := by
  induction h with
  | refl => exact .refl
  | lane n l _ m ih => exact .lane n l ih m
  | drain n l x _ m ih => exact .drain n l (hd x) ih m
  | settings n i j v _ e f ih => exact .settings n i j v ih e f
  | slot i j j' _ e u m ih => exact .slot i j j' ih e u m
  | leave env n _ ih => exact .leave env n ih
  | pool v _ m ih => exact .pool v ih m
  | served c _ ih => exact .served c ih
  | handOver i j x _ e ih => exact .handOver i j (hg x) ih e

theorem Path.of_reach {g d : Prop} {a b : Work} (h : Reach a b) : Path g d a b := h.mono False.elim False.elim

/-! ## Moves of a lane -/

theorem LaneMove.rfl' {l : Lane} : LaneMove l l := ⟨rfl, id, rfl, rfl⟩

theorem LaneMove.trans {a b c : Lane} (h : LaneMove a b) (g : LaneMove b c) : LaneMove a c :=
  ⟨g.1.trans h.1, fun x => g.2.1 (h.2.1 x), g.2.2.1.trans h.2.2.1, g.2.2.2.trans h.2.2.2⟩

/-- What a lane keeps whose settings, supply, link state, lines TPWR and TDAT, slot and drained flag stay. -/
theorem LaneMove.of_same {l l' : Lane} (a : l'.settings = l.settings := by rfl) (b : l'.supply = l.supply := by rfl)
    (c : l'.link.state = l.link.state := by rfl) (d : l'.lines.tdatDriven = l.lines.tdatDriven := by rfl)
    (e : l'.lines.tpwrOn = l.lines.tpwrOn := by rfl) (f : l'.ctx.slot = l.ctx.slot := by rfl)
    (g : l'.eng.drained = l.eng.drained := by rfl) :
    LaneMove l l' := by
  refine ⟨a, fun h => ?_, f, g⟩
  unfold Lane.Sound at *
  rw [b, c, d, e]; exact h

theorem move_toHold (l : Lane) : LaneMove l l.toHold := .of_same
theorem move_driveTrstLow (l : Lane) : LaneMove l l.driveTrstLow := .of_same
theorem move_endSession (l : Lane) : LaneMove l l.endSession := .of_same
theorem move_enterFault (r : LaneResult) (l : Lane) : LaneMove l (l.enterFault r) := .of_same
theorem move_supplyOff (l : Lane) : LaneMove l l.supplyOff := by
  refine ⟨rfl, fun h => ?_, rfl, rfl⟩
  simp [Lane.Sound, Lane.supplyOff, Lane.endSession] at *
  exact h.1
theorem move_toOff (l : Lane) : LaneMove l l.toOff :=
  (move_toHold l).trans ((move_supplyOff _).trans (.of_same))
theorem move_clearFault (l : Lane) : LaneMove l l.clearFault := by
  unfold Lane.clearFault
  split
  · exact .of_same
  · exact move_toOff l
theorem move_powerUp (env : Env) (l : Lane) : LaneMove l (l.powerUp env) := by
  refine ⟨rfl, fun h => ?_, rfl, rfl⟩
  simp [Lane.Sound, Lane.powerUp] at *
  exact h.1
theorem move_startEntry (b : Bool) (l : Lane) : LaneMove l (l.startEntry b) := .of_same
theorem move_selectPhase (env : Env) (l : Lane) : LaneMove l (l.selectPhase env) := .of_same
theorem move_presencePhase (env : Env) (l : Lane) : LaneMove l (l.presencePhase env) := .of_same
theorem move_entryReset (env : Env) (l : Lane) : LaneMove l (l.entryReset env) := .of_same
theorem move_startPulse (env : Env) (l : Lane) : LaneMove l (l.startPulse env) := .of_same
theorem move_releasePulse (l : Lane) : LaneMove l l.releasePulse := .of_same
theorem move_closeExchange (a : Bool) (l : Lane) : LaneMove l (l.closeExchange a) := by
  refine ⟨rfl, fun h => ?_, rfl, rfl⟩
  simp [Lane.Sound, Lane.closeExchange, LinkUnit.idle] at *
  exact h.2
theorem move_abandon (l : Lane) : LaneMove l l.abandon := by
  unfold Lane.abandon
  split
  · exact .rfl'
  · exact move_closeExchange _ l
theorem move_cut (l : Lane) : LaneMove l l.cut :=
  (move_abandon l).trans ((move_enterFault _ _).trans (move_supplyOff _))
theorem move_markStop (c : StopCause) (l : Lane) : LaneMove l (l.markStop c) := by
  unfold Lane.markStop
  split
  · exact .of_same
  · exact .rfl'
theorem move_rest (l : Lane) : LaneMove l l.rest := by
  unfold Lane.rest
  split
  · exact (move_toHold l).trans .of_same
  · exact (move_toHold l).trans .of_same
  · exact (move_toHold l).trans .of_same
  · exact (move_toHold l).trans .of_same
  · exact (move_toHold l).trans .of_same
  all_goals exact .rfl'
theorem move_tryDrain (l : Lane) : DrainMove l l.tryDrain := by
  unfold Lane.tryDrain
  split
  · refine ⟨rfl, fun h => ?_, .inr ⟨rfl, rfl⟩⟩
    unfold Lane.Sound at *; exact h
  · exact ⟨rfl, id, .inl ⟨rfl, rfl⟩⟩
theorem move_drainExchange (l : Lane) : LaneMove l l.drainExchange := (move_abandon l).trans (move_rest _)
theorem move_beginRequest (p : List Byte) (r : Request) (l : Lane) : LaneMove l (l.beginRequest p r) := by
  refine ⟨rfl, fun h => ?_, rfl, rfl⟩
  simp [Lane.Sound, Lane.beginRequest] at *
  exact h.2
theorem move_await (env : Env) (l : Lane) : LaneMove l (l.await env) := by
  refine ⟨rfl, fun h => ?_, rfl, rfl⟩
  simp [Lane.Sound, Lane.await] at *
  exact h.2
theorem move_resend (l : Lane) : LaneMove l l.resend := by
  refine ⟨rfl, fun h => ?_, rfl, rfl⟩
  simp [Lane.Sound, Lane.resend] at *
  exact h.2
theorem move_afterExchange (o : ExchangeOutcome) (l : Lane) : LaneMove l (l.afterExchange o).unanswered := by
  refine LaneMove.trans (move_closeExchange o.answered l) ?_
  have h : LaneMove (l.closeExchange o.answered) (l.afterExchange o) := by
    unfold Lane.afterExchange
    split
    · exact .of_same
    · exact .rfl'
  refine h.trans ?_
  unfold Lane.unanswered
  split
  · exact .of_same
  · exact .rfl'

theorem move_exchangeOver (p : Purpose) (o : ExchangeOutcome) (l : Lane) : LaneMove l (l.exchangeOver p o) := by
  unfold Lane.exchangeOver
  dsimp only
  split
  · exact (move_afterExchange o l).trans (move_endSession _)
  · exact move_afterExchange o l

/-! ## Paths of moves -/

variable {w : Work}

theorem reach_modLane (n : LaneId) (f : Lane → Lane) (h : LaneMove (w.lane n) (f (w.lane n))) :
    Reach w (w.modLane n f) := .lane n _ .refl h

/-- A lane move that leaves what `LaneMove.of_same` names. -/
theorem reach_same (n : LaneId) (f : Lane → Lane) (a : (f (w.lane n)).settings = (w.lane n).settings := by rfl)
    (b : (f (w.lane n)).supply = (w.lane n).supply := by rfl)
    (c : (f (w.lane n)).link.state = (w.lane n).link.state := by rfl)
    (d : (f (w.lane n)).lines.tdatDriven = (w.lane n).lines.tdatDriven := by rfl)
    (e : (f (w.lane n)).lines.tpwrOn = (w.lane n).lines.tpwrOn := by rfl)
    (h : (f (w.lane n)).ctx.slot = (w.lane n).ctx.slot := by rfl)
    (g : (f (w.lane n)).eng.drained = (w.lane n).eng.drained := by rfl) : Reach w (w.modLane n f) :=
  reach_modLane n f (.of_same a b c d e h g)

theorem setSlot_slot_none {i : SlotId} (h : w.slot i = none) : w.setSlot i none = w := by
  unfold Work.setSlot Work.slot at *
  rw [← h, vset_self]

theorem reach_modSlot (i : SlotId) (f : JobSlot → JobSlot) (u : InUse w i) (h : ∀ j, SlotMove j (f j)) :
    Reach w (w.modSlot i f) := by
  unfold Work.modSlot
  cases e : w.slot i with
  | none => simp only [Option.map_none]; rw [setSlot_slot_none e]; exact .refl
  | some j => exact .slot i j _ .refl e u (h j)

theorem reach_forLanes {f : Work → LaneId → Work} (h : ∀ w n, Reach w (f w n)) (ns : List LaneId) (w : Work) :
    Reach w (w.forLanes ns f) := by
  unfold Work.forLanes
  induction ns generalizing w with
  | nil => exact .refl
  | cons n ns ih => exact (h w n).trans (ih _)

theorem reach_foldl {α : Type} {f : Work → α → Work} (h : ∀ w a, Reach w (f w a)) (as : List α) (w : Work) :
    Reach w (as.foldl f w) := by
  induction as generalizing w with
  | nil => exact .refl
  | cons a as ih => exact (h w a).trans (ih _)

/-! ## Page Pool and passes -/

/-- A context changes within its limits, its job, its state being FREE and its fetch kept or dropped. -/
theorem pool_ctx (c : CtxId) (x : ImageCtx) (hs : x.slot = (w.ctx c).slot)
    (hf : x.state = .free ↔ (w.ctx c).state = .free) (hl : (w.ctx c).Limits → x.Limits)
    (hx : x.fetch = none ∨ x.fetch = (w.ctx c).fetch) : PoolMove w (w.setCtx c x) where
  same := rfl
  slot d := by rw [ctx_setCtx]; split <;> [(rename_i h; subst h; exact hs); rfl]
  free d := by rw [ctx_setCtx]; split <;> [(rename_i h; subst h; exact hf); rfl]
  sound h :=
    { contexts := fun d => by rw [ctx_setCtx]; split <;> [exact hl (h.contexts c); exact h.contexts d]
      buffers := h.buffers
      fetches := fun d f e => by
        rw [ctx_setCtx] at e
        split at e
        · rename_i hd; subst hd
          rcases hx with q | q
          · rw [q] at e; cases e
          · rw [q] at e; exact h.fetches d f e
        · exact h.fetches d f e }

theorem pool_modCtx (c : CtxId) (f : ImageCtx → ImageCtx) (hs : (f (w.ctx c)).slot = (w.ctx c).slot)
    (hf : (f (w.ctx c)).state = .free ↔ (w.ctx c).state = .free) (hl : (w.ctx c).Limits → (f (w.ctx c)).Limits)
    (hx : (f (w.ctx c)).fetch = none ∨ (f (w.ctx c)).fetch = (w.ctx c).fetch) : Reach w (w.modCtx c f) :=
  .pool _ .refl (pool_ctx c _ hs hf hl hx)

/-- A buffer changes within its limits and keeps its owner. -/
theorem pool_modBuf (b : BufId) (f : PageBuf → PageBuf) (ho : (f (w.buf b)).owner = (w.buf b).owner)
    (hl : (w.buf b).Limits b → (f (w.buf b)).Limits b) : PoolMove w (w.modBuf b f) where
  same := rfl
  slot _ := rfl
  free _ := .rfl
  sound h :=
    { contexts := h.contexts
      buffers := fun d => by rw [buf_modBuf]; split <;> [(rename_i e; subst e; exact hl (h.buffers d)); exact h.buffers d]
      fetches := fun d g e => by
        rw [buf_modBuf]
        split
        · rename_i k; rw [ho, ← k]; exact h.fetches d g e
        · exact h.fetches d g e }

theorem limits_free (b : BufId) : PageBuf.free.Limits b :=
  ⟨⟨fun _ => rfl, fun _ => rfl⟩, fun _ => rfl, fun h => absurd rfl h, fun c h => by cases h⟩

theorem reach_freeBuf (w : Work) (b : BufId) : Reach w (w.freeBuf b) := by
  have keep : ∀ (o : Option Fetch) (g : Fetch), (if o.map Fetch.buf = some b then none else o) = some g →
      o = some g ∧ g.buf ≠ b := by
    intro o g e
    split at e
    · cases e
    · rename_i hne
      subst e
      exact ⟨rfl, fun q => hne (by simp [q])⟩
  refine .pool _ .refl ?_
  unfold Work.freeBuf
  dsimp only
  cases ho : (w.buf b).owner with
  | none =>
    refine ⟨rfl, fun _ => rfl, fun _ => .rfl, fun h => ⟨h.contexts, fun d => ?_, fun d g e => ?_⟩⟩
    · rw [buf_setBuf]; split <;> [exact limits_free d; exact h.buffers d]
    · rw [buf_setBuf]
      have := h.fetches d g e
      split
      · rename_i k; rw [k, ho] at this; cases this
      · exact this
  | some c =>
    refine ⟨rfl, fun d => ?_, fun d => ?_, fun h => ⟨fun d => ?_, fun d => ?_, fun d g e => ?_⟩⟩
    · dsimp only; rw [ctx_modCtx]; split <;> [(rename_i k; subst k; rfl); rfl]
    · dsimp only; rw [ctx_modCtx]; split <;> [(rename_i k; subst k; rfl); rfl]
    · dsimp only; rw [ctx_modCtx]
      split
      · obtain ⟨h1, h2, h3⟩ := h.contexts c
        refine ⟨?_, h2, h3⟩
        dsimp only
        split
        · exact (Nat.sub_le _ _).trans h1
        · exact h1
      · exact h.contexts d
    · dsimp only; rw [buf_modCtx, buf_setBuf]; split <;> [exact limits_free d; exact h.buffers d]
    · dsimp only at e ⊢
      rw [buf_modCtx, buf_setBuf]
      rw [ctx_modCtx] at e
      split at e
      · rename_i k; subst k
        obtain ⟨e1, e2⟩ := keep _ g e
        rw [if_neg e2]
        exact h.fetches _ g e1
      · rename_i k
        have := h.fetches d g e
        split
        · rename_i q; rw [q, ho] at this; cases this; exact absurd rfl k
        · exact this
theorem reach_releaseBuf (w : Work) (b : BufId) : Reach w (w.releaseBuf b) := by
  unfold Work.releaseBuf
  dsimp only
  split
  · exact reach_freeBuf w b
  · rename_i hc
    refine .pool _ .refl (pool_modBuf b (fun p => { p with count := p.count - 1 }) rfl (fun h => ?_))
    obtain ⟨h1, h2, h3, h4⟩ := h
    refine ⟨h1, fun e => ?_, fun e => ?_, h4⟩
    · have := h2 e; show (w.buf b).count - 1 = 0; omega
    · have := h3 e; show 1 ≤ (w.buf b).count - 1 ∧ (w.buf b).count - 1 ≤ 8; omega
theorem reach_freeFloors (w : Work) (c : CtxId) : Reach w (w.freeFloors c) :=
  (reach_freeBuf w _).trans (reach_freeBuf _ _)
theorem slotSame_rfl (j : JobSlot) : SlotSame j j := ⟨rfl, rfl, rfl, rfl, rfl, rfl, rfl⟩

/-- A slot move that leaves the live lanes, the results, the last steps and the copies as they are. -/
theorem SlotMove.of_same {j j' : JobSlot} (h : SlotSame j j') (a : j'.live = j.live) (b : j'.results = j.results)
    (c : j'.lastSteps = j.lastSteps) (d : j'.copies = j.copies) (e : j'.state = j.state ∨ j'.state = .ending) :
    SlotMove j j' :=
  ⟨h, fun n hn => by rw [a, b, c, d]; exact ⟨hn, rfl, rfl, rfl⟩, e⟩

theorem slotMove_rfl (j : JobSlot) : SlotMove j j := .of_same (slotSame_rfl j) rfl rfl rfl rfl (.inl rfl)
theorem reach_setStep (w : Work) (n : LaneId) (st : Step) : Reach w (w.setStep n st) := by
  unfold Work.setStep
  have h : Reach w (w.modLane n (fun l => { l with ctx := { l.ctx with step := st, stepPos := none } })) :=
    reach_same n _
  dsimp only
  split
  · exact h
  · rename_i i hi
    refine h.trans (reach_modSlot _ _ (.inl ⟨n, hi⟩) (fun j => ?_))
    split
    · rename_i hl
      refine ⟨⟨rfl, rfl, rfl, rfl, rfl, rfl, rfl⟩, fun m hm => ⟨hm, rfl, ?_, rfl⟩, .inl rfl⟩
      rw [vset_get, if_neg]
      rintro rfl
      rw [hl] at hm; cases hm
    · exact slotMove_rfl j

/-- A pass that has live lanes to begin with, on a context that is not FREE. -/
theorem reach_beginPass (w : Work) (c : CtxId) (p : Pass) (hf : (w.ctx c).state ≠ .free) (hl : w.ctxLive c ≠ 0) :
    Reach w (w.beginPass c p) := by
  unfold Work.beginPass
  refine Path.trans ?_ (reach_forLanes (fun _ n => reach_same n _) _ _)
  refine pool_modCtx c _ rfl ?_ (fun h => ?_) (.inr rfl)
  · cases p <;> simp [hf]
  · refine ⟨h.1, fun _ => hl, fun e => ?_⟩
    cases p <;> simp at e

theorem reach_passesOver (w : Work) (c : CtxId) (hf : (w.ctx c).state ≠ .free) :
    Reach w (w.modCtx c ImageCtx.passesOver) := by
  refine pool_modCtx c _ rfl ?_ (fun h => ⟨h.1, fun e => ?_, fun _ => ⟨rfl, rfl, rfl⟩⟩) (.inr rfl)
  · simp [ImageCtx.passesOver, hf]
  · simp [ImageCtx.passesOver] at e

theorem ctxLive_modCtx {c : CtxId} {f : ImageCtx → ImageCtx} (h : ∀ x, (f x).slot = x.slot) (d : CtxId) :
    (w.modCtx c f).ctxLive d = w.ctxLive d := by
  unfold Work.ctxLive
  rw [ctx_modCtx]
  by_cases e : d = c
  · subst e; rw [if_pos rfl, h]; rfl
  · rw [if_neg e]; rfl

/-- The pass that ends begins with what emptied its lane set, so that no limit is broken in between. -/
theorem reach_endPass (w : Work) (c : CtxId) (f : ImageCtx → ImageCtx) (hs : ∀ x, (f x).slot = x.slot)
    (ht : ∀ x, (f x).state = x.state) (hh : ∀ x, (f x).sharedHeld = x.sharedHeld) (hx : ∀ x, (f x).fetch = x.fetch)
    (hd : ∀ x, (f x).writeDue = x.writeDue ∧ (f x).checkDue = x.checkDue ∧ (f x).nextPage = x.nextPage) :
    Reach w ((w.modCtx c f).endPass c) := by
  have ends : (w.ctx c).state ≠ .free → Reach w ((w.modCtx c f).modCtx c ImageCtx.passesOver) := by
    intro hf
    rw [modCtx_modCtx]
    refine pool_modCtx c _ (hs _) ?_ (fun h => ⟨?_, fun e => ?_, fun _ => ⟨rfl, rfl, rfl⟩⟩) (.inr (hx _))
    · simp [ImageCtx.passesOver, hf]
    · show (f (w.ctx c)).sharedHeld ≤ 14
      rw [hh]; exact h.1
    · simp [ImageCtx.passesOver] at e
  have st : ((w.modCtx c f).ctx c).state = (w.ctx c).state := by rw [ctx_modCtx, if_pos rfl, ht]
  have keep : (w.ctx c).state ≠ .writePass → (w.ctx c).state ≠ .checkPass → Reach w (w.modCtx c f) := by
    intro a b
    refine pool_modCtx c f (hs _) (by rw [ht]) (fun h => ⟨by rw [hh]; exact h.1, fun e => ?_, fun e => ?_⟩) (.inr (hx _))
    · rw [ht] at e
      rcases e with e | e
      · exact absurd e a
      · exact absurd e b
    · obtain ⟨d1, d2, d3⟩ := hd (w.ctx c)
      rw [d1, d2, d3]
      exact h.2.2 (by rw [← e, ht])
  unfold Work.endPass
  rw [st]
  cases hst : (w.ctx c).state
  case writePass =>
    dsimp only
    split
    · rename_i g
      refine Path.trans ?_ (reach_forLanes (fun w n => reach_setStep w n _) _ _)
      have hl : w.ctxLive c ≠ 0 := by rw [← ctxLive_modCtx (w := w) hs c]; exact g.2
      unfold Work.beginPass
      dsimp only
      rw [modCtx_modCtx]
      refine Path.trans ?_ (reach_forLanes (fun _ n => reach_same n _) _ _)
      refine pool_modCtx c _ (hs _) ?_ (fun h => ⟨?_, fun _ => ?_, fun e => ?_⟩) (.inr (hx _))
      · simp [hst]
      · show (f (w.ctx c)).sharedHeld ≤ 14
        rw [hh]; exact h.1
      · show (w.modCtx c f).ctxLive c ≠ 0
        exact g.2
      · simp at e
    · exact ends (by rw [hst]; decide)
  case checkPass => exact ends (by rw [hst]; decide)
  all_goals exact keep (by rw [hst]; decide) (by rw [hst]; decide)
theorem reach_dropFromPass (w : Work) (c : CtxId) (n : LaneId) : Reach w (w.dropFromPass c n) := by
  unfold Work.dropFromPass
  split
  · dsimp only
    split
    · exact reach_endPass w c _ (fun _ => rfl) (fun _ => rfl) (fun _ => rfl) (fun _ => rfl) (fun _ => ⟨rfl, rfl, rfl⟩)
    · rename_i hne
      rw [ctx_modCtx, if_pos rfl] at hne
      exact pool_modCtx c _ rfl .rfl (fun h => ⟨h.1, fun _ => hne, h.2.2⟩) (.inr rfl)
  · exact .refl
theorem reach_passLeave (w : Work) (c : CtxId) (n : LaneId) : Reach w (w.passLeave c n) := by
  unfold Work.passLeave
  split
  · exact (reach_foldl (fun w b => reach_releaseBuf w b) _ _).trans (reach_dropFromPass _ c n)
  · exact .refl
theorem reach_consumePage (w : Work) (c : CtxId) (n : LaneId) : Reach w (w.consumePage c n) := by
  unfold Work.consumePage
  refine Path.trans ?_ (reach_same n _)
  split
  · exact reach_releaseBuf w _
  · exact .refl

/-- The number of lanes of a mask is at most 8, and 0 only for the empty mask. -/
theorem laneCount_range (m : LaneMask) (h : m ≠ 0) : 1 ≤ laneCount m ∧ laneCount m ≤ 8 := by
  revert h; revert m; decide

theorem floors_not_shared (c : CtxId) : isShared (floorA c) = false ∧ isShared (floorB c) = false := by
  revert c; decide

/-- The buffer that a context takes (R87): free, and one of its own floor buffers or a shared one within its limit. -/
theorem availableBuf_spec {c : CtxId} {b : BufId} (h : w.availableBuf c = some b) :
    (w.buf b).state = .free ∧ (b.val < 16 → b.val / 2 = c.val)
      ∧ (isShared b = true → (w.ctx c).sharedHeld < Config.sharedLimit) := by
  unfold Work.availableBuf at h
  split at h
  · rename_i g; cases h
    have := c.isLt
    exact ⟨by simpa [Work.bufFree] using g, fun _ => by simp [floorA], fun e => by rw [(floors_not_shared c).1] at e; cases e⟩
  split at h
  · rename_i g; cases h
    have := c.isLt
    exact ⟨by simpa [Work.bufFree] using g, fun _ => by simp [floorB]; omega, fun e => by rw [(floors_not_shared c).2] at e; cases e⟩
  split at h
  · rename_i g
    have := List.find?_some h
    simp only [Bool.and_eq_true] at this
    refine ⟨by simpa [Work.bufFree] using this.2, fun e => ?_, fun _ => g⟩
    have k : 16 ≤ b.val := of_decide_eq_true this.1
    omega
  · cases h

/-- A page fetch starts in a pass, with a buffer that is available (R88). -/
theorem reach_startFetch (w : Work) (c : CtxId) (b : BufId) (p : Nat) (hb : w.availableBuf c = some b)
    (hp : (w.ctx c).state = .writePass ∨ (w.ctx c).state = .checkPass) : Reach w (w.startFetch c b p) := by
  obtain ⟨a1, a2, a3⟩ := availableBuf_spec hb
  unfold Work.startFetch
  refine .pool _ .refl ⟨rfl, fun d => ?_, fun d => ?_, fun h => ?_⟩
  · dsimp only; rw [ctx_setCtx]; split <;> [(rename_i e; subst e; rfl); rfl]
  · dsimp only; rw [ctx_setCtx]; split <;> [(rename_i e; subst e; rfl); rfl]
  · have hc := h.contexts c
    have none_fetch : ∀ d g, (w.ctx d).fetch = some g → g.buf ≠ b := by
      intro d g e q
      have k := h.fetches d g e
      rw [q, (h.buffers b).1.mp a1] at k
      cases k
    refine ⟨fun d => ?_, fun d => ?_, fun d g e => ?_⟩
    · dsimp only; rw [ctx_setCtx]
      split
      · refine ⟨?_, hc.2.1, fun e => ?_⟩
        · dsimp only
          split
          · rename_i g; have := a3 g; simp [Config.sharedLimit] at this; omega
          · exact hc.1
        · dsimp only at e; rcases hp with q | q <;> rw [q] at e <;> cases e
      · exact h.contexts d
    · dsimp only; rw [buf_setCtx, buf_setBuf]
      split
      · rename_i e; subst e
        refine ⟨by simp, by simp, fun _ => laneCount_range _ (hc.2.1 hp), fun c' e => ?_⟩
        cases e; exact a2
      · exact h.buffers d
    · dsimp only at e ⊢
      rw [buf_setCtx, buf_setBuf]
      rw [ctx_setCtx] at e
      split at e
      · cases e; rename_i q; subst q; rw [if_pos rfl]
      · rw [if_neg (none_fetch d g e)]; exact h.fetches d g e

/-- The pages of a segment leave a context's pass, fetch and limits alone. -/
theorem takePage_same (x : ImageCtx) (p : Nat) (data : List Byte) :
    (x.takePage p data).slot = x.slot ∧ (x.takePage p data).state = x.state ∧ (x.takePage p data).fetch = x.fetch
      ∧ (x.takePage p data).sharedHeld = x.sharedHeld ∧ (x.takePage p data).passLanes = x.passLanes
      ∧ (x.takePage p data).writeDue = x.writeDue ∧ (x.takePage p data).checkDue = x.checkDue
      ∧ (x.takePage p data).nextPage = x.nextPage := by
  unfold ImageCtx.takePage
  generalize x.pieces p = qs
  induction qs generalizing x with
  | nil => simp
  | cons q qs ih =>
    rw [List.foldl_cons]
    obtain ⟨a, b, c, d, e, f, g, h⟩ := ih (x.takePiece data q)
    rw [a, b, c, d, e, f, g, h]
    unfold ImageCtx.takePiece
    dsimp only
    split <;> exact ⟨rfl, rfl, rfl, rfl, rfl, rfl, rfl, rfl⟩

/-- The buffer of a fetch in flight is HELD or FAILED, and the fetch is over. -/
theorem pool_fetchOver (w : Work) (c : CtxId) (f : Fetch) (st : BufState) (hst : st ≠ .free) (g : ImageCtx → ImageCtx)
    (hf : (w.ctx c).fetch = some f) (hs : (g (w.ctx c)).slot = (w.ctx c).slot)
    (ht : (g (w.ctx c)).state = .free ↔ (w.ctx c).state = .free) (hl : (w.ctx c).Limits → (g (w.ctx c)).Limits)
    (hx : (g (w.ctx c)).fetch = none) :
    Reach w ((w.modBuf f.buf (fun p => { p with state := st })).modCtx c g) := by
  refine .pool _ .refl ⟨rfl, fun d => ?_, fun d => ?_, fun h => ⟨fun d => ?_, fun d => ?_, fun d k e => ?_⟩⟩
  · rw [ctx_modCtx]; split <;> [(rename_i e; subst e; exact hs); rfl]
  · rw [ctx_modCtx]; split <;> [(rename_i e; subst e; exact ht); rfl]
  · rw [ctx_modCtx]; split <;> [exact hl (h.contexts c); exact h.contexts d]
  · rw [buf_modCtx, buf_modBuf]
    split
    · rename_i e; subst e
      have o := h.fetches c f hf
      obtain ⟨h1, h2, h3, h4⟩ := h.buffers f.buf
      have nf : (w.buf f.buf).state ≠ .free := fun q => by rw [h1.mp q] at o; cases o
      exact ⟨⟨fun q => absurd q hst, fun q => by rw [o] at q; cases q⟩, fun q => absurd q hst, fun _ => h3 nf, h4⟩
    · exact h.buffers d
  · rw [ctx_modCtx] at e
    rw [buf_modCtx, buf_modBuf]
    split at e
    · rw [show ((w.modBuf f.buf _).ctx c) = w.ctx c from rfl, hx] at e; cases e
    · split
      · rename_i q; show (w.buf f.buf).owner = _; rw [← q]; exact h.fetches d k e
      · exact h.fetches d k e
theorem reach_fetchDone (w : Work) (c : CtxId) (f : Fetch) (hf : (w.ctx c).fetch = some f) :
    Reach w (w.fetchDone c f) := by
  unfold Work.fetchDone
  refine pool_fetchOver w c f .held (by decide) _ hf ?_ ?_ (fun h => ?_) ?_
  all_goals
    generalize ((w.modBuf f.buf (fun p => { p with state := .held })).buf f.buf).data = data
    dsimp only
    split
  · exact (takePage_same _ _ _).1
  · rfl
  · rw [(takePage_same _ _ _).2.1]
  · rfl
  · obtain ⟨-, b, -, d, e, k, l, m⟩ := takePage_same { w.ctx c with fetch := none } f.page data
    unfold ImageCtx.Limits
    rw [b, d, e, k, l, m]; exact h
  · exact h
  · exact (takePage_same _ _ _).2.2.1
  · rfl

/-! ## Results and leaving -/

theorem hasLane_dropLane_of_false {k : LaneMask} {n m : LaneId} (h : hasLane k m = false) :
    hasLane (dropLane k n) m = false := by
  unfold hasLane dropLane at *
  rw [BitVec.getLsbD_and, h, Bool.false_and]

theorem reach_leave (w : Work) (env : Env) (n : LaneId) : Reach w (w.leave env n) := .leave env n .refl
theorem reach_record (w : Work) (n : LaneId) (r : LaneResult) (fa : Option Word) : Reach w (w.record n r fa) := by
  unfold Work.record
  split
  · exact .refl
  · rename_i i hi
    split
    · exact .refl
    · rename_i j h
      split
      · rename_i hl
        refine .slot _ j _ (.lane n _ .refl .of_same) h (.inl ⟨n, by simp [hi]⟩) ⟨slotSame_rfl j, fun m hm => ?_, ?_⟩
        · have e : m ≠ n := by
            rintro rfl
            rw [hl] at hm; cases hm
          refine ⟨hasLane_dropLane_of_false hm, ?_, ?_, ?_⟩ <;> rw [vset_get, if_neg e]
        · dsimp only
          split
          · exact .inr rfl
          · exact .inl rfl
      · exact .refl
theorem reach_holdBack (w : Work) (n : LaneId) (h : Held) : Reach w (w.holdBack n h) :=
  reach_same n _
theorem reach_request (w : Work) (n : LaneId) (r : Request) : Reach w (w.request n r) := by
  unfold Work.request
  split
  · exact reach_holdBack w n _
  · exact reach_modLane n _ (move_beginRequest _ r _)
theorem reach_transfer (w : Work) (n : LaneId) (x : Xfer) (h : Held) : Reach w (w.transfer n x h) := by
  unfold Work.transfer
  split
  · exact reach_holdBack w n _
  · exact reach_same n _
theorem reach_finishEnd (w : Work) (env : Env) (n : LaneId) (e : EndAction) : Reach w (w.finishEnd env n e) := by
  unfold Work.finishEnd
  split
  · exact reach_leave w env n
  · split
    · exact reach_leave w env n
    · exact (reach_modLane n _ (move_toHold _)).trans (reach_leave _ env n)
    · exact (reach_modLane n _ (move_toOff _)).trans (reach_leave _ env n)
    · exact reach_modLane n _ (move_startPulse env _)
theorem reach_startEnd (w : Work) (env : Env) (n : LaneId) (e : EndAction) : Reach w (w.startEnd env n e) := by
  unfold Work.startEnd
  extract_lets w1 l
  have h : Reach w w1 := by
    unfold w1
    split
    · exact reach_modLane n _ (move_toHold _)
    · exact .refl
  refine h.trans ?_
  split
  · exact reach_finishEnd _ env n _
  · split
    · exact reach_request _ n _
    · exact reach_finishEnd _ env n _
theorem reach_settle (w : Work) (env : Env) (n : LaneId) (r : LaneResult) : Reach w (w.settle env n r) := by
  unfold Work.settle
  split
  · exact .refl
  · rename_i j hj
    extract_lets w1
    have h : Reach w w1 := by
      unfold w1
      split
      · exact reach_freeFloors w _
      · exact reach_passLeave w _ n
      · exact .refl
    refine h.trans ?_
    split
    · exact (reach_modLane n _ (move_enterFault _ _)).trans (reach_leave _ env n)
    · exact (reach_modLane n _ (move_enterFault _ _)).trans (reach_leave _ env n)
    · exact (reach_modLane n _ (move_enterFault _ _)).trans (reach_leave _ env n)
    · exact reach_leave _ env n
    · exact reach_leave _ env n
    · exact reach_leave _ env n
    · exact reach_leave _ env n
    all_goals split
    all_goals first | exact reach_startEnd _ env n _ | exact reach_leave _ env n
theorem reach_finalize (w : Work) (env : Env) (n : LaneId) (r : LaneResult) (fa : Option Word) :
    Reach w (w.finalize env n r fa) := by
  unfold Work.finalize
  split
  · exact (reach_record w n r fa).trans (reach_settle _ env n r)
  · exact .refl
theorem reach_finalizeAll (w : Work) (env : Env) (ns : List LaneId) (r : LaneResult) :
    Reach w (w.finalizeAll env ns r) :=
  (reach_forLanes (fun w n => reach_record w n r none) _ w).trans
    (reach_forLanes (fun w n => reach_settle w env n r) _ _)
theorem reach_goOn {w : Work} {env : Env} {n : LaneId} {k : Work → Work} (h : ∀ w, Reach w (k w)) :
    Reach w (w.goOn env n k) := by
  unfold Work.goOn
  split
  · exact h w
  · split
    · exact reach_finalize w env n _ _
    · exact .refl
theorem reach_beginOrHold {w : Work} {n : LaneId} {st : Step} {k : Work → Work} (h : ∀ w, Reach w (k w)) :
    Reach w (w.beginOrHold n st k) := by
  unfold Work.beginOrHold
  split
  · exact reach_holdBack w n _
  · exact h w
theorem reach_setPos (w : Work) (n : LaneId) (p : Option Nat) : Reach w (w.setPos n p) :=
  reach_same n _
theorem reach_enterStep (w : Work) (n : LaneId) (st : Step) (p : Option Nat) : Reach w (w.enterStep n st p) :=
  (reach_setStep w n st).trans (reach_setPos _ n p)

end Sys2Proof.Laws
end

