-- ==== Sys2Proof/Laws/Steps.lean ====
section
/-! SUPPORT. The paths of the Lane Engine's steps, sessions and outcomes (`Reach`), one lemma for each operation. -/

namespace Sys2Proof.Laws

-- One theorem at a time: a thread for each would ask for more stack than the check allows.
set_option Elab.async false

open Sys2Proof.Machine

variable (w : Work) (env : Env) (n : LaneId) (c : CtxId) (s : StepSet) (level : Nat)

/-! ## The steps of a job -/

theorem reach_enterGuard : Reach w (w.enterGuard env n s level) := by
  unfold Work.enterGuard
  split
  · exact reach_goOn (fun w => reach_beginOrHold (fun w => (reach_enterStep w n _ _).trans (reach_request _ n _)))
  · exact reach_finalize w env n _ _
theorem reach_sumGo (pos : Nat) : Reach w (w.sumGo env n s level pos) := by
  unfold Work.sumGo
  extract_lets computed r w1
  have h : Reach w w1 := (reach_setPos w n _).trans (reach_same n _)
  refine h.trans ?_
  split
  · exact reach_goOn (fun w => reach_request w n _)
  · exact reach_enterGuard _ env n s level
theorem reach_enterSum : Reach w (w.enterSum env n s level) := by
  unfold Work.enterSum
  split
  · refine reach_goOn (fun w => ?_)
    dsimp only
    split
    · exact reach_beginOrHold (fun w => (reach_enterStep w n _ _).trans (reach_sumGo _ env n s level 0))
    · exact (reach_enterStep w n _ _).trans (reach_sumGo _ env n s level 0)
  · exact reach_enterGuard w env n s level
theorem reach_checkGo : Reach w (w.checkGo env n c) := by
  unfold Work.checkGo
  refine reach_goOn (fun w => ?_)
  split
  · exact reach_request w n _
  · exact .refl
theorem reach_enterCheck : Reach w (w.enterCheck env n s level) := by
  unfold Work.enterCheck
  split
  · exact reach_goOn (fun w => reach_beginOrHold (fun w =>
      (reach_enterStep w n _ _).trans (reach_checkGo _ env n _)))
  · exact reach_enterSum w env n s level
theorem reach_writeGo : Reach w (w.writeGo env n c) := by
  unfold Work.writeGo
  refine reach_goOn (fun w => ?_)
  split
  · exact reach_request w n _
  · exact .refl
theorem reach_enterWrite : Reach w (w.enterWrite env n s level) := by
  unfold Work.enterWrite
  split
  · exact reach_goOn (fun w => reach_beginOrHold (fun w =>
      (reach_enterStep w n _ _).trans (reach_writeGo _ env n _)))
  · exact reach_enterCheck w env n s level
theorem reach_clearGo (clearAll : Bool) (pos : Nat) : Reach w (w.clearGo env n s clearAll level pos) := by
  unfold Work.clearGo
  refine (reach_setPos w n (some pos)).trans (b := w.setPos n (some pos)) ?_
  dsimp only
  split
  · exact reach_goOn (fun w => reach_request w n _)
  · exact reach_enterWrite _ env n s level
theorem reach_enterClear (clearAll : Bool) : Reach w (w.enterClear env n s clearAll level) := by
  unfold Work.enterClear
  split
  · exact reach_goOn (fun w => reach_beginOrHold (fun w =>
      (reach_enterStep w n _ _).trans (reach_clearGo _ env n s level clearAll 0)))
  · exact reach_enterWrite w env n s level
theorem reach_rangeCheck (clearAll : Bool) : Reach w (w.rangeCheck env n s clearAll level) := by
  unfold Work.rangeCheck
  refine reach_goOn (fun w => ?_)
  dsimp only
  refine (reach_enterStep w n .rangeCheck none).trans ?_
  split
  · exact .refl
  · split
    · exact reach_finalize _ env n _ _
    · exact reach_enterClear _ env n s level clearAll
theorem reach_finishWrite : Reach w (w.finishWrite env n c s level) := by
  unfold Work.finishWrite
  split
  · exact reach_goOn (fun _ => .refl)
  · refine (reach_dropFromPass w c n).trans ?_
    dsimp only
    split
    · split
      · exact .refl
      · exact reach_enterStep _ n _ _
    · exact reach_enterSum _ env n s level
theorem reach_finishCheck : Reach w (w.finishCheck env n c s level) := by
  unfold Work.finishCheck
  split
  · exact reach_goOn (fun _ => .refl)
  · exact (reach_dropFromPass w c n).trans (reach_enterSum _ env n s level)
/-- A READOUT takes a free floor buffer of its context for its next page (R119). -/
theorem reach_takeFloor (w : Work) (c : CtxId) (b : BufId) (p : Nat) (hb : w.bufFree b = true)
    (hf : b.val / 2 = c.val) : Reach w (w.setBuf b
      { state := .filling, owner := some c, pass := .write, page := p, count := 1, data := [] }) := by
  refine .pool _ .refl ⟨rfl, fun _ => rfl, fun _ => .rfl, fun h => ⟨h.contexts, fun d => ?_, fun d g e => ?_⟩⟩
  · rw [buf_setBuf]
    split
    · rename_i q; subst q
      refine ⟨by simp, by simp, by simp, fun c' e => ?_⟩
      cases e; exact fun _ => hf
    · exact h.buffers d
  · rw [buf_setBuf, if_neg]
    · exact h.fetches d g e
    · intro q
      have k := h.fetches d g e
      rw [q, (h.buffers b).1.mp (by simpa [Work.bufFree] using hb)] at k
      cases k
theorem reach_readGo (start len : Nat) : Reach w (w.readGo n c start len) := by
  unfold Work.readGo
  extract_lets l floor
  split
  · rename_i p b _ hb
    split
    · split
      · exact reach_holdBack w n _
      · have hb' : w.bufFree b = true ∧ b.val / 2 = c.val := by
          unfold floor at hb
          split at hb
          · rename_i g; cases hb; exact ⟨g, by simp [floorA]⟩
          · split at hb
            · rename_i g; cases hb; exact ⟨g, by simp [floorB]; omega⟩
            · cases hb
        exact ((reach_takeFloor w c b p hb'.1 hb'.2).trans (reach_same n _)).trans (reach_request _ n _)
    · exact .refl
  · exact .refl
theorem reach_hostWriteGo (start len : Nat) (a : HostAddr) : Reach w (w.hostWriteGo n c start len a) := by
  unfold Work.hostWriteGo
  dsimp only
  split
  · split
    · exact reach_transfer w n _ _
    · exact .refl
  · exact .refl
theorem reach_enterRead (start len : Nat) : Reach w (w.enterRead env n c start len) := by
  unfold Work.enterRead
  exact reach_goOn (fun w => reach_beginOrHold (fun w =>
    ((reach_enterStep w n _ _).trans (reach_same n _)).trans
      (reach_readGo _ n c start len)))
theorem reach_readoutStart (start len : Nat) : Reach w (w.readoutStart env n start len) := by
  unfold Work.readoutStart
  refine reach_goOn (fun w => ?_)
  dsimp only
  refine (reach_enterStep w n .rangeCheck none).trans ?_
  split
  · split
    · exact reach_finalize _ env n _ _
    · split
      · exact reach_finalize _ env n _ _
      · exact reach_enterRead _ env n _ start len
  · exact .refl
theorem reach_describe : Reach w (w.describe env n) := by
  unfold Work.describe
  exact reach_goOn (fun w => (reach_enterStep w n _ _).trans (reach_finalize _ env n _ _))
theorem reach_exchangeGo (block : HostAddr) (es : List ExchangeEntry) : Reach w (w.exchangeGo env n block es) := by
  unfold Work.exchangeGo
  refine reach_goOn (fun w => ?_)
  dsimp only
  split
  · exact .refl
  · split
    · split
      · exact (reach_same n _).trans (reach_request _ n _)
      · exact reach_transfer w n _ _
    · exact reach_request w n _
    · exact reach_transfer w n _ _
theorem reach_exchangeStart (block : HostAddr) (es : List ExchangeEntry) :
    Reach w (w.exchangeStart env n block es) := by
  unfold Work.exchangeStart
  exact reach_goOn (fun w => reach_beginOrHold (fun w =>
    ((reach_enterStep w n _ _).trans (reach_same n _)).trans
      (reach_exchangeGo _ env n block es)))
theorem reach_firstStep : Reach w (w.firstStep env n) := by
  unfold Work.firstStep
  split
  · exact reach_rangeCheck w env n _ _ _
  · exact reach_readoutStart w env n _ _
  · exact reach_describe w env n
  · exact reach_exchangeStart w env n _ _
  · exact .refl
theorem reach_stepGo : Reach w (w.stepGo env n) := by
  unfold Work.stepGo
  dsimp only
  split
  · split
    · exact reach_writeGo w env n _
    · split
      · exact reach_checkGo w env n _
      · exact .refl
  · exact (reach_hostWriteGo w n _ _ _ _).trans (reach_readGo _ n _ _ _)
  · split
    · exact reach_exchangeGo w env n _ _
    · exact .refl
  · exact .refl
theorem reach_stepBegin (st : Step) : Reach w (w.stepBegin env n st) := by
  unfold Work.stepBegin
  split
  · split
    · exact reach_enterClear w env n _ _ _
    · exact reach_enterWrite w env n _ _
    · exact reach_enterCheck w env n _ _
    · exact reach_enterSum w env n _ _
    · exact reach_enterGuard w env n _ _
    · exact .refl
  · split
    · exact reach_enterRead w env n _ _ _
    · exact .refl
  · exact reach_exchangeStart w env n _ _
  · exact .refl

/-! ## Sessions -/

theorem reach_beginPowerUp : Reach w (w.beginPowerUp env n) :=
  (reach_setStep w n _).trans (reach_modLane n _ (move_powerUp env _))
theorem reach_beginEntry : Reach w (w.beginEntry env n) := by
  unfold Work.beginEntry
  split
  · exact (reach_modLane n _ (move_toHold _)).trans (reach_holdBack _ n _)
  · exact (reach_setStep w n _).trans (reach_modLane n _ ((move_startEntry _ _).trans (move_selectPhase env _)))
theorem reach_beginFallback (r : Request) : Reach w (w.beginFallback env n r) :=
  (reach_same n _).trans (reach_setStep _ n _)
theorem reach_sendOpen : Reach w (w.sendOpen n) := by
  unfold Work.sendOpen
  dsimp only
  split
  · exact reach_transfer w n _ _
  · exact reach_request w n _
theorem reach_startLinking : Reach w (w.startLinking n) :=
  ((reach_same n _).trans (reach_setStep _ n _)).trans (reach_sendOpen _ n)
theorem reach_resumeStep : Reach w (w.resumeStep env n) := by
  unfold Work.resumeStep
  split
  · exact .refl
  · refine reach_goOn (fun w => ?_)
    split
    · exact reach_holdBack w n _
    · exact ((reach_enterStep w n _ _).trans (reach_same n _)).trans
        (reach_request _ n _)
theorem reach_finishLink : Reach w (w.finishLink env n) := by
  unfold Work.finishLink
  extract_lets w1
  have h : Reach w w1 := reach_same n _
  refine h.trans ?_
  split
  · exact reach_resumeStep _ env n
  · exact reach_firstStep _ env n
theorem reach_afterQuery : Reach w (w.afterQuery env n) := by
  unfold Work.afterQuery
  dsimp only
  split
  · exact reach_goOn (fun w => reach_request w n _)
  · exact reach_finishLink w env n
theorem reach_actionDone {f : Lane → Lane} (h : ∀ l, LaneMove l (f l)) : Reach w (w.actionDone env n f) :=
  ((reach_setStep w n _).trans (reach_modLane n _ (h _))).trans (reach_finalize _ env n _ _)
theorem reach_actionStart (a : ActionCode) : Reach w (w.actionStart env n a) := by
  unfold Work.actionStart
  extract_lets w1
  have h : Reach w w1 := reach_setStep w n _
  refine h.trans ?_
  split
  · exact reach_beginPowerUp _ env n
  · exact reach_beginPowerUp _ env n
  · exact reach_beginPowerUp _ env n
  · exact reach_actionDone _ env n move_toOff
  · exact reach_actionDone _ env n move_toOff
  · exact reach_actionDone _ env n move_toOff
  · exact reach_actionDone _ env n move_toHold
  · exact reach_modLane n _ (move_startPulse env _)
  · exact reach_modLane n _ (move_startPulse env _)
  · exact reach_request _ n _
  · exact reach_request _ n _
  · exact reach_request _ n _
  · exact reach_actionDone _ env n move_clearFault
  · exact reach_actionDone _ env n (fun _ => .rfl')
theorem reach_actionAtHold (a : ActionCode) : Reach w (w.actionAtHold env n a) := by
  unfold Work.actionAtHold
  split
  · split
    · exact reach_finalize w env n _ _
    · refine (reach_setStep w n .action).trans ?_
      dsimp only
      split
      · exact reach_holdBack _ n _
      · exact reach_modLane n _ (move_startPulse env _)
  · exact reach_actionDone w env n (fun _ => .rfl')
theorem reach_actionCancelHeld (a : ActionCode) : Reach w (w.actionCancelHeld env n a) := by
  unfold Work.actionCancelHeld
  split
  · exact reach_actionDone w env n move_toOff
  · exact reach_actionDone w env n move_toHold
  · exact (reach_modLane n _ (move_toHold _)).trans (reach_finalize _ env n _ _)
theorem reach_sessionStart : Reach w (w.sessionStart env n) := by
  unfold Work.sessionStart
  split
  · exact reach_beginPowerUp w env n
  · exact reach_beginEntry w env n
  · exact reach_beginEntry w env n
  · split
    · exact reach_request w n _
    · exact reach_firstStep w env n
  all_goals exact .refl
theorem setStep_slot_args (w : Work) (n : LaneId) (st : Step) (i : SlotId) :
    ((w.setStep n st).slot i).map JobSlot.args = (w.slot i).map JobSlot.args := by
  unfold Work.setStep
  dsimp only
  split
  · rfl
  · rename_i k _
    rw [slot_modSlot]
    split
    · rename_i h
      subst h
      simp only [slot_modLane]
      cases w.slot i with
      | none => rfl
      | some j => simp only [Option.map_some]; split <;> rfl
    · rfl
theorem reach_startLane : Reach w (w.startLane env n) := by
  unfold Work.startLane
  split
  · split
    · rename_i v h
      unfold Work.applySettings
      refine Path.trans ?_ (reach_finalize _ env n _ _)
      simp only [Option.map_eq_some_iff] at h
      obtain ⟨j, hj, hv⟩ := h
      unfold Work.jobOf at hj
      rw [Option.bind_eq_some_iff] at hj
      obtain ⟨i, _, hi⟩ := hj
      have e := setStep_slot_args w n .settings i
      rw [hi, Option.map_some, Option.map_eq_some_iff] at e
      obtain ⟨j', hj', ha⟩ := e
      exact .settings n i j' v (reach_setStep w n _) hj' (ha.trans hv)
    · exact reach_actionStart w env n _
    · exact reach_sessionStart w env n
    · exact .refl
  · exact .refl
theorem reach_atHold : Reach w (w.atHold env n) := by
  unfold Work.atHold
  split
  · split
    · exact reach_actionAtHold w env n _
    · exact reach_goOn (fun w => reach_beginEntry w env n)
  · exact .refl
theorem reach_pulseDone : Reach w (w.pulseDone env n) := by
  unfold Work.pulseDone
  extract_lets w1
  have h : Reach w w1 := reach_modLane n _ (move_releasePulse _)
  refine h.trans ?_
  split
  · exact reach_finalize _ env n _ _
  · exact reach_leave _ env n
theorem reach_takeHeld : Reach w (w.takeHeld env n) := by
  unfold Work.takeHeld
  extract_lets h w1
  have e : Reach w w1 := reach_same n _
  refine e.trans ?_
  clear_value h
  split
  · exact .refl
  · exact reach_beginEntry _ env n
  · exact reach_modLane n _ (move_selectPhase env _)
  · exact reach_modLane n _ (move_presencePhase env _)
  · exact reach_pulseDone _ env n
  · exact reach_modLane n _ (move_startPulse env _)
  · exact reach_request _ n _
  · exact reach_sendOpen _ n
  · exact reach_stepGo _ env n
  · exact reach_stepBegin _ env n _
  · exact reach_resumeStep _ env n

/-! ## Outcomes -/

theorem reach_fail (r : LaneResult) (fa : Option Word) : Reach w (w.fail env n r fa) := by
  unfold Work.fail
  split
  · exact reach_finalize w env n r fa
  · extract_lets w1
    have h : Reach w w1 := reach_same n _
    refine h.trans ?_
    split
    · exact reach_modLane n _ (move_driveTrstLow _)
    · exact reach_modLane n _ (move_driveTrstLow _)
    · exact .refl
theorem reach_queryReply (r : Request) (p : List Byte) : Reach w (w.queryReply env n r p) := by
  unfold Work.queryReply
  dsimp only
  split
  · exact reach_fail w env n _ _
  · split
    · exact reach_fail w env n _ _
    · exact (reach_same n _).trans (reach_afterQuery _ env n)
theorem reach_writeReply : Reach w (w.writeReply env n c s level) := by
  unfold Work.writeReply
  extract_lets w1
  have h : Reach w w1 := reach_consumePage w c n
  refine h.trans ?_
  split
  · exact reach_finishWrite _ env n c s level
  · exact reach_writeGo _ env n c
theorem reach_checkReply (page : Nat) (p : List Byte) : Reach w (w.checkReply env n c s level page p) := by
  unfold Work.checkReply
  generalize w.compare n c p = diff
  refine (reach_consumePage w c n).trans ?_
  cases diff with
  | some off => exact reach_fail _ env n _ _
  | none =>
    dsimp only
    split
    · exact reach_finishCheck _ env n c s level
    · exact reach_checkGo _ env n c
theorem reach_sumReply (seg : Nat) (v : Word) (p : List Byte) : Reach w (w.sumReply env n s level seg v p) := by
  unfold Work.sumReply
  split
  · exact reach_sumGo w env n s level _
  · exact reach_fail w env n _ _
/-- A page that a READOUT has read is handed to the buffer that it fills (R119). -/
theorem reach_pageRead (b : BufId) (p : List Byte) :
    Reach w (w.modBuf b (fun q => if q.state = .filling then { q with state := .held, data := p } else q)) := by
  refine .pool _ .refl (pool_modBuf b _ ?_ (fun h => ?_))
  · split <;> rfl
  · split
    · rename_i g
      obtain ⟨h1, h2, h3, h4⟩ := h
      rw [g] at h1 h3
      exact ⟨⟨nofun, fun e => (nomatch h1.mpr e)⟩, nofun, fun _ => h3 nofun, h4⟩
    · exact h
theorem reach_replySuccess (r : Request) (p : List Byte) : Reach w (w.replySuccess env n r p) := by
  unfold Work.replySuccess
  split
  · exact reach_goOn (fun w => reach_request w n _)
  · exact reach_queryReply w env n r p
  · exact (reach_same n _).trans (reach_finishLink _ env n)
  · exact (reach_pageRead w _ p).trans (reach_goOn (fun w => reach_stepGo w env n))
  all_goals first
    | exact .refl
    | (split
       · split
         · exact reach_clearGo w env n _ _ _ _
         · exact reach_writeReply w env n _ _ _
         · exact reach_checkReply w env n _ _ _ _ _
         · exact reach_sumReply w env n _ _ _ _ _
         · exact (reach_same n _).trans (reach_finalize _ env n _ _)
         · exact .refl
       · exact .refl)
theorem reach_replyTaken (r : Request) (f : List Byte) (st : Byte) (p : List Byte) :
    Reach w (w.replyTaken env n r f st p) := by
  unfold Work.replyTaken
  split
  · exact (reach_same n _).trans (reach_goOn (fun w => reach_stepGo w env n))
  · split
    · unfold Work.refusedStatus
      split
      · exact reach_fail w env n _ _
      · exact reach_fail w env n _ _
    · extract_lets w1
      have h : Reach w w1 := by
        unfold w1
        split
        · exact reach_same n _
        · exact .refl
      refine h.trans ?_
      split
      · exact reach_fail _ env n _ _
      · exact reach_replySuccess _ env n r p
theorem reach_requestEnd (r : Request) (trial : Bool) (f : List Byte) (o : ExchangeOutcome) :
    Reach w (w.requestEnd env n r trial f o) := by
  cases o with
  | accepted st p => exact reach_replyTaken w env n r f st p
  | busyLimit => exact reach_fail w env n _ _
  | stopped => exact reach_goOn (fun _ => .refl)
  | exhausted =>
    simp only [Work.requestEnd]
    split
    · exact reach_goOn (fun w => reach_beginFallback w env n r)
    · exact reach_fail w env n _ _
theorem reach_closeEndDone (e : EndAction) (o : ExchangeOutcome) : Reach w (w.closeEndDone env n e o) := by
  unfold Work.closeEndDone
  split
  · exact reach_finishEnd w env n _
  · exact (reach_modLane n _ (move_enterFault _ _)).trans (reach_leave _ env n)
  · exact (reach_modLane n _ (move_enterFault _ _)).trans (reach_leave _ env n)
  · exact reach_finishEnd w env n _
theorem reach_closeActionDone (a : ActionCode) (o : ExchangeOutcome) : Reach w (w.closeActionDone env n a o) := by
  unfold Work.closeActionDone
  split
  · exact reach_actionDone w env n move_toOff
  · exact reach_finalize w env n _ _
  · exact reach_finalize w env n _ _
  · split
    · exact (reach_modLane n _ (move_toHold _)).trans (reach_finalize _ env n _ _)
    · exact reach_modLane n _ (move_startPulse env _)
  · exact reach_actionDone w env n move_toHold
theorem reach_restIfQuiet : Reach w (w.restIfQuiet n) := by
  unfold Work.restIfQuiet
  split
  · exact reach_modLane n _ (move_rest _)
  · exact .refl
theorem reach_exchangeEnd (o : ExchangeOutcome) : Reach w (w.exchangeEnd env n o) := by
  unfold Work.exchangeEnd
  split
  · exact .refl
  · rename_i r _
    dsimp only
    refine (reach_modLane n _ (move_exchangeOver r.purpose o _)).trans ?_
    split
    · exact reach_restIfQuiet _ n
    · split
      · exact (reach_modLane n _ (move_toHold _)).trans (reach_goOn (fun w => reach_beginEntry w env n))
      · exact reach_closeEndDone _ env n _ o
      · exact reach_closeActionDone _ env n _ o
      · exact reach_requestEnd _ env n _ _ _ o

/-- The lane as a Link Unit event leaves it. -/
def eventLane : LinkEvent → Lane
  | .goesOn l => l
  | .ends l _ => l

/-- What follows a Link Unit event whose lane is a move away. -/
theorem reach_linkStep {e : LinkEvent} (h : LaneMove (w.lane n) (eventLane e)) : Reach w (w.linkStep env n e) := by
  cases e with
  | goesOn l => exact .lane n l .refl h
  | ends l o => exact (Path.lane n l .refl h).trans (reach_exchangeEnd _ env n o)

end Sys2Proof.Laws
end

