-- ==== Sys2Proof/Laws/Events.lean ====
section
/-! SUPPORT. The paths (`Reach`) of the events that reach lanes from outside their own steps: link and supply events,
grants, the report on an image descriptor, a cancel, an image read error, a cut, a halt and the drain. -/

namespace Sys2Proof.Laws

-- One theorem at a time: a thread for each would ask for more stack than the check allows.
set_option Elab.async false

open Sys2Proof.Machine

/-! ## Link events (chapter 3) -/

theorem move_low (env : Env) (start : Nat) (l : Lane) : LaneMove l (l.low env start) := by
  unfold Lane.low
  split
  · exact .rfl'
  · split
    · exact .of_same
    · split
      · exact .of_same
      · exact .rfl'
    all_goals exact .rfl'
theorem move_discardedLowEnds (l : Lane) : LaneMove l l.discardedLowEnds := by
  unfold Lane.discardedLowEnds
  extract_lets u l1
  have h : LaneMove l l1 := .of_same
  refine h.trans ?_
  split
  · exact move_resend l1
  · exact .rfl'
theorem move_lowEnded (low : Nat) (l : Lane) : LaneMove l (l.lowEnded low) := by
  unfold Lane.lowEnded
  split
  · split
    · rename_i e
      split
      · exact .rfl'
      · refine ⟨rfl, fun h => ?_, rfl, rfl⟩
        simp [Lane.Sound, e] at *
        exact h
    · split
      · exact move_discardedLowEnds l
      · exact .rfl'
    all_goals exact .rfl'
  · exact .rfl'
theorem move_noise (env : Env) (l : Lane) : LaneMove l (l.noise env) := by
  unfold Lane.noise
  split
  · split
    · exact .of_same
    · split
      · exact move_discardedLowEnds l
      · exact .rfl'
    all_goals exact .rfl'
  · exact .rfl'
theorem move_holdRecognised (l : Lane) (c : l.canHold = true) : LaneMove l l.holdRecognised := by
  refine ⟨rfl, fun h => ?_, rfl, rfl⟩
  simp [Lane.canHold] at c
  rcases c.2 with c | ⟨c, -⟩ <;> simp [Lane.Sound, Lane.holdRecognised, c] at * <;> exact h
theorem move_frameSent (env : Env) (l : Lane) : LaneMove l (l.frameSent env) := (move_await env l).trans .of_same
theorem move_quietOver (l : Lane) : LaneMove l l.quietOver := by
  unfold Lane.quietOver
  split
  · exact .of_same
  · exact move_resend l
theorem move_attemptFails (env : Env) (quiet : Bool) (l : Lane) (c : l.link.state ≠ .sending) :
    LaneMove l (eventLane (l.attemptFails env quiet)) := by
  unfold Lane.attemptFails
  split
  · exact .rfl'
  · split
    · exact .rfl'
    · split
      · refine ⟨rfl, fun h => ?_, rfl, rfl⟩
        simp [Lane.Sound, eventLane, Lane.discard, c] at *
        exact h
      · exact move_resend l
theorem not_sending_of_canReceive {l : Lane} (c : l.canReceive = true) : l.link.state ≠ .sending := by
  intro e; simp [Lane.canReceive, e] at c
theorem move_framingError (env : Env) (cause : FramingCause) (l : Lane) (c : l.canReceive = true) :
    LaneMove l (eventLane (l.framingError env cause)) := by
  unfold Lane.framingError
  extract_lets u l1
  have h : LaneMove l l1 := .of_same
  exact h.trans (move_attemptFails env true l1 (not_sending_of_canReceive c))
theorem move_judge (env : Env) (frame : List Byte) (l : Lane) (c : l.canReceive = true) :
    LaneMove l (eventLane (l.judge env frame)) := by
  unfold Lane.judge
  extract_lets u l1 r
  have h1 : LaneMove l l1 := .of_same
  have hs1 : l1.link.state ≠ .sending := not_sending_of_canReceive c
  refine h1.trans ?_
  clear_value l1
  split
  · exact move_attemptFails env true l1 hs1
  · split
    · exact move_attemptFails env true l1 hs1
    · split
      · refine ⟨rfl, fun h => ?_, rfl, rfl⟩
        simp [Lane.Sound, eventLane, hs1] at *
        exact h
      · split
        · exact move_attemptFails env true l1 hs1
        · split
          · exact move_attemptFails env true l1 hs1
          · exact .rfl'
theorem move_setStopMark (l : Lane) : LaneMove l (eventLane l.setStopMark) := by
  unfold Lane.setStopMark
  split
  · exact .rfl'
  · exact .of_same

/-! ## Supply events (chapter 9) -/

theorem move_settled (l : Lane) (c : l.supply.settle.isSome = true) : LaneMove l l.settled := by
  refine ⟨rfl, fun h => ?_, rfl, rfl⟩
  obtain ⟨a, b, d⟩ := h
  have hs : l.supply.state ≠ .unpowered := fun e => by simp [(d e).2.1] at c
  refine ⟨a, ?_, ?_⟩
  · by_cases e : l.supply.state = .riding <;> simp [Lane.settled, Lane.toHold, Lane.driveTrstLow, Lane.endSession, e, b, hs]
  · by_cases e : l.supply.state = .riding <;> simp [Lane.settled, Lane.toHold, Lane.driveTrstLow, Lane.endSession, e]
theorem move_supplyGood (env : Env) (l : Lane) (c : l.supply.state = .rising) : LaneMove l (l.supplyGood env) := by
  refine ⟨rfl, fun h => ?_, rfl, rfl⟩
  simp [Lane.Sound, Lane.supplyGood, c] at *
  exact h
theorem move_startRide (env : Env) (l : Lane) (c : l.supply.state ≠ .unpowered) : LaneMove l (l.startRide env) := by
  refine ⟨rfl, fun h => ?_, rfl, rfl⟩
  simp [Lane.Sound, Lane.startRide, c] at *
  exact h
theorem move_supplyBack (l : Lane) (c : l.riding = true) : LaneMove l l.supplyBack := by
  have hs : l.supply.state = .riding := by simpa [Lane.riding] using c
  refine ⟨rfl, fun h => ?_, rfl, rfl⟩
  by_cases e : l.supply.settle.isSome <;> simp [Lane.Sound, Lane.supplyBack, hs, e] at * <;> exact h

variable (w : Work) (env : Env) (n : LaneId) (c : CtxId)

theorem path_drainCheck : Path False (env.part = .draining) w (w.drainCheck env n) := by
  unfold Work.drainCheck
  split
  · rename_i h; exact .drain n _ h .refl (move_tryDrain _)
  · exact .refl
theorem reach_settleEnd (h : (w.lane n).supply.settle.isSome = true) : Reach w (w.settleEnd env n) :=
  (reach_modLane n _ (move_settled _ h)).trans (reach_atHold _ env n)
theorem reach_supplyGood (h : (w.lane n).supply.state = .rising) : Reach w (w.supplyGood env n) := by
  unfold Work.supplyGood
  extract_lets w1
  have e : Reach w w1 := reach_modLane n _ (move_supplyGood env _ h)
  refine e.trans ?_
  split
  · exact reach_settleEnd w1 env n (by simp [w1, Lane.supplyGood])
  · exact .refl
theorem reach_powerUpFailed : Reach w (w.powerUpFailed env n) := by
  unfold Work.powerUpFailed
  extract_lets w1
  have e : Reach w w1 := reach_modLane n _ ((move_enterFault _ _).trans (move_supplyOff _))
  refine e.trans ?_
  split
  · exact reach_finalize _ env n _ _
  · exact .refl
theorem reach_cutLane : Reach w (w.cutLane env n) := by
  unfold Work.cutLane
  extract_lets w1
  have e : Reach w w1 := reach_modLane n _ (move_cut _)
  refine e.trans ?_
  split
  · exact .refl
  · split
    · split
      · exact reach_same n _
      · exact reach_finalize _ env n _ _
    · exact reach_leave _ env n
theorem reach_drop (h : (w.lane n).supply.watchesDrops = true) : Reach w (w.drop env n) := by
  have hs : (w.lane n).supply.state ≠ .unpowered := by
    intro e; simp [Supply.watchesDrops, e] at h
  unfold Work.drop
  dsimp only
  split
  · exact reach_modLane n _ (move_supplyOff _)
  · split
    · exact reach_cutLane w env n
    · exact reach_modLane n _ (move_startRide env _ hs)
theorem reach_supplyReturn (h : (w.lane n).riding = true) : Reach w (w.supplyReturn env n) := by
  unfold Work.supplyReturn
  extract_lets w1
  have e : Reach w w1 := reach_modLane n _ (move_supplyBack _ h)
  refine e.trans ?_
  split
  · exact reach_takeHeld _ env n
  · exact .refl

/-! ## Entry events -/

theorem reach_phaseOver (h : Held) {k : Work → Work} (hk : ∀ w, Reach w (k w)) : Reach w (w.phaseOver n h k) := by
  unfold Work.phaseOver
  split
  · exact reach_same n _
  · exact hk w
theorem reach_attemptFailed : Reach w (w.attemptFailed env n) := by
  unfold Work.attemptFailed
  dsimp only
  split
  · exact reach_modLane n _ (move_entryReset env _)
  · exact (reach_modLane n _ (move_enterFault _ _)).trans (reach_finalize _ env n _ _)

/-! ## Grants (R6 to R9) -/

theorem path_grantJob (i : SlotId) : Path True False w (w.grantJob env i) := by
  unfold Work.grantJob
  split
  · exact .refl
  · rename_i j hj
    extract_lets ns w1 faulted w2
    have e1 : Path True False w w1 := .handOver i j trivial .refl hj
    have e2 : Path True False w1 w2 := .of_reach (reach_finalizeAll w1 env _ _)
    refine (e1.trans e2).trans ?_
    split
    · exact .refl
    · exact .of_reach (reach_forLanes (fun w n => reach_startLane w env n) _ _)
theorem path_grantScan : Path True False w (w.grantScan env) := by
  unfold Work.grantScan
  generalize w.grantable = is
  induction is generalizing w with
  | nil => exact .refl
  | cons i is ih => exact (path_grantJob w env i).trans (ih _)

/-! ## The image descriptor -/

theorem reach_imageFailed (f : ImageFailure) : Reach w (w.imageFailed env c f) := by
  unfold Work.imageFailed
  split
  · exact .refl
  · rename_i i h
    dsimp only
    exact (reach_modSlot i (fun j => { j with imageFail := some f }) (.inr ⟨c, h⟩)
      (fun j => .of_same (slotSame_rfl j) rfl rfl rfl rfl (.inl rfl))).trans (reach_finalizeAll _ env _ _)

variable (hd : (w.ctx c).state = .descriptor)
include hd

theorem reach_startPasses : Reach w (w.startPasses c) := by
  have hf : (w.ctx c).state ≠ .free := by rw [hd]; decide
  unfold Work.startPasses
  split
  · exact reach_passesOver w c hf
  · rename_i hl
    split
    · exact reach_beginPass w c _ hf hl
    · split
      · exact reach_beginPass w c _ hf hl
      · exact reach_passesOver w c hf

/-- A change of a context in DESCRIPTOR that leaves its limits, its job, its state and its fetch. -/
theorem reach_descriptor (f : ImageCtx → ImageCtx) (a : (f (w.ctx c)).slot = (w.ctx c).slot := by rfl)
    (b : (f (w.ctx c)).state = (w.ctx c).state := by rfl) (h : (f (w.ctx c)).sharedHeld = (w.ctx c).sharedHeld := by rfl)
    (x : (f (w.ctx c)).fetch = (w.ctx c).fetch := by rfl) : Reach w (w.modCtx c f) := by
  refine pool_modCtx c f a (by rw [b]) (fun l => ⟨by rw [h]; exact l.1, fun e => ?_, fun e => ?_⟩) (.inr x)
  · rw [b, hd] at e; simp at e
  · rw [b, hd] at e; cases e
theorem reach_imageAccepted (count pageCode fill : Byte) (segs : List Segment) :
    Reach w (w.imageAccepted env c count pageCode fill segs) := by
  unfold Work.imageAccepted
  extract_lets s w1 live
  have e : Reach w w1 := reach_descriptor w c hd _
  refine e.trans ((reach_startPasses w1 c ?_).trans (reach_forLanes (fun w n => reach_startLane w env n) _ _))
  unfold w1
  rw [ctx_modCtx, if_pos rfl]
  exact hd
theorem reach_descDiscarded : Reach w (w.descDiscarded c) := by
  unfold Work.descDiscarded
  refine pool_modCtx c _ rfl ?_ (fun h => ⟨h.1, fun e => ?_, fun _ => ⟨rfl, rfl, rfl⟩⟩) (.inr rfl)
  · simp [ImageCtx.passesOver, hd]
  · simp [ImageCtx.passesOver] at e
theorem reach_headerEnd (r : ReadEnd) : Reach w (w.headerEnd env c r) := by
  cases r with
  | error =>
    simp only [Work.headerEnd]
    split
    · exact reach_descDiscarded w c hd
    · exact reach_imageFailed w env c _
  | ok data =>
    simp only [Work.headerEnd]
    split
    · exact reach_descriptor w c hd _
    · split
      · exact reach_descDiscarded w c hd
      · exact reach_imageFailed w env c _
theorem reach_tableEnd (count pageCode fill : Byte) (r : ReadEnd) : Reach w (w.tableEnd env c count pageCode fill r) := by
  unfold Work.tableEnd
  split
  · exact reach_descDiscarded w c hd
  · split
    · exact reach_imageFailed w env c _
    · dsimp only
      split
      · exact reach_imageFailed w env c _
      · exact reach_imageAccepted w env c hd _ _ _ _

omit hd

/-! ## Stopping live lanes -/

theorem reach_markLane (cause : StopCause) : Reach w (w.markLane env cause n) := by
  unfold Work.markLane
  extract_lets w1
  have e : Reach w w1 := reach_modLane n _ (move_markStop cause _)
  refine e.trans ?_
  split
  · exact reach_linkStep w1 env n (move_setStopMark _)
  · exact .refl
theorem reach_stopLanes (ns : List LaneId) (cause : StopCause) (r : LaneResult) : Reach w (w.stopLanes env ns cause r) := by
  unfold Work.stopLanes
  refine (reach_finalizeAll w env _ r).trans (reach_forLanes (fun w n => ?_) _ _)
  split
  · exact reach_markLane w env n cause
  · exact .refl
theorem reach_cancelAction (a : ActionCode) : Reach w (w.cancelAction env n a) := by
  unfold Work.cancelAction
  dsimp only
  split
  · exact reach_markLane w env n _
  · split
    · exact reach_modLane n _ (move_markStop _ _)
    · exact reach_modLane n _ (move_markStop _ _)
    · exact reach_actionCancelHeld w env n a
    · exact (reach_modLane n _ (move_toHold _)).trans (reach_finalize _ env n _ _)
theorem reach_imageReadError (f : Fetch) (hf : (w.ctx c).fetch = some f) (hn : (w.ctx c).state ≠ .free) :
    Reach w (w.imageReadError env c f) := by
  unfold Work.imageReadError
  refine Path.trans (pool_fetchOver w c f .failed (by decide) _ hf rfl ?_ (fun h => ⟨h.1, fun e => ?_, fun e => ?_⟩) rfl)
    (reach_stopLanes _ env _ _ _)
  · simp [hn]
  · simp at e
  · simp at e
theorem reach_pageHeld (f : Fetch) (hf : (w.ctx c).fetch = some f) : Reach w (w.pageHeld env c f) := by
  unfold Work.pageHeld
  refine (reach_fetchDone w c f hf).trans (reach_forLanes (fun w n => ?_) _ _)
  split
  · exact reach_stepGo w env n
  · exact .refl

/-! ## Halt and drain -/

theorem reach_haltLane : Reach w (w.haltLane env n) := by
  unfold Work.haltLane
  split
  · exact reach_linkStep w env n (move_setStopMark _)
  · exact reach_restIfQuiet w n
theorem reach_eachHalt : Reach w (w.eachLane (Work.haltLane env)) :=
  reach_forLanes (fun w n => reach_haltLane w env n) _ _

/-! ## Ends of host transfers -/

theorem reach_xferFailed (r : LaneResult) (fa : Option Word) : Reach w (w.xferFailed env n r fa) := by
  unfold Work.xferFailed
  split
  · exact reach_goOn (fun _ => .refl)
  · split
    · exact reach_finalize w env n r fa
    · exact reach_same n _
theorem reach_keyReadEnd (r : ReadEnd) : Reach w (w.keyReadEnd env n r) := by
  cases r with
  | ok key => exact reach_goOn (fun w => reach_request w n _)
  | error => exact reach_xferFailed w env n _ _
theorem reach_pageWritten (b : BufId) (page : Nat) : Reach w (w.pageWritten env n b page) := by
  unfold Work.pageWritten
  extract_lets w1
  have e : Reach w w1 := reach_freeBuf w b
  refine e.trans ?_
  split
  · split
    · exact reach_finalize _ env n _ _
    · exact reach_goOn (fun w => reach_stepGo w env n)
  · exact reach_goOn (fun _ => .refl)
theorem reach_pageWriteEnd (b : BufId) (page : Nat) (r : WriteEnd) : Reach w (w.pageWriteEnd env n b page r) := by
  cases r with
  | ok => exact reach_pageWritten w env n b page
  | error => exact reach_xferFailed w env n _ _
theorem reach_payloadReadEnd (r : ReadEnd) : Reach w (w.payloadReadEnd env n r) := by
  cases r with
  | ok data => exact (reach_same n _).trans (reach_stepGo _ env n)
  | error => exact reach_xferFailed w env n _ _
theorem reach_replyWritten : Reach w (w.replyWritten env n) := by
  unfold Work.replyWritten
  split
  · split
    · exact reach_finalize w env n _ _
    · exact reach_goOn (fun w => (reach_same n _).trans (reach_exchangeGo _ env n _ _))
  · exact reach_goOn (fun _ => .refl)
theorem reach_replyWriteEnd (r : WriteEnd) : Reach w (w.replyWriteEnd env n r) := by
  cases r with
  | ok => exact reach_replyWritten w env n
  | error => exact reach_xferFailed w env n _ _

/-! ## Events at a lane -/

theorem path_laneEvent (s : State) (n : LaneId) {f : Env → Work → Work} (h : Reach s.work (f s.env s.work)) :
    Path False (s.part.state = .draining) s.work (s.laneEvent n f).work :=
  Path.trans (.of_reach h) (path_drainCheck (f s.env s.work) s.env n)
theorem reach_halt (s : State) (code : FatalCode) : Reach s.work (s.halt code).work := by
  unfold State.halt
  split
  · exact .refl
  · rw [onWork_work]
    exact reach_eachHalt s.work _

end Sys2Proof.Laws
end

