-- ==== Sys2Proof/Laws/Exec.lean ====
section
/-! SUPPORT. What one command can do, said once for all commands: `exec_quiet` for those that leave the part's control fields,
`exec_change` for the effect of any of them on `Work`. -/

namespace Sys2Proof.Laws

-- One theorem at a time: a thread for each would ask for more stack than the check allows.
set_option Elab.async false

open Sys2Proof.Machine

variable {s t u : State}

/-- A command's answer is one of two states. -/
theorem answer_next (h : s.answer u = .next t) : t = s ∨ t = (s.takeFreed u).refreshIrq := by
  unfold State.answer at h
  cases h
  split
  · exact .inl rfl
  · exact .inr rfl

/-- What a freed slot takes, or nothing (R150). -/
theorem takeFreed_cases (s u : State) : s.takeFreed u = u ∨ s.takeFreed u = u.jobTake := by
  unfold State.takeFreed
  split
  · exact .inr rfl
  · exact .inl rfl

/-! ## Commands that leave the control fields -/

/-- The fields that most commands leave. -/
structure SameCtl (s t : State) : Prop where
  part : t.part = s.part
  rings : t.rings = s.rings
  intake : t.intake = s.intake
  posting : t.posting = s.posting

theorem SameCtl.rfl' {s : State} : SameCtl s s := ⟨rfl, rfl, rfl, rfl⟩

/-- What an event of the lanes, the Image Reader or a grant scan can do to `Work`; `d` says that the part drains. -/
def QuietWork (d : Prop) (w w' : Work) : Prop := Path False d w w' ∨ (¬d ∧ ∃ env, w' = w.grantScan env)

/-- A command that leaves the control fields, and gives the port to Job Intake only for a record being read. -/
structure QuietMove (s u : State) : Prop where
  same : SameCtl s u
  port : u.port = some .intake → s.intake.reading = true ∨ s.port = some .intake
  work : QuietWork (s.part.state = .draining) s.work u.work

theorem quiet_self : QuietMove s s := ⟨.rfl', fun h => .inr h, .inl .refl⟩

/-- The port stays, is freed, or serves the Image Reader. -/
theorem quiet_of (m : SameCtl s u) (w : Path False (s.part.state = .draining) s.work u.work)
    (p : u.port = s.port ∨ u.port = none ∨ ∃ a b, u.port = some (.image a b) := by exact .inl rfl) : QuietMove s u := by
  refine ⟨m, fun h => ?_, .inl w⟩
  rcases p with p | p | ⟨a, b, p⟩
  · exact .inr (p ▸ h)
  · simp [p] at h
  · simp [p] at h

theorem quiet_ite {p : Prop} [Decidable p] (h : p → QuietMove s u) : QuietMove s (if p then u else s) := by
  split
  · rename_i g; exact h g
  · exact quiet_self

theorem quiet_lane (n : LaneId) {f : Env → Work → Work} (h : Reach s.work (f s.env s.work)) :
    QuietMove s (s.laneEvent n f) :=
  quiet_of ⟨rfl, rfl, rfl, rfl⟩ (path_laneEvent s n h)

theorem quiet_xfer (n : LaneId) {k : Env → Work → Work} (h : ∀ env w, Reach w (k env w)) : QuietMove s (s.xferEnd n k) := by
  refine quiet_of ⟨rfl, rfl, rfl, rfl⟩ ?_ (.inr (.inl rfl))
  have e : Reach s.work (s.xferOver n).work :=
    reach_modLane n (fun l => { l with eng := { l.eng with xfer := none } }) .of_same
  refine Path.trans (.of_reach e) (path_laneEvent (s.xferOver n) n ?_)
  split
  · exact h _ _
  · exact reach_restIfQuiet _ n

theorem quiet_fullWrite {be : BitVec 4} {k : State → State} (h : QuietMove s (k s)) : QuietMove s (s.fullWrite be k) := by
  unfold State.fullWrite
  split
  · exact h
  · exact quiet_of ⟨rfl, rfl, rfl, rfl⟩ .refl

/-- The context that the Image Reader serves has its work (R88, R95). -/
theorem imageNext_spec {c : CtxId} (h : s.imageNext = some c) :
    (s.work.ctx c).descDue = none → (s.work.ctx c).state = .writePass ∨ (s.work.ctx c).state = .checkPass := by
  intro hd
  unfold State.imageNext at h
  split at h
  · have := List.find?_some h
    simp only [Work.descWork, Work.fetchWork, hd, Bool.or_eq_true, Bool.and_eq_true, decide_eq_true_eq] at this
    rcases this with ⟨-, q⟩ | ⟨⟨⟨⟨q, -⟩, -⟩, -⟩, -⟩
    · simp at q
    · exact q
  · cases h

theorem reach_imageTurn {c : CtxId} (h : s.imageNext = some c) : Reach s.work (s.imageTurn c).work := by
  unfold State.imageTurn
  dsimp only
  split
  · refine .served c (.pool _ .refl (pool_ctx c _ rfl .rfl id (.inr rfl)))
  · rename_i hd _ hb
    exact .served c (reach_startFetch _ c _ _ hb (imageNext_spec h hd))
  · exact .refl

theorem quiet_arbitrate (s : State) : QuietMove s s.arbitrate := by
  unfold State.arbitrate
  split
  · exact quiet_self
  split
  · exact ⟨⟨rfl, rfl, rfl, rfl⟩, fun h => by simp at h, .inl .refl⟩
  split
  · exact ⟨⟨rfl, rfl, rfl, rfl⟩, fun h => by simp at h, .inl .refl⟩
  split
  · rename_i h; exact ⟨⟨rfl, rfl, rfl, rfl⟩, fun _ => .inl h, .inl .refl⟩
  split
  · exact ⟨⟨rfl, rfl, rfl, rfl⟩, fun h => by simp at h, .inl .refl⟩
  split
  · rename_i c hc
    have w := reach_imageTurn hc
    unfold State.imageTurn at w ⊢
    dsimp only at w ⊢
    split at w
    · exact quiet_of ⟨rfl, rfl, rfl, rfl⟩ (.of_reach w) (.inr (.inr ⟨_, _, rfl⟩))
    · exact quiet_of ⟨rfl, rfl, rfl, rfl⟩ (.of_reach w) (.inr (.inr ⟨_, _, rfl⟩))
    · exact quiet_self
  · exact quiet_self

/-- Commands that do not change the control fields. -/
def quietCmd : Instr → Bool
  | .setupLoWrite _ _ | .setupHiWrite _ _ | .clearMisuse | .jobHeadWrite _ _ | .notifyWrite _ _ => true
  | .memoryPortArbitration | .grantScan | .supplyGood .. | .powerUpLimitExpiry .. | .settleEnd .. => true
  | .selectPhaseEnd .. | .presencePulse .. | .entryLimitExpiry .. | .entryResetEnd .. | .keyReadEnd .. => true
  | .frameSendEnd .. | .tdatLow .. | .busyHoldRecognised .. | .busyHoldEnd .. | .busyLimitExpiry .. => true
  | .replyTimeout .. | .framingError .. | .quietLineResend .. | .replyFrameComplete .. | .resetPulseEnd .. => true
  | .descriptorHeaderReadEnd .. | .descriptorTableReadEnd .. | .pageFetchReadEnd .. | .readoutPageWriteEnd .. => true
  | .exchangePayloadReadEnd .. | .exchangeReplyWriteEnd .. | .drop .. | .supplyReturn .. | .rideTimerExpiry .. => true
  | .holdIntervalExpiry | .startBitDiscarded .. => true
  | _ => false

/-- The bytes of a fetch change no limit. -/
theorem reach_placeRead (w : Work) (c : CtxId) (f : Fetch) (off : Nat) (data : List Byte) :
    Reach w (w.placeRead c f off data) := by
  unfold Work.placeRead
  split
  · exact .pool _ .refl (pool_modBuf f.buf _ rfl id)
  · exact .refl

/-- A fetch that stands is its context's, in a pass. -/
theorem fetchStands_spec {w : Work} {c : CtxId} {f : Fetch} (h : w.fetchStands c f = true) :
    (w.ctx c).fetch = some f ∧ (w.ctx c).state ≠ .free := by
  simp only [Work.fetchStands, Bool.and_eq_true, Bool.or_eq_true, decide_eq_true_eq] at h
  refine ⟨h.2, fun e => ?_⟩
  rcases h.1 with q | q <;> rw [q] at e <;> cases e

theorem quiet_pageFetch (r : ReadEnd) : ∃ u, execPageFetchReadEnd r s = s.answer u ∧ QuietMove s u := by
  refine ⟨_, rfl, ?_⟩
  split
  · rename_i c f rd rest _
    split
    · rename_i data
      refine quiet_ite fun _ => ?_
      have e := reach_placeRead s.work c f rd.offset data
      unfold State.fetchRead
      dsimp only
      split
      · exact quiet_of ⟨rfl, rfl, rfl, rfl⟩ (.of_reach e) (.inr (.inr ⟨_, _, rfl⟩))
      · split
        · rename_i g
          exact quiet_of ⟨rfl, rfl, rfl, rfl⟩ (.of_reach (e.trans (reach_pageHeld _ _ c f (fetchStands_spec g.2).1)))
            (.inr (.inl rfl))
        · exact quiet_of ⟨rfl, rfl, rfl, rfl⟩ (.of_reach e) (.inr (.inl rfl))
    · unfold State.fetchError
      dsimp only
      split
      · rename_i g
        obtain ⟨g1, g2⟩ := fetchStands_spec g.2
        exact quiet_of ⟨rfl, rfl, rfl, rfl⟩ (.of_reach (reach_imageReadError _ _ c f g1 g2)) (.inr (.inl rfl))
      · exact quiet_of ⟨rfl, rfl, rfl, rfl⟩ .refl (.inr (.inl rfl))
  · exact quiet_self

/-- A lane event that happens where its condition holds. -/
theorem quiet_laneIf {p : Prop} [Decidable p] (n : LaneId) {f : Env → Work → Work}
    (h : p → Reach s.work (f s.env s.work)) : QuietMove s (if p then s.laneEvent n f else s) :=
  quiet_ite (fun g => quiet_lane n (h g))

theorem quiet_notify (v : Word) : QuietMove s (s.writeNotify v) := by
  unfold State.writeNotify
  split <;> exact quiet_of ⟨rfl, rfl, rfl, rfl⟩ .refl

/-- What every quiet command does. -/
theorem exec_quiet (c : Instr) (q : quietCmd c = true) : ∃ u, exec c s = s.answer u ∧ QuietMove s u := by
  cases c <;> first | (exact absurd q Bool.false_ne_true) | skip
  case pageFetchReadEnd r => exact quiet_pageFetch r
  all_goals refine ⟨_, rfl, ?_⟩
  case setupLoWrite => exact quiet_fullWrite (quiet_of ⟨rfl, rfl, rfl, rfl⟩ .refl)
  case setupHiWrite => exact quiet_fullWrite (quiet_of ⟨rfl, rfl, rfl, rfl⟩ .refl)
  case clearMisuse => exact quiet_of ⟨rfl, rfl, rfl, rfl⟩ .refl
  case jobHeadWrite => exact quiet_of ⟨rfl, rfl, rfl, rfl⟩ .refl
  case notifyWrite => exact quiet_fullWrite (quiet_notify _)
  case memoryPortArbitration => exact quiet_arbitrate s
  case grantScan =>
    unfold State.grantScan
    split
    · rename_i g
      refine ⟨⟨rfl, rfl, rfl, rfl⟩, fun h => .inr h, .inr ⟨fun d => ?_, _, rfl⟩⟩
      simp [Env.acting, State.env, d, PartState.acts] at g
    · exact quiet_self
  case holdIntervalExpiry =>
    unfold State.holdExpired
    split
    · exact quiet_of ⟨rfl, rfl, rfl, rfl⟩ .refl
    · exact quiet_self
  case supplyGood n _ => exact quiet_laneIf n (fun g => reach_supplyGood _ _ _ g.1)
  case powerUpLimitExpiry n => exact quiet_laneIf n (fun _ => reach_powerUpFailed _ _ _)
  case settleEnd n => exact quiet_laneIf n (fun g => reach_settleEnd _ _ _ g)
  case selectPhaseEnd n =>
    exact quiet_laneIf n (fun _ => reach_phaseOver _ _ _ (fun w => reach_modLane n _ (move_presencePhase _ _)))
  case presencePulse n _ => exact quiet_laneIf n (fun _ => reach_startLinking _ _)
  case entryLimitExpiry n => exact quiet_laneIf n (fun _ => reach_attemptFailed _ _ _)
  case entryResetEnd n =>
    exact quiet_laneIf n (fun _ => reach_phaseOver _ _ _ (fun w => reach_modLane n _ (move_selectPhase _ _)))
  case resetPulseEnd n => exact quiet_laneIf n (fun _ => reach_phaseOver _ _ _ (fun w => reach_pulseDone w _ n))
  case drop n _ => exact quiet_laneIf n (fun g => reach_drop _ _ _ g.1)
  case supplyReturn n _ => exact quiet_laneIf n (fun g => reach_supplyReturn _ _ _ g.1)
  case rideTimerExpiry n => exact quiet_laneIf n (fun _ => reach_cutLane _ _ _)
  case keyReadEnd n r =>
    split
    · exact quiet_ite (fun _ => quiet_xfer n (fun _ w => reach_keyReadEnd w _ n r))
    · exact quiet_self
  case readoutPageWriteEnd n r =>
    split
    · exact quiet_ite (fun _ => quiet_xfer n (fun _ w => reach_pageWriteEnd w _ n _ _ r))
    · exact quiet_self
  case exchangePayloadReadEnd n r =>
    split
    · exact quiet_ite (fun _ => quiet_xfer n (fun _ w => reach_payloadReadEnd w _ n r))
    · exact quiet_self
  case exchangeReplyWriteEnd n r =>
    split
    · exact quiet_ite (fun _ => quiet_xfer n (fun _ w => reach_replyWriteEnd w _ n r))
    · exact quiet_self
  case descriptorHeaderReadEnd r =>
    split
    · refine quiet_ite (fun _ => ?_)
      dsimp only
      split
      · rename_i g
        have hd := g.2
        simp only [Work.headerStands, Bool.and_eq_true, decide_eq_true_eq] at hd
        exact quiet_of ⟨rfl, rfl, rfl, rfl⟩ (.of_reach (reach_headerEnd _ _ _ hd.1 r)) (.inr (.inl rfl))
      · exact quiet_of ⟨rfl, rfl, rfl, rfl⟩ .refl (.inr (.inl rfl))
    · exact quiet_self
  case descriptorTableReadEnd r =>
    split
    · refine quiet_ite (fun _ => ?_)
      dsimp only
      split
      · rename_i g
        have hd := g.2
        simp only [Work.tableStands, Bool.and_eq_true, decide_eq_true_eq] at hd
        exact quiet_of ⟨rfl, rfl, rfl, rfl⟩ (.of_reach (reach_tableEnd _ _ _ hd.1 _ _ _ r)) (.inr (.inl rfl))
      · exact quiet_of ⟨rfl, rfl, rfl, rfl⟩ .refl (.inr (.inl rfl))
    · exact quiet_self
  case frameSendEnd n => exact quiet_laneIf n (fun _ => reach_modLane n _ (move_frameSent _ _))
  case tdatLow n r =>
    cases r with
    | began stood => exact quiet_laneIf n (fun _ => reach_modLane n _ (move_low _ _ _))
    | ended low stood => exact quiet_laneIf n (fun _ => reach_modLane n _ (move_lowEnded _ _))
  case busyHoldRecognised n _ => exact quiet_laneIf n (fun g => reach_modLane n _ (move_holdRecognised _ g.1))
  case busyHoldEnd l =>
    refine quiet_laneIf _ (fun _ => reach_modLane _ _ ?_)
    dsimp only
    split
    · exact move_drainExchange _
    · exact move_await _ _
  case busyLimitExpiry n =>
    refine quiet_laneIf n (fun _ => ?_)
    split
    · exact reach_modLane n _ (move_drainExchange _)
    · exact reach_exchangeEnd _ _ n _
  case replyTimeout n =>
    refine quiet_laneIf n (fun g => reach_linkStep _ _ n (move_attemptFails _ _ _ ?_))
    rw [g.1]; decide
  case framingError n cause =>
    exact quiet_laneIf n (fun g => reach_linkStep _ _ n (move_framingError _ _ _ g.1))
  case quietLineResend n cause => exact quiet_laneIf n (fun _ => reach_modLane n _ (move_quietOver _))
  case replyFrameComplete n f => exact quiet_laneIf n (fun g => reach_linkStep _ _ n (move_judge _ _ _ g))
  case startBitDiscarded l => exact quiet_laneIf _ (fun _ => reach_modLane _ _ (move_noise _ _))

end Sys2Proof.Laws
end

