-- ==== Sys2Proof/Laws/Results.lean ====
section
/-! SUPPORT. A result that is final stays so: along every event that is no grant scan, a lane that is not live stays so, and
its result and outcome copy are found in its slot or, once the job has completed, in its completion entry. What
`Work.finalize` does, said once (`finalize_taken`, `finalize_notLive`, `finalize_others`). -/

namespace Sys2Proof.Laws

-- One theorem at a time: a thread for each would ask for more stack than the check allows.
set_option Elab.async false

open Sys2Proof.Machine

variable {w w' : Work} {n m : LaneId} {i : SlotId} {tag adm : Word} {r : LaneResult} {o : OutcomeCopy}

/-! ## Results stay -/

/-- Lane `n`'s final result in slot `i`, or in the entry of the job that had the slot. -/
def Kept (w : Work) (n : LaneId) (i : SlotId) (tag adm : Word) (r : LaneResult) (o : OutcomeCopy) : Prop :=
  (∃ j, w.slot i = some j ∧ j.tag = tag ∧ j.adm = adm ∧ hasLane j.mask n = true ∧ hasLane j.live n = false
      ∧ j.results.get n = some r ∧ j.copies.get n = some o)
    ∨ (w.slot i = none ∧ ∃ e ∈ w.queue, e.tag = tag ∧ e.adm = adm
        ∧ ∃ x ∈ e.lanes, x.lane = n ∧ x.result = r ∧ x.copy = some o)

theorem mem_lanesIn {k : LaneMask} : n ∈ lanesIn k ↔ hasLane k n = true := by
  unfold lanesIn Config.allLanes
  rw [List.mem_filter, and_iff_right]
  fin_cases n <;> simp

theorem completeAs_slot (w : Work) (env : Env) (i : SlotId) (d : Half) (k : SlotId) :
    (w.completeAs env i d).slot k = if k = i then none else w.slot k := by
  unfold Work.completeAs
  cases h : w.slot i with
  | none => by_cases e : k = i <;> simp [h, e]
  | some j => dsimp only; split <;> split <;> simp [Work.returnCtx]

theorem completeAs_lane (w : Work) (env : Env) (i : SlotId) (d : Half) : (w.completeAs env i d).lane n = w.lane n := by
  unfold Work.completeAs
  cases h : w.slot i with
  | none => rfl
  | some j => dsimp only; split <;> split <;> simp [Work.returnCtx]

/-- A completed job's entries stand at the tail of the Post Queue, its own first (R17, R137). -/
theorem completeAs_queue (w : Work) (env : Env) (i : SlotId) (d : Half) (j : JobSlot) (h : w.slot i = some j) :
    (w.completeAs env i d).queue = w.queue ++ j.entry env.jobHead ::
      (match j.cancelLink with
        | some k => [cancelEntry k.tag k.adm j.tag .cancelDone d env.jobHead]
        | none => []) := by
  unfold Work.completeAs
  rw [h]
  dsimp only
  split <;> split <;> simp_all [Work.returnCtx]

theorem queue_completeAs_sub (w : Work) (env : Env) (i : SlotId) (d : Half) {e : Entry} (h : e ∈ w.queue) :
    e ∈ (w.completeAs env i d).queue := by
  cases hs : w.slot i with
  | none => unfold Work.completeAs; rw [hs]; exact h
  | some j => rw [completeAs_queue w env i d j hs]; exact List.mem_append_left _ h

/-- What a lane's leaving comes to: nothing, the lane's release, with its job ENDING when lanes are still held, or with its
job completed when none is. -/
theorem leave_cases (w : Work) (env : Env) (n : LaneId) : w.leave env n = w ∨
    ∃ i, (w.lane n).ctx.slot = some i ∧ ∃ v, v = (w.modLane n Lane.release).setOwner n none ∧
      (w.leave env n = v
        ∨ (∃ j, v.slot i = some j ∧ v.anyHeld i = true ∧ w.leave env n = v.setSlot i (some { j with state := .ending }))
        ∨ (v.anyHeld i = false ∧ w.leave env n = v.completeAs env i 2)) := by
  unfold Work.leave
  split
  · exact .inl rfl
  · rename_i i hi
    refine .inr ⟨i, hi, _, rfl, ?_⟩
    unfold Work.settleJob
    split
    · exact .inl rfl
    · rename_i j hj
      split
      · exact .inl rfl
      · split
        · rename_i g; exact .inr (.inl ⟨j, hj, g, rfl⟩)
        · rename_i g; exact .inr (.inr ⟨by simpa using g, rfl⟩)

theorem kept_slot {j0 j' : JobSlot} {k : SlotId} (hj : w.slot k = some j0) (s : SlotSame j0 j') (rk : ResultsKept j0 j')
    (h : Kept w n i tag adm r o) : Kept (w.setSlot k (some j')) n i tag adm r o := by
  rcases h with ⟨j, h0, a, b, c, d, e, f⟩ | ⟨h0, q⟩
  · left
    by_cases hk : i = k
    · subst hk
      rw [h0] at hj; cases hj
      obtain ⟨t1, t2, t3, -⟩ := s
      obtain ⟨r1, r2, -, r4⟩ := rk n d
      exact ⟨j', by simp, t1.trans a, t3.trans b, t2 ▸ c, r1, r2.trans e, r4.trans f⟩
    · exact ⟨j, by simp [hk, h0], a, b, c, d, e, f⟩
  · right
    have hk : i ≠ k := by rintro rfl; rw [h0] at hj; cases hj
    exact ⟨by simp [hk, h0], q⟩

theorem kept_complete (env : Env) (k : SlotId) (d : Half) (h : Kept w n i tag adm r o) :
    Kept (w.completeAs env k d) n i tag adm r o := by
  rcases h with ⟨j0, h0, a, b, c, f, e, g⟩ | ⟨h0, x, hx, q⟩
  · by_cases hk : i = k
    · subst hk
      right
      refine ⟨by rw [completeAs_slot, if_pos rfl], j0.entry env.jobHead, ?_, a, b, j0.report n, ?_, rfl, ?_, g⟩
      · rw [completeAs_queue _ _ _ _ j0 h0]; simp
      · exact List.mem_map.mpr ⟨n, mem_lanesIn.mpr c, rfl⟩
      · show (j0.results.get n).getD _ = _
        rw [e]; rfl
    · exact .inl ⟨j0, by rw [completeAs_slot, if_neg hk, h0], a, b, c, f, e, g⟩
  · exact .inr ⟨by rw [completeAs_slot]; split <;> [rfl; exact h0], x, queue_completeAs_sub _ _ _ _ hx, q⟩

/-- Changes of contexts and buffers leave the slots, the lanes, the owners and the Post Queue. -/
theorem poolMove_rest {v : Work} (m : PoolMove w v) : v.slots = w.slots ∧ v.lanes = w.lanes ∧ v.owner = w.owner
    ∧ v.grantList = w.grantList ∧ v.queue = w.queue ∧ v.reserved = w.reserved := by
  rw [m.same]; exact ⟨rfl, rfl, rfl, rfl, rfl, rfl⟩

theorem kept_of_reach (p : Reach w w') (h : Kept w n i tag adm r o) : Kept w' n i tag adm r o := by
  induction p with
  | refl => exact h
  | lane k l _ _ ih => exact ih
  | drain k l f => exact f.elim
  | settings k _ j v _ _ _ ih => exact ih
  | slot k j j' _ hj _ mv ih => exact kept_slot hj mv.1 mv.2.1 ih
  | leave env k _ ih =>
    rcases leave_cases _ env k with e | ⟨a, -, v, hv, e | ⟨j, hj, -, e⟩ | ⟨-, e⟩⟩ <;> rw [e]
    · exact ih
    · subst hv; exact ih
    · subst hv
      exact kept_slot hj (slotSame_rfl j) (fun m hm => ⟨hm, rfl, rfl, rfl⟩) ih
    · subst hv; exact kept_complete env a 2 ih
  | pool v _ m ih =>
    obtain ⟨e1, -, -, -, e5, -⟩ := poolMove_rest m
    unfold Kept Work.slot at *
    rw [e1, e5]; exact ih
  | served _ _ ih => exact ih
  | handOver _ _ f => exact f.elim

/-- Lane `n` is live in no slot that it holds. -/
def IdleIn (w : Work) (n : LaneId) : Prop :=
  ∀ i j, (w.lane n).ctx.slot = some i → w.slot i = some j → hasLane j.live n = false

theorem idleIn_iff : w.isLive n = false ↔ IdleIn w n := by
  unfold Work.isLive Work.jobOf IdleIn
  constructor
  · intro h i j a b
    simpa [a, b] using h
  · intro h
    cases hs : (w.lane n).ctx.slot with
    | none => rfl
    | some i =>
      cases hj : w.slot i with
      | none => simp [hj]
      | some j => simp [hj, h i j hs hj]

theorem idleIn_slot {k : SlotId} {j0 j' : JobSlot} (hj : w.slot k = some j0)
    (q : hasLane j0.live n = false → hasLane j'.live n = false) (h : IdleIn w n) : IdleIn (w.setSlot k (some j')) n := by
  intro i j a b
  rw [slot_setSlot] at b
  split at b
  · rename_i e; subst e; cases b
    exact q (h _ _ a hj)
  · exact h i j a b

theorem idleIn_complete (env : Env) (k : SlotId) (d : Half) (h : IdleIn w n) : IdleIn (w.completeAs env k d) n := by
  intro i j a b
  rw [completeAs_lane] at a
  rw [completeAs_slot] at b
  split at b
  · cases b
  · exact h i j a b

/-- A lane that is not live stays so along every event that is no grant scan. -/
theorem notLive_of_reach (p : Reach w w') (h : w.isLive n = false) : w'.isLive n = false := by
  rw [idleIn_iff] at h ⊢
  induction p with
  | refl => exact h
  | lane k l _ mv ih =>
    intro i j a b
    by_cases e : n = k
    · subst e
      simp only [lane_setLane, if_true] at a
      exact ih i j (mv.2.2.1 ▸ a) b
    · rw [lane_setLane, if_neg e] at a; exact ih i j a b
  | drain k l f => exact f.elim
  | settings k i0 j0 v _ _ _ ih =>
    intro i j a b
    refine ih i j ?_ b
    rw [lane_setLane] at a
    split at a
    · rename_i e; subst e; exact a
    · exact a
  | slot k j0 j' _ hj _ mv ih => exact idleIn_slot hj (fun q => (mv.2.1 n q).1) ih
  | @leave x env k _ ih =>
    have rel : IdleIn ((x.modLane k Lane.release).setOwner k none) n := by
      intro i j a b
      by_cases e : n = k
      · subst e; simp [Lane.release] at a
      · simp [e] at a; exact ih i j a b
    rcases leave_cases x env k with e | ⟨a, -, v, hv, e | ⟨j, hj, -, e⟩ | ⟨-, e⟩⟩ <;> rw [e]
    · exact ih
    · subst hv; exact rel
    · subst hv; exact idleIn_slot hj id rel
    · subst hv; exact idleIn_complete env a 2 rel
  | pool v _ m ih =>
    obtain ⟨e1, e2, -⟩ := poolMove_rest m
    unfold IdleIn Work.slot Work.lane at *
    rw [e1, e2]; exact ih
  | served _ _ ih => exact ih
  | handOver _ _ f => exact f.elim

/-! ## A final result (R11) -/

theorem hasLane_dropLane_self (k : LaneMask) (n : LaneId) : hasLane (dropLane k n) n = false := by
  unfold hasLane dropLane
  rw [BitVec.getLsbD_and, BitVec.getLsbD_not, BitVec.getLsbD_shiftLeft]
  simp

/-- The outcome copy that the Job Table takes with a result (R11, R114). -/
def takenCopy (w : Work) (n : LaneId) (j : JobSlot) (r : LaneResult) (fa : Option Word) : OutcomeCopy :=
  { (w.lane n).outcome with faultAddr := j.faultAddrFor (w.lane n) r fa }

theorem isLive_iff : w.isLive n = true ↔
    ∃ i j, (w.lane n).ctx.slot = some i ∧ w.slot i = some j ∧ hasLane j.live n = true := by
  unfold Work.isLive Work.jobOf
  cases hs : (w.lane n).ctx.slot with
  | none => simp
  | some i => cases hj : w.slot i <;> simp [hj]

theorem record_kept {j : JobSlot} (a : (w.lane n).ctx.slot = some i) (b : w.slot i = some j)
    (c : hasLane j.live n = true) (d : hasLane j.mask n = true) (r : LaneResult) (fa : Option Word) :
    Kept (w.record n r fa) n i j.tag j.adm r (takenCopy w n j r fa) := by
  left
  unfold Work.record
  rw [a]
  simp only [b, c, if_true]
  refine ⟨_, (slot_setSlot ..).trans (if_pos rfl), rfl, rfl, d, hasLane_dropLane_self _ _, ?_, ?_⟩
  · simp
  · simp [takenCopy, Lane.outcome]

theorem record_notLive (r : LaneResult) (fa : Option Word) : (w.record n r fa).isLive n = false := by
  cases hl : w.isLive n with
  | false => exact notLive_of_reach (reach_record w n r fa) hl
  | true =>
    obtain ⟨i, j, a, b, c⟩ := isLive_iff.mp hl
    unfold Work.record
    rw [a]
    simp only [b, c, if_true]
    simp [Work.isLive, Work.jobOf, a, hasLane_dropLane_self]

/-- A final result leaves its lane not live. -/
theorem finalize_notLive (env : Env) (r : LaneResult) (fa : Option Word) : (w.finalize env n r fa).isLive n = false := by
  unfold Work.finalize
  split
  · exact notLive_of_reach (reach_settle _ env n r) (record_notLive r fa)
  · rename_i h; simpa using h

theorem finalize_kept {j : JobSlot} (a : (w.lane n).ctx.slot = some i) (b : w.slot i = some j)
    (c : hasLane j.live n = true) (d : hasLane j.mask n = true) (env : Env) (r : LaneResult) (fa : Option Word) :
    Kept (w.finalize env n r fa) n i j.tag j.adm r (takenCopy w n j r fa) := by
  unfold Work.finalize
  rw [if_pos (isLive_iff.mpr ⟨i, j, a, b, c⟩)]
  exact kept_of_reach (reach_settle _ env n r) (record_kept a b c d r fa)

/-- What `Kept` gives in the words of the statements. -/
theorem taken_of_kept (h : ∀ i j, (w.lane n).ctx.slot = some i → w.slot i = some j → hasLane j.live n = true →
    hasLane j.mask n = true → ∃ o, Kept w' n i j.tag j.adm r o) : w.ResultTaken w' n r := by
  intro i j a b c d
  obtain ⟨o, ⟨j', p1, p2, -, -, p3, p4, -⟩ | ⟨p, e, q1, q2, q3, x, y1, y2, y3, -⟩⟩ := h i j a b c d
  · exact .inl ⟨j', p1, p2, p4, p3⟩
  · exact .inr ⟨fun _ h => (by rw [p] at h; cases h), e, q1, q2, q3, x, y1, y2, y3⟩

theorem takenAt_of_kept {fa : Option Word} (h : ∀ i j, (w.lane n).ctx.slot = some i → w.slot i = some j →
    hasLane j.live n = true → hasLane j.mask n = true → ∃ o, Kept w' n i j.tag j.adm r o ∧ o.faultAddr = fa) :
    w.ResultTakenAt w' n r fa := by
  intro i j a b c d
  obtain ⟨o, ⟨j', p1, p2, -, -, p3, p4, p5⟩ | ⟨p, e, q1, q2, q3, x, y1, y2, y3, y4⟩, k⟩ := h i j a b c d
  · exact .inl ⟨j', p1, p2, p4, p3, o, p5, k⟩
  · exact .inr ⟨fun _ h => (by rw [p] at h; cases h), e, q1, q2, q3, x, y1, y2, y3, o, y4, k⟩

theorem finalize_taken (env : Env) (r : LaneResult) (fa : Option Word) :
    w.ResultTaken (w.finalize env n r fa) n r :=
  taken_of_kept (fun _ _ a b c d => ⟨_, finalize_kept a b c d env r fa⟩)

/-! ## What a final result leaves to the other lanes -/

/-- No lane but `n` changes, in more than its cursor and its step. -/
def Others (n : LaneId) (w w' : Work) : Prop :=
  ∀ m, m ≠ n → ∃ cur st pos, w'.lane m =
    { w.lane m with ctx := { (w.lane m).ctx with cursor := cur, step := st, stepPos := pos } }

theorem Others.refl : Others n w w := fun m _ => ⟨(w.lane m).ctx.cursor, (w.lane m).ctx.step, (w.lane m).ctx.stepPos, rfl⟩

theorem Others.trans {a b c : Work} (h : Others n a b) (g : Others n b c) : Others n a c := by
  intro m hm
  obtain ⟨x, y, z, e⟩ := h m hm
  obtain ⟨x', y', z', e'⟩ := g m hm
  exact ⟨x', y', z', by rw [e', e]⟩

theorem Others.of_eq (h : ∀ m, m ≠ n → w'.lane m = w.lane m) : Others n w w' := by
  intro m hm
  rw [h m hm]
  exact Others.refl m hm

theorem Others.pins (h : Others n w w') (hm : m ≠ n) : (w.lane m).SamePins (w'.lane m) := by
  obtain ⟨x, y, z, e⟩ := h m hm
  rw [e]
  exact ⟨rfl, rfl, rfl, rfl⟩

theorem others_modLane (f : Lane → Lane) : Others n w (w.modLane n f) := .of_eq (fun m hm => by simp [hm])

theorem others_forLanes {f : Work → LaneId → Work} (h : ∀ w k, Others n w (f w k)) (ks : List LaneId) (w : Work) :
    Others n w (w.forLanes ks f) := by
  unfold Work.forLanes
  induction ks generalizing w with
  | nil => exact .refl
  | cons k ks ih => exact (h w k).trans (ih _)

theorem lane_freeBuf (b : BufId) : (w.freeBuf b).lane m = w.lane m := by
  unfold Work.freeBuf
  dsimp only
  split <;> rfl

theorem lane_releaseBuf (b : BufId) : (w.releaseBuf b).lane m = w.lane m := by
  unfold Work.releaseBuf
  dsimp only
  split
  · exact lane_freeBuf b
  · rfl

theorem lane_releaseBufs (bs : List BufId) : (bs.foldl Work.releaseBuf w).lane m = w.lane m := by
  induction bs generalizing w with
  | nil => rfl
  | cons b bs ih => rw [List.foldl_cons, ih, lane_releaseBuf]

theorem lane_setStep (k : LaneId) (st : Step) : (w.setStep k st).lane m =
    if m = k then { w.lane k with ctx := { (w.lane k).ctx with step := st, stepPos := none } } else w.lane m := by
  unfold Work.setStep
  dsimp only
  split <;> simp

theorem others_setStep (k : LaneId) (st : Step) : Others n w (w.setStep k st) := by
  intro m hm
  rw [lane_setStep]
  split
  · rename_i h; subst h; exact ⟨(w.lane m).ctx.cursor, st, none, rfl⟩
  · exact Others.refl m hm

theorem others_beginPass (c : CtxId) (p : Pass) : Others n w (w.beginPass c p) := by
  unfold Work.beginPass
  refine Others.trans (.of_eq (fun _ _ => rfl)) (others_forLanes (fun v k m hm => ?_) _ _)
  rw [lane_modLane]
  split
  · rename_i h; subst h; exact ⟨_, (v.lane m).ctx.step, (v.lane m).ctx.stepPos, rfl⟩
  · exact Others.refl m hm

theorem others_endPass (c : CtxId) : Others n w (w.endPass c) := by
  unfold Work.endPass
  split
  · split
    · exact (others_beginPass c _).trans (others_forLanes (fun _ k => others_setStep k _) _ _)
    · exact .of_eq (fun _ _ => rfl)
  · exact .of_eq (fun _ _ => rfl)
  all_goals exact .refl

theorem others_dropFromPass (c : CtxId) (k : LaneId) : Others n w (w.dropFromPass c k) := by
  unfold Work.dropFromPass
  split
  · dsimp only
    split
    · exact Others.trans (.of_eq (fun _ _ => rfl)) (others_endPass c)
    · exact .of_eq (fun _ _ => rfl)
  · exact .refl

theorem others_passLeave (c : CtxId) (k : LaneId) : Others n w (w.passLeave c k) := by
  unfold Work.passLeave
  split
  · refine Others.trans (.of_eq (fun m _ => ?_)) (others_dropFromPass c k)
    exact lane_releaseBufs _
  · exact .refl

theorem lane_settleJob (env : Env) (i : SlotId) : (w.settleJob env i).lane m = w.lane m := by
  unfold Work.settleJob
  split
  · rfl
  · split
    · rfl
    · split
      · rfl
      · exact completeAs_lane w env i 2

/-- What leaving does to the lane itself. -/
theorem lane_leave (env : Env) : (w.leave env n).lane m = if m = n then
    (if (w.lane n).ctx.slot.isSome then (w.lane n).release else w.lane n) else w.lane m := by
  unfold Work.leave
  split
  · rename_i h; rw [h]; split <;> [(rename_i e; subst e; rfl); rfl]
  · rename_i i h
    rw [lane_settleJob, lane_setOwner, lane_modLane, h]; rfl

theorem others_leave (env : Env) : Others n w (w.leave env n) := .of_eq (fun m hm => by rw [lane_leave, if_neg hm])

theorem others_request (r : Request) : Others n w (w.request n r) := by
  unfold Work.request Work.holdBack
  split <;> exact others_modLane _

theorem others_finishEnd (env : Env) (e : EndAction) : Others n w (w.finishEnd env n e) := by
  unfold Work.finishEnd
  split
  · exact others_leave env
  · split
    · exact others_leave env
    · exact (others_modLane _).trans (others_leave env)
    · exact (others_modLane _).trans (others_leave env)
    · exact others_modLane _

theorem others_startEnd (env : Env) (e : EndAction) : Others n w (w.startEnd env n e) := by
  unfold Work.startEnd
  extract_lets w1 l
  have h : Others n w w1 := by unfold w1; split <;> [exact others_modLane _; exact .refl]
  refine h.trans ?_
  split
  · exact others_finishEnd env _
  · split
    · exact others_request _
    · exact others_finishEnd env _

theorem others_settle (env : Env) (r : LaneResult) : Others n w (w.settle env n r) := by
  unfold Work.settle
  split
  · exact .refl
  · rename_i j hj
    extract_lets w1
    have h : Others n w w1 := by
      unfold w1
      split
      · exact .of_eq (fun m _ => by unfold Work.freeFloors; rw [lane_freeBuf, lane_freeBuf])
      · exact others_passLeave _ n
      · exact .refl
    refine h.trans ?_
    split
    · exact (others_modLane _).trans (others_leave env)
    · exact (others_modLane _).trans (others_leave env)
    · exact (others_modLane _).trans (others_leave env)
    · exact others_leave env
    · exact others_leave env
    · exact others_leave env
    · exact others_leave env
    all_goals split
    all_goals first | exact others_startEnd env _ | exact others_leave env

theorem others_record (r : LaneResult) (fa : Option Word) : Others n w (w.record n r fa) := by
  unfold Work.record
  split
  · exact .refl
  · split
    · exact .refl
    · split
      · exact .of_eq (fun m hm => by simp [hm])
      · exact .refl

/-- A final result changes no other lane but in its cursor and its step. -/
theorem finalize_others (env : Env) (r : LaneResult) (fa : Option Word) : Others n w (w.finalize env n r fa) := by
  unfold Work.finalize
  split
  · exact (others_record r fa).trans (others_settle env r)
  · exact .refl

end Sys2Proof.Laws
end

