-- ==== Sys2Proof/Laws/Answers.lean ====
section
/-! SUPPORT. What an event at one lane answers: with RESET_N high, outside the drain, or in it at a lane that is not at
rest. The bit times, the fields of a reply frame, and what the tests on a record's bytes say. -/

namespace Sys2Proof.Laws

-- One theorem at a time: a thread for each would ask for more stack than the check allows.
set_option Elab.async false

open Sys2Proof.Machine

variable {s : State} {w : Work} {n : LaneId} {env : Env}

/-- With RESET_N high a command answers its effect, with what a freed slot takes (R150) and IRQ_N as it follows (R156,
R163). -/
theorem answer_awake (h : s.Awake) (u : State) : s.answer u = .next (s.takeFreed u).refreshIrq := by
  have e : s.part.resetLow = false := h
  simp [State.answer, e]

/-- No slot has been freed: nothing is taken. -/
theorem takeFreed_slots {u : State} (h : u.work.slots = s.work.slots) : s.takeFreed u = u := by
  have e : u.work.freeSlot = s.work.freeSlot := by unfold Work.freeSlot Work.slot; rw [h]
  unfold State.takeFreed
  rw [if_neg]
  rintro ⟨a, b, -⟩
  rw [e] at b
  cases hs : s.work.freeSlot <;> simp_all

/-- No record waits: nothing is taken. -/
theorem takeFreed_none {u : State} (h : u.intake.held = none) : s.takeFreed u = u := by
  unfold State.takeFreed State.heldWaits
  rw [h, if_neg]
  rintro ⟨-, -, c⟩
  exact absurd c (by decide)

/-- What a freed slot takes (R150, R1, R5): nothing, or the waiting record, placed in the lowest-numbered free slot. -/
theorem takeFreed_spec (s u : State) : s.takeFreed u = u ∨ ∃ r a i, s.work.freeSlot = none ∧ u.part.state = .running
    ∧ u.intake.held = some r ∧ judgeRecord r = .slotted a ∧ u.work.freeSlot = some i
    ∧ s.takeFreed u =
      { u with
        rings := { u.rings with jobHead := (u.rings.jobHead + 1) % u.rings.jobSize }
        intake := { u.intake with counter := u.intake.counter + 1, held := none }
        work := { u.work.setSlot i (some (placedSlot r u.intake.counter a)) with
                  grantList := u.work.grantList ++ [i], reserved := u.work.reserved + 1 } } := by
  unfold State.takeFreed
  split
  · rename_i g
    obtain ⟨g1, g2, g3⟩ := g
    obtain ⟨i, hi⟩ := Option.isSome_iff_exists.mp g2
    unfold State.heldWaits at g3
    cases hr : u.intake.held with
    | none => rw [hr] at g3; exact absurd g3 (by decide)
    | some r =>
      rw [hr] at g3
      cases ha : judgeRecord r with
      | refused x => rw [Option.map_some, ha] at g3; cases g3
      | cancel x => rw [Option.map_some, ha] at g3; cases g3
      | slotted a =>
        unfold State.jobTake
        rw [hr]
        dsimp only
        split
        · rename_i c
          unfold State.canTake at c
          simp only [Bool.and_eq_true, decide_eq_true_eq] at c
          refine .inr ⟨r, a, i, by simpa using g1, c.1, rfl, ha, hi, ?_⟩
          unfold State.take State.onWork Work.admitRecord Work.place
          simp only [ha]
          have hi' : Work.freeSlot { u.work with reserved := u.work.reserved + 1 } = some i := hi
          rw [hi']
          rfl
        · exact .inl rfl
  · exact .inl rfl

/-- A record placed in a freed slot moves no lane, no port and no timer, and takes back no final result. -/
theorem takeFreed_same (s u : State) : (s.takeFreed u).work.lanes = u.work.lanes ∧ (s.takeFreed u).port = u.port
    ∧ (s.takeFreed u).part = u.part ∧ (s.takeFreed u).work.queue = u.work.queue ∧ (s.takeFreed u).posting = u.posting
    ∧ (s.takeFreed u).work.ctxs = u.work.ctxs ∧ (s.takeFreed u).work.pool = u.work.pool
    ∧ (s.takeFreed u).pending = u.pending
    ∧ ∀ i, (s.takeFreed u).work.slot i = u.work.slot i
      ∨ (u.work.slot i = none ∧ ∃ j, (s.takeFreed u).work.slot i = some j ∧ j.live = 0 ∧ j.state = .waiting) := by
  rcases takeFreed_spec s u with e | ⟨r, a, i, -, -, -, -, hi, e⟩
  · rw [e]; exact ⟨rfl, rfl, rfl, rfl, rfl, rfl, rfl, rfl, fun _ => .inl rfl⟩
  · rw [e]
    refine ⟨rfl, rfl, rfl, rfl, rfl, rfl, rfl, rfl, fun k => ?_⟩
    have vs : ∀ k, ({ u.work.setSlot i (some (placedSlot r u.intake.counter a)) with
        grantList := u.work.grantList ++ [i], reserved := u.work.reserved + 1 } : Work).slot k
          = if k = i then some (placedSlot r u.intake.counter a) else u.work.slot k := fun k => slot_setSlot ..
    by_cases q : k = i
    · subst q
      have hn : u.work.slot k = none := by simpa using List.find?_some hi
      exact .inr ⟨hn, _, (vs k).trans (if_pos rfl), rfl, rfl⟩
    · exact .inl ((vs k).trans (if_neg q))

/-- A final result stays recorded when a freed slot takes a record. -/
theorem takeFreed_taken {v : Work} {u : State} {r : LaneResult} (h : v.ResultTaken u.work n r) :
    v.ResultTaken (s.takeFreed u).work n r := by
  intro i j a b c d
  obtain ⟨-, -, -, hq, -, -, -, -, hs⟩ := takeFreed_same s u
  rcases h i j a b c d with ⟨j', e, f⟩ | ⟨e, f⟩
  · rcases hs i with q | ⟨q, -⟩
    · exact .inl ⟨j', q.trans e, f⟩
    · rw [q] at e; cases e
  · refine .inr ⟨fun j' g => ?_, hq ▸ f⟩
    rcases hs i with q | ⟨q, j2, g2, g3, -⟩
    · exact e j' (q ▸ g)
    · rw [g2] at g; cases g; rw [g3]; simp [hasLane]

theorem takeFreed_takenAt {v : Work} {u : State} {r : LaneResult} {fa : Option Word} (h : v.ResultTakenAt u.work n r fa) :
    v.ResultTakenAt (s.takeFreed u).work n r fa := by
  intro i j a b c d
  obtain ⟨-, -, -, hq, -, -, -, -, hs⟩ := takeFreed_same s u
  rcases h i j a b c d with ⟨j', e, f⟩ | ⟨e, f⟩
  · rcases hs i with q | ⟨q, -⟩
    · exact .inl ⟨j', q.trans e, f⟩
    · rw [q] at e; cases e
  · refine .inr ⟨fun j' g => ?_, hq ▸ f⟩
    rcases hs i with q | ⟨q, j2, g2, g3, -⟩
    · exact e j' (q ▸ g)
    · rw [g2] at g; cases g; rw [g3]; simp [hasLane]

/-- A lane that is not live stays so when a freed slot takes a record. -/
theorem takeFreed_notLive {u : State} (h : u.work.isLive n = false) : (s.takeFreed u).work.isLive n = false := by
  obtain ⟨hl, -, -, -, -, -, -, -, hs⟩ := takeFreed_same s u
  rw [idleIn_iff] at h ⊢
  intro i j a b
  have a' : (u.work.lane n).ctx.slot = some i := by unfold Work.lane at *; rw [hl] at a; exact a
  rcases hs i with q | ⟨q, j2, g2, g3, -⟩
  · exact h i j a' (q ▸ b)
  · rw [g2] at b; cases b; rw [g3]; simp [hasLane]

theorem answer_slots (h : s.Awake) {u : State} (e : u.work.slots = s.work.slots) : s.answer u = .next u.refreshIrq := by
  rw [answer_awake h, takeFreed_slots e]

theorem answer_none (h : s.Awake) {u : State} (e : u.intake.held = none) : s.answer u = .next u.refreshIrq := by
  rw [answer_awake h, takeFreed_none e]

theorem drainCheck_other (h : env.part ≠ .draining) : w.drainCheck env n = w := by simp [Work.drainCheck, h]

/-- A lane with a request outstanding is not at rest. -/
theorem tryDrain_busy {l : Lane} (h : l.link.state ≠ .idle) : l.tryDrain = l := by
  unfold Lane.tryDrain
  rw [if_neg]
  simp [Lane.atRest, Lane.atBoundary, Lane.linkIdle, h]

theorem drainCheck_busy (h : (w.lane n).link.state ≠ .idle) : w.drainCheck env n = w := by
  unfold Work.drainCheck
  split
  · rw [Work.modLane, tryDrain_busy h, setLane_self]
  · rfl

/-- An event that changes one lane, outside the drain. -/
theorem laneEvent_lane {f : Env → Lane → Lane} (h : s.part.state ≠ .draining) :
    s.laneEvent n (fun env w => w.modLane n (f env)) = s.withLane n (f s.env (s.work.lane n)) := by
  unfold State.laneEvent State.onWork State.withLane
  dsimp only
  rw [drainCheck_other (show s.env.part ≠ .draining from h)]
  rfl

/-- An event that changes one lane and leaves it with a request outstanding. -/
theorem laneEvent_busy {f : Env → Lane → Lane} (h : (f s.env (s.work.lane n)).link.state ≠ .idle) :
    s.laneEvent n (fun env w => w.modLane n (f env)) = s.withLane n (f s.env (s.work.lane n)) := by
  unfold State.laneEvent State.onWork State.withLane
  dsimp only
  rw [drainCheck_busy (by simpa using h)]
  rfl

@[simp] theorem withLane_work (l : Lane) : (s.withLane n l).work = s.work.setLane n l := rfl

/-- The bit times of Table 3-1. -/
theorem bitTime_of_mem {rate bit : Nat}
    (h : (rate, bit) ∈ [(0, 417), (1, 192), (2, 96), (3, 48), (4, 24), (5, 16)]) : bitTime rate = bit := by
  simp at h
  rcases h with ⟨rfl, rfl⟩ | ⟨rfl, rfl⟩ | ⟨rfl, rfl⟩ | ⟨rfl, rfl⟩ | ⟨rfl, rfl⟩ | ⟨rfl, rfl⟩ <;> rfl

/-! ## Characters (R43, R45) -/

/-- A sender's bits stand for their bit time, the line is high after them, and so a character is read as it was sent. -/
theorem characterBits_length (b : Byte) : (characterBits b).length = 10 := by simp [characterBits]

theorem sentLevel_bit {rate : Nat} (b : Byte) {k t : Nat} (h : k * bitTime rate ≤ t) (h' : t < (k + 1) * bitTime rate) :
    sentLevel rate [b] t = (characterBits b).getD k true := by
  have e : t / bitTime rate = k := by
    refine Nat.div_eq_of_lt_le h ?_
    exact h'
  unfold sentLevel frameBits
  rw [e]
  simp

/-! ## Reply frames (R48, Table 3-4) -/

theorem leBytes_length (k v : Nat) : (leBytes k v).length = k := by
  induction k generalizing v with
  | zero => rfl
  | succ k ih => simp [leBytes, ih]

variable {kind seq status : Byte} {p : List Byte} {check : Half}

theorem replyWith_eq : replyWith kind seq status p check =
    0x3C#8 :: kind :: seq :: status :: BitVec.ofNat 8 p.length :: BitVec.ofNat 8 (p.length / 256) ::
      (p ++ [BitVec.ofNat 8 check.toNat, BitVec.ofNat 8 (check.toNat / 256)]) := by
  simp [replyWith, leBytes]

theorem replyWith_len (h : p.length ≤ 264) : replyLen (replyWith kind seq status p check) = p.length := by
  rw [replyWith_eq]
  simp [replyLen, fieldAt, byteAt]
  omega

theorem halfAt_append (p : List Byte) (check : Half) (q : List Byte) (h : q.length = 6) :
    halfAt (q ++ (p ++ [BitVec.ofNat 8 check.toNat, BitVec.ofNat 8 (check.toNat / 256)])) (6 + p.length) = check := by
  have a : byteAt (q ++ (p ++ [BitVec.ofNat 8 check.toNat, BitVec.ofNat 8 (check.toNat / 256)])) (6 + p.length)
      = BitVec.ofNat 8 check.toNat := by
    unfold byteAt
    rw [List.getD_append_right _ _ _ _ (by omega), List.getD_append_right _ _ _ _ (by omega)]
    simp [h]
  have b : byteAt (q ++ (p ++ [BitVec.ofNat 8 check.toNat, BitVec.ofNat 8 (check.toNat / 256)])) (6 + p.length + 1)
      = BitVec.ofNat 8 (check.toNat / 256) := by
    unfold byteAt
    rw [List.getD_append_right _ _ _ _ (by omega), List.getD_append_right _ _ _ _ (by omega)]
    simp [h, show 6 + p.length - 5 - p.length = 1 by omega]
  unfold halfAt fieldAt fieldAt fieldAt
  rw [a, b]
  apply BitVec.eq_of_toNat_eq
  have := check.isLt
  simp
  omega

/-- The fields of a reply laid out by Table 3-4. -/
theorem replyOf_replyWith (h : p.length ≤ 264) : isFrame (replyWith kind seq status p check) = true
    ∧ replyOf (replyWith kind seq status p check) =
      { kind := kind, seq := seq, status := status, payload := p, check := check,
        computed := replyCheck kind seq status p } := by
  have e := replyWith_len (kind := kind) (seq := seq) (status := status) (check := check) h
  constructor
  · unfold isFrame
    rw [e, replyWith_eq]
    simp [byteAt, replyLead, Config.maxPayload, h]
    omega
  · unfold replyOf
    rw [e]
    have hh : halfAt (replyWith kind seq status p check) (6 + p.length) = check := by
      rw [replyWith_eq]
      exact halfAt_append p check
        [0x3C#8, kind, seq, status, BitVec.ofNat 8 p.length, BitVec.ofNat 8 (p.length / 256)] rfl
    dsimp only
    rw [hh]
    have hp : slice (replyWith kind seq status p check) 6 p.length = p := by
      rw [replyWith_eq]; simp [slice]
    have hc : slice (replyWith kind seq status p check) 1 (5 + p.length)
        = [kind, seq, status] ++ leBytes 2 p.length ++ p := by
      rw [replyWith_eq]; simp [slice, leBytes, Nat.add_comm 5]
    rw [hp, hc, replyWith_eq]
    simp [byteAt, replyCheck]

/-! ## An accepted reply -/

/-- The part acts, and does not drain. -/
theorem acting_of_mem (h : s.part.state ∈ [.loading, .running, .quiescing, .quiesced]) :
    s.env.acting = true ∧ s.part.state ≠ .draining := by
  unfold State.env Env.acting
  simp only [List.mem_cons, List.not_mem_nil, or_false] at h
  rcases h with h | h | h | h <;> rw [h] <;> exact ⟨rfl, by decide⟩

theorem canReceive_of_listens {l : Lane} (h : l.Listens) : l.canReceive = true := by
  simp [Lane.canReceive, h.1, h.2]

/-- A lane as an answered exchange leaves it (R35, R57, R58). -/
def answeredLane (l : Lane) : Lane :=
  { l with
    ctx := { l.ctx with seq := l.ctx.seq + 1, answered := true, trial := false,
                        state := if l.ctx.state = .active then .ready else l.ctx.state }
    link := .idle
    lines := { l.lines with tdatDriven := false } }

theorem afterExchange_answered (l l' : Lane) (o : ExchangeOutcome) (h : o.answered = true) (a : l'.ctx = l.ctx)
    (b : l'.lines = l.lines) (c : l'.settings = l.settings) (d : l'.supply = l.supply) (e : l'.eng = l.eng)
    (p : Purpose) (hp : p.isClose = false) :
    l'.exchangeOver p o = answeredLane l := by
  obtain ⟨ctx, settings, link, supply, lines, eng⟩ := l'
  cases a; cases b; cases c; cases d; cases e
  unfold Lane.exchangeOver Lane.afterExchange Lane.unanswered answeredLane Lane.closeExchange
  rw [h, hp]
  by_cases hs : l.ctx.state = .active
  · simp [hs]
  · simp [hs]

/-- A frame that R56 accepts, in answer to a request of linking or of a step: the exchange is over, and the reply is taken
(R62). -/
theorem reply_accepted {r : Request} (aw : s.Awake) (hs : s.part.state ∈ [.loading, .running, .quiescing, .quiesced])
    (li : (s.work.lane n).Listens) (hr : (s.work.lane n).link.req = some r) (hp : p.length ≤ 264)
    (hst : status ≠ statusBadFrame)
    (hc : ∀ e a, r.purpose ≠ .closeFresh ∧ r.purpose ≠ .closeEnd e ∧ r.purpose ≠ .closeAction a) :
    exec (.replyFrameComplete n (replyFrame (r.kind + 0x80#8) (s.work.lane n).link.seq status p)) s =
      .next (State.refreshIrq (s.takeFreed
        { s with
          work := (s.work.setLane n (answeredLane (s.work.lane n))).replyTaken s.env n r
            (replyFrame (r.kind + 0x80#8) (s.work.lane n).link.seq status p) status p })) := by
  obtain ⟨ha, hd⟩ := acting_of_mem hs
  obtain ⟨f1, f2⟩ := replyOf_replyWith (kind := r.kind + 0x80#8) (seq := (s.work.lane n).link.seq) (status := status)
    (check := replyCheck (r.kind + 0x80#8) (s.work.lane n).link.seq status p) hp
  show s.answer _ = _
  rw [answer_awake aw, if_pos (canReceive_of_listens li)]
  unfold State.linkEvent State.laneEvent State.onWork
  dsimp only
  rw [drainCheck_other (show s.env.part ≠ .draining from hd)]
  congr 4
  unfold Lane.judge
  rw [show replyFrame (r.kind + 0x80#8) (s.work.lane n).link.seq status p
    = replyWith (r.kind + 0x80#8) (s.work.lane n).link.seq status p
      (replyCheck (r.kind + 0x80#8) (s.work.lane n).link.seq status p) from rfl, f2]
  generalize replyWith (r.kind + 0x80#8) (s.work.lane n).link.seq status p
      (replyCheck (r.kind + 0x80#8) (s.work.lane n).link.seq status p) = frame at f1 ⊢
  simp only [f1, Bool.not_true, Bool.false_eq_true, if_false, ne_eq, not_true, Lane.kindOut, hr, if_neg hst,
    Work.linkStep, Work.exchangeEnd, lane_setLane, if_true, ha]
  have e : ∀ l' : Lane, l'.ctx = (s.work.lane n).ctx → l'.lines = (s.work.lane n).lines →
      l'.settings = (s.work.lane n).settings → l'.supply = (s.work.lane n).supply → l'.eng = (s.work.lane n).eng →
      ∀ q : Purpose, q.isClose = false →
      (s.work.setLane n l').modLane n (Lane.exchangeOver q (.accepted status p))
        = s.work.setLane n (answeredLane (s.work.lane n)) := by
    intro l' h1 h2 h3 h4 h5 q hq
    rw [Work.modLane, setLane_setLane, lane_setLane, if_pos rfl, afterExchange_answered _ l' _ rfl h1 h2 h3 h4 h5 q hq]
  cases hpur : r.purpose
  case closeFresh => exact absurd hpur (hc .keep .hold).1
  case closeEnd => exact absurd hpur (hc _ .hold).2.1
  case closeAction => exact absurd hpur (hc .keep _).2.2
  all_goals
    simp only [Work.requestEnd]
    rw [e] <;> rfl

/-! ## The tests on the bytes of a job record -/

/-- A mask of more than one lane (R117). -/
theorem moreThanOne_iff :
    ∀ m : LaneMask, moreThanOne m = true ↔ ∃ n k : LaneId, n ≠ k ∧ hasLane m n = true ∧ hasLane m k = true := by
  decide +kernel

/-- An empty step set: none of the five bits (R98). -/
theorem stepSet_isEmpty_iff : ∀ b : Byte, (stepSetOf b).isEmpty = true ↔ b.toNat % 32 = 0 := by decide +kernel

/-- The kinds that Table 4-6 permits in an EXCHANGE entry (R76). -/
theorem exchangeKindPermitted_iff : ∀ k : Byte,
    exchangeKindPermitted k = true ↔ k.toNat ∈ [3, 4, 5, 6, 7, 8] ∨ (16 ≤ k.toNat ∧ k.toNat ≤ 127) := by
  decide +kernel

end Sys2Proof.Laws
end

