-- ==== Sys2Proof/Laws/Tables.lean ====
section
/-! SUPPORT. The tables of the part field by field: what completing a job, a lane's leaving, a grant's hand-over and the
removal of a WAITING job do to each of them, and with that how `Work.TablesSound` and `Work.PoolSound` go along a path. -/

namespace Sys2Proof.Laws

-- One theorem at a time: a thread for each would ask for more stack than the check allows.
set_option Elab.async false

open Sys2Proof.Machine

variable {w w' : Work} {d : Prop}

/-! ## Field by field -/

theorem completeAs_owner (w : Work) (env : Env) (i : SlotId) (x : Half) (n : LaneId) :
    (w.completeAs env i x).ownerOf n = w.ownerOf n := by
  unfold Work.completeAs
  cases h : w.slot i with
  | none => rfl
  | some j => dsimp only; split <;> split <;> simp [Work.returnCtx]

theorem completeAs_grantList (w : Work) (env : Env) (i : SlotId) (x : Half) :
    (w.completeAs env i x).grantList = w.grantList := by
  unfold Work.completeAs
  cases h : w.slot i with
  | none => rfl
  | some j => dsimp only; split <;> split <;> simp [Work.returnCtx]

theorem completeAs_buf (w : Work) (env : Env) (i : SlotId) (x : Half) (b : BufId) :
    (w.completeAs env i x).buf b = w.buf b := by
  unfold Work.completeAs
  cases h : w.slot i with
  | none => rfl
  | some j => dsimp only; split <;> split <;> simp [Work.returnCtx]

/-- A completed job's context is returned (R9). -/
theorem completeAs_ctx (w : Work) (env : Env) (i : SlotId) (x : Half) (c : CtxId) {j : JobSlot} (h : w.slot i = some j) :
    (w.completeAs env i x).ctx c = if j.ctx = some c then .free else w.ctx c := by
  unfold Work.completeAs
  rw [h]
  dsimp only
  cases hc : j.ctx with
  | none => simp; split <;> simp
  | some e =>
    dsimp only
    by_cases q : c = e
    · subst q; split <;> simp [Work.returnCtx]
    · have q' : ¬ e = c := fun h => q h.symm
      split <;> simp [Work.returnCtx, q, q']

/-- What the hand-over's loop does to one lane. -/
theorem forGranted (i : SlotId) (ns : List LaneId) (w : Work) :
    let v := w.forLanes ns (fun w n => (w.modLane n (Lane.granted i)).setOwner n (some i))
    (∀ m, v.lane m = if m ∈ ns then (w.lane m).granted i else w.lane m)
      ∧ (∀ m, v.ownerOf m = if m ∈ ns then some i else w.ownerOf m)
      ∧ v = { w with lanes := v.lanes, owner := v.owner } := by
  induction ns generalizing w with
  | nil => exact ⟨fun _ => by simp [Work.forLanes], fun _ => by simp [Work.forLanes], rfl⟩
  | cons n ns ih =>
    obtain ⟨h1, h2, h3⟩ := ih ((w.modLane n (Lane.granted i)).setOwner n (some i))
    refine ⟨fun m => ?_, fun m => ?_, ?_⟩
    · refine (h1 m).trans ?_
      by_cases e : m = n
      · subst e; simp [Lane.granted, Lane.causeAddr]
      · simp [e]
    · refine (h2 m).trans ?_
      by_cases e : m = n
      · subst e; simp
      · simp [e]
    · exact h3

variable (w) (i : SlotId) (j : JobSlot)

/-- The hand-over but for the context. -/
theorem handOver_lanes : ∃ v : Work,
    w.handOver i j = v.takeCtx i j.granted
      ∧ (∀ m, v.lane m = if hasLane j.mask m = true then (w.lane m).granted i else w.lane m)
      ∧ (∀ m, v.ownerOf m = if hasLane j.mask m = true then some i else w.ownerOf m)
      ∧ v.grantList = w.grantList.filter (fun k => k ≠ i)
      ∧ (∀ k, v.slot k = if k = i then some j.granted else w.slot k)
      ∧ (∀ c, v.ctx c = w.ctx c) ∧ (∀ b, v.buf b = w.buf b) ∧ v.queue = w.queue ∧ v.reserved = w.reserved := by
  obtain ⟨h1, h2, h3⟩ := forGranted i (lanesIn j.mask)
    (Work.setSlot { w with grantList := w.grantList.filter (fun k => k ≠ i) } i (some j.granted))
  refine ⟨_, rfl, fun m => ?_, fun m => ?_, ?_, ?_, ?_, ?_, ?_, ?_⟩
  · rw [h1 m]; simp only [mem_lanesIn]; rfl
  · rw [h2 m]; simp only [mem_lanesIn]; rfl
  all_goals rw [h3]
  · rfl
  · intro k; simp [Work.slot, Work.setSlot]
  · exact fun _ => rfl
  · exact fun _ => rfl
  · rfl
  · rfl

/-- The taking of a context (R9). -/
theorem takeCtx_cases : w.takeCtx i j = w ∨ ∃ c, (w.ctx c).state = .free ∧
    w.takeCtx i j = (w.setCtx c (grantedCtx i j.args)).setSlot i (some { j with ctx := some c }) := by
  unfold Work.takeCtx
  split
  · split
    · rename_i c h
      refine .inr ⟨c, ?_, rfl⟩
      have := List.find?_some h
      simpa using this
    · exact .inl rfl
  · exact .inl rfl

/-- The tables after a hand-over (R8, R9). -/
theorem handOver_fields :
    (∀ m, (w.handOver i j).lane m = if hasLane j.mask m = true then (w.lane m).granted i else w.lane m)
      ∧ (∀ m, (w.handOver i j).ownerOf m = if hasLane j.mask m = true then some i else w.ownerOf m)
      ∧ (w.handOver i j).grantList = w.grantList.filter (fun k => k ≠ i)
      ∧ (∀ b, (w.handOver i j).buf b = w.buf b)
      ∧ (w.handOver i j).queue = w.queue ∧ (w.handOver i j).reserved = w.reserved
      ∧ (((∀ k, (w.handOver i j).slot k = if k = i then some j.granted else w.slot k) ∧ ∀ c, (w.handOver i j).ctx c = w.ctx c)
        ∨ ∃ c, (w.ctx c).state = .free
          ∧ (∀ k, (w.handOver i j).slot k = if k = i then some { j.granted with ctx := some c } else w.slot k)
          ∧ ∀ e, (w.handOver i j).ctx e = if e = c then grantedCtx i j.args else w.ctx e) := by
  obtain ⟨v, e, h1, h2, h3, h4, h5, h6, h7, h8⟩ := handOver_lanes w i j
  rw [e]
  rcases takeCtx_cases v i j.granted with q | ⟨c, hc, q⟩
  · rw [q]; exact ⟨h1, h2, h3, h6, h7, h8, .inl ⟨h4, h5⟩⟩
  · rw [q]
    refine ⟨h1, h2, h3, h6, h7, h8, .inr ⟨c, by rw [← h5 c]; exact hc, fun k => ?_, fun e => ?_⟩⟩
    · rw [slot_setSlot]
      by_cases hk : k = i
      · rw [if_pos hk, if_pos hk]
      · rw [if_neg hk, if_neg hk, slot_setCtx, h4, if_neg hk]
    · rw [ctx_setSlot, ctx_setCtx]; split <;> [rfl; exact h5 e]

variable {w i j}

/-! ## The tables agree (R4, R5, R9, R81) -/

/-- Two states of the tables that agree in what `TablesSound` reads. -/
theorem tables_congr (h : w.TablesSound d) (g : w'.grantList = w.grantList)
    (s : ∀ i, w'.slot i = w.slot i ∨ ∃ j j', w.slot i = some j ∧ w'.slot i = some j' ∧ j'.mask = j.mask ∧ j'.ctx = j.ctx
      ∧ (j'.state = .waiting ↔ j.state = .waiting))
    (l : ∀ n, (w'.lane n).ctx.slot = (w.lane n).ctx.slot ∧ (w'.lane n).eng.drained = (w.lane n).eng.drained)
    (o : ∀ n, w'.ownerOf n = w.ownerOf n)
    (c : ∀ c, (w'.ctx c).slot = (w.ctx c).slot ∧ ((w'.ctx c).state = .free ↔ (w.ctx c).state = .free)) :
    w'.TablesSound d := by
  have sw : ∀ i, (∃ j, w'.slot i = some j ∧ j.state = .waiting) ↔ ∃ j, w.slot i = some j ∧ j.state = .waiting := by
    intro i
    rcases s i with e | ⟨j, j', a, b, -, -, q⟩
    · rw [e]
    · rw [a, b]; simp [q]
  constructor
  · rw [g]; exact h.nodup
  · intro i; rw [g, h.waiting i]; exact (sw i).symm
  · intro n i e; rw [o]; rw [(l n).1] at e; exact h.lane n i e
  · intro n i e; rw [o] at e; rw [(l n).1, (l n).2]; exact h.owner n i e
  · intro hd n e; rw [(l n).2] at e; rw [(l n).1]; exact h.drained hd n e
  · intro n i e
    rw [o] at e
    obtain ⟨j, a, b, p⟩ := h.holder n i e
    rcases s i with q | ⟨j0, j', a', b', m, -, q⟩
    · exact ⟨j, q.trans a, b, p⟩
    · rw [a] at a'; cases a'
      exact ⟨j', b', m ▸ b, fun f => p (q.mp f)⟩
  · intro i j e f
    rcases s i with q | ⟨j0, j', a', b', -, m, q⟩
    · exact h.noContext i j (q ▸ e) f
    · rw [e] at b'; cases b'
      rw [m]; exact h.noContext i j0 a' (q.mp f)
  · intro x i
    rw [(c x).1, h.context x i]
    rcases s i with q | ⟨j0, j', a', b', -, m, q⟩
    · rw [q]
    · rw [a', b']; simp [m]
  · intro x; rw [(c x).2, (c x).1]; exact h.free x

/-- A slot that a lane or a context names is not a WAITING job's. -/
theorem inUse_running (h : w.TablesSound d) {i : SlotId} (u : InUse w i) {j : JobSlot} (e : w.slot i = some j) :
    j.state ≠ .waiting := by
  rcases u with ⟨n, hn⟩ | ⟨c, hc⟩
  · obtain ⟨j', a, -, p⟩ := h.holder n i (h.lane n i hn)
    rw [e] at a; cases a; exact p
  · obtain ⟨j', a, b⟩ := (h.context c i).mp hc
    rw [e] at a; cases a
    intro f
    rw [h.noContext i j e f] at b; cases b

/-- A lane lets go of its slot. -/
theorem tables_release (h : w.TablesSound d) (n : LaneId) :
    ((w.modLane n Lane.release).setOwner n none).TablesSound d := by
  constructor
  · exact h.nodup
  · exact h.waiting
  · intro m i e
    by_cases q : m = n
    · subst q; simp [Lane.release] at e
    · simp [q] at e ⊢; exact h.lane m i e
  · intro m i e
    by_cases q : m = n
    · subst q; simp at e
    · simp [q] at e ⊢; exact h.owner m i e
  · intro hd m e
    by_cases q : m = n
    · subst q; simp [Lane.release]
    · simp [q] at e ⊢; exact h.drained hd m e
  · intro m i e
    by_cases q : m = n
    · subst q; simp at e
    · simp [q] at e ⊢; exact h.holder m i e
  · exact h.noContext
  · exact h.context
  · exact h.free

/-- A job that no lane holds and that does not wait completes. -/
theorem tables_complete (h : w.TablesSound d) (env : Env) (x : Half) (hn : ∀ n, w.ownerOf n ≠ some i)
    (hw : i ∉ w.grantList) : (w.completeAs env i x).TablesSound d := by
  cases hj : w.slot i with
  | none => unfold Work.completeAs; rw [hj]; exact h
  | some j =>
    have hi : ∀ k j', (w.completeAs env i x).slot k = some j' → k ≠ i ∧ w.slot k = some j' := by
      intro k j' e
      rw [completeAs_slot] at e
      split at e
      · cases e
      · rename_i q; exact ⟨q, e⟩
    have back : ∀ k, k ≠ i → (w.completeAs env i x).slot k = w.slot k := by
      intro k q; rw [completeAs_slot, if_neg q]
    constructor
    · rw [completeAs_grantList]; exact h.nodup
    · intro k
      rw [completeAs_grantList, h.waiting k]
      by_cases q : k = i
      · subst q
        constructor
        · intro e; exact absurd ((h.waiting _).mpr e) hw
        · rintro ⟨j', e, -⟩; exact absurd rfl (hi _ _ e).1
      · rw [back k q]
    · intro n k e; rw [completeAs_owner]; rw [completeAs_lane] at e; exact h.lane n k e
    · intro n k e; rw [completeAs_owner] at e; rw [completeAs_lane]; exact h.owner n k e
    · intro hd n e; rw [completeAs_lane] at e ⊢; exact h.drained hd n e
    · intro n k e
      rw [completeAs_owner] at e
      have q : k ≠ i := by rintro rfl; exact hn n e
      obtain ⟨j', a, b, p⟩ := h.holder n k e
      exact ⟨j', by rw [back k q]; exact a, b, p⟩
    · intro k j' e f; exact h.noContext k j' (hi k j' e).2 f
    · intro c k
      rw [completeAs_ctx w env i x c hj]
      by_cases q : j.ctx = some c
      · rw [if_pos q]
        constructor
        · intro e; cases e
        · rintro ⟨j', e, f⟩
          obtain ⟨r1, r2⟩ := hi k j' e
          have a := (h.context c k).mpr ⟨j', r2, f⟩
          have b := (h.context c i).mpr ⟨j, hj, q⟩
          rw [a] at b; cases b; exact absurd rfl r1
      · rw [if_neg q]
        by_cases r : k = i
        · subst r
          constructor
          · intro e
            obtain ⟨j', a, b⟩ := (h.context c k).mp e
            rw [hj] at a; cases a; exact absurd b q
          · rintro ⟨j', e, -⟩; exact absurd rfl (hi _ _ e).1
        · rw [back k r]; exact h.context c k
    · intro c
      rw [completeAs_ctx w env i x c hj]
      split
      · exact ⟨fun _ => rfl, fun _ => rfl⟩
      · exact h.free c

/-- What an event that is no grant scan leaves: the tables agree, a WAITING job's slot stands, and no lane is taken. -/
structure TablesKept (d : Prop) (w w' : Work) : Prop where
  sound : w'.TablesSound d
  waits : ∀ i j, w.slot i = some j → j.state = .waiting → w'.slot i = some j
  owned : ∀ n, w.ownerOf n = none → w'.ownerOf n = none

theorem tables_of_path (r : Path False d w w') (h : w.TablesSound d) : TablesKept d w w' := by
  induction r with
  | refl => exact ⟨h, fun _ _ e _ => e, fun _ e => e⟩
  | @lane w' n l _ m ih =>
    refine ⟨tables_congr ih.sound rfl (fun _ => .inl rfl) (fun k => ?_) (fun _ => rfl) (fun _ => ⟨rfl, .rfl⟩),
      ih.waits, ih.owned⟩
    rw [lane_setLane]; split
    · rename_i e; subst e; exact m.2.2
    · exact ⟨rfl, rfl⟩
  | @drain w' n l hd _ m ih =>
    refine ⟨?_, ih.waits, ih.owned⟩
    rcases m.2.2 with q | ⟨q1, q2⟩
    · refine tables_congr ih.sound rfl (fun _ => .inl rfl) (fun k => ?_) (fun _ => rfl) (fun _ => ⟨rfl, .rfl⟩)
      rw [lane_setLane]; split
      · rename_i e; subst e; exact q
      · exact ⟨rfl, rfl⟩
    · have t := ih.sound
      constructor
      · exact t.nodup
      · exact t.waiting
      · intro k i e
        rw [lane_setLane] at e
        split at e
        · rw [q1] at e; cases e
        · exact t.lane k i e
      · intro k i e
        rw [lane_setLane]
        split
        · exact .inr ⟨hd, q2⟩
        · exact t.owner k i e
      · intro _ k e
        rw [lane_setLane] at e ⊢
        split
        · exact q1
        · rename_i f; rw [if_neg f] at e; exact t.drained hd k e
      · exact t.holder
      · exact t.noContext
      · exact t.context
      · exact t.free
  | @settings w' n i j v _ e f ih =>
    refine ⟨tables_congr ih.sound rfl (fun _ => .inl rfl) (fun k => ?_) (fun _ => rfl) (fun _ => ⟨rfl, .rfl⟩),
      ih.waits, ih.owned⟩
    rw [lane_setLane]; split
    · rename_i e; subst e; exact ⟨rfl, rfl⟩
    · exact ⟨rfl, rfl⟩
  | @slot w' i j j' _ e u m ih =>
    have hw := inUse_running ih.sound u e
    have hw' : j'.state ≠ .waiting := by
      rcases m.2.2 with q | q
      · rw [q]; exact hw
      · rw [q]; decide
    refine ⟨tables_congr ih.sound rfl (fun k => ?_) (fun _ => ⟨rfl, rfl⟩) (fun _ => rfl) (fun _ => ⟨rfl, .rfl⟩), ?_, ih.owned⟩
    · by_cases q : k = i
      · subst q
        exact .inr ⟨j, j', e, by simp, m.1.2.1, m.1.2.2.2.2.2.2, by simp [hw, hw']⟩
      · exact .inl (by simp [q])
    · intro k jk a b
      have := ih.waits k jk a b
      rw [slot_setSlot, if_neg]
      · exact this
      · rintro rfl; rw [e] at this; cases this; exact hw b
  | @leave w' env n _ ih =>
    rcases leave_cases w' env n with e | ⟨i, hi, v, hv, q⟩
    · rw [e]; exact ih
    · have tv : v.TablesSound d := hv ▸ tables_release ih.sound n
      obtain ⟨j, hj, hm, hw⟩ := ih.sound.holder n i (ih.sound.lane n i hi)
      have vs : ∀ k, v.slot k = w'.slot k := fun k => by rw [hv]; rfl
      have vo : ∀ m, w.ownerOf m = none → v.ownerOf m = none := by
        intro m hm
        rw [hv]
        simp only [ownerOf_setOwner, ownerOf_modLane]
        split
        · rfl
        · exact ih.owned m hm
      have ne : ∀ k jk, w.slot k = some jk → jk.state = .waiting → k ≠ i ∧ w'.slot k = some jk := by
        intro k jk a b
        have c := ih.waits k jk a b
        refine ⟨?_, c⟩
        rintro rfl
        rw [hj] at c; cases c; exact hw b
      rcases q with e | ⟨j', hj', -, e⟩ | ⟨hno, e⟩ <;> rw [e]
      · exact ⟨tv, fun k jk a b => (vs k).trans (ne k jk a b).2, vo⟩
      · rw [vs, hj] at hj'; cases hj'
        refine ⟨tables_congr tv rfl (fun k => ?_) (fun _ => ⟨rfl, rfl⟩) (fun _ => rfl) (fun _ => ⟨rfl, .rfl⟩), ?_, vo⟩
        · by_cases r : k = i
          · subst r
            exact .inr ⟨j, { j with state := .ending }, (vs k).trans hj, by simp, rfl, rfl, by simp [hw]⟩
          · exact .inl (by simp [r])
        · intro k jk a b
          obtain ⟨r1, r2⟩ := ne k jk a b
          rw [slot_setSlot, if_neg r1, vs]; exact r2
      · refine ⟨tables_complete tv env 2 ?_ ?_, ?_, ?_⟩
        · intro m hm
          have : v.anyHeld i = true := by
            unfold Work.anyHeld
            rw [List.any_eq_true]
            exact ⟨m, by unfold Config.allLanes; fin_cases m <;> simp, by simp [hm]⟩
          rw [hno] at this; cases this
        · intro g
          obtain ⟨j', a, b⟩ := (tv.waiting i).mp g
          rw [vs, hj] at a; cases a; exact hw b
        · intro k jk a b
          obtain ⟨r1, r2⟩ := ne k jk a b
          rw [completeAs_slot, if_neg r1, vs]; exact r2
        · intro m hm; rw [completeAs_owner]; exact vo m hm
  | pool v _ m ih =>
    obtain ⟨e1, e2, e3, e4, -, -⟩ := poolMove_rest m
    refine ⟨tables_congr ih.sound e4 (fun i => .inl ?_) (fun n => ?_) (fun n => ?_) (fun c => ⟨m.slot c, m.free c⟩), ?_, ?_⟩
    · unfold Work.slot; rw [e1]
    · unfold Work.lane; rw [e2]; exact ⟨rfl, rfl⟩
    · unfold Work.ownerOf; rw [e3]
    · intro i j a b
      have := ih.waits i j a b
      unfold Work.slot at *; rw [e1]; exact this
    · intro n a
      have := ih.owned n a
      unfold Work.ownerOf at *; rw [e3]; exact this
  | served c _ ih =>
    exact ⟨tables_congr ih.sound rfl (fun _ => .inl rfl) (fun _ => ⟨rfl, rfl⟩) (fun _ => rfl) (fun _ => ⟨rfl, .rfl⟩),
      ih.waits, ih.owned⟩
  | handOver i j f => exact f.elim

/-- A WAITING job whose lanes are free is handed them (R6, R8, R9). -/
theorem tables_handOver (hd : ¬d) (h : w.TablesSound d) (hj : w.slot i = some j) (hw : j.state = .waiting)
    (ho : ∀ n, hasLane j.mask n = true → w.ownerOf n = none) : (w.handOver i j).TablesSound d := by
  obtain ⟨hl, hO, hg, -, -, -, hs⟩ := handOver_fields w i j
  have hc : j.ctx = none := h.noContext i j hj hw
  have noown : ∀ n, w.ownerOf n ≠ some i := by
    intro n e
    obtain ⟨j', a, -, p⟩ := h.holder n i e
    rw [hj] at a; cases a; exact p hw
  -- the slot of the job, and the others
  have slotI : ∃ jc, (w.handOver i j).slot i = some jc ∧ jc.mask = j.mask ∧ jc.state = .running := by
    rcases hs with ⟨q, -⟩ | ⟨c, -, q, -⟩
    · exact ⟨j.granted, (q i).trans (if_pos rfl), rfl, rfl⟩
    · exact ⟨{ j.granted with ctx := some c }, (q i).trans (if_pos rfl), rfl, rfl⟩
  have slotK : ∀ k, k ≠ i → (w.handOver i j).slot k = w.slot k := by
    intro k hk
    rcases hs with ⟨q, -⟩ | ⟨c, -, q, -⟩ <;> rw [q, if_neg hk]
  have drain0 : ∀ n i', (w.lane n).ctx.slot = some i' → hasLane j.mask n = false := by
    intro n i' e
    cases hm : hasLane j.mask n with
    | false => rfl
    | true => have := h.lane n i' e; rw [ho n hm] at this; cases this
  obtain ⟨ji, hji, hmi, hri⟩ := slotI
  constructor
  · rw [hg]; exact h.nodup.filter _
  · intro k
    rw [hg, List.mem_filter, h.waiting k]
    by_cases q : k = i
    · subst q
      constructor
      · rintro ⟨-, e⟩; simp at e
      · rintro ⟨j', a, b⟩; rw [hji] at a; cases a; rw [hri] at b; cases b
    · rw [slotK k q]; simp [q]
  · intro n k e
    rw [hl] at e
    rw [hO]
    split
    · rename_i hm; rw [if_pos hm] at e; simp [Lane.granted] at e; rw [e]
    · rename_i hm; rw [if_neg hm] at e; exact h.lane n k e
  · intro n k e
    rw [hO] at e
    rw [hl]
    split
    · rename_i hm; rw [if_pos hm] at e; exact .inl (by simpa [Lane.granted] using e)
    · rename_i hm; rw [if_neg hm] at e; exact h.owner n k e
  · exact fun f => (hd f).elim
  · intro n k e
    rw [hO] at e
    split at e
    · rename_i hm
      cases e
      exact ⟨ji, hji, hmi ▸ hm, by rw [hri]; decide⟩
    · obtain ⟨j', a, b, p⟩ := h.holder n k e
      have : k ≠ i := by rintro rfl; exact noown n e
      exact ⟨j', by rw [slotK k this]; exact a, b, p⟩
  · intro k j' e f
    by_cases q : k = i
    · subst q; rw [hji] at e; cases e; rw [hri] at f; cases f
    · rw [slotK k q] at e; exact h.noContext k j' e f
  · intro c k
    rcases hs with ⟨q, r⟩ | ⟨c0, hfree, q, r⟩
    · rw [r, h.context c k, q]
      split
      · rename_i e; subst e
        simp [hj, JobSlot.granted]
      · rfl
    · rw [r, q]
      have c0n := (h.free c0).mp hfree
      by_cases e : c = c0
      · subst e
        by_cases f : k = i
        · subst f; simp [grantedCtx]; split <;> rfl
        · simp only [f, if_true, if_false]
          constructor
          · intro g
            have : (grantedCtx i j.args).slot = some i := by unfold grantedCtx; split <;> rfl
            rw [this] at g; cases g; exact absurd rfl f
          · rintro ⟨j', a, b⟩
            have := (h.context c k).mpr ⟨j', a, b⟩
            rw [c0n] at this; cases this
      · simp only [e, if_false]
        rw [h.context c k]
        split
        · rename_i f; subst f
          simp [hj, hc]
          intro g; exact e g.symm
        · rfl
  · intro c
    rcases hs with ⟨-, r⟩ | ⟨c0, hfree, -, r⟩
    · rw [r]; exact h.free c
    · rw [r]
      split
      · unfold grantedCtx; split <;> simp
      · exact h.free c

/-- What keeps the fold of a grant scan going: the jobs still to be granted wait, their lanes are free, and they share none. -/
def Grantable (w : Work) (is : List SlotId) : Prop :=
  (∀ i ∈ is, ∃ j, w.slot i = some j ∧ j.state = .waiting ∧ ∀ n, hasLane j.mask n = true → w.ownerOf n = none)
    ∧ is.Pairwise (fun i k => i ≠ k ∧ ∀ j j' n, w.slot i = some j → w.slot k = some j' →
        hasLane j.mask n = true → hasLane j'.mask n = false)

theorem hasLane_and {a b : LaneMask} {n : LaneId} (h : a &&& b = 0) (q : hasLane a n = true) : hasLane b n = false := by
  have : hasLane (a &&& b) n = false := by rw [h]; simp [hasLane]
  unfold hasLane at *
  rw [BitVec.getLsbD_and, q] at this
  simpa using this

theorem hasLane_or (a b : LaneMask) (n : LaneId) : hasLane (a ||| b) n = (hasLane a n || hasLane b n) := by
  unfold hasLane; rw [BitVec.getLsbD_or]

theorem hasLane_addLane (a : LaneMask) (n m : LaneId) : hasLane (addLane a n) m = (hasLane a m || decide (m = n)) := by
  unfold hasLane addLane
  rw [BitVec.getLsbD_or, BitVec.getLsbD_shiftLeft]
  congr 1
  fin_cases n <;> fin_cases m <;> decide

theorem hasLane_ownedMask (w : Work) (n : LaneId) : hasLane w.ownedMask n = (w.ownerOf n).isSome := by
  have h : ∀ (ns : List LaneId) (a : LaneMask), hasLane (ns.foldl (fun m n => if (w.ownerOf n).isSome then addLane m n else m) a) n
      = (hasLane a n || (decide (n ∈ ns) && (w.ownerOf n).isSome)) := by
    intro ns
    induction ns with
    | nil => intro a; simp
    | cons k ks ih =>
      intro a
      rw [List.foldl_cons, ih]
      by_cases e : n = k
      · subst e
        cases ho : (w.ownerOf n).isSome <;> simp [hasLane_addLane]
      · split
        · simp [hasLane_addLane, e]
        · simp [e]
  unfold Work.ownedMask
  rw [h]
  have : n ∈ Config.allLanes := by unfold Config.allLanes; fin_cases n <;> simp
  simp [hasLane, this]

theorem grantableFrom_spec {is : List SlotId} (h : ∀ i ∈ is, ∃ j, w.slot i = some j ∧ j.state = .waiting) (b : LaneMask)
    (hb : ∀ n, hasLane b n = false → w.ownerOf n = none) (nd : is.Nodup) :
    Grantable w (w.grantableFrom b is)
      ∧ (∀ i ∈ w.grantableFrom b is, i ∈ is ∧ ∀ j n, w.slot i = some j → hasLane j.mask n = true → hasLane b n = false) := by
  induction is generalizing b with
  | nil =>
    have none : ∀ i, i ∉ w.grantableFrom b [] := by simp [Work.grantableFrom]
    exact ⟨⟨fun i h => absurd h (none i), List.Pairwise.nil⟩, fun i h => absurd h (none i)⟩
  | cons i is ih =>
    obtain ⟨j, hj, hw⟩ := h i (by simp)
    have hn := List.nodup_cons.mp nd
    have hb' : ∀ n, hasLane (b ||| j.mask) n = false → hasLane b n = false ∧ hasLane j.mask n = false := by
      intro n e; rw [hasLane_or] at e; simpa using e
    obtain ⟨⟨g1, g2⟩, g3⟩ := ih (fun k hk => h k (by simp [hk])) (b ||| j.mask)
      (fun n e => hb n (hb' n e).1) hn.2
    unfold Work.grantableFrom
    rw [hj]
    dsimp only
    split
    · rename_i hm
      refine ⟨⟨fun k hk => ?_, ?_⟩, fun k hk => ?_⟩
      · rcases List.mem_cons.mp hk with rfl | hk
        · exact ⟨j, hj, hw, fun n q => hb n (hasLane_and hm q)⟩
        · exact g1 k hk
      · refine List.pairwise_cons.mpr ⟨fun k hk => ⟨?_, ?_⟩, g2⟩
        · rintro rfl; exact hn.1 (g3 _ hk).1
        · intro j1 j2 n a c q
          rw [hj] at a; cases a
          cases e : hasLane j2.mask n with
          | false => rfl
          | true =>
            have := (hb' n ((g3 k hk).2 j2 n c e)).2
            rw [q] at this; cases this
      · rcases List.mem_cons.mp hk with rfl | hk
        · refine ⟨by simp, fun j1 n a q => ?_⟩
          rw [hj] at a; cases a
          exact hasLane_and hm q
        · exact ⟨by simp [(g3 k hk).1], fun j1 n a q => (hb' n ((g3 k hk).2 j1 n a q)).1⟩
    · exact ⟨⟨g1, g2⟩, fun k hk => ⟨by simp [(g3 k hk).1], fun j1 n a q => (hb' n ((g3 k hk).2 j1 n a q)).1⟩⟩

/-- The jobs that a scan grants, where the tables agree (R5, R6). -/
theorem grantable_spec (h : w.TablesSound d) : Grantable w w.grantable := by
  refine (grantableFrom_spec (fun i hi => (h.waiting i).mp hi) _ (fun n e => ?_) h.nodup).1
  rw [hasLane_ownedMask] at e
  simpa using e

theorem grantJob_reach (env : Env) (hj : w.slot i = some j) : Reach (w.handOver i j) (w.grantJob env i) := by
  have e : ∀ (v : Work) (fs ns : List LaneId) (b : Bool), Reach v (if b then v.finalizeAll env fs .laneFaulted else
      (v.finalizeAll env fs .laneFaulted).forLanes ns (fun w n => w.startLane env n)) := by
    intro v fs ns b
    refine Path.trans (reach_finalizeAll v env fs .laneFaulted) ?_
    split
    · exact .refl
    · exact reach_forLanes (fun w n => reach_startLane w env n) _ _
  unfold Work.grantJob
  rw [hj]
  exact e _ _ _ _

/-- One grant: the tables agree after it, and what is still to be granted can be. -/
theorem tables_grantJob (hd : ¬d) (env : Env) (is : List SlotId) (h : w.TablesSound d) (g : Grantable w (i :: is)) :
    (w.grantJob env i).TablesSound d ∧ Grantable (w.grantJob env i) is := by
  obtain ⟨j, hj, hw, ho⟩ := g.1 i (by simp)
  have t := tables_handOver hd h hj hw ho
  have k := tables_of_path ((grantJob_reach env hj).mono id (fun f => f.elim)) t
  obtain ⟨p1, p2⟩ := List.pairwise_cons.mp g.2
  obtain ⟨hl, hO, hg, -, -, -, hs⟩ := handOver_fields w i j
  have other : ∀ k' ∈ is, ∀ j', w.slot k' = some j' → j'.state = .waiting → (w.grantJob env i).slot k' = some j' := by
    intro k' hk j' a b
    refine k.waits k' j' ?_ b
    have ne := (p1 k' hk).1
    rcases hs with ⟨q, -⟩ | ⟨c, -, q, -⟩ <;> rw [q, if_neg (fun e => ne e.symm)] <;> exact a
  refine ⟨k.sound, fun k' hk => ?_, ?_⟩
  · obtain ⟨j', a, b, c⟩ := g.1 k' (by simp [hk])
    refine ⟨j', other k' hk j' a b, b, fun n q => k.owned n ?_⟩
    rw [hO, if_neg]
    · exact c n q
    · intro e
      have := (p1 k' hk).2 j j' n hj a e
      rw [q] at this; cases this
  · refine p2.imp_of_mem (fun {a b} ha hb q => ⟨q.1, fun j1 j2 n e f => ?_⟩)
    obtain ⟨ja, sa, wa, -⟩ := g.1 a (by simp [ha])
    obtain ⟨jb, sb, wb, -⟩ := g.1 b (by simp [hb])
    have e1 := other a ha ja sa wa
    have e2 := other b hb jb sb wb
    rw [e1] at e; cases e
    rw [e2] at f; cases f
    exact q.2 _ _ n sa sb

theorem tables_grantScan (hd : ¬d) (env : Env) (h : w.TablesSound d) : (w.grantScan env).TablesSound d := by
  have : ∀ (is : List SlotId) (w : Work), w.TablesSound d → Grantable w is → (is.foldl (Work.grantJob env) w).TablesSound d := by
    intro is
    induction is with
    | nil => intro w h _; exact h
    | cons i is ih =>
      intro w h g
      obtain ⟨a, b⟩ := tables_grantJob hd env is h g
      exact ih _ a b
  exact this _ _ h (grantable_spec h)

/-- The removal of a WAITING job by a CANCEL (R132). -/
theorem tables_cancelWaiting (h : w.TablesSound d) (env : Env) (k : CancelLink) (hj : w.slot i = some j)
    (hw : j.state = .waiting) : (w.cancelWaiting env i k).TablesSound d := by
  have noown : ∀ n, w.ownerOf n ≠ some i := by
    intro n e
    obtain ⟨j', a, -, p⟩ := h.holder n i e
    rw [hj] at a; cases a; exact p hw
  have hc : j.ctx = none := h.noContext i j hj hw
  have u : ∃ v : Work, w.cancelWaiting env i k = v.completeAs env i 1
      ∧ v.grantList = w.grantList.filter (fun x => x ≠ i)
      ∧ (∃ j', v.slot i = some j' ∧ j'.ctx = none)
      ∧ (∀ m, m ≠ i → v.slot m = w.slot m) ∧ v.lanes = w.lanes ∧ v.owner = w.owner ∧ v.ctxs = w.ctxs := by
    obtain ⟨f, hf, hf'⟩ : ∃ f : JobSlot → JobSlot, (∀ j, (f j).ctx = j.ctx)
        ∧ w.cancelWaiting env i k
          = (Work.modSlot { w with grantList := w.grantList.filter (fun x => x ≠ i) } i f).completeAs env i 1 :=
      ⟨fun j => { j with results := Vector.ofFn (fun n : LaneId => if hasLane j.mask n then some .notRun else none),
                         cancelLink := some k }, fun _ => rfl, rfl⟩
    refine ⟨_, hf', rfl, ⟨f j, ?_, (hf j).trans hc⟩, ?_, rfl, rfl, rfl⟩
    · rw [slot_modSlot, if_pos rfl]
      show (w.slot i).map f = _
      rw [hj]; rfl
    · intro m hm
      rw [slot_modSlot, if_neg hm]; rfl
  obtain ⟨v, e, v1, ⟨j', v2, v2'⟩, v3, v4, v5, v6⟩ := u
  rw [e]
  have vl : ∀ n, (v.completeAs env i 1).lane n = w.lane n := by intro n; rw [completeAs_lane]; unfold Work.lane; rw [v4]
  have vo : ∀ n, (v.completeAs env i 1).ownerOf n = w.ownerOf n := by
    intro n; rw [completeAs_owner]; unfold Work.ownerOf; rw [v5]
  have vc : ∀ c, (v.completeAs env i 1).ctx c = w.ctx c := by
    intro c; rw [completeAs_ctx v env i 1 c v2, v2', if_neg (by simp)]; unfold Work.ctx; rw [v6]
  have vs : ∀ m, (v.completeAs env i 1).slot m = if m = i then none else w.slot m := by
    intro m; rw [completeAs_slot]; split <;> [rfl; (rename_i q; exact v3 m q)]
  constructor
  · rw [completeAs_grantList, v1]; exact h.nodup.filter _
  · intro m
    rw [completeAs_grantList, v1, List.mem_filter, h.waiting m, vs]
    by_cases q : m = i <;> simp [q]
  · intro n m a; rw [vl] at a; rw [vo]; exact h.lane n m a
  · intro n m a; rw [vo] at a; rw [vl]; exact h.owner n m a
  · intro q n a; rw [vl] at a ⊢; exact h.drained q n a
  · intro n m a
    rw [vo] at a
    obtain ⟨jm, p1, p2, p3⟩ := h.holder n m a
    have : m ≠ i := by rintro rfl; exact noown n a
    exact ⟨jm, by rw [vs, if_neg this]; exact p1, p2, p3⟩
  · intro m jm a b
    rw [vs] at a
    split at a
    · cases a
    · exact h.noContext m jm a b
  · intro c m
    rw [vc, vs, h.context c m]
    split
    · rename_i q; subst q; simp [hj, hc]
    · rfl
  · intro c; rw [vc]; exact h.free c

/-- A record placed in a free slot (R1, R5). -/
theorem tables_place (h : w.TablesSound d) (j : JobSlot) (hs : j.state = .waiting) (hc : j.ctx = none) :
    (w.place j).TablesSound d := by
  unfold Work.place
  split
  · rename_i i hi
    have hn : w.slot i = none := by simpa using List.find?_some hi
    have vs : ∀ m, ({ w.setSlot i (some j) with grantList := w.grantList ++ [i] } : Work).slot m
        = if m = i then some j else w.slot m := fun m => slot_setSlot w i m (some j)
    have nomem : i ∉ w.grantList := by
      intro g; obtain ⟨j', a, -⟩ := (h.waiting i).mp g; rw [hn] at a; cases a
    constructor
    · exact List.nodup_append.mpr ⟨h.nodup, by simp, by
        intro a ha b hb; simp at hb; subst hb; rintro rfl; exact nomem ha⟩
    · intro m
      rw [vs, List.mem_append, h.waiting m]
      by_cases q : m = i
      · subst q; simp [hs]
      · simp [q]
    · exact h.lane
    · exact h.owner
    · exact h.drained
    · intro n m a
      obtain ⟨jm, p1, p2, p3⟩ := h.holder n m a
      have : m ≠ i := by rintro rfl; rw [hn] at p1; cases p1
      exact ⟨jm, by rw [vs, if_neg this]; exact p1, p2, p3⟩
    · intro m jm a b
      rw [vs] at a
      split at a
      · cases a; exact hc
      · exact h.noContext m jm a b
    · intro c m
      rw [vs]
      show (w.ctx c).slot = some m ↔ _
      rw [h.context c m]
      split
      · rename_i q; subst q; simp [hn, hc]
      · rfl
    · exact h.free
  · exact h

/-- A cancel link set on a job (R133). -/
theorem tables_link (h : w.TablesSound d) (hj : w.slot i = some j) (k : CancelLink) :
    (w.setSlot i (some { j with cancelLink := some k })).TablesSound d := by
  refine tables_congr h rfl (fun m => ?_) (fun _ => ⟨rfl, rfl⟩) (fun _ => rfl) (fun _ => ⟨rfl, .rfl⟩)
  by_cases q : m = i
  · subst q; exact .inr ⟨j, { j with cancelLink := some k }, hj, by simp, rfl, rfl, .rfl⟩
  · exact .inl (by simp [q])

/-! ## The limits of the Image Reader and the Page Pool (R82, R86, R87) -/

theorem pool_congr (h : w.PoolSound) (c : ∀ c, w'.ctx c = w.ctx c ∨ w'.ctx c = .free) (b : ∀ b, w'.buf b = w.buf b) :
    w'.PoolSound where
  contexts e := by
    rcases c e with q | q <;> rw [q]
    · exact h.contexts e
    · exact ⟨by decide, by intro a; simp [ImageCtx.free] at a, fun _ => ⟨rfl, rfl, rfl⟩⟩
  buffers e := by rw [b]; exact h.buffers e
  fetches e f g := by
    rcases c e with q | q <;> rw [q] at g
    · rw [b]; exact h.fetches e f g
    · cases g

theorem pool_completeAs (h : w.PoolSound) (env : Env) (x : Half) : (w.completeAs env i x).PoolSound := by
  cases hj : w.slot i with
  | none => unfold Work.completeAs; rw [hj]; exact h
  | some j =>
    refine pool_congr h (fun c => ?_) (fun b => completeAs_buf ..)
    rw [completeAs_ctx w env i x c hj]
    split <;> [exact .inr rfl; exact .inl rfl]

theorem pool_handOver (h : w.PoolSound) : (w.handOver i j).PoolSound := by
  obtain ⟨-, -, -, hb, -, -, hs⟩ := handOver_fields w i j
  rcases hs with ⟨-, q⟩ | ⟨c, -, -, q⟩
  · exact pool_congr h (fun c => .inl (q c)) hb
  · constructor
    · intro e
      rw [q]
      split
      · unfold grantedCtx
        split <;> exact ⟨Nat.zero_le _, by intro a; simp at a, fun a => by simp at a⟩
      · exact h.contexts e
    · intro b; rw [hb]; exact h.buffers b
    · intro e f g
      rw [q] at g
      rw [hb]
      split at g
      · unfold grantedCtx at g; split at g <;> simp [ImageCtx.free] at g
      · exact h.fetches e f g

theorem pool_of_path {g : Prop} (r : Path g d w w') (h : w.PoolSound) : w'.PoolSound := by
  induction r with
  | refl => exact h
  | lane n l _ _ ih => exact ⟨ih.contexts, ih.buffers, ih.fetches⟩
  | drain n l _ _ _ ih => exact ⟨ih.contexts, ih.buffers, ih.fetches⟩
  | settings n i j v _ _ _ ih => exact ⟨ih.contexts, ih.buffers, ih.fetches⟩
  | slot i j j' _ _ _ _ ih => exact ⟨ih.contexts, ih.buffers, ih.fetches⟩
  | leave env n _ ih =>
    rcases leave_cases _ env n with e | ⟨i, -, v, hv, q⟩
    · rw [e]; exact ih
    · have tv : v.PoolSound := hv ▸ ⟨ih.contexts, ih.buffers, ih.fetches⟩
      rcases q with e | ⟨j', -, -, e⟩ | ⟨-, e⟩ <;> rw [e]
      · exact tv
      · exact ⟨tv.contexts, tv.buffers, tv.fetches⟩
      · exact pool_completeAs tv env 2
  | pool v _ m ih => exact m.sound ih
  | served c _ ih => exact ⟨ih.contexts, ih.buffers, ih.fetches⟩
  | handOver i j _ _ _ ih => exact pool_handOver ih

end Sys2Proof.Laws
end

