-- ==== Sys2Proof/Laws/Invariants.lean ====
section
/-! SUPPORT. What the moves inside `Work`, the taking of a record and the commands do to the invariants of Safety.lean:
`WorkInv`, which says what an invariant of `Work` has to be shown for, and `Keeps`, which brings an invariant of the whole
part down to the few operations that change the part's control fields. -/

namespace Sys2Proof.Laws

-- One theorem at a time: a thread for each would ask for more stack than the check allows.
set_option Elab.async false

open Sys2Proof.Machine

variable {w w' : Work} {g d : Prop}

/-! ## Lanes and settings along a path -/

theorem leave_slot (w : Work) (env : Env) (n : LaneId) (i : SlotId) {j' : JobSlot} (h : (w.leave env n).slot i = some j') :
    ∃ j, w.slot i = some j ∧ j'.args = j.args := by
  rcases leave_cases w env n with e | ⟨k, -, v, hv, e | ⟨j, hj, -, e⟩ | ⟨-, e⟩⟩ <;> rw [e] at h
  · exact ⟨j', h, rfl⟩
  · rw [hv] at h; exact ⟨j', h, rfl⟩
  · rw [slot_setSlot] at h
    split at h
    · rename_i q; subst q; cases h
      rw [hv] at hj; exact ⟨j, hj, rfl⟩
    · rw [hv] at h; exact ⟨j', h, rfl⟩
  · rw [completeAs_slot] at h
    split at h
    · cases h
    · rw [hv] at h; exact ⟨j', h, rfl⟩

theorem lanes_of_path (r : Path g d w w') (h : w.LanesSound) : w'.LanesSound := by
  induction r with
  | refl => exact h
  | lane n l _ m ih =>
    intro k; rw [lane_setLane]; split
    · exact m.2.1 (ih n)
    · exact ih k
  | drain n l _ _ m ih =>
    intro k; rw [lane_setLane]; split
    · exact m.2.1 (ih n)
    · exact ih k
  | settings n i j v _ e f ih =>
    intro k; rw [lane_setLane]; split
    · exact ih n
    · exact ih k
  | slot i j j' _ e u m ih => exact ih
  | leave env n _ ih =>
    intro k
    rw [lane_leave]
    split
    · rename_i q; subst q; split
      · exact ih k
      · exact ih k
    · exact ih k
  | pool v _ m ih =>
    obtain ⟨-, e2, -⟩ := poolMove_rest m
    unfold Work.LanesSound Work.lane at *
    rw [e2]; exact ih
  | served c _ ih => exact ih
  | handOver i j _ _ _ ih =>
    intro k
    rw [(handOver_fields _ i j).1]
    split
    · exact ih k
    · exact ih k

theorem settings_of_path (r : Path g d w w') (h : w.SettingsSound) : w'.SettingsSound := by
  induction r with
  | refl => exact h
  | lane n l _ m ih =>
    refine ⟨fun k => ?_, ih.2⟩
    rw [lane_setLane]; split
    · rw [m.1]; exact ih.1 n
    · exact ih.1 k
  | drain n l _ _ m ih =>
    refine ⟨fun k => ?_, ih.2⟩
    rw [lane_setLane]; split
    · rw [m.1]; exact ih.1 n
    · exact ih.1 k
  | settings n i j v _ e f ih =>
    refine ⟨fun k => ?_, ih.2⟩
    rw [lane_setLane]; split
    · have := ih.2 i j e; rw [f] at this; exact this
    · exact ih.1 k
  | slot i j j' _ e u m ih =>
    refine ⟨ih.1, fun k x hx => ?_⟩
    rw [slot_setSlot] at hx
    split at hx
    · cases hx; rw [m.1.2.2.2.2.1]; exact ih.2 i j e
    · exact ih.2 k x hx
  | leave env n _ ih =>
    refine ⟨fun k => ?_, fun k x hx => ?_⟩
    · rw [lane_leave]
      split
      · rename_i q; subst q; split <;> exact ih.1 k
      · exact ih.1 k
    · obtain ⟨j, a, b⟩ := leave_slot _ env n k hx
      rw [b]; exact ih.2 k j a
  | pool v _ m ih =>
    obtain ⟨e1, e2, -⟩ := poolMove_rest m
    unfold Work.SettingsSound Work.lane Work.slot at *
    rw [e1, e2]; exact ih
  | served c _ ih => exact ih
  | handOver i j _ _ e ih =>
    obtain ⟨a, -, -, -, -, -, b⟩ := handOver_fields _ i j
    refine ⟨fun k => ?_, fun k x hx => ?_⟩
    · rw [a]; split <;> exact ih.1 k
    · rcases b with ⟨q, -⟩ | ⟨c, -, q, -⟩ <;> rw [q] at hx <;> split at hx
      · cases hx; exact ih.2 i j e
      · exact ih.2 k x hx
      · cases hx; exact ih.2 i j e
      · exact ih.2 k x hx

/-- A LANE-SET that passes its intake check carries values in range (R117). -/
theorem judgeRecord_settingsOk (r : List Byte) (a : JobArgs) (h : judgeRecord r = .slotted a) : a.SettingsOk := by
  unfold judgeRecord at h
  dsimp only at h
  split at h; · cases h
  split at h; · cases h
  split at h; · cases h
  split at h
  · unfold judgeProgram at h; dsimp only at h
    split at h; · cases h
    split at h; · cases h
    split at h; · cases h
    split at h; · cases h
    cases h; trivial
  split at h
  · unfold judgeReadout at h
    split at h; · cases h
    split at h; · cases h
    split at h; · cases h
    cases h; trivial
  split at h
  · unfold judgeIdentify at h
    split at h; · cases h
    split at h; · cases h
    cases h; trivial
  split at h
  · unfold judgeExchange at h; dsimp only at h
    split at h; · cases h
    split at h; · cases h
    split at h; · cases h
    split at h; · cases h
    split at h; · cases h
    cases h; trivial
  split at h
  · unfold judgeLaneSet at h
    split at h; · cases h
    rename_i v hv
    cases h
    unfold settingsOf at hv
    extract_lets policy x at hv
    split at hv
    · rename_i g; simp only [Option.some.injEq] at hv; subst hv; exact g.2
    · simp at hv
  · unfold judgeLaneAction at h
    split at h; · cases h
    cases h; trivial

/-! ## The taking of a record -/

/-- A property of `Work` that every kind of change keeps; `P d` is the property in a part that drains, when `d` holds. -/
structure WorkInv (P : Prop → Work → Prop) : Prop where
  path : ∀ d w w', Path False d w w' → P d w → P d w'
  scan : ∀ d env w, ¬d → P d w → P d (w.grantScan env)
  queue : ∀ d (w : Work) q k, P d w → P d { w with queue := q, reserved := k }
  reset : P False Work.reset
  drained : ∀ w, (∀ n, (w.lane n).eng.drained = true) → P True w → P False w.afterDrain
  draining : ∀ w, P False w → P True (w.eachLane (fun w n => w.modLane n Lane.beginDrain))
  place : ∀ w r adm a, judgeRecord r = .slotted a → P False w → P False (w.place (placedSlot r adm a))
  link : ∀ w i j k, w.slot i = some j → P False w → P False (w.setSlot i (some { j with cancelLink := some k }))
  cancelWaiting : ∀ w env i j k, w.slot i = some j → j.state = .waiting → P False w → P False (w.cancelWaiting env i k)

theorem WorkInv.record {P} (K : WorkInv P) (w : Work) (env) (r) (adm) (h : P False w) :
    P False (w.admitRecord env r adm) := by
  unfold Work.admitRecord
  extract_lets w1
  have h1 : P False w1 := K.queue False w w.queue _ h
  have fill : ∀ (w : Work) e, P False w → P False (w.fillEntry e) := fun w e h => K.queue False w _ _ h
  clear_value w1
  split
  · exact fill _ _ h1
  · unfold Work.resolveCancel
    dsimp only
    split
    · exact fill _ _ h1
    · exact fill _ _ h1
    · rename_i i _ _
      split
      · exact fill _ _ h1
      · rename_i j hj
        split
        · exact fill _ _ h1
        · split
          · exact fill _ _ h1
          · rename_i hs; exact K.cancelWaiting w1 env i j _ hj hs h1
          · unfold Work.cancelRunning
            rw [hj]
            dsimp only
            have h2 := K.link w1 _ _ { tag := recordTag r, adm := adm } hj h1
            split
            · exact K.path _ _ _ (reach_forLanes (fun w n => reach_cancelAction w env n _) _ _) h2
            · exact K.path _ _ _ (reach_stopLanes _ _ _ _ _) h2
  · rename_i a ha
    exact K.place _ _ _ _ ha h1

/-! ## Reservations along a path (R152) -/

/-- What the slots owe, when one slot changes. -/
theorem owed_set (w : Work) (i : SlotId) (o : Option JobSlot) :
    (w.setSlot i o).owed + (w.slot i).elim 0 JobSlot.owes = w.owed + o.elim 0 JobSlot.owes := by
  have e : ∀ w : Work, w.owed = ∑ k : SlotId, (w.slot k).elim 0 JobSlot.owes := by
    intro w; unfold Work.owed Config.allSlots
    simp [Fin.sum_univ_succ]
  rw [e, e]
  have h1 := Finset.add_sum_erase Finset.univ (fun k => ((w.setSlot i o).slot k).elim 0 JobSlot.owes) (Finset.mem_univ i)
  have h2 := Finset.add_sum_erase Finset.univ (fun k => (w.slot k).elim 0 JobSlot.owes) (Finset.mem_univ i)
  have h3 : ∑ x ∈ Finset.univ.erase i, ((w.setSlot i o).slot x).elim 0 JobSlot.owes
      = ∑ x ∈ Finset.univ.erase i, (w.slot x).elim 0 JobSlot.owes := by
    apply Finset.sum_congr rfl
    intro k hk
    rw [slot_setSlot, if_neg (Finset.ne_of_mem_erase hk)]
  rw [← h1, ← h2, h3]
  have : (w.setSlot i o).slot i = o := by simp
  simp only [this]
  omega

/-- A job that keeps its cancel link owes what it owed. -/
theorem owed_same (w : Work) {i : SlotId} {j j' : JobSlot} (e : w.slot i = some j) (m : SlotSame j j') :
    (w.setSlot i (some j')).owed = w.owed := by
  have h := owed_set w i (some j')
  rw [e] at h
  simp only [Option.elim, JobSlot.owes, m.2.2.2.2.2.1] at h
  omega

/-- What the slots owe is reserved, and filled and reserved entries together are no more than they were. -/
def QueueFits (w w' : Work) : Prop := w'.owed ≤ w'.reserved ∧ w'.queue.length + w'.reserved ≤ w.queue.length + w.reserved

theorem queueFits_completeAs (w : Work) (env i d) (h : w.owed ≤ w.reserved) : QueueFits w (w.completeAs env i d) := by
  unfold Work.completeAs
  split
  · exact ⟨h, le_rfl⟩
  · rename_i j hj
    have k := owed_set w i none
    rw [hj] at k
    simp at k
    extract_lets w1 w2 w3
    have q3 : w3.queue = w2.queue ∧ w3.reserved = w2.reserved ∧ w3.owed = w2.owed := by
      unfold w3; split <;> exact ⟨rfl, rfl, rfl⟩
    have o2 : (w3.setSlot i none).owed = (w.setSlot i none).owed := by
      unfold w3 w2 w1
      split <;> split <;> rfl
    unfold QueueFits
    rw [o2]
    show _ ≤ w3.reserved ∧ w3.queue.length + w3.reserved ≤ _
    rw [q3.1, q3.2.1]
    unfold w2
    unfold JobSlot.owes at k
    split
    · rename_i x hx
      simp [hx] at k
      simp [w1]
      omega
    · rename_i hx
      simp [hx] at k
      simp [w1]
      omega

theorem QueueFits.trans' {a b c : Work} (h : QueueFits a b) (g : QueueFits b c) : QueueFits a c := ⟨g.1, g.2.trans h.2⟩

theorem queueFits_leave (w : Work) (env n) (h : w.owed ≤ w.reserved) : QueueFits w (w.leave env n) := by
  rcases leave_cases w env n with e | ⟨i, -, v, hv, q⟩
  · rw [e]; exact ⟨h, le_rfl⟩
  · have e1 : v.owed = w.owed := by rw [hv]; rfl
    have e2 : v.reserved = w.reserved := by rw [hv]; rfl
    have e3 : v.queue = w.queue := by rw [hv]; rfl
    have hv' : QueueFits w v := ⟨by rw [e1, e2]; exact h, by rw [e2, e3]⟩
    rcases q with e | ⟨j, hj, -, e⟩ | ⟨-, e⟩ <;> rw [e]
    · exact hv'
    · have o := owed_same v (j' := { j with state := .ending }) hj ⟨rfl, rfl, rfl, rfl, rfl, rfl, rfl⟩
      exact ⟨by rw [o]; exact hv'.1, hv'.2⟩
    · exact hv'.trans' (queueFits_completeAs v env i 2 hv'.1)

theorem owed_congr (w w' : Work) (h : ∀ k, (w'.slot k).elim 0 JobSlot.owes = (w.slot k).elim 0 JobSlot.owes) :
    w'.owed = w.owed := by
  unfold Work.owed
  congr 1
  exact List.map_congr_left (fun k _ => h k)

theorem queueFits_of_path (r : Path g d w w') (h : w.owed ≤ w.reserved) : QueueFits w w' := by
  induction r with
  | refl => exact ⟨h, le_rfl⟩
  | lane n l _ m ih => exact ih
  | drain n l _ _ m ih => exact ih
  | settings n i j v _ e f ih => exact ih
  | slot i j j' _ e u m ih => exact ⟨(owed_same _ e m.1).trans_le ih.1, ih.2⟩
  | leave env n _ ih => exact ih.trans' (queueFits_leave _ env n ih.1)
  | @pool x v _ m ih =>
    obtain ⟨e1, -, -, -, e5, e6⟩ := poolMove_rest m
    have s1 : ∀ k, v.slot k = x.slot k := fun k => by unfold Work.slot; rw [e1]
    have o := owed_congr x v (fun k => by rw [s1 k])
    unfold QueueFits at *
    rw [o, e5, e6]
    exact ih
  | served c _ ih => exact ih
  | @handOver x i j _ _ e ih =>
    obtain ⟨-, -, -, -, e5, e6, hs⟩ := handOver_fields x i j
    have o := owed_congr x (x.handOver i j) (fun k => by
      rcases hs with ⟨q, -⟩ | ⟨c, -, q, -⟩ <;> rw [q k]
      · by_cases f : k = i
        · subst f; rw [if_pos rfl, e]; rfl
        · rw [if_neg f]
      · by_cases f : k = i
        · subst f; rw [if_pos rfl, e]; rfl
        · rw [if_neg f])
    unfold QueueFits at *
    rw [e5, e6, o]
    exact ih

/-- A WAITING job's entries are formed from its own reservation and the CANCEL's (R132, R152). -/
theorem queueFits_cancelWaiting (w : Work) (env : Env) {i : SlotId} {j : JobSlot} (k : CancelLink)
    (hj : w.slot i = some j) (hc : j.cancelLink = none) (h : w.owed + 1 ≤ w.reserved) :
    QueueFits w (w.cancelWaiting env i k) := by
  obtain ⟨f, hf, hf'⟩ : ∃ f : JobSlot → JobSlot, (∀ j, (f j).cancelLink = some k)
      ∧ w.cancelWaiting env i k
        = (Work.modSlot { w with grantList := w.grantList.filter (fun x => x ≠ i) } i f).completeAs env i 1 :=
    ⟨fun j => { j with results := Vector.ofFn (fun n : LaneId => if hasLane j.mask n then some .notRun else none),
                       cancelLink := some k }, fun _ => rfl, rfl⟩
  rw [hf']
  have e : (Work.modSlot { w with grantList := w.grantList.filter (fun x => x ≠ i) } i f).owed
      = (w.setSlot i (some (f j))).owed := by
    refine owed_congr _ _ (fun m => ?_)
    rw [slot_modSlot, slot_setSlot]
    by_cases q : m = i
    · rw [if_pos q, if_pos q]
      show (((w.slot i).map f).elim 0 JobSlot.owes) = _
      rw [hj]; rfl
    · rw [if_neg q, if_neg q]; rfl
  have o := owed_set w i (some (f j))
  rw [hj] at o
  simp only [Option.elim, JobSlot.owes, hf, hc] at o
  simp only [Option.isSome_some, Option.isSome_none, if_true] at o
  refine queueFits_completeAs (Work.modSlot { w with grantList := w.grantList.filter (fun x => x ≠ i) } i f) env i 1 ?_
  rw [e]
  show _ ≤ w.reserved
  simp at o
  omega

/-- A record taken adds one reservation or one entry; what the slots owe stays reserved. -/
theorem queueFits_take (w : Work) (env r adm) (h : w.owed ≤ w.reserved)
    (free : ∀ a, judgeRecord r = .slotted a → w.freeSlot.isSome) :
    (w.admitRecord env r adm).owed ≤ (w.admitRecord env r adm).reserved ∧
    (w.admitRecord env r adm).queue.length + (w.admitRecord env r adm).reserved ≤ w.queue.length + w.reserved + 1 := by
  unfold Work.admitRecord
  extract_lets w1
  have ho : w1.owed = w.owed := rfl
  have hr : w1.reserved = w.reserved + 1 := rfl
  have hq : w1.queue = w.queue := rfl
  have hf : w1.freeSlot = w.freeSlot := rfl
  have hfill : ∀ e, (w1.fillEntry e).owed ≤ (w1.fillEntry e).reserved
      ∧ (w1.fillEntry e).queue.length + (w1.fillEntry e).reserved ≤ w.queue.length + w.reserved + 1 := by
    intro e
    have : (w1.fillEntry e).owed = w1.owed := rfl
    rw [this]; simp [hr, hq, ho]; omega
  split
  · exact hfill _
  · unfold Work.resolveCancel
    dsimp only
    split
    · exact hfill _
    · exact hfill _
    · rename_i i _ _
      split
      · exact hfill _
      · rename_i j hj
        split
        · exact hfill _
        · rename_i hc
          have hc' : j.cancelLink = none := by simpa using hc
          split
          · exact hfill _
          · have := queueFits_cancelWaiting w1 env { tag := recordTag r, adm := adm } hj hc' (by omega)
            exact ⟨this.1, this.2.trans (by rw [hr, hq]; omega)⟩
          · unfold Work.cancelRunning
            rw [hj]
            dsimp only
            have k : (w1.setSlot i (some { j with cancelLink := some { tag := recordTag r, adm := adm } })).owed
                ≤ w1.reserved := by
              have := owed_set w1 i (some { j with cancelLink := some { tag := recordTag r, adm := adm } })
              rw [hj] at this
              simp [JobSlot.owes, hc'] at this
              omega
            have fin : ∀ w', Reach (w1.setSlot i (some { j with cancelLink := some { tag := recordTag r, adm := adm } })) w' →
                w'.owed ≤ w'.reserved ∧ w'.queue.length + w'.reserved ≤ w.queue.length + w.reserved + 1 := by
              intro w' r
              have := queueFits_of_path r k
              refine ⟨this.1, this.2.trans ?_⟩
              simp [hr, hq]; omega
            split
            · exact fin _ (reach_forLanes (fun w n => reach_cancelAction w env n _) _ _)
            · exact fin _ (reach_stopLanes _ _ _ _ _)
  · rename_i a ha
    unfold Work.place
    rw [hf]
    obtain ⟨i, hi⟩ := Option.isSome_iff_exists.mp (free a ha)
    rw [hi]
    have hn : w1.slot i = none := by
      have := List.find?_some hi
      have h' : w.slot i = none := by simpa using this
      exact h'
    have := owed_set w1 i (some (placedSlot r adm a))
    rw [hn] at this
    simp [JobSlot.owes, placedSlot] at this
    refine ⟨?_, ?_⟩
    · show (w1.setSlot i (some (placedSlot r adm a))).owed ≤ w1.reserved
      simp [placedSlot]; omega
    · show w1.queue.length + w1.reserved ≤ _
      rw [hq, hr]; omega

/-! ## From a step to its command -/

/-- A step is a tick on an empty queue, or the command at its front. -/
theorem step_cases {s t : State} (h : step s = .next t) :
    t = s.tick ∨ ∃ c rest, s.pending = c :: rest ∧ exec c { s with pending := rest } = .next t := by
  unfold step at h
  split at h
  · cases h; exact .inl rfl
  · rename_i c rest e; exact .inr ⟨c, rest, e, h⟩

/-- What an invariant `P` of the part has to be shown for: the refresh of IRQ_N, every command that leaves the control
fields, and each operation that does not. -/
structure Keeps (P : State → Prop) : Prop where
  refresh : ∀ s, P s → P s.refreshIrq
  quiet : ∀ s t, QuietMove s t → P s → P t
  resets : ∀ s c l, P s → P (s.resetAll c l)
  release : ∀ s, P s → P { s with part := { s.part with resetLow := false } }
  enable : ∀ s, P s → P s.enable
  quiesce : ∀ s, P s → P s.quiesce
  quiesceRelease : ∀ s, P s → P s.quiesceRelease
  softReset : ∀ s, P s → P s.softReset
  tail : ∀ s v, P s → P (s.writeJobTail v)
  doneHead : ∀ s v, P s → P (s.writeDoneHead v)
  setupEnd : ∀ s r, s.port = some .setup → P s → P (s.setupEnd r)
  start : ∀ s, P s → P s.startRecordRead
  arrives : ∀ s r, s.port = some .intake → P s → P (s.recordArrives r)
  take : ∀ s, P s → P s.jobTake
  postBegin : ∀ s, P s → P s.postBegin
  report : ∀ s i r, s.posting = some (.report i) → P s → P (s.reportEnd i r)
  completion : ∀ s r, s.posting = some .completion → P s → P (s.completionEnd r)
  drain : ∀ s, s.drainOver = true → P s → P s.endDrain

theorem Keeps.same {P} (K : Keeps P) {s t : State} (m : SameCtl s t) (w : t.work = s.work) (p : t.port = s.port)
    (h : P s) : P t :=
  K.quiet s t ⟨m, fun e => .inr (p ▸ e), .inl (w ▸ .refl)⟩ h

theorem Keeps.control {P} (K : Keeps P) {s : State} (v : Word) (hs : P s) : P (s.writeControl v) := by
  unfold State.writeControl
  split
  · exact K.softReset s hs
  · extract_lets s1 s2
    have h1 : P s1 := by unfold s1; split; exacts [K.enable s hs, hs]
    have h2 : P s2 := by unfold s2; split; exacts [K.quiesce s1 h1, K.quiesceRelease s1 h1]
    split
    · exact K.same (s := s2) ⟨rfl, rfl, rfl, rfl⟩ rfl rfl h2
    · exact h2

theorem Keeps.notify {P} (K : Keeps P) {s : State} (v : Word) (hs : P s) : P (s.writeNotify v) :=
  K.quiet _ _ (quiet_notify v) hs

theorem Keeps.writeAt {P} (K : Keeps P) {s : State} (o : BitVec 5) (v : Word) (hs : P s) : P (s.writeAt o v) := by
  unfold State.writeAt
  split
  · exact K.control _ hs
  split
  · exact K.same (s := s) ⟨rfl, rfl, rfl, rfl⟩ rfl rfl hs
  split
  · exact K.same (s := s) ⟨rfl, rfl, rfl, rfl⟩ rfl rfl hs
  split
  · exact K.tail s _ hs
  split
  · exact K.same (s := s) ⟨rfl, rfl, rfl, rfl⟩ rfl rfl hs
  split
  · exact K.doneHead s _ hs
  split
  · exact K.notify _ hs
  · exact hs

/-- What a command answers keeps what its effect keeps. -/
theorem Keeps.answer {P} (K : Keeps P) {s t u : State} (hs : P s) (hu : P u) (h : s.answer u = .next t) : P t := by
  rcases answer_next h with rfl | rfl
  · exact hs
  · refine K.refresh _ ?_
    rcases takeFreed_cases s u with e | e <;> rw [e]
    · exact hu
    · exact K.take u hu

/-- Every command keeps what `Keeps` keeps. -/
theorem Keeps.exec {P} (K : Keeps P) {s t : State} (c : Instr) (hs : P s) (h : exec c s = .next t) : P t := by
  by_cases q : quietCmd c = true
  · obtain ⟨u, e, m⟩ := exec_quiet (s := s) c q
    rw [e] at h
    exact K.answer hs (K.quiet s u m hs) h
  cases c <;> first | (exact absurd rfl q) | skip
  case powerOnReset => cases h; exact K.resets s _ _ hs
  case pinReset => cases h; exact K.resets s _ _ hs
  case resetNRelease => cases h; exact K.release s hs
  all_goals
    refine K.answer hs ?_ h
    first
    | exact K.enable s hs
    | exact K.quiesce s hs
    | exact K.quiesceRelease s hs
    | exact K.softReset s hs
    | exact K.start s hs
    | exact K.take s hs
    | exact K.postBegin s hs
    | (split
       · first
         | (rename_i g; exact K.setupEnd s _ g.1 hs)
         | (rename_i g; exact K.take _ (K.arrives s _ g.1 hs))
         | (rename_i g; exact K.drain s g hs)
         | (rename_i g; exact K.report s _ _ g hs)
         | (rename_i g; exact K.completion s _ g hs)
       · exact hs)
    | (unfold State.fullWrite
       split
       · first
         | exact K.tail s _ hs
         | exact K.doneHead s _ hs
         | exact K.writeAt _ _ hs
       · exact K.same (s := s) ⟨rfl, rfl, rfl, rfl⟩ rfl rfl hs)

/-- Every step keeps what `Keeps` keeps. -/
theorem Keeps.step {P} (K : Keeps P) (hp : ∀ s r, P s → P { s with pending := r }) (ht : ∀ s, P s → P s.tick)
    {s t : State} (hs : P s) (h : Machine.step s = .next t) : P t := by
  rcases step_cases h with rfl | ⟨c, rest, -, e⟩
  · exact ht _ hs
  · exact K.exec c (hp _ rest hs) e

theorem halt_state (s : State) (code) : (s.halt code).part.state = .halted := by
  unfold State.halt; split
  · assumption
  · rfl
theorem tryQuiesced_cases (s : State) : s.tryQuiesced = s
    ∨ (s.part.state = .quiescing ∧ s.tryQuiesced = { s with part := { s.part with state := .quiesced } }) := by
  unfold State.tryQuiesced
  split
  · rename_i g; simp [State.isQuiet] at g; exact .inr ⟨g.1.1.1.1, rfl⟩
  · exact .inl rfl


/-! ## What the control operations do to `Work` -/

theorem work_tryQuiesced (s : State) : s.tryQuiesced.work = s.work := by
  unfold State.tryQuiesced; split <;> rfl

/-- A record is taken from a RUNNING part, or nothing is (R150). -/
theorem jobTake_cases (s : State) : s.jobTake = s ∨
    ∃ r, s.intake.held = some r ∧ s.canTake r = true ∧ s.jobTake = s.take r := by
  unfold State.jobTake
  split
  · rename_i r h
    split
    · rename_i g; exact .inr ⟨r, h, g, rfl⟩
    · exact .inl rfl
  · exact .inl rfl

/-- A function of every lane, on every lane. -/
theorem eachLane_form (f : Lane → Lane) (w : Work) :
    ∃ ls : Vector Lane 8, w.eachLane (fun w n => w.modLane n f) = { w with lanes := ls } ∧ ∀ m, ls.get m = f (w.lane m) := by
  have h1 : ∀ (ns : List LaneId) (w : Work), w.forLanes ns (fun w n => w.modLane n f)
      = { w with lanes := (w.forLanes ns (fun w n => w.modLane n f)).lanes } := by
    intro ns
    induction ns with
    | nil => intro w; rfl
    | cons n ns ih => intro w; exact ih _
  have h2 : ∀ (m : LaneId) (ns : List LaneId) (w : Work), ns.Nodup →
      (w.forLanes ns (fun w n => w.modLane n f)).lane m = if m ∈ ns then f (w.lane m) else w.lane m := by
    intro m ns
    induction ns with
    | nil => intro w _; simp [Work.forLanes]
    | cons n ns ih =>
      intro w hn
      obtain ⟨a, b⟩ := List.nodup_cons.mp hn
      refine (ih _ b).trans ?_
      by_cases e : m = n
      · subst e; simp [a]
      · simp [e]
  have h3 : ∀ m : LaneId, m ∈ Config.allLanes := by intro m; unfold Config.allLanes; fin_cases m <;> simp
  have a := h1 Config.allLanes w
  have b := fun m => (h2 m Config.allLanes w (by decide)).trans (if_pos (h3 m))
  unfold Work.eachLane
  generalize w.forLanes Config.allLanes (fun w n => w.modLane n f) = v at a b
  exact ⟨v.lanes, a, b⟩

/-- A lane of which a soft reset begins to ask rest keeps its settings and its soundness, and keeps its slot or has
drained (R42). -/
theorem beginDrain_move (l : Lane) : l.beginDrain.settings = l.settings ∧ (l.Sound → l.beginDrain.Sound)
    ∧ ((l.beginDrain.ctx.slot = l.ctx.slot ∧ l.beginDrain.eng.drained = false)
      ∨ (l.beginDrain.ctx.slot = none ∧ l.beginDrain.eng.drained = true)) := by
  have a := fun l : Lane => move_tryDrain l
  unfold Lane.beginDrain
  extract_lets _ k
  generalize hm : (if k.link.state = .busyHold then k else k.drainExchange) = m
  have e : m.settings = l.settings ∧ (l.Sound → m.Sound) ∧ m.ctx.slot = l.ctx.slot ∧ m.eng.drained = false := by
    rw [← hm]
    split
    · exact ⟨rfl, id, rfl, rfl⟩
    · obtain ⟨q1, q2, q3, q4⟩ := move_drainExchange k
      exact ⟨q1, q2, q3, q4⟩
  refine ⟨(a m).1.trans e.1, fun h => (a m).2.1 (e.2.1 h), ?_⟩
  rcases (a m).2.2 with q | q
  · exact .inl ⟨q.1.trans e.2.2.1, q.2.trans e.2.2.2⟩
  · exact .inr q

theorem canTake_running {s : State} {r : List Byte} (h : s.canTake r = true) : s.part.state = .running := by
  unfold State.canTake at h
  simp only [Bool.and_eq_true, decide_eq_true_eq] at h
  exact h.1

end Sys2Proof.Laws
end

