-- ==== Sys2Proof/WellFormed.lean ====
section
/-! DEFINITION. Which commands are well formed: the operands have a size the part can meet. The
meanings do not rely on it: a read whose bytes are not the number asked for has no effect, whatever the
number (Machine/HostTransfers.lean, Machine/ImageEvents.lean, Machine/Intake.lean). -/

namespace Sys2Proof

/-- A read that ends without error brings between `lo` and `hi` bytes. -/
def ReadEnd.sizeIn (lo hi : Nat) : ReadEnd → Bool
  | .ok data => lo ≤ data.length && data.length ≤ hi
  | .error => true

/-- A segment table is 24 bytes for each of 1 to 32 segments (R78, R79). -/
def ReadEnd.isTable : ReadEnd → Bool
  | .ok data => data.length % 24 == 0 && 24 ≤ data.length && data.length ≤ 768
  | .error => true

/-- The structural checks on a command's operands: the sizes of Tables 12-1, 12-4, 12-5 and 12-6, the key of
R30, a page of R84, the longest reply frame of R48, and the word alignment of the register window (R168). -/
def Instr.wellFormed : Instr → Bool
  | .setupReadEnd r => r.sizeIn 32 32
  | .jobRecordReadEnd r => r.sizeIn 64 64
  | .keyReadEnd _ r => r.sizeIn 16 16
  | .descriptorHeaderReadEnd r => r.sizeIn 16 16
  | .descriptorTableReadEnd r => r.isTable
  | .pageFetchReadEnd r => r.sizeIn 1 256
  | .exchangePayloadReadEnd _ r => r.sizeIn 1 264
  | .replyFrameComplete _ frame => 8 ≤ frame.length && frame.length ≤ 272
  | .registerWrite offset _ _ => offset.toNat % 4 == 0
  | .enable | .quiesce | .quiesceRelease | .softReset | .clearMisuse => true
  | .setupLoWrite _ _ | .setupHiWrite _ _ | .jobTailWrite _ _ | .jobHeadWrite _ _ => true
  | .doneHeadWrite _ _ | .notifyWrite _ _ => true
  | .powerOnReset | .pinReset | .resetNRelease | .memoryPortArbitration => true
  | .jobRecordReadStart | .jobTake | .grantScan => true
  | .supplyGood _ _ | .powerUpLimitExpiry _ | .settleEnd _ | .selectPhaseEnd _ => true
  | .presencePulse _ _ | .entryLimitExpiry _ | .entryResetEnd _ => true
  | .frameSendEnd _ | .tdatLow _ _ | .busyHoldRecognised _ _ | .busyHoldEnd _ => true
  | .busyLimitExpiry _ | .replyTimeout _ | .framingError _ _ | .quietLineResend _ _ => true
  | .resetPulseEnd _ | .readoutPageWriteEnd _ _ | .exchangeReplyWriteEnd _ _ => true
  | .drop _ _ | .supplyReturn _ _ | .rideTimerExpiry _ => true
  | .postBegin | .reportRecordWriteEnd _ | .completionWriteEnd _ => true
  | .holdIntervalExpiry | .drainEnd | .startBitDiscarded _ => true

end Sys2Proof
end

