-- ==== Sys2Proof/Tests/Slice0.lean ====
section
/-! SUPPORT. Tests of the model: the checks of `Instr.wellFormed`, worked examples of the spec, and for each statement with
hypotheses a state and operands that meet them (`meets_<statement>`), clause by clause, at boundary values. -/

namespace Sys2Proof.Tests

-- One theorem at a time: a thread for each would ask for more stack than the check allows.
set_option Elab.async false

open Sys2Proof.Machine

/-! ## WellFormed: each check refuses an ill-formed command -/

theorem test_setup_is_32_bytes : Instr.wellFormed (.setupReadEnd (.ok (List.replicate 31 0))) = false
    ∧ Instr.wellFormed (.setupReadEnd (.ok (List.replicate 32 0))) = true := by decide
theorem test_record_is_64_bytes : Instr.wellFormed (.jobRecordReadEnd (.ok (List.replicate 65 0))) = false
    ∧ Instr.wellFormed (.jobRecordReadEnd (.ok (List.replicate 64 0))) = true := by decide
theorem test_key_is_16_bytes : Instr.wellFormed (.keyReadEnd 0 (.ok (List.replicate 15 0))) = false
    ∧ Instr.wellFormed (.keyReadEnd 0 (.ok (List.replicate 16 0))) = true := by decide
theorem test_header_is_16_bytes : Instr.wellFormed (.descriptorHeaderReadEnd (.ok (List.replicate 17 0))) = false
    ∧ Instr.wellFormed (.descriptorHeaderReadEnd (.ok (List.replicate 16 0))) = true := by decide
theorem test_table_is_whole_entries : Instr.wellFormed (.descriptorTableReadEnd (.ok (List.replicate 25 0))) = false
    ∧ Instr.wellFormed (.descriptorTableReadEnd (.ok [])) = false
    ∧ Instr.wellFormed (.descriptorTableReadEnd (.ok (List.replicate 24 0))) = true := by decide
theorem test_page_read_has_a_byte : Instr.wellFormed (.pageFetchReadEnd (.ok [])) = false
    ∧ Instr.wellFormed (.pageFetchReadEnd (.ok [0])) = true := by decide
theorem test_payload_has_a_byte : Instr.wellFormed (.exchangePayloadReadEnd 0 (.ok [])) = false
    ∧ Instr.wellFormed (.exchangePayloadReadEnd 0 (.ok [0])) = true := by decide
theorem test_frame_has_eight_bytes : Instr.wellFormed (.replyFrameComplete 0 (List.replicate 7 0)) = false
    ∧ Instr.wellFormed (.replyFrameComplete 0 (List.replicate 8 0)) = true := by decide
theorem test_offset_is_word_aligned : Instr.wellFormed (.registerWrite 0x06 0xF 0) = false
    ∧ Instr.wellFormed (.registerWrite 0x1C 0xF 0) = true := by decide

/-! ## Worked examples of the spec -/

/-- The example of section 3.2: a QUERY request with Seq 1, whole, with its Check. -/
theorem test_query_frame : requestFrame 0x03 0x01 [] = [0xC3, 0x03, 0x01, 0x00, 0x00, 0x2C, 0x28] := by decide +kernel

/-- The example of R103: a target with 256-byte pages, an image for 128-byte pages. -/
theorem test_geometry_mismatch_word : BitVec.ofNat 32 ((2#8).toNat + 256 * (1#8).toNat) = 0x00000102#32 := by decide

/-- The note of R63: DENIED in reply to READ. -/
theorem test_cause_word : causeWord 0x03 0x06 .status = 0x00000603#32 := by decide

/-- R106: 65536 units take 4096 requests; the first, and the number for 33 units. -/
theorem test_clear_all_splits : runRequests (0, 32) = [(0, 16), (16, 16), (32, 1)] := by decide

/-- R51: the busy limit of a CLEAR of 16 units with a clear limit of 1023 ms, and of a SUM over 1025 bytes. -/
theorem test_busy_limits :
    (Lane.clearRequest { Lane.reset with settings := { Settings.default with clearLimit := 1023 } } 0 16).busyMs = 16368
    ∧ (Lane.reset.sumRequest 0 { addr := 0, len := 1025, host := 0, crc := none } 0).busyMs = 4 := by decide

/-- Two segments of section 5.8 in 128-byte pages: pages 0x10000 to 0x10200. -/
theorem test_page_list :
    let segs : List Segment := [{ addr := 0x10000, len := 300, host := 0, crc := none },
                                { addr := 0x10150, len := 200, host := 0, crc := none }]
    (firstPage segs 128, pageAfter segs 128 0x10100, pageAfter segs 128 0x10180, pageAfter segs 128 0x10200)
      = (some 0x10000, some 0x10180, some 0x10200, none) := by decide +kernel

/-- The clear plan of section 6.5. -/
theorem test_clear_plan :
    clearPlan { device := 0, base := 0, size := 0x20000, pageCode := 1, clearCode := 0, maxRate := 5, protection := 0,
                keyRequired := 0 } false
      [{ addr := 0x100, len := 0x2F00, host := 0, crc := none }, { addr := 0x3000, len := 0x10, host := 0, crc := none },
       { addr := 0x3020, len := 0x3FE0, host := 0, crc := none }, { addr := 0x10000, len := 0x400, host := 0, crc := none }]
      = [(0, 16), (16, 12), (64, 1)] := by decide +kernel

/-! ## The states of the witnesses -/

/-- Rings of eight entries. -/
def ring : Geometry := { jobBase := 0, jobCode := 3, doneBase := 0, doneCode := 3 }

/-- A running part. -/
def running : State :=
  { State.reset with
    part := { PartCtl.reset with state := .running }
    rings := { Rings.reset with geom := some ring } }

/-- The running part in another part state. -/
def inState (p : PartState) : State := { running with part := { PartCtl.reset with state := p } }

/-- The part in a state, with lane 0 as given. -/
def withLane0 (p : PartState) (l : Lane) : State := (inState p).withLane 0 l

/-- A running job of lane 0, in slot 0. -/
def job (args : JobArgs) : JobSlot :=
  { tag := 7, mask := 1, live := 1, results := Vector.replicate 8 none, lastSteps := Vector.replicate 8 .none,
    copies := Vector.replicate 8 none, state := .running, ctx := some 0, imageFail := none, cancelLink := none, adm := 0,
    reportAddr := 0, args := args }

/-- The running part with a job in slot 0 that owns lane 0 and holds Image Context 0. -/
def withJob (j : JobSlot) (x : ImageCtx) (l : Lane) : State :=
  { running with
    work := ((({ Work.reset with reserved := 1 }.setSlot 0 (some j)).setOwner 0 (some 0)).setCtx 0 x).setLane 0
      { l with ctx := { l.ctx with slot := some 0 } } }

/-- The running part with a WAITING job in slot 0. -/
def withWaiting (j : JobSlot) : State :=
  { running with
    work := { { Work.reset with reserved := 1 }.setSlot 0 (some { j with state := .waiting, live := 0, ctx := none }) with
      grantList := [0] } }

def programArgs : JobArgs :=
  .program { clear := true, write := true, check := true, sum := true, guard := true } false false .hold 2 0x1000 0
def readoutArgs : JobArgs := .readout false .hold 0x2000 0 0 100
def entry0 : ExchangeEntry := { kind := 0x10, len := 4, busyMs := 1 }
def entry1 : ExchangeEntry := { kind := 0x11, len := 0, busyMs := 65535 }
def exchangeArgs : JobArgs := .exchange false .hold 0x3000 0 [entry0, entry1]

/-- A lane with its supply good. -/
def powered : Lane :=
  { Lane.reset with
    lines := { Lines.off with tpwrOn := true }
    supply := { Supply.reset with state := .good, level := .above } }

/-- A powered lane in a lane state. -/
def lane (st : LaneState) (step : Step) : Lane :=
  { powered with ctx := { LaneCtx.reset with state := st, step := step, session := st = .ready || st = .active } }

/-- A powered lane with a request outstanding. -/
def asking (st : LaneState) (step : Step) (link : LinkState) (r : Request) : Lane :=
  { lane st step with
    link := { LinkUnit.idle with state := link, req := some r, retryLimit := 3, replyLimit := 10, timer := .running 9 } }

/-- A lane with a host transfer in flight. -/
def moving (st : LaneState) (step : Step) (x : Xfer) : Lane :=
  { lane st step with eng := { Engine.idle with xfer := some x } }

/-- A target of 128-byte pages and 1 KiB units, 64 KiB from address 0. -/
def target : TargetDesc :=
  { device := 0, base := 0, size := 0x10000, pageCode := 1, clearCode := 0, maxRate := 5, protection := 0, keyRequired := 0 }

/-- A segment of 16 bytes at target address 0xC0, and an image of it. -/
def seg : Segment := { addr := 0xC0, len := 16, host := 0x5000, crc := none }
def image : ImageCtx :=
  { ImageCtx.free with state := .writePass, slot := some 0, pageCode := 1, segs := [seg], passLanes := 1, computed := [none] }

theorem seg_good : ∀ k, ¬ segmentFails [seg] k := by
  rintro k ⟨g, h, q⟩
  have hk : k = 0 := by
    cases k with
    | zero => rfl
    | succ k => simp at h
  subst hk
  simp only [List.getElem?_cons_zero, Option.some.injEq] at h
  subst h
  rcases q with q | q | q | q | ⟨_, q, _⟩
  · exact absurd q (by decide)
  · exact absurd q (by decide)
  · exact absurd q (by decide)
  · exact absurd q (by decide)
  · exact absurd q (by decide)

/-- A 64-byte record with tag 7, the kind, the mask, no report address, and the bytes from byte 16 on. -/
def record (kind mask : Byte) (args : List Byte) : List Byte :=
  [7, 0, 0, 0, kind, mask, 0, 0] ++ List.replicate 8 0 ++ args ++ List.replicate (48 - args.length) 0

/-- The running part with a record held by Job Intake. -/
def holding (r : List Byte) (s : State) : State := { s with intake := { s.intake with held := some r } }

/-- The part with a user of the memory port. -/
def atPort (u : PortUser) (s : State) : State := { s with port := some u }

/-- A completion entry, and the running part with entries at the Post Queue. -/
def entryOf (k : Byte) (tag : Word) : Entry :=
  { tag := tag, kind := k, adm := 0, status := .refused, requested := 1, succeeded := 0, failed := 0, notRun := 1, detail := 1,
    jobHead := 1, targetTag := 0, fallback := false, reportAddr := 0x8000, lanes := [], reportWritten := false,
    reportFailed := false }
def reported : Entry :=
  { entryOf 1 7 with
    lanes := [{ lane := 0, result := .done, lastStep := .guard, copy := none },
              { lane := 1, result := .done, lastStep := .guard, copy := none }] }
def queued (es : List Entry) (s : State) : State := { s with work := { s.work with queue := es } }

/-- The part with some of its ring indexes set. -/
def rung (tail head doneHead writeIdx : Nat) (s : State) : State :=
  { s with
    rings := { s.rings with jobTail := tail, jobHead := head, doneHead := doneHead, writeIdx := writeIdx,
                            postTimes := List.replicate ((writeIdx + 8 - doneHead) % 8) 0 } }

/-! ## The hypotheses of the statements can be met: the register port, resets, intake and posting -/

theorem meets_StepRunsFrontCommand : State.reset.pending = [] ∧
    State.pending { running with pending := [.quiesce, .enable] } = [.quiesce, .enable] := by decide +kernel

theorem meets_ResetActsOnEveryLane : Instr.powerOnReset = .powerOnReset ∧ Instr.pinReset = .pinReset := by decide

/-- The part while RESET_N is low. -/
def asleep : State := { running with part := { running.part with resetLow := true } }

theorem meets_ResetsAndTheResetPin : asleep.part.resetLow = true ∧ Instr.enable ≠ .powerOnReset
    ∧ Instr.enable ≠ .pinReset ∧ Instr.enable ≠ .resetNRelease := by decide

theorem meets_ControlFieldWrites : running.Awake ∧ running.part.state = .running ∧ (inState .quiescing).Awake
    ∧ (inState .quiescing).part.state ≠ .running ∧ (inState .quiescing).part.state = .quiescing
    ∧ (∀ i, running.work.slot i = none) ∧ running.work.queue = [] ∧ running.work.reserved = 0
    ∧ running.intake.reading = false ∧ (queued [reported] running).work.queue ≠ [] := by decide +kernel

/-- A draining part whose lanes have come to rest. -/
def drainedPart : State :=
  { inState .draining with
    work := { Work.reset with lanes := Vector.replicate 8 { Lane.reset with eng := { Engine.idle with drained := true } } } }

theorem meets_SoftResetDrainsAndClears :
    (∀ st ∈ [LaneState.off, .powering, .settling, .run, .fault, .entry, .linking, .ready, .active, .hold],
      (withLane0 .running (lane st .none)).Awake ∧ (withLane0 .running (lane st .none)).part.state ≠ .draining
        ∧ ((withLane0 .running (lane st .none)).work.lane 0).ctx.state = st
        ∧ ((withLane0 .running (lane st .none)).work.lane 0).link.state ≠ .busyHold)
    ∧ ((withLane0 .running (asking .active .clear .busyHold (entryRequest entry0))).work.lane 0).link.state = .busyHold
    ∧ drainedPart.Awake ∧ drainedPart.part.state = .draining
    ∧ (∀ n, (drainedPart.work.lane n).eng.drained = true ∧ (drainedPart.work.lane n).eng.xfer = none)
    ∧ drainedPart.port = none ∧ drainedPart.posting = none ∧ drainedPart.part.setupReading = false
    ∧ drainedPart.intake.reading = false := by decide +kernel

/-- Thresholds 1, 255 and 0; CONTROL with ENABLE, with QUIESCE and CLEAR_MISUSE, with SOFT_RESET; offsets 1 and 31. -/
theorem meets_RegisterWindow : running.Awake ∧ 1 ≤ ((0x00000100#32).toNat / 256) % 256
    ∧ 1 ≤ ((0x0003FF01#32).toNat / 256) % 256 ∧ ((0xFFFF00FF#32).toNat / 256) % 256 = 0
    ∧ (0x00000001#32).getLsbD 2 = false ∧ State.reset.part.state = .disabled ∧ (0x0000000A#32).getLsbD 2 = false
    ∧ (0x0000000C#32).getLsbD 2 = true ∧ (1#5).toNat % 4 ≠ 0 ∧ (31#5).toNat % 4 ≠ 0 := by decide +kernel

/-- JOB_TAIL and DONE_HEAD writes that are taken, with one entry unreleased from index 2, and writes that are ignored. -/
theorem meets_RegisterWindow_reads : (rung 0 0 2 3 running).Awake ∧ ¬ (rung 0 0 2 3 running).misuses (.jobTailWrite 0xF#4 7)
    ∧ ¬ (rung 0 0 2 3 running).misuses (.doneHeadWrite 0xF#4 3) ∧ (rung 0 0 2 3 running).misuses (.jobHeadWrite 0xF#4 7)
    ∧ (rung 0 0 2 3 running).misuses (.jobTailWrite 0xF#4 8) := by
  simp [State.misuses, rung, running, ring, PartCtl.reset, Rings.unreleased, Rings.releases, Rings.doneSize, Geometry.doneSize,
    subMod, State.Awake]

/-- JOB_TAIL values 7 and 8 on a ring of eight entries. DONE_HEAD with seven unreleased entries: releases of 7 (to index 1) and
of 0 (to index 2), an entry waiting; and with one unreleased, a release of 2 (to index 4). -/
theorem meets_RingIndexWrites : (inState .halted).Awake ∧ (inState .halted).rings.geom = some ring
    ∧ (inState .halted).part.state ∈ [PartState.running, .quiescing, .quiesced, .halted] ∧ (7#32).toNat < 2 ^ ring.jobCode
    ∧ State.reset.rings.geom = none ∧ (inState .draining).part.state ∈ [PartState.disabled, .loading, .draining]
    ∧ 2 ^ ring.jobCode ≤ (8#32).toNat ∧ (rung 0 0 2 1 running).Awake ∧ (rung 0 0 2 1 running).rings.geom = some ring
    ∧ (rung 0 0 2 1 running).rings.doneHead < 2 ^ ring.doneCode ∧ (rung 0 0 2 1 running).rings.writeIdx < 2 ^ ring.doneCode
    ∧ (1#32).toNat < 2 ^ ring.doneCode ∧ (1 + 2 ^ ring.doneCode - 2) % 2 ^ ring.doneCode = 2 ^ ring.doneCode - 1
    ∧ (queued [reported] (rung 0 0 2 1 running)).posting = none
    ∧ (queued [reported] (rung 0 0 2 1 running)).work.queue = [reported]
    ∧ (queued [reported] (rung 0 0 2 1 running)).part.state ≠ .halted
    ∧ (2 + 2 ^ ring.doneCode - 2) % 2 ^ ring.doneCode = 0
    ∧ (3 + 2 ^ ring.doneCode - 2) % 2 ^ ring.doneCode < (4 + 2 ^ ring.doneCode - 2) % 2 ^ ring.doneCode := by decide +kernel

theorem meets_MisuseFlag : running.Awake ∧ running.misuses (.jobHeadWrite 0xF#4 0) ∧ running.misuses (.setupLoWrite 0x7#4 0)
    ∧ running.clearsMisuse .clearMisuse ∧ running.clearsMisuse .pinReset ∧ ¬ running.misuses .enable
    ∧ ¬ running.clearsMisuse .enable ∧ ¬ asleep.Awake :=
  ⟨rfl, trivial, by simp only [State.misuses]; decide, trivial, trivial, id, id, by decide⟩

/-- Rings of eight with one entry unreleased from index 2: JOB_TAIL 8, DONE_HEAD 8 and 4, threshold 0, the first and the last offset
that name no register, STATUS, and JOB_HEAD. -/
theorem meets_MisuseFlag_boundaries : let s := rung 0 0 2 3 running
    (∀ v, s.misuses (.jobTailWrite 0xF#4 v) ↔ 8 ≤ v.toNat)
    ∧ (∀ v, s.misuses (.doneHeadWrite 0xF#4 v) ↔ 8 ≤ v.toNat ∨ 1 < (v.toNat + 6) % 8)
    ∧ (∀ v, s.misuses (.notifyWrite 0xF#4 v) ↔ v.toNat / 256 % 256 = 0)
    ∧ (∀ o ∈ [0x01#5, 0x1F#5], ∀ v, ¬ s.misuses (.registerWrite o 0xF#4 v) ∧ s.misuses (.registerWrite o 0xE#4 v))
    ∧ ∀ v, ¬ s.misuses (.registerWrite 0x04#5 0xF#4 v) ∧ s.misuses (.registerWrite 0x14#5 0xF#4 v) := by
  simp [State.misuses, rung, running, ring, PartCtl.reset, Rings.unreleased, Rings.releases, Rings.doneSize, Geometry.doneSize,
    subMod]

/-- A block that passes every check, with the largest code and the highest bases, and one that fails only by the sum. -/
theorem meets_SetupBlockJudged : (atPort .setup (inState .loading)).Awake
    ∧ (atPort .setup (inState .loading)).part.state = .loading ∧ (atPort .setup (inState .loading)).port = some .setup
    ∧ (∀ b ∈ [10, 11], (leBytes 8 (2 ^ 64 - 65536) ++ leBytes 8 b ++ leBytes 8 (2 ^ 64 - 32768) ++ leBytes 8 10).length = 32)
    ∧ fieldAt (leBytes 8 (2 ^ 64 - 65536) ++ leBytes 8 10) 0 8 + 64 * 2 ^ 10 = 2 ^ 64
    ∧ fieldAt (leBytes 8 (2 ^ 64 - 65472) ++ leBytes 8 10) 0 8 + 64 * 2 ^ 10 = 2 ^ 64 + 64 := by decide +kernel

/-- A running part with every slot full: a LANE-SET of lane 0 waits in slot 5, the other slots run. -/
def fullPart : State :=
  { running with
    work := { Work.setSlot { Work.reset with slots := Vector.replicate 16 (some (job programArgs)), reserved := 16 } 5
        (some { job (.laneSet Settings.default) with state := .waiting, live := 0, ctx := none }) with grantList := [5] } }

theorem meets_JobRecordRead : running.Awake ∧ running.part.state = .running ∧ (rung 1 0 0 0 running).rings.geom.isSome = true
    ∧ (rung 1 0 0 0 running).rings.jobHead ≠ (rung 1 0 0 0 running).rings.jobTail
    ∧ (rung 1 0 0 0 running).work.queue.length + (rung 1 0 0 0 running).work.reserved < 32
    ∧ (rung 1 0 0 0 running).intake.held = none ∧ (rung 1 0 0 0 running).intake.reading = false
    ∧ (atPort .intake running).port = some .intake ∧ (atPort .intake running).intake.readVoid = false
    ∧ (atPort .intake (inState .halted)).part.state ∈ [PartState.halted, .draining]
    ∧ (record 6 1 [4]).length = 64 ∧ judgeRecord (record 6 1 [4]) = .slotted (.laneAction .clearFault)
    ∧ (∀ i, fullPart.work.slot i ≠ none) ∧ fullPart.part.state = .running := by decide +kernel

/-- A read that the part left RUNNING before, made void by QUIESCE: in every part state, in RUNNING after QUIESCE's release, and in a
QUIESCING part that is empty or has an entry left. -/
def voided (p : PartState) (es : List Entry) : State :=
  let s := atPort .intake (inState p)
  queued es { s with intake := { s.intake with reading := true, readVoid := true } }

theorem meets_JobRecordRead_void : (∀ p ∈ [PartState.disabled, .loading, .quiesced, .halted, .draining, .running, .quiescing],
      (voided p []).Awake ∧ (voided p []).port = some .intake ∧ (voided p []).part.state = p)
    ∧ (voided .running []).intake.readVoid = true ∧ (voided .running []).intake.held = none
    ∧ (∀ i, (voided .quiescing []).work.slot i = none) ∧ (voided .quiescing []).work.queue = []
    ∧ (voided .quiescing []).work.reserved = 0 ∧ (voided .quiescing [reported]).work.queue ≠ [] := by decide +kernel

/-- R150, R160: the record of a read issued before QUIESCE is discarded, and the part that is then empty enters QUIESCED; after
QUIESCE's release the part stays RUNNING without it. -/
theorem test_void_read_ends :
    (∃ t, exec (.jobRecordReadEnd (.ok (record 6 1 [4]))) (voided .quiescing []) = .next t ∧ t.part.state = .quiesced
      ∧ t.intake.held = none)
    ∧ ∃ t, exec (.jobRecordReadEnd .error) (voided .running []) = .next t ∧ t.part.state = .running ∧ t.intake.held = none :=
  ⟨⟨_, rfl, by decide +kernel⟩, _, rfl, by decide +kernel⟩

theorem meets_JobTakeRefusesOrPlaces : (holding (record 9 1 []) running).Awake
    ∧ (holding (record 9 1 []) running).part.state = .running ∧ (holding (record 9 1 []) running).rings.geom = some ring
    ∧ (holding (record 9 1 []) running).intake.held = some (record 9 1 [])
    ∧ judgeRecord (record 9 1 []) = .refused .unknownKind
    ∧ judgeRecord (record 6 1 [4]) = .slotted (.laneAction .clearFault) ∧ running.work.slot 0 = none
    ∧ (∀ i, fullPart.work.slot i ≠ none) := by decide +kernel

/-- The grant of the LANE-SET frees slot 5, for which a LANE-ACTION record waits. -/
theorem meets_FreedSlotTakesTheWaitingRecord : (holding (record 6 1 [4]) fullPart).Awake
    ∧ (holding (record 6 1 [4]) fullPart).part.state = .running ∧ (holding (record 6 1 [4]) fullPart).rings.geom = some ring
    ∧ (holding (record 6 1 [4]) fullPart).intake.held = some (record 6 1 [4])
    ∧ judgeRecord (record 6 1 [4]) = .slotted (.laneAction .clearFault) ∧ (∀ k, fullPart.work.slot k ≠ none)
    ∧ ∃ t, exec .grantScan { holding (record 6 1 [4]) fullPart with intake := { running.intake with held := none } } = .next t
      ∧ t.part.state = .running ∧ t.work.slot 5 = none ∧ ∀ k, k < 5 → t.work.slot k ≠ none :=
  ⟨by decide, by decide, by decide, rfl, by decide +kernel, by decide +kernel, _, rfl, by decide +kernel, by decide +kernel,
    by decide +kernel⟩

/-- LANE-SET values at the ends of their ranges, one that is too great, and action codes 4 and 5. -/
theorem meets_RecordChecks : (byteAt (record 5 0x80 [5, 7, 255, 0, 0xFF, 3, 255, 255, 2, 1, 255, 255, 255, 4]) 4 = 5)
    ∧ (∃ v, judgeRecord (record 5 0x80 [5, 7, 255, 0, 0xFF, 3, 255, 255, 2, 1, 255, 255, 255, 4]) = .slotted (.laneSet v))
    ∧ judgeRecord (record 5 0x80 [5, 7, 255, 0, 0, 4, 255, 255, 2, 1, 255, 255, 255, 4]) = .refused .badSetting
    ∧ fieldAt (record 6 1 [4]) 16 1 ≤ 4 ∧ 5 ≤ fieldAt (record 6 1 [5]) 16 1 ∧ byteAt (record 0 1 []) 4 = 0
    ∧ 7 < (byteAt (record 8 1 []) 4).toNat ∧ byteAt (record 1 0 []) 5 = 0 ∧ byteAt (record 7 0 []) 4 = 7 :=
  ⟨by decide +kernel, ⟨_, rfl⟩, by decide +kernel⟩

/-- A record of lanes in a mask, with its flags, its end action and its bytes from byte 16 on. -/
def argued (kind mask flags end_ : Byte) (args : List Byte) : List Byte := overwrite (record kind mask args) 6 [flags, end_]

/-- Table 6-2: each row that refuses a PROGRAM record, at a boundary, and a record without an image that passes them. -/
theorem meets_RecordChecks_program :
    judgeRecord (argued 1 1 0 0 (List.replicate 16 0 ++ [0xE0])) = .refused .emptyStepSet
    ∧ judgeRecord (argued 1 1 0 4 (List.replicate 16 0 ++ [0x10, 4])) = .refused .badAction
    ∧ judgeRecord (argued 1 1 0 3 (List.replicate 16 0 ++ [0x11, 4])) = .refused .badSetting
    ∧ judgeRecord (argued 1 1 0 3 (List.replicate 16 0 ++ [0x11, 3])) = .refused .imageRequired
    ∧ judgeRecord (argued 1 1 2 3 (List.replicate 16 0 ++ [0x11, 3])) = .slotted (.program
        { clear := true, write := false, check := false, sum := false, guard := true } false true .off 3 0 0) := by
  decide +kernel

/-- Table 7-2: each row that refuses a READOUT, an IDENTIFY or an EXCHANGE record, and records that pass. An EXCHANGE with a Len of
265 in entry 0 and a refused kind in entry 1 is refused for the kind. -/
theorem meets_RecordChecks_sessions :
    judgeRecord (argued 2 3 0 4 []) = .refused .moreThanOneLane ∧ judgeRecord (argued 2 0x80 0 4 []) = .refused .badAction
    ∧ judgeRecord (argued 2 0x80 0 2 []) = .refused .zeroLength
    ∧ judgeRecord (argued 2 0x80 1 2 (List.replicate 20 0 ++ [1])) = .slotted (.readout true .run 0 0 0 1)
    ∧ judgeRecord (argued 3 0xFF 0 4 []) = .refused .badAction ∧ judgeRecord (argued 3 0xFF 0 3 []) = .refused .noReportAddress
    ∧ judgeRecord (overwrite (argued 3 0xFF 1 3 []) 8 [1]) = .slotted (.identify true .off 0)
    ∧ judgeRecord (argued 4 0x81 0 4 []) = .refused .moreThanOneLane ∧ judgeRecord (argued 4 0x80 0 4 []) = .refused .badAction
    ∧ judgeRecord (argued 4 0x80 0 1 []) = .refused .badSetting
    ∧ judgeRecord (argued 4 0x80 0 1 (List.replicate 16 0 ++ [5])) = .refused .badSetting
    ∧ judgeRecord (argued 4 0x80 0 1 (List.replicate 16 0 ++ [2, 0, 0, 0, 0x7F, 0, 9, 1, 1, 0, 9])) = .refused .refusedExchangeKind
    ∧ judgeRecord (argued 4 0x80 0 1 (List.replicate 16 0 ++ [1, 0, 0, 0, 0x7F, 0, 9, 1, 1, 0])) = .refused .badSetting
    ∧ judgeRecord (argued 4 0x80 0 1 (List.replicate 16 0 ++ [1, 0, 0, 0, 0x7F, 0, 8, 1, 1, 0]))
        = .slotted (.exchange false .hold 0 0 [{ kind := 0x7F, len := 264, busyMs := 1 }]) := by decide +kernel

theorem meets_CancelIsResolvedAtIntake : (holding (record 7 0 [7]) running).intake.held = some (record 7 0 [7])
    ∧ byteAt (record 7 0 [7]) 4 = 7 ∧ running.work.findNamed 1 (wordAt (record 7 0 [7]) 16) = none
    ∧ (withJob { job programArgs with state := .ending } image powered).work.findNamed 1 7 = some (.slot 0 0)
    ∧ (withJob { job programArgs with cancelLink := some { tag := 1, adm := 0 } } image powered).work.findNamed 1 7
        = some (.slot 0 0)
    ∧ (queued [entryOf 1 7] running).work.findNamed 1 7 = some (.entry 0) := by decide +kernel

theorem meets_CancelIsResolvedAtIntake_waiting :
    (withWaiting (job programArgs)).work.findNamed 1 (wordAt (record 7 0 [7]) 16) = some (.slot 0 0)
    ∧ ∃ j, (withWaiting (job programArgs)).work.slot 0 = some j ∧ j.cancelLink = none ∧ j.state = .waiting ∧ j.ctx = none :=
  ⟨by decide +kernel, _, rfl, rfl, rfl, rfl⟩

theorem meets_CancelIsResolvedAtIntake_oldest : (withWaiting (job programArgs)).work.findNamed 1 7 = some (.slot 0 0)
    ∧ running.work.findNamed 1 7 = none := by decide +kernel

/-- Six unreleased entries leave room for one in a ring of eight; seven leave none. -/
theorem meets_PostingWritesReportsFirst : (queued [reported] (rung 0 0 0 6 running)).rings.geom = some ring
    ∧ (queued [reported] (rung 0 0 0 6 running)).posting = none
    ∧ (queued [reported] (rung 0 0 0 6 running)).work.queue = [reported]
    ∧ (rung 0 0 0 6 running).rings.unreleased < 2 ^ ring.doneCode - 1
    ∧ 2 ^ ring.doneCode - 1 ≤ (rung 0 0 1 0 running).rings.unreleased
    ∧ (atPort .postQueue running).port = some .postQueue ∧ 0 + 1 < reported.lanes.length
    ∧ reported.lanes.length ≤ 1 + 1 := by decide +kernel

theorem meets_CompletionWritePosts : (queued [reported] (rung 0 0 1 7 (inState .quiescing))).rings.geom = some ring
    ∧ (rung 0 0 1 7 (inState .quiescing)).rings.writeIdx < 2 ^ ring.doneCode
    ∧ (queued [reported] (atPort .postQueue (inState .quiescing))).port = some .postQueue
    ∧ (∀ i, (inState .quiescing).work.slot i = none) ∧ (inState .quiescing).work.reserved = 0
    ∧ (inState .quiescing).intake.reading = false ∧ (inState .running).part.state ≠ .quiescing
    ∧ (inState .halted).part.state ∈ [PartState.halted, .draining] := by decide +kernel

/-- The three parts that an error halts, with lane 0 as given. -/
def halting (l : Lane) : List State :=
  [atPort .setup (withLane0 .loading l),
   (let s := atPort .intake (withLane0 .running l)
    { s with intake := { s.intake with reading := true } }),
   { atPort .postQueue (withLane0 .quiescing l) with posting := some .completion }]

theorem meets_HaltBringsTheLanesToRest : ∀ l ∈ [lane .run .none, moving .linking .linking (.keyRead 0), lane .ready .write,
      asking .active .clear .busyHold (powered.clearRequest 0 1), asking .active .clear .receiving (powered.clearRequest 0 1),
      asking .active .clear .receiving (powered.clearRequest 0 1) |> fun l => { l with link := { l.link with discarding := true } }],
    ∀ s ∈ halting l, s.Awake ∧ s.work.lane 0 = l
      ∧ ((s.part.state = .loading ∧ s.port = some .setup)
        ∨ (s.part.state = .running ∧ s.port = some .intake ∧ s.intake.readVoid = false)
        ∨ (s.part.state ∈ [.running, .quiescing, .quiesced] ∧ s.port = some .postQueue ∧ s.posting = some .completion)) := by
  decide +kernel

/-- An outcome copy with every count at its greatest. -/
def fullCopy : OutcomeCopy :=
  { retries := 255, drops := 255, faultAddr := some 0xFFFFFFFF#32, sumsSkipped := 32, rate := 5, fallback := true,
    desc := some target }

theorem meets_HostRecordLayouts : ({ entryOf 1 7 with jobHead := 1023 } : Entry).jobHead < 1024 ∧ fullCopy.retries < 256
    ∧ fullCopy.drops < 256 ∧ fullCopy.rate < 256 ∧ fullCopy.sumsSkipped < 256 := by decide

theorem meets_IrqLineFollowsItsConditions : running.Awake ∧ Instr.enable ≠ .resetNRelease
    ∧ exec .enable running = .next running.refreshIrq
    ∧ (1#2, 50) ∈ [(1#2, 50), (2#2, 200), (3#2, 1000)]
    ∧ (rung 0 0 0 1 running).rings.postTimes.head? = some 0 ∧ 1 ≤ (rung 0 0 0 1 running).rings.unreleased :=
  ⟨rfl, by decide, rfl, by decide, by decide +kernel, by decide +kernel⟩

/-- Image Context 0 waits for the port with a part of its descriptor, or in its CHECK pass with its next page, page 0. -/
def wanting (x : ImageCtx) : State := withJob (job programArgs) x powered
def describingCtx : ImageCtx :=
  { ImageCtx.free with state := .descriptor, slot := some 0, descPtr := 0x1000, descDue := some .header }
def checkingCtx : ImageCtx := { image with state := .checkPass, nextPage := some 128 }

/-- The lane served last was 7 and the context served last 7, so that 0 is the next of both. -/
theorem meets_PortGoesToTheHighestClass : (atPort .setup running).port.isSome = true ∧ running.port = none
    ∧ running.posting = none ∧ running.part.setupReading = false ∧ running.intake.reading = false
    ∧ ((withLane0 .running (moving .linking .linking (.keyRead 0))).work.lane
        ((withLane0 .running (moving .linking .linking (.keyRead 0))).portLast + 1 + Fin.ofNat 8 0)).eng.xfer.isSome = true
    ∧ (∀ x ∈ [describingCtx, checkingCtx], (∀ n, ((wanting x).work.lane n).eng.xfer = none)
        ∧ (wanting x).part.state ∈ [PartState.loading, .running, .quiescing, .quiesced]
        ∧ (0 : CtxId) = (wanting x).work.imgLast + 1 + Fin.ofNat 8 0)
    ∧ ((wanting describingCtx).work.ctx 0).state = .descriptor ∧ ((wanting describingCtx).work.ctx 0).descDue = some .header
    ∧ ((wanting checkingCtx).work.ctx 0).nextPage = some 128 ∧ ((wanting checkingCtx).work.ctx 0).fetch = none := by
  decide +kernel

/-- The transfers: the setup read at SETUP, the record read at JOB_HEAD 3, the second report record and the completion record of
the entry at the head of the Post Queue, with write index 5; and one of each kind of a lane's and of the Image Reader's. -/
theorem meets_PortGoesToTheHighestClass_transfers :
    ((∃ t u, exec .enable { State.reset with regs := { State.reset.regs with setupHi := 1, setupLo := 0x10 } } = .next t
        ∧ exec .memoryPortArbitration t = .next u ∧ u.portTransfer = some (.read 0x100000010#64 32)))
    ∧ (atPort .intake (rung 4 3 0 0 running)).portTransfer = some (.read 192#64 64)
    ∧ (let s := queued [reported] (atPort .postQueue (rung 0 0 0 5 running))
       { s with posting := some (.report 1) }.portTransfer
          = some (.write 0x8020#64 (reportRecord { lane := 1, result := .done, lastStep := .guard, copy := none }))
        ∧ { s with posting := some .completion }.portTransfer = some (.write 160#64 (completionRecord reported true 1)))
    ∧ (∀ x ∈ [Xfer.keyRead 16, .payloadRead 16 4, .pageWrite 0 0 16 [1], .replyWrite 16 [1]],
        ((atPort (.lane 0) (withLane0 .running (moving .ready .exchange x))).work.lane 0).eng.xfer = some x)
    ∧ (atPort (.image 0 (.desc .header 16)) running).portTransfer = some (.read 16#64 16) :=
  ⟨⟨_, _, rfl, rfl, by decide +kernel⟩, by decide +kernel, by decide +kernel, by decide +kernel, by decide +kernel⟩

theorem meets_PortGoesToTheHighestClass_image : (∀ x ∈ [describingCtx, checkingCtx], (wanting x).work.WantsPort 0)
    ∧ (wanting checkingCtx).work.MayTake 0 0 ∧ (∀ b', b' < (0 : BufId) → ¬ (wanting checkingCtx).work.MayTake 0 b') := by
  have h : (wanting checkingCtx).work.MayTake 0 0 := ⟨by decide +kernel, .inl rfl⟩
  refine ⟨?_, h, fun b' hb => absurd hb (Fin.not_lt_zero b')⟩
  intro x hx
  simp only [List.mem_cons, List.not_mem_nil, or_false] at hx
  rcases hx with rfl | rfl
  · exact .inl ⟨by decide +kernel, by decide +kernel⟩
  · refine .inr ⟨by decide +kernel, by decide +kernel, by decide +kernel, ⟨0, h⟩, fun i j hi hj => ?_⟩
    obtain rfl : 0 = i := Option.some.inj hi
    obtain rfl : job programArgs = j := Option.some.inj hj
    rfl

/-! ## The hypotheses of the statements can be met: grants and outcomes -/

/-- A slot is filled with a job of which `p` holds. -/
theorem exists_slot_iff {o : Option JobSlot} {p : JobSlot → Bool} : (∃ j, o = some j ∧ p j = true) ↔ o.any p = true := by
  cases o <;> simp

theorem waiting_tables : (withWaiting (job programArgs)).TablesSound where
  nodup := by decide
  waiting := by
    have h : ∀ i, i ∈ (withWaiting (job programArgs)).work.grantList
        ↔ ((withWaiting (job programArgs)).work.slot i).any (fun j => decide (j.state = .waiting)) = true := by decide +kernel
    intro i
    rw [h, ← exists_slot_iff]
    simp only [decide_eq_true_eq]
  lane := by decide +kernel
  owner := by
    have h : ∀ n, (withWaiting (job programArgs)).work.ownerOf n = none := by decide +kernel
    intro n i e
    rw [h] at e
    cases e
  drained := fun h => absurd h (by decide)
  holder := by
    have h : ∀ n, (withWaiting (job programArgs)).work.ownerOf n = none := by decide +kernel
    intro n i e
    rw [h] at e
    cases e
  noContext := by
    have h : ∀ i, ((withWaiting (job programArgs)).work.slot i).all (fun j => j.ctx.isNone) = true := by decide +kernel
    intro i j e _
    have := h i
    rw [e] at this
    simpa using this
  context := by
    have h : ∀ i c, (((withWaiting (job programArgs)).work.ctx c).slot = some i
        ↔ ((withWaiting (job programArgs)).work.slot i).any (fun j => decide (j.ctx = some c)) = true) := by decide +kernel
    intro c i
    rw [h, ← exists_slot_iff]
    simp only [decide_eq_true_eq]
  free := by decide +kernel

/-- The first job of the Grant List starts: nothing stands before it. -/
theorem meets_ScanGrantsEveryJobThatCanStart : (withWaiting (job programArgs)).Awake
    ∧ (withWaiting (job programArgs)).part.state ∈ [PartState.loading, .running, .quiescing, .quiesced]
    ∧ (withWaiting (job programArgs)).TablesSound ∧ (withWaiting (job programArgs)).NoneWaits
    ∧ (withWaiting (job programArgs)).work.grantList = [] ++ 0 :: []
    ∧ (∀ n, (withWaiting (job programArgs)).work.ownerOf n = none)
    ∧ (inState .halted).part.state ∈ [PartState.halted, .draining, .disabled] :=
  ⟨rfl, by decide, waiting_tables, .inl rfl, rfl, by decide +kernel, by decide⟩

/-- A WAITING job of lanes 0 and 1, lane 0 in a lane state and lane 1 in FAULT. -/
def granting (args : JobArgs) (l : Lane) : State :=
  let s := withWaiting { job args with mask := 3 }
  { s with work := (s.work.setLane 0 l).setLane 1 { lane .fault .none with
      ctx := { LaneCtx.reset with state := .fault, faultCause := some .linkLost } } }

/-- Lane 0 in OFF, with lane 1 in FAULT; and both in FAULT. -/
theorem meets_GrantOfAnImageJob : ∀ st ∈ [LaneState.off, .fault],
    (granting programArgs (lane st .none)).Awake
    ∧ (granting programArgs (lane st .none)).part.state ∈ [PartState.loading, .running, .quiescing, .quiesced]
    ∧ (granting programArgs (lane st .none)).work.grantList = [0]
    ∧ ((granting programArgs (lane st .none)).work.slot 0).map JobSlot.args = some programArgs
    ∧ ((granting programArgs (lane st .none)).work.slot 0).map JobSlot.mask = some 3 ∧ (0x1000 : HostAddr) ≠ 0
    ∧ (∀ n, (granting programArgs (lane st .none)).work.ownerOf n = none)
    ∧ ((granting programArgs (lane st .none)).work.ctx 0).state = .free
    ∧ (∀ c', c' < (0 : CtxId) → ((granting programArgs (lane st .none)).work.ctx c').state ≠ .free)
    ∧ ((granting programArgs (lane st .none)).work.lane 0).ctx.state = st
    ∧ ((granting programArgs (lane st .none)).work.lane 1).ctx.state = .fault
    ∧ ((granting programArgs (lane st .none)).work.lane 1).ctx.faultCause = some .linkLost
    ∧ ((granting programArgs (lane st .none)).work.slot 0).bind JobSlot.cancelLink = none
    ∧ ((granting programArgs (lane st .none)).work.slot 0).bind JobSlot.imageFail = none
    ∧ (granting programArgs (lane st .none)).intake.held = none := by decide +kernel

def identifyArgs (fresh : Bool) : JobArgs := .identify fresh .keep 0

/-- Lane 0 in every state of Table 2-4, in a ride window too; reused and with FRESH. -/
theorem meets_SessionJobStartsAtItsGrant : ∀ fresh ∈ [true, false], ∀ st ∈ [LaneState.off, .hold, .run, .ready, .fault],
    ∀ sup ∈ [SupplyState.good, .riding],
    (granting (identifyArgs fresh) { lane st .none with supply := { powered.supply with state := sup } }).Awake
    ∧ (granting (identifyArgs fresh) { lane st .none with supply := { powered.supply with state := sup } }).part.state = .running
    ∧ (granting (identifyArgs fresh) { lane st .none with supply := { powered.supply with state := sup } }).work.grantList = [0]
    ∧ (identifyArgs fresh).endAction? = some .keep ∧ (identifyArgs fresh).isFresh = fresh
    ∧ ((granting (identifyArgs fresh) { lane st .none with supply := { powered.supply with state := sup } }).work.slot 0).map
        JobSlot.args = some (identifyArgs fresh)
    ∧ ((granting (identifyArgs fresh) { lane st .none with supply := { powered.supply with state := sup } }).work.slot 0).bind
        JobSlot.ctx = none
    ∧ (∀ n, (granting (identifyArgs fresh) { lane st .none with supply := { powered.supply with state := sup } }).work.ownerOf n
        = none)
    ∧ ((granting (identifyArgs fresh) { lane st .none with supply := { powered.supply with state := sup } }).work.lane 0).ctx.state
        = st
    ∧ ((granting (identifyArgs fresh) { lane st .none with supply := { powered.supply with state := sup } }).work.lane 0).Unstopped
    ∧ (granting (identifyArgs fresh) { lane st .none with supply := { powered.supply with state := sup } }).intake.held = none := by
  decide +kernel

/-- Every action, lane 0 in every state of Table 2-7. -/
theorem meets_LaneActionStartsAtItsGrant : ∀ a ∈ [ActionCode.powerOn, .powerOff, .hold, .run, .clearFault],
    ∀ st ∈ [LaneState.off, .hold, .run, .ready, .fault],
    (granting (.laneAction a) (lane st .none)).Awake ∧ (granting (.laneAction a) (lane st .none)).part.state = .running
    ∧ (granting (.laneAction a) (lane st .none)).work.grantList = [0]
    ∧ ((granting (.laneAction a) (lane st .none)).work.slot 0).map JobSlot.args = some (.laneAction a)
    ∧ ((granting (.laneAction a) (lane st .none)).work.slot 0).bind JobSlot.ctx = none
    ∧ (∀ n, (granting (.laneAction a) (lane st .none)).work.ownerOf n = none)
    ∧ ((granting (.laneAction a) (lane st .none)).work.lane 0).ctx.state = st
    ∧ ((granting (.laneAction a) (lane st .none)).work.lane 0).supply.state = .good
    ∧ ((granting (.laneAction a) (lane st .none)).work.lane 0).lines.tpwrOn = true
    ∧ ((granting (.laneAction a) (lane st .none)).work.lane 1).ctx.faultCause = some .linkLost
    ∧ (granting (.laneAction a) (lane st .none)).intake.held = none := by decide +kernel

/-- All eight lanes, lane 0 of them in FAULT. -/
def settingJob : State :=
  let s := withWaiting { job (.laneSet Settings.default) with mask := 255 }
  s.withLane 0 (lane .fault .none)

theorem meets_LaneSetIsCarriedOutAtItsGrant : settingJob.Awake ∧ settingJob.intake.held = none
    ∧ settingJob.part.state ∈ [PartState.loading, .running, .quiescing, .quiesced] ∧ settingJob.work.grantList = [0]
    ∧ (settingJob.work.slot 0).map JobSlot.args = some (.laneSet Settings.default)
    ∧ (settingJob.work.slot 0).map JobSlot.mask = some 255 ∧ (settingJob.work.slot 0).bind JobSlot.cancelLink = none
    ∧ (settingJob.work.slot 0).bind JobSlot.imageFail = none ∧ (settingJob.work.slot 0).bind JobSlot.ctx = none
    ∧ (∀ n, settingJob.work.ownerOf n = none) ∧ (settingJob.work.lane 0).ctx.state = .fault
    ∧ (settingJob.work.lane 7).ctx.state ≠ .fault := by decide +kernel

/-- Lane 0 DONE, lane 7 NOT_RUN, lane 1 LINK_LOST. -/
def endedJob : JobSlot :=
  { job programArgs with
    mask := 0x83, live := 0
    results := ⟨#[some .done, some .linkLost, none, none, none, none, none, some .notRun], rfl⟩ }

theorem meets_OutcomeOfACompletedJob : (∀ n, hasLane endedJob.mask n = true → (endedJob.results.get n).isSome = true)
    ∧ endedJob.mask ≠ 0 ∧ endedJob.cancelLink = none ∧ endedJob.imageFail = none
    ∧ (∀ d, ({ endedJob with imageFail := some (.invalid d) } : JobSlot).imageFail = some (.invalid d))
    ∧ ({ endedJob with cancelLink := some { tag := 1, adm := 1 } } : JobSlot).cancelLink.isSome = true :=
  ⟨by decide +kernel, by decide, rfl, rfl, fun _ => rfl, rfl⟩

/-- A lane of a job with a CLOSE outstanding in a link state, its retries used up. -/
def closing (args : JobArgs) (live : LaneMask) (p : Purpose) (st : LinkState) : State :=
  let l := asking .active .action st (powered.closeRequest p)
  withJob { job args with live := live } image { l with link := { l.link with resends := 3 } }

/-- A GUARD answered under KEEP and under RUN; then the three ends of a CLOSE: of the end action HOLD, of the LANE-ACTION RUN and of
a FRESH job. -/
theorem meets_EndActionsAndTheirCloses :
    (∀ e ∈ [EndAction.keep, .run],
      let args : JobArgs := .program { clear := true, write := true, check := true, sum := true, guard := true } false false e 2 0x1000 0
      let s := withJob (job args) image (asking .active .guard .receiving (powered.guardRequest 2))
      s.Awake ∧ s.part.state = .running ∧ s.work.isLive 0 = true ∧ (s.work.jobOf 0).map JobSlot.args = some args
        ∧ (s.work.lane 0).ctx.state = .active ∧ (s.work.lane 0).ctx.session = true ∧ (s.work.lane 0).Listens
        ∧ (s.work.lane 0).link.req = some (powered.guardRequest 2) ∧ (powered.guardRequest 2).purpose = .guard 2
        ∧ (powered.guardRequest 2).kind = 0x08#8 ∧ (s.work.lane 0).eng.xfer = none ∧ (s.work.lane 0).supply.state ≠ .riding)
    ∧ ∀ st ∈ [LinkState.receiving, .awaiting, .busyHold],
      ∀ q ∈ [(programArgs, 0, Purpose.closeEnd .hold), (.laneAction .run, 1, .closeAction .run), (programArgs, 1, .closeFresh)],
      (closing q.1 q.2.1 q.2.2 st).Awake ∧ (closing q.1 q.2.1 q.2.2 st).part.state = .running
        ∧ ((closing q.1 q.2.1 q.2.2 st).work.lane 0).ctx.state = .active
        ∧ ((closing q.1 q.2.1 q.2.2 st).work.lane 0).link.req = some (powered.closeRequest q.2.2)
        ∧ (powered.closeRequest q.2.2).kind = 0x09#8 ∧ (powered.closeRequest q.2.2).purpose = q.2.2
        ∧ ((closing q.1 q.2.1 q.2.2 st).work.lane 0).eng.xfer = none
        ∧ ((closing q.1 q.2.1 q.2.2 st).work.lane 0).link.state = st
        ∧ ((closing q.1 q.2.1 q.2.2 st).work.lane 0).link.discarding = false
        ∧ ((closing q.1 q.2.1 q.2.2 st).work.lane 0).link.resends = ((closing q.1 q.2.1 q.2.2 st).work.lane 0).link.retryLimit
        ∧ ((closing q.1 q.2.1 q.2.2 st).work.lane 0).link.timer = .running 9
        ∧ (closing q.1 q.2.1 q.2.2 st).work.isLive 0 = decide (q.2.1 ≠ 0)
        ∧ ((closing q.1 q.2.1 q.2.2 st).work.lane 0).ctx.slot = some 0
        ∧ ((closing q.1 q.2.1 q.2.2 st).work.lane 0).Unstopped
        ∧ ((closing q.1 q.2.1 q.2.2 st).work.lane 0).supply.state ≠ .riding
        ∧ (closing (.laneAction .run) 1 q.2.2 st).work.actionOf 0 = some .run := by decide +kernel

/-! ## The hypotheses of the statements can be met: supply, entry and the reset pulse -/

/-- A lane in a power-up. -/
def rising (settle : Nat) : Lane :=
  { lane .powering .powerUp with
    supply := { Supply.reset with state := .rising, powerUp := some 960000 }
    settings := { Settings.default with settleTime := settle } }

theorem meets_PowerUpEndsGoodOrFails : ∀ k ∈ [0, 2],
    (withJob (job programArgs) image (rising k)).Awake
    ∧ ((withJob (job programArgs) image (rising k)).work.lane 0).supply.state = .rising
    ∧ ((withJob (job programArgs) image (rising k)).work.lane 0).settings.settleTime = k
    ∧ ((withJob (job programArgs) image (rising k)).work.lane 0).Unstopped
    ∧ (withJob (job programArgs) image (rising k)).part.state ∈ [PartState.loading, .running, .quiescing, .quiesced] := by
  decide +kernel

/-- A lane in its settle time, in a supply state. -/
def settling (st : SupplyState) : Lane :=
  { lane .settling .powerUp with supply := { Supply.reset with state := st, settle := some 96000 } }

theorem meets_SettleEndLeadsToHoldAndEntry : ∀ st ∈ [SupplyState.settling, .riding],
    (withJob (job programArgs) image (settling st)).Awake
    ∧ ((withJob (job programArgs) image (settling st)).work.lane 0).supply.settle.isSome = true
    ∧ ((withJob (job programArgs) image (settling st)).work.lane 0).supply.state = st
    ∧ (withJob (job programArgs) image (settling st)).work.isLive 0 = true
    ∧ ((withJob (job programArgs) image (settling st)).work.jobOf 0).map (fun j => j.args.endAction?.isSome) = some true
    ∧ ((withJob (job programArgs) image (settling st)).work.lane 0).Unstopped
    ∧ (withLane0 .halted (settling st)).part.state = .halted
    ∧ ((withLane0 .halted (settling st)).work.lane 0).supply.settle.isSome = true := by decide +kernel

/-- A lane in a timed phase, with entry attempts made, its supply in a state. -/
def phased (st : LaneState) (p : Phase) (attempts : Nat) (sup : SupplyState) : Lane :=
  let l := lane st .entry
  { l with ctx := { l.ctx with attempts := attempts }, supply := { l.supply with state := sup },
           eng := { Engine.idle with phase := p } }

/-- Two attempts of three leave one more; three leave none. A low of 8340 cycles, 20 bit times at rate 0, a high of 79 cycles, 3/16
of one, and one cycle less of each; a low that was there before the release of TRST, timed from it at 8340 cycles and at one less. -/
theorem meets_EntryAttemptsAndThePresencePulse : (∀ sup ∈ [SupplyState.good, .riding],
      ∀ p ∈ [Phase.select 9, .presence 0 9, .reset 9], ∀ k ∈ [2, 3],
      (withJob (job programArgs) image (phased .entry p k sup)).Awake
      ∧ ((withJob (job programArgs) image (phased .entry p k sup)).work.lane 0).ctx.state = .entry
      ∧ ((withJob (job programArgs) image (phased .entry p k sup)).work.lane 0).eng.phase = p
      ∧ ((withJob (job programArgs) image (phased .entry p k sup)).work.lane 0).supply.state = sup
      ∧ ((withJob (job programArgs) image (phased .entry p k sup)).work.lane 0).ctx.attempts = k
      ∧ ((withJob (job programArgs) image (phased .entry p k sup)).work.lane 0).settings.entryAttempts = 3)
    ∧ (withJob (job programArgs) image (phased .entry (.presence 0 9) 1 .good)).work.keyPointer 0 = 0
    ∧ (withJob (job (.readout false .hold 0x2000 0x40 0 100)) image
        (phased .entry (.presence 0 9) 1 .good)).work.keyPointer 0 ≠ 0
    ∧ 20 * 417 ≤ 8340 ∧ 8339 < 20 * 417 ∧ 3 * 417 ≤ 16 * 79 ∧ 16 * 78 < 3 * 417
    ∧ 8340 = (if 10000 - 79 - 9000 < 1581 then 10000 - 79 - 1581 else 9000)
    ∧ 8339 = (if 10000 - 79 - 9000 < 1582 then 10000 - 79 - 1582 else 9000)
    ∧ 9000 = (if 10000 - 79 - 9000 < 921 then 10000 - 79 - 921 else 9000) := by decide +kernel

/-- R28: of a low of 9000 cycles that began before TRST was released, only what follows the release counts. -/
theorem test_presence_low_from_the_release :
    let s := fun released => { withJob (job programArgs) image (phased .entry (.presence released 90000) 1 .good) with clock := 10000 }
    (∃ t, exec (.presencePulse 0 ⟨9000, 79⟩) (s 1582) = .next t ∧ (t.work.lane 0).ctx.state = .entry)
    ∧ ∃ t, exec (.presencePulse 0 ⟨9000, 79⟩) (s 1581) = .next t ∧ (t.work.lane 0).ctx.state = .linking :=
  ⟨⟨_, rfl, by decide +kernel⟩, _, rfl, by decide +kernel⟩

theorem meets_ResetPulseEndsInRun : ∀ sup ∈ [SupplyState.good, .riding],
    ((withJob (job (.laneAction .run)) image (phased .hold (.pulse 9) 0 sup)).work.lane 0).eng.phase = .pulse 9
    ∧ ((withJob (job (.laneAction .run)) image (phased .hold (.pulse 9) 0 sup)).work.lane 0).supply.state = sup
    ∧ (withJob (job (.laneAction .run)) image (phased .hold (.pulse 9) 0 sup)).work.isLive 0 = true
    ∧ (withJob (job (.laneAction .run)) image (phased .hold (.pulse 9) 0 sup)).work.actionOf 0 = some .run
    ∧ (withJob { job programArgs with live := 0 } image (phased .hold (.pulse 9) 0 sup)).work.isLive 0 = false := by
  decide +kernel

/-- A lane under RIDE, in a ride window with something held back, or with its settle time running. -/
def riding (st : LaneState) (h : Option Held) : Lane :=
  let l := lane st .clear
  { l with supply := { l.supply with state := .riding, ride := some 48000, level := .below },
           settings := { Settings.default with dropPolicy := .ride }, eng := { Engine.idle with held := h } }

theorem meets_CutSwitchesTheLaneOff :
    ((withJob (job programArgs) image (riding .ready none)).work.lane 0).supply.state = .riding
    ∧ ((withJob (job programArgs) image (lane .ready .clear)).work.lane 0).supply.level = .above
    ∧ ((withJob (job programArgs) image (lane .ready .clear)).work.lane 0).supply.state ∈ [SupplyState.settling, .good]
    ∧ ((withJob (job programArgs) image (lane .ready .clear)).work.lane 0).settings.dropPolicy = .cut
    ∧ ((withJob (job programArgs) image (lane .ready .clear)).work.lane 0).ctx.state ≠ .fault
    ∧ (withJob (job programArgs) image (lane .ready .clear)).work.isLive 0 = true
    ∧ ((withJob (job programArgs) image (lane .ready .clear)).work.lane 0).eng.xfer = none
    ∧ ((withJob (job exchangeArgs) image (moving .ready .exchange (.payloadRead 0 4))).work.lane 0).eng.xfer.isSome = true
    ∧ ((withJob (job programArgs) image
        (asking .active .clear .awaiting (entryRequest entry0))).work.lane 0).link.state ≠ .idle := by decide +kernel

/-- Everything that a window can hold back, and nothing; drops of 20 microseconds and of 19. -/
theorem meets_RideWindow : (∀ h ∈ [none, some Held.entry, some .select, some .presence, some .pulse, some .startPulse,
        some (.request (entryRequest entry0)), some .keyRead, some .step, some (.begin .guard), some .resume],
      ((withJob (job programArgs) image (riding .active h)).work.lane 0).supply.state = .riding
      ∧ ((withJob (job programArgs) image (riding .active h)).work.lane 0).eng.held = h
      ∧ (withJob (job programArgs) image (riding .active h)).part.state ∈ [PartState.loading, .running, .quiescing, .quiesced]
      ∧ ((withJob (job programArgs) image (riding .active h)).work.lane 0).Unstopped
      ∧ (riding .active h).settings.dropPolicy = .ride)
    ∧ (lane .fault .none).supply.level = .above ∧ (lane .fault .none).supply.state ∈ [SupplyState.settling, .good]
    ∧ (lane .fault .none).ctx.state = .fault
    ∧ (withJob (job (.readout false .hold 0x2000 0x40 0 100)) image (riding .linking (some .keyRead))).work.keyPointer 0 ≠ 0
    ∧ (withJob (job (.laneAction .run)) image (riding .hold (some .pulse))).work.actionOf 0 = some .run
    ∧ (∀ k ∈ [ExchangePart.payload, .reply],
        let l := riding .ready (some .step)
        let s := withJob (job exchangeArgs) image
          { l with ctx := { l.ctx with step := .exchange }, eng := { l.eng with exPart := k } }
        (s.work.jobOf 0).map JobSlot.args = some exchangeArgs ∧ (s.work.lane 0).ctx.step = .exchange
          ∧ (s.work.lane 0).eng.entryIdx = 0 ∧ (s.work.lane 0).eng.exPart = k ∧ (s.work.lane 0).eng.held = some .step
          ∧ [entry0, entry1][0]? = some entry0 ∧ entry0.len ≠ 0)
    ∧ ((withJob (job programArgs) image (riding .ready (some (.begin .guard)))).work.jobOf 0).map JobSlot.args = some programArgs
    ∧ (let l := riding .ready (some .resume)
       let q : Resume := { req := powered.clearRequest 0 1, step := .clear, pos := some 0 }
       ({ l with eng := { l.eng with resume := some q } } : Lane).eng.resume = some q) := by decide +kernel

/-! ## The hypotheses of the statements can be met: the target link -/

/-- A lane with a request outstanding at rate 5, its Link Unit changed by `f`. -/
def linked (st : LaneState) (step : Step) (link : LinkState) (r : Request) (f : LinkUnit → LinkUnit) : Lane :=
  let l := asking st step link r
  { l with link := f { l.link with rate := 5 } }

/-- Lows of 3/16 of a bit time, of half of one and of 20 at rate 5, exactly and one cycle off: 20 bit times are no hold. -/
theorem meets_ExchangeTimers :
    (5, 16) ∈ [(0, 417), (1, 192), (2, 96), (3, 48), (4, 24), (5, 16)] ∧ 3 * 16 ≤ 16 * 3 ∧ 16 * 2 < 3 * 16
    ∧ 8 ≤ 16 / 2 ∧ 16 / 2 < 9 ∧ 320 ≤ 20 * 16 ∧ 20 * 16 < 321
    ∧ (∀ st ∈ [LinkState.idle, .sending, .awaiting, .busyHold, .receiving],
        ((withLane0 .running (linked .active .clear st (entryRequest entry0) id)).work.lane 0).link.state = st
        ∧ ((withLane0 .running (linked .active .clear st (entryRequest entry0) id)).work.lane 0).link.rate = 5
        ∧ ((withLane0 .running (linked .active .clear st (entryRequest entry0) id)).work.lane 0).link.discarding = false
        ∧ (withLane0 .running (linked .active .clear st (entryRequest entry0) id)).part.state ≠ .draining
        ∧ (withLane0 .draining (linked .active .clear st (entryRequest entry0) id)).part.state = .draining)
    ∧ (linked .active .clear .awaiting (entryRequest entry0) id).link.busyStart = none
    ∧ (linked .active .clear .awaiting (entryRequest entry0) id).link.timer = .running 9
    ∧ (linked .active .clear .awaiting (entryRequest entry0)
        (fun u => { u with timer := .paused 5, busyStart := some 0 })).link.busyStart = some 0
    ∧ (∀ timer ∈ [ReplyTimer.running 9, .absent], ∀ start ∈ [none, some 0],
        (linked .active .clear .receiving (entryRequest entry0)
          (fun u => { u with discarding := true, timer := timer, busyStart := start })).link.discarding = true
        ∧ (linked .active .clear .receiving (entryRequest entry0)
          (fun u => { u with discarding := true, timer := timer, busyStart := start })).link.timer = timer
        ∧ (linked .active .clear .receiving (entryRequest entry0)
          (fun u => { u with discarding := true, timer := timer, busyStart := start })).link.busyStart = start) := by
  decide +kernel

/-- R46, R52, R55: a low of exactly 20 bit times is the start of a character in AWAITING, and ends the wait of a resend whose timer
has expired; one cycle more is a busy hold. -/
theorem test_low_of_20_bit_times :
    let waits := linked .active .clear .awaiting (entryRequest entry0) (fun u => { u with timer := .paused 5, busyStart := some 0 })
    let discards := linked .active .clear .receiving (entryRequest entry0)
      (fun u => { u with timer := .absent, busyStart := some 0, discarding := true })
    (∃ t, exec (.tdatLow 0 (.ended 320 3)) (withLane0 .running waits) = .next t ∧ (t.work.lane 0).link.state = .receiving)
    ∧ (∃ t, exec (.tdatLow 0 (.ended 320 3)) (withLane0 .running discards) = .next t ∧ (t.work.lane 0).link.state = .sending)
    ∧ (∃ t, exec (.busyHoldRecognised 0 320) (withLane0 .running waits) = .next t ∧ (t.work.lane 0).link.state = .awaiting)
    ∧ ∃ t, exec (.busyHoldRecognised 0 321) (withLane0 .running waits) = .next t ∧ (t.work.lane 0).link.state = .busyHold :=
  ⟨⟨_, rfl, by decide +kernel⟩, ⟨_, rfl, by decide +kernel⟩, ⟨_, rfl, by decide +kernel⟩, _, rfl, by decide +kernel⟩

/-- One resend left; a frame being assembled, an attempt that waits for a quiet line, and one that waits for a reply. Characters
with a low stop bit at rate 5: low for its ten bits and on, and ended at the report; a low of two cycles at the stop bit's middle, which
the filter discards. -/
theorem meets_FailedAttemptsAreSentAgain :
    (∀ st ∈ [LinkState.awaiting, .receiving], ∀ d ∈ [true, false],
      let l := linked .active .clear st (entryRequest entry0) (fun u => { u with resends := 2, discarding := d })
      l.link.resends < l.link.retryLimit ∧ l.link.stopMark = false ∧ l.link.rate = 5 ∧ l.link.state = st
        ∧ l.link.discarding = d ∧ l.link.timer = .running 9 ∧ l.link.busyStart = none)
    ∧ (0x3D#8 ≠ 0x3C#8) ∧ 264 < 265 ∧ 40 * 16 < 641 ∧ 640 ≤ 40 * 16 ∧ 639 < 40 * 16
    ∧ (∀ levels ∈ [[160], [200, 10], [152]], 19 * 16 / 2 ≤ levels.sum ∧ (lineAt 5 levels (16 / 2)).1 = false
        ∧ (lineAt 5 levels (19 * 16 / 2)).1 = false)
    ∧ lineAt 5 [160] [160].sum = (false, 160) ∧ (lineAt 5 [200, 10] [200, 10].sum).1 = true
    ∧ [151].sum < 19 * 16 / 2 ∧ (lineAt 5 [144, 16] (19 * 16 / 2)).1 = true ∧ (lineAt 5 [8, 152] (16 / 2)).1 = true
    ∧ (lineAt 5 [16, 135, 2, 200] (19 * 16 / 2)).1 = true := by decide +kernel

/-- R45, R55: a change shorter than 3/16 of a bit time makes no low stop bit, and a low that has ended when its framing error is
reported does not keep the lane from its quiet line. -/
theorem test_low_stop_is_filtered_and_may_have_ended :
    FramingCause.holds 5 (.lowStop [16, 135, 2, 200]) = false ∧ FramingCause.holds 5 (.lowStop [200, 10]) = true
    ∧ FramingCause.lowSince 5 1000 (.lowStop [200, 10]) = none ∧ FramingCause.lowSince 5 1000 (.lowStop [160]) = some 840 := by
  decide +kernel

theorem meets_RejectedAndStaleReplies :
    (linked .active .clear .receiving (entryRequest entry0) id).Listens
    ∧ (linked .active .clear .receiving (entryRequest entry0) id).link.req = some (entryRequest entry0)
    ∧ (linked .active .clear .receiving (entryRequest entry0) id).link.resends
        < (linked .active .clear .receiving (entryRequest entry0) id).link.retryLimit
    ∧ (linked .active .clear .receiving (entryRequest entry0) id).link.stopMark = false
    ∧ (List.replicate 264 (0 : Byte)).length ≤ 264
    ∧ (0x0000#16) ≠ replyCheck 0x90#8 0 0 [] ∧ (1 : Byte) ≠ (linked .active .clear .receiving (entryRequest entry0) id).link.seq
    ∧ (linked .active .clear .receiving (entryRequest entry0) (fun u => { u with timer := .paused 5 })).link.timer
        = .paused 5 := by decide +kernel

/-- A live lane with a CLEAR outstanding, its retries used up; on trial; or with a stop mark and a resend left. -/
def clearing (st : LinkState) (trial : Bool) (resends : Nat) (stop : Option StopCause) : State :=
  let l := linked .active .clear st (powered.clearRequest 0 16)
    (fun u => { u with resends := resends, stopMark := stop.isSome })
  withJob (job programArgs) image { l with ctx := { l.ctx with trial := trial }, eng := { l.eng with stop := stop } }

theorem meets_ExchangesThatEndWithoutAReply :
    (∀ st ∈ [LinkState.awaiting, .busyHold, .receiving], ∀ trial ∈ [true, false],
      (clearing st trial 3 none).Awake ∧ (clearing st trial 3 none).work.isLive 0 = true
      ∧ ((clearing st trial 3 none).work.lane 0).link.req = some (powered.clearRequest 0 16)
      ∧ (powered.clearRequest 0 16).purpose = .clear ∧ ((clearing st trial 3 none).work.lane 0).eng.xfer = none
      ∧ ((clearing st trial 3 none).work.lane 0).link.state = st ∧ ((clearing st trial 3 none).work.lane 0).ctx.trial = trial
      ∧ ((clearing st trial 3 none).work.lane 0).link.resends = ((clearing st trial 3 none).work.lane 0).link.retryLimit
      ∧ ((clearing st trial 3 none).work.lane 0).link.timer = .running 9
      ∧ ((clearing st trial 3 none).work.lane 0).link.discarding = false
      ∧ FramingCause.holds ((clearing st trial 3 none).work.lane 0).link.rate (.badLead 0x3D#8) = true
      ∧ ((clearing st trial 3 none).work.lane 0).Unstopped)
    ∧ ((clearing .awaiting false 2 (some .cancel)).work.lane 0).link.resends
        < ((clearing .awaiting false 2 (some .cancel)).work.lane 0).link.retryLimit
    ∧ ((clearing .awaiting false 2 (some .cancel)).work.lane 0).link.stopMark = true
    ∧ ((clearing .awaiting false 2 (some .cancel)).work.lane 0).eng.stop = some .cancel
    ∧ ((clearing .awaiting false 2 (some .cancel)).work.lane 0).eng.due = none := by decide +kernel

/-- A live lane in LINKING with a request outstanding. -/
def linkingWith (r : Request) : State := withJob (job programArgs) image (asking .linking .linking .receiving r)

theorem meets_OpenReplyIsTaken : (linkingWith (powered.openRequest [])).Awake
    ∧ (linkingWith (powered.openRequest [])).part.state ∈ [PartState.loading, .running, .quiescing, .quiesced]
    ∧ (linkingWith (powered.openRequest [])).work.isLive 0 = true
    ∧ ((linkingWith (powered.openRequest [])).work.jobOf 0).map (fun j => j.args.endAction?.isSome) = some true
    ∧ ((linkingWith (powered.openRequest [])).work.lane 0).ctx.state = .linking
    ∧ ((linkingWith (powered.openRequest [])).work.lane 0).ctx.step = .linking
    ∧ ((linkingWith (powered.openRequest [])).work.lane 0).Listens
    ∧ ((linkingWith (powered.openRequest [])).work.lane 0).link.req = some (powered.openRequest [])
    ∧ (powered.openRequest []).purpose = .openSession ∧ (powered.openRequest []).kind = 0x01#8
    ∧ ((linkingWith (powered.openRequest [])).work.lane 0).eng.xfer = none
    ∧ ((linkingWith (powered.openRequest [])).work.lane 0).Unstopped
    ∧ ((linkingWith (powered.openRequest [])).work.lane 0).supply.state ≠ .riding ∧ (2 : Byte) ∉ [0, 1, 4] := by
  decide +kernel

/-- A QUERY payload with a size, a clear unit code and a maximum rate code; the base is 0x10000000. -/
def descriptorPayload (size : Nat) (clearCode maxRate : Byte) : List Byte :=
  leBytes 4 1 ++ leBytes 4 0x10000000 ++ leBytes 4 size ++ [2, clearCode, maxRate, 3, 1]

/-- A live lane of a job in LINKING with a request outstanding, its context changed by `f`, with something to send again or not. -/
def relinking (args : JobArgs) (r : Request) (again : Option Resume) (f : LaneCtx → LaneCtx) : State :=
  let l := asking .linking .linking .receiving r
  withJob (job args) image { l with ctx := f l.ctx, eng := { l.eng with resume := again } }

/-- What a fallback sends again. -/
def clearAgain : Resume := { req := powered.clearRequest 0 1, step := .clear, pos := some 0 }

/-- 65536 units of 1 KiB, and 65537; maximum rate codes 1 and 0. QUERY without a fallback and in one, with the descriptor kept or
another; PACE, with a request to send again, for IDENTIFY and for EXCHANGE. -/
theorem meets_QueryReplyIsJudged :
    (∀ r ∈ [powered.queryRequest, powered.paceRequest 3], ∀ args ∈ [programArgs, identifyArgs false, exchangeArgs],
      ∀ again ∈ [none, some clearAgain], ∀ old ∈ [none, some target],
      let s := relinking args r again (fun c => { c with desc := some target, fallbackCopy := old, fallback := old.isSome })
      s.Awake ∧ s.part.state = .running ∧ s.work.isLive 0 = true ∧ (s.work.jobOf 0).map JobSlot.args = some args
        ∧ args.endAction?.isSome = true ∧ (s.work.lane 0).ctx.state = .linking ∧ (s.work.lane 0).ctx.step = .linking
        ∧ (s.work.lane 0).Listens ∧ (s.work.lane 0).link.req = some r ∧ (s.work.lane 0).eng.xfer = none
        ∧ (s.work.lane 0).Unstopped ∧ (s.work.lane 0).supply.state ≠ .riding ∧ (s.work.lane 0).eng.resume = again
        ∧ (s.work.lane 0).ctx.fallbackCopy = old ∧ (s.work.lane 0).ctx.fallback = old.isSome
        ∧ (s.work.lane 0).ctx.desc = some target)
    ∧ powered.queryRequest.purpose = .query ∧ powered.queryRequest.kind = 0x03#8 ∧ (powered.paceRequest 3).purpose = .pace 3
    ∧ (powered.paceRequest 3).kind = 0x02#8 ∧ entry0.len ≠ 0 ∧ entry1.len = 0
    ∧ (descriptorPayload 0x4000000 0 1).length = 17 ∧ fieldAt (descriptorPayload 0x4000000 0 1) 8 4 / 1024 = 65536
    ∧ fieldAt (descriptorPayload 0x4000400 0 1) 8 4 / 1024 = 65537
    ∧ 0 < min powered.settings.rateCode (fieldAt (descriptorPayload 0x4000000 0 1) 14 1)
    ∧ min powered.settings.rateCode (fieldAt (descriptorPayload 0x4000000 0 0) 14 1) = 0
    ∧ target.base.toNat ≠ fieldAt (descriptorPayload 0x4000000 0 1) 4 4
    ∧ target.base.toNat = fieldAt (targetDescBytes target) 4 4 ∧ target.size.toNat = fieldAt (targetDescBytes target) 8 4
    ∧ target.pageCode.toNat = fieldAt (targetDescBytes target) 12 1
    ∧ target.clearCode.toNat = fieldAt (targetDescBytes target) 13 1 := by decide +kernel

/-- The end action KEEP in place of HOLD. -/
def keepArgs : JobArgs :=
  .program { clear := false, write := false, check := false, sum := false, guard := true } false false .keep 2 0x1000 0

/-- A live lane of a PROGRAM job, ACTIVE in a step with a request outstanding, its page cursor at 0x00. -/
def programming (step : Step) (r : Request) : State :=
  let l := asking .active step .receiving r
  let s := withJob (job (if step = .guard then keepArgs else programArgs)) { image with state := .checkPass }
    { l with ctx := { l.ctx with desc := some target, cursor := .at 0 } }
  { s with
    work := s.work.setBuf 5 { state := .held, owner := some 0, pass := .check, page := 0, count := 1,
                              data := List.replicate 128 0xFF } }

theorem meets_ProgramRepliesDecideTheLane :
    (∀ r ∈ [powered.sumRequest 0 seg 0x12345678, powered.readRequest (.checkRead 0) 0 128, powered.guardRequest 2,
        powered.writeRequest 0 5 128],
      (programming .check r).Awake ∧ (programming .check r).work.isLive 0 = true
      ∧ ((programming .check r).work.jobOf 0).map JobSlot.args = some programArgs
      ∧ ((programming .check r).work.jobOf 0).bind JobSlot.ctx = some 0
      ∧ ((programming .check r).work.lane 0).ctx.state = .active ∧ ((programming .check r).work.lane 0).Listens
      ∧ ((programming .check r).work.lane 0).link.req = some r ∧ ((programming .check r).work.lane 0).eng.xfer = none)
    ∧ ((programming .sum powered.queryRequest).work.ctx 0).segs[0]? = some seg ∧ wordAt [0, 0, 0, 0] 0 ≠ 0x12345678
    ∧ (powered.readRequest (.checkRead 0) 0 128).source = .engine (leBytes 4 0 ++ leBytes 2 128)
    ∧ 128 = pageSize ((programming .check powered.queryRequest).work.ctx 0).pageCode
    ∧ ((programming .check powered.queryRequest).work.lane 0).ctx.cursor = .at 0
    ∧ ((programming .check powered.queryRequest).work.buf 5).state = .held
    ∧ ((programming .check powered.queryRequest).work.buf 5).owner = some 0
    ∧ (∀ b, b ≠ 5 → ((programming .check powered.queryRequest).work.buf b).owner ≠ some 0)
    ∧ 128 ≤ ((programming .check powered.queryRequest).work.buf 5).data.length
    ∧ (∀ k, k < 127 → byteAt ((programming .check powered.queryRequest).work.buf 5).data k
        = byteAt (List.replicate 127 0xFF ++ [0xFE]) k)
    ∧ byteAt ((programming .check powered.queryRequest).work.buf 5).data 127
        ≠ byteAt (List.replicate 127 0xFF ++ [0xFE]) 127
    ∧ ((programming .guard (powered.guardRequest 2)).work.lane 0).ctx.desc = some target
    ∧ ((programming .guard (powered.guardRequest 2)).work.jobOf 0).map JobSlot.args = some keepArgs := by decide +kernel

/-- A live PROGRAM lane with the WRITE or the READ of page 0x80 outstanding, its buffer with `count` claims; the passes' lanes, and the
segments with a page at 0x100 or without. Buffer 6 may hold page 0x100. -/
def paging (check : Bool) (lanes : LaneMask) (count : Nat) (segs : List Segment) (next : Bool) : State :=
  let r := if check then powered.readRequest (.checkRead 128) 128 128 else powered.writeRequest 128 5 128
  let l := asking .active (if check then .check else .write) .receiving r
  let s := withJob { job programArgs with mask := 3, live := lanes }
    { image with state := if check then .checkPass else .writePass, passLanes := lanes, checkDue := !check, segs := segs }
    { l with ctx := { l.ctx with desc := some target, cursor := .at 128, stepPos := some 0 } }
  let held : PageBuf := { state := .held, owner := some 0, pass := .write, page := 128, count := count, data := List.replicate 128 0xFF }
  let w := s.work.setBuf 5 held
  { s with work := if next then w.setBuf 6 { held with page := 256 } else w }

def seg2 : Segment := { seg with addr := 0x100, crc := some 5 }

/-- Segments between two with a reference, and after the last, that have none. -/
def bare : Segment := { seg with addr := 0x100, crc := none }

/-- CLEAR with a second request in its plan; the last page and one that another follows, held or not; alone in the pass and with
lane 1; a SUM that another follows and the last. -/
theorem meets_ProgramRepliesGoOn :
    ∀ check ∈ [true, false], ∀ lanes ∈ [1, 3], ∀ count ∈ [1, 2], ∀ segs ∈ [[seg], [seg, seg2]], ∀ next ∈ [true, false],
      let s := paging check lanes count segs next
      s.Awake ∧ s.part.state = .running ∧ s.work.isLive 0 = true ∧ (s.work.jobOf 0).map JobSlot.args = some programArgs
        ∧ (s.work.jobOf 0).bind JobSlot.ctx = some 0 ∧ (s.work.lane 0).ctx.state = .active ∧ (s.work.lane 0).Listens
        ∧ (s.work.lane 0).Unstopped ∧ (s.work.lane 0).supply.state ≠ .riding ∧ (s.work.lane 0).eng.xfer = none
        ∧ (s.work.lane 0).ctx.cursor = .at 128 ∧ (s.work.buf 5).state = .held ∧ (s.work.buf 5).owner = some 0
        ∧ (s.work.buf 5).page = 128 ∧ (s.work.buf 5).count = count
        ∧ (∀ b', b' ≠ 5 → (s.work.buf b').owner = some 0 → (s.work.buf b').page ≠ 128) := by decide +kernel

theorem meets_ProgramRepliesGoOn_passes :
    ∀ check ∈ [true, false], ∀ lanes ∈ [1, 3], ∀ count ∈ [1, 2], ∀ segs ∈ [[seg], [seg, seg2]], ∀ next ∈ [true, false],
      let s := paging check lanes count segs next
      hasLane (s.work.ctx 0).passLanes 0 = true ∧ hasLane (s.work.ctx 0).passLanes 1 = decide (lanes = 3)
        ∧ (s.work.jobOf 0).map JobSlot.live = some (s.work.ctx 0).passLanes ∧ (s.work.ctx 0).slot = (s.work.lane 0).ctx.slot
        ∧ (s.work.ctx 0).state = (if check then .checkPass else .writePass)
        ∧ (s.work.ctx 0).checkDue = !check
        ∧ pageAfter (s.work.ctx 0).segs 128 128 = (if segs = [seg] then none else some 256)
        ∧ (s.work.buf 6).state = (if next then .held else .free) := by decide +kernel

theorem meets_ProgramRepliesGoOn_replies :
    (powered.writeRequest 128 5 128).purpose = .write 128 ∧ (powered.readRequest (.checkRead 128) 128 128).purpose = .checkRead 128
    ∧ (powered.readRequest (.checkRead 128) 128 128).source = .engine (leBytes 4 128 ++ leBytes 2 128)
    ∧ (List.replicate 128 (0xFF : Byte)).length ≤ 264
    ∧ (powered.clearRequest 0 1).purpose = .clear ∧ ((paging true 1 1 [seg] false).work.lane 0).ctx.stepPos = some 0
    ∧ (clearPlan target true [])[1]? = some (16, 16)
    ∧ (powered.sumRequest 0 seg 5).purpose = .sum 0 5 ∧ wordAt [5, 0, 0, 0] 0 = 5
    ∧ [seg, seg2][1]? = some seg2 ∧ seg2.crc = some 5 ∧ [seg].length = 0 + 1
    ∧ [seg, bare, bare, seg2][3]? = some seg2 ∧ bare.crc = none ∧ ((none : Option (Option Word)).join) = none
    ∧ (clearPlan target false [seg]).length = 0 + 1 := by decide +kernel

/-- The same lane in the CLEAR or the SUM step, with the step set, the segments and a request outstanding. -/
def stepping (step : Step) (set : StepSet) (segs : List Segment) (stop : Option StopCause) (r : Request) : State :=
  let l := asking .active step .receiving r
  withJob (job (.program set false false .hold 2 0x1000 0)) { image with state := .idle, segs := segs }
    { l with ctx := { l.ctx with desc := some target, stepPos := some 0 }, eng := { l.eng with stop := stop } }

/-- The reply of that lane's target to its request. -/
def answered (s : State) (p : List Byte) : Host.Outcome State Fault Refusal :=
  let link := (s.work.lane 0).link
  exec (.replyFrameComplete 0 (replyFrame ((link.req.map Request.kind).getD 0 + 0x80#8) link.seq 0 p)) s

/-- R107, R111, R112: an equal SUM moves the position past the segments without a reference, with a stop pending too (log entry 46). -/
theorem test_sum_moves_past_the_skipped :
    let s := stepping .sum { clear := false, write := false, check := false, sum := true, guard := true } [seg, bare, bare, seg2]
    let r := powered.sumRequest 0 seg 5
    (∃ t, answered (s none r) [5, 0, 0, 0] = .next t ∧ (t.work.lane 0).ctx.stepPos = some 3 ∧ (t.work.lane 0).ctx.sumsSkipped = 2)
    ∧ ∃ t, answered (s (some .cancel) r) [5, 0, 0, 0] = .next t ∧ (t.work.lane 0).ctx.stepPos = some 3 :=
  ⟨⟨_, rfl, by decide +kernel⟩, _, rfl, by decide +kernel⟩

/-- R100, R107: the OK reply to CLEAR's last request completes the step: GUARD begins, without a position. -/
theorem test_clear_ends_in_guard :
    let set : StepSet := { clear := true, write := false, check := false, sum := false, guard := true }
    ∃ t, answered (stepping .clear set [seg] none (powered.clearRequest 0 1)) [] = .next t
      ∧ (t.work.lane 0).ctx.step = .guard ∧ (t.work.lane 0).ctx.stepPos = none :=
  ⟨_, rfl, by decide +kernel⟩

/-! ## The hypotheses of the statements can be met: cancellation, images and host transfers -/

/-- A RUNNING job named by the CANCEL that Job Intake holds. -/
def cancelling (l : Lane) : State := holding (record 7 0 [7]) (withJob (job programArgs) image l)

/-- A lane that discards until the line is quiet. -/
def discarding (r : Request) : Lane :=
  let l := asking .active .clear .receiving r
  { l with link := { l.link with discarding := true } }

/-- R59, R135: a cancel ends a wait for a quiet line at once. -/
theorem test_cancel_ends_the_quiet_line :
    ∃ t, exec .jobTake (cancelling (discarding (powered.clearRequest 0 1))) = .next t ∧ (t.work.lane 0).link.state = .idle
      ∧ (t.work.queue.head?.bind (fun e => e.lanes.head?)).map (fun x => x.result) = some .cancelled :=
  ⟨_, rfl, by decide +kernel⟩

theorem meets_CancelOfARunningJob : ∀ l ∈ [lane .ready .write, lane .powering .powerUp, moving .linking .linking (.keyRead 0),
      asking .active .clear .sending (powered.clearRequest 0 1), asking .active .clear .awaiting (powered.clearRequest 0 1),
      asking .active .clear .busyHold (powered.clearRequest 0 1), discarding (powered.clearRequest 0 1),
      discarding (powered.closeRequest .closeFresh),
      asking .active .clear .receiving (powered.clearRequest 0 1)],
    (cancelling l).Awake ∧ (cancelling l).part.state = .running ∧ (cancelling l).rings.geom = some ring
    ∧ (cancelling l).intake.held = some (record 7 0 [7])
    ∧ (cancelling l).work.findNamed 1 (wordAt (record 7 0 [7]) 16) = some (.slot 0 0)
    ∧ ((cancelling l).work.slot 0).map JobSlot.state = some .running ∧ ((cancelling l).work.slot 0).bind JobSlot.cancelLink = none
    ∧ ((cancelling l).work.slot 0).map (fun j => j.args.endAction?.isSome) = some true
    ∧ (∀ n, hasLane 1 n = true → ((cancelling l).work.lane n).ctx.slot = some 0 ∧ ((cancelling l).work.lane n).Unstopped) := by
  decide +kernel

/-- Lane 0 with no session, live in a job without an Image Context that the held CANCEL names; the job as given by `f`. -/
def cancellingIdle (f : JobSlot → JobSlot) (l : Lane) : State :=
  holding (record 7 0 [7]) (withJob (f (job (identifyArgs false))) image l)

/-- A session job whose lane can be in each of the states and that waits for nothing; with each end action. -/
theorem meets_CancelledJobsComplete : ∀ st ∈ [LaneState.hold, .entry, .linking, .ready], ∀ e ∈ [EndAction.keep, .hold, .run, .off],
    let l := lane st .entry
    let s := cancellingIdle (fun j => { j with args := .identify false e 0 }) { l with ctx := { l.ctx with session := false } }
    s.Awake ∧ s.part.state = .running ∧ s.rings.geom = some ring ∧ s.intake.held = some (record 7 0 [7])
      ∧ s.work.findNamed 1 (wordAt (record 7 0 [7]) 16) = some (.slot 0 0)
      ∧ (s.work.slot 0).map JobSlot.state = some .running ∧ (s.work.slot 0).bind JobSlot.cancelLink = none
      ∧ (s.work.slot 0).map JobSlot.live = some 1 ∧ (s.work.slot 0).bind (fun j => j.args.endAction?) = some e
      ∧ (∀ n, s.work.ownerOf n = some 0 ↔ hasLane 1 n = true)
      ∧ (∀ n, hasLane 1 n = true → (s.work.lane n).ctx.slot = some 0 ∧ (s.work.lane n).link.state = .idle
        ∧ (s.work.lane n).eng.xfer = none ∧ (s.work.lane n).ctx.state = st ∧ (s.work.lane n).ctx.session = false) := by
  decide +kernel

/-- A LANE-ACTION in a power-up, in its settle time, in its reset pulse, and with its CLOSE in each exchange state. -/
theorem meets_CancelledJobsComplete_action : ∀ l ∈ [lane .powering .powerUp, lane .settling .powerUp,
      phased .hold (.pulse 9) 0 .good, asking .active .action .sending (powered.closeRequest (.closeAction .run)),
      asking .active .action .awaiting (powered.closeRequest (.closeAction .run)),
      asking .active .action .busyHold (powered.closeRequest (.closeAction .run)),
      asking .active .action .receiving (powered.closeRequest (.closeAction .run))],
    let s := cancellingIdle (fun j => { j with args := .laneAction .run, ctx := none }) l
    s.Awake ∧ s.part.state = .running ∧ s.work.findNamed 1 (wordAt (record 7 0 [7]) 16) = some (.slot 0 0)
      ∧ (s.work.slot 0).map JobSlot.args = some (.laneAction .run) ∧ (s.work.slot 0).bind JobSlot.ctx = none
      ∧ (s.work.slot 0).map JobSlot.state = some .running ∧ (s.work.slot 0).bind JobSlot.cancelLink = none
      ∧ (s.work.slot 0).map (fun j => decide (j.live = j.mask)) = some true
      ∧ (s.work.lane 0).ctx.slot = some 0 ∧ (s.work.lane 0).Unstopped ∧ (s.work.lane 0).link.state = l.link.state
      ∧ (s.work.lane 0).ctx.state = l.ctx.state ∧ (s.work.lane 0).eng.phase = l.eng.phase
      ∧ (l.link.state = .receiving → (s.work.lane 0).Listens) := by decide +kernel

theorem meets_CancelledJobsComplete_settle : ∀ a ∈ [ActionCode.powerOn, .hold, .run],
    let l := settling .settling
    let s := withJob { job (.laneAction a) with ctx := none } image { l with eng := { l.eng with stop := some .cancel } }
    s.Awake ∧ s.part.state = .running ∧ s.work.isLive 0 = true ∧ s.work.actionOf 0 = some a
      ∧ (s.work.lane 0).supply.settle.isSome = true ∧ (s.work.lane 0).eng.stop = some .cancel := by decide +kernel

/-- A live lane in LINKING with its key read at the port, in a part state. -/
def readingKey (p : PartState) : State :=
  let s := withJob (job (.readout false .hold 0x2000 0x40 0 100)) image (moving .linking .linking (.keyRead 0x40))
  { s with port := some (.lane 0), part := { s.part with state := p } }

theorem meets_KeyReadLeadsToOpen : ∀ p ∈ [PartState.running, .halted],
    (readingKey p).Awake ∧ (readingKey p).part.state = p ∧ (readingKey p).port = some (.lane 0)
    ∧ ((readingKey p).work.lane 0).eng.xfer = some (.keyRead 0x40) ∧ ((readingKey p).work.lane 0).link.state = .idle
    ∧ ((readingKey p).work.lane 0).ctx.state = .linking ∧ ((readingKey p).work.lane 0).Unstopped
    ∧ ((readingKey p).work.lane 0).supply.state ≠ .riding ∧ (readingKey p).work.isLive 0 = true := by decide +kernel

/-- A granted PROGRAM job whose descriptor part is being read. -/
def describing (part : DescPart) : State :=
  let s := withJob (job programArgs)
    { ImageCtx.free with state := .descriptor, slot := some 0, descPtr := 0x1000, descBusy := some part } Lane.reset
  { s with port := some (.image 0 (.desc part 0x1000)) }

theorem meets_DescriptorRejectionEndsTheJob : ∀ part ∈ [DescPart.header, .table 1 1 0xFF],
    (describing part).Awake ∧ (describing part).port = some (.image 0 (.desc part 0x1000))
    ∧ ((describing part).work.ctx 0).state = .descriptor ∧ ((describing part).work.ctx 0).descBusy = some part
    ∧ ((describing part).work.ctx 0).slot = some 0 ∧ ((describing part).work.ctx 0).passLanes = 0
    ∧ (describing part).work.slot 0 = some (job programArgs)
    ∧ (∀ n, hasLane (job programArgs).mask n = true ↔ (describing part).work.ownerOf n = some 0)
    ∧ (∀ n, hasLane (job programArgs).mask n = true → ((describing part).work.lane n).ctx.slot = some 0)
    ∧ (List.replicate 16 (0 : Byte)).length = 16 ∧ fieldAt (List.replicate 16 0) 0 1 = 0
    ∧ 32 < fieldAt (33 :: List.replicate 15 0) 0 1 ∧ 2 < fieldAt (1 :: 3 :: List.replicate 14 0) 1 1
    ∧ (List.replicate 24 (0 : Byte)).length = 24 * (1#8).toNat := by decide +kernel

/-- A table of zeros fails at its first segment, whose length is 0. -/
theorem meets_DescriptorRejectionEndsTheJob_table : segmentFails (segmentsOf (List.replicate 24 0) 1) 0
    ∧ ∀ m, m < 0 → ¬ segmentFails (segmentsOf (List.replicate 24 0) 1) m :=
  ⟨⟨segmentAt (List.replicate 24 0) 0, rfl, .inl (by decide)⟩, fun m h => absurd h (Nat.not_lt_zero m)⟩

/-- The table of the one segment `seg`. -/
def segTable : List Byte := leBytes 4 0xC0 ++ leBytes 4 16 ++ leBytes 8 0x5000 ++ List.replicate 8 0

/-- Segment counts 1 and 32 and page size codes 0 and 2. -/
theorem meets_DescriptorAcceptanceStartsTheLanes : (∀ part ∈ [DescPart.header, .table 1 2 0xFF],
      (describing part).Awake ∧ ((describing part).work.ctx 0).state = .descriptor
      ∧ (describing part).port = some (.image 0 (.desc part 0x1000)) ∧ ((describing part).work.ctx 0).descBusy = some part
      ∧ ((describing part).work.ctx 0).slot = some 0 ∧ (describing part).work.slot 0 = some (job programArgs)
      ∧ ((describing part).work.lane 0).ctx.slot = some 0 ∧ ((describing part).work.lane 0).ctx.state = .off)
    ∧ (1 :: 2 :: List.replicate 14 (0 : Byte)).length = 16 ∧ fieldAt (32 :: 0 :: List.replicate 14 0) 0 1 ≤ 32
    ∧ fieldAt (1 :: 2 :: List.replicate 14 0) 1 1 ≤ 2 ∧ segTable.length = 24 * (1#8).toNat
    ∧ segmentsOf segTable 1 = [seg] ∧ [seg].head? = some seg := by decide +kernel

theorem meets_DescriptorAcceptanceStartsTheLanes_table : ∀ k, ¬ segmentFails [seg] k := seg_good

/-- A page fetch of page 0x80 under way into buffer 0, with lane 0 in a lane state of the WRITE step at that page. -/
def fetching (st : LaneState) (rest : List PageRead) : State :=
  let l := lane st .write
  let s := withJob (job programArgs) { image with fetch := some { buf := 0, page := 128 } }
    { l with ctx := { l.ctx with desc := some target, cursor := .at 128 } }
  { s with
    port := some (.image 0 (.fetch { buf := 0, page := 128 } ({ addr := 0x5000, len := 16, offset := 64 } :: rest)))
    work := s.work.setBuf 0 { state := .filling, owner := some 0, pass := .write, page := 128, count := 1,
                              data := List.replicate 128 0xFF } }

theorem meets_PageFetchFillsABuffer : (∀ st ∈ [LaneState.ready, .active, .powering],
      ∀ rest ∈ [[], [{ addr := 0x6000, len := 1, offset := 127 }]],
      (fetching st rest).Awake ∧ ((fetching st rest).work.ctx 0).fetch = some { buf := 0, page := 128 }
      ∧ ((fetching st rest).work.ctx 0).state ∈ [CtxState.writePass, .checkPass]
      ∧ ((fetching st rest).work.buf 0).owner = some 0 ∧ ((fetching st rest).work.buf 0).page = 128
      ∧ ((fetching st rest).work.lane 0).ctx.state = st)
    ∧ (List.replicate 16 (0 : Byte)).length = 16 ∧ ((fetching .ready []).work.ctx 0).segs = [seg]
    ∧ ((fetching .ready []).work.ctx 0).computed = [none] ∧ ((fetching .ready []).work.ctx 0).crcReg = 0xFFFFFFFF#32
    ∧ 0 < seg.len.toNat ∧ 128 ≤ seg.addr.toNat
    ∧ seg.addr.toNat + seg.len.toNat ≤ 128 + 64 * 2 ^ ((fetching .ready []).work.ctx 0).pageCode.toNat
    ∧ hasLane ((fetching .ready []).work.ctx 0).passLanes 0 = true
    ∧ ((fetching .ready []).work.lane 0).ctx.step = .write ∧ ((fetching .ready []).work.lane 0).ctx.cursor = .at 128
    ∧ ((fetching .ready []).work.lane 0).link.state = .idle ∧ ((fetching .ready []).work.lane 0).eng.held = none
    ∧ ((fetching .ready []).work.lane 0).Unstopped ∧ ((fetching .ready []).work.lane 0).supply.state ≠ .riding
    ∧ (fetching .ready []).work.isLive 0 = true ∧ ((fetching .ready []).work.jobOf 0).bind JobSlot.ctx = some 0
    ∧ ((fetching .ready []).work.jobOf 0).map JobSlot.args = some programArgs
    ∧ (∀ b, b ≠ 0 → ((fetching .ready []).work.buf b).page ≠ 128)
    ∧ (∀ m, m ≠ 0 → hasLane ((fetching .ready []).work.ctx 0).passLanes m = false)
    ∧ ((fetching .ready []).work.ctx 0).slot = some 0 ∧ ((fetching .ready []).work.lane 0).eng.xfer = none
    ∧ (∀ m, m ≠ 0 → hasLane (1 : LaneMask) m = false) := by decide +kernel

/-- The READ of page 0x80 of a READOUT into buffer 0. -/
def pageRequest : Request := powered.readRequest (.readout 128 0) 128 128

/-- A READOUT lane of the range 0x90 to 0x18F, pages 0x80 to 0x180: a READ outstanding, or a page write at the port. -/
def readingOut (page : Nat) (l : Lane) : State :=
  let s := withJob (job (.readout false .hold 0x2000 0 0x90 0x100)) { image with state := .readout }
    { l with ctx := { l.ctx with desc := some target }, eng := { l.eng with readPage := if l.eng.xfer.isSome then none else some 256 } }
  { s with
    port := some (.lane 0)
    work := s.work.setBuf 0 { state := if l.eng.xfer.isSome then .held else .filling, owner := some 0, pass := .write,
                              page := page, count := 1, data := List.replicate 128 0 } }

theorem meets_ReadoutPagesReachTheHost :
    (readingOut 128 (asking .active .read .receiving pageRequest)).Awake
    ∧ (readingOut 128 (asking .active .read .receiving pageRequest)).work.isLive 0 = true
    ∧ ((readingOut 128 (asking .active .read .receiving pageRequest)).work.jobOf 0).bind JobSlot.ctx = some 0
    ∧ ((readingOut 128 (asking .active .read .receiving pageRequest)).work.lane 0).Unstopped
    ∧ ((readingOut 128 (asking .active .read .receiving pageRequest)).work.lane 0).ctx.desc = some target
    ∧ 128 = 64 * 2 ^ target.pageCode.toNat ∧ (0 : BufId).val = 2 * (0 : CtxId).val ∧ (1 : BufId).val = 2 * (0 : CtxId).val + 1
    ∧ ((readingOut 128 (asking .active .read .receiving pageRequest)).work.lane 0).Listens
    ∧ pageRequest.purpose = .readout 128 0 ∧ pageRequest.kind = 0x06#8
    ∧ pageRequest.source = .engine (leBytes 4 128 ++ leBytes 2 128)
    ∧ ((readingOut 128 (asking .active .read .receiving pageRequest)).work.buf 0).page = 128
    ∧ ((readingOut 128 (asking .active .read .receiving pageRequest)).work.buf 1).state = .free
    ∧ ((readingOut 128 (asking .active .read .receiving pageRequest)).work.lane 0).eng.readPage = some 256 := by decide +kernel

theorem meets_ReadoutPagesReachTheHost_writes : ∀ page ∈ [128, 384],
    (readingOut page (moving .ready .read (.pageWrite 0 page 0x2000 [0]))).port = some (.lane 0)
    ∧ ((readingOut page (moving .ready .read (.pageWrite 0 page 0x2000 [0]))).work.lane 0).eng.xfer
        = some (.pageWrite 0 page 0x2000 [0])
    ∧ ((readingOut page (moving .ready .read (.pageWrite 0 page 0x2000 [0]))).work.lane 0).link.state = .idle
    ∧ ((readingOut page (moving .ready .read (.pageWrite 0 page 0x2000 [0]))).work.lane 0).eng.readPage = none
    ∧ (page = 384 ↔ page = (0x90 + 0x100 - 1) / 128 * 128) := by decide +kernel

/-- An EXCHANGE lane at an entry, in a lane state, with a transfer at the port or a request outstanding. -/
def exchanging (k : Nat) (l : Lane) : State :=
  let s := withJob (job exchangeArgs) image { l with eng := { l.eng with entryIdx := k } }
  { s with port := some (.lane 0) }

/-- The first entry and the last. -/
theorem meets_ExchangeEntriesInOrder : ∀ k ∈ [0, 1],
    (exchanging k (asking .active .exchange .receiving (entryRequest entry0))).work.isLive 0 = true
    ∧ ((exchanging k (asking .active .exchange .receiving (entryRequest entry0))).work.lane 0).eng.entryIdx = k
    ∧ ((exchanging k (asking .active .exchange .receiving (entryRequest entry0))).work.lane 0).Listens
    ∧ ((exchanging k (asking .active .exchange .receiving (entryRequest entry0))).work.lane 0).Unstopped
    ∧ (entryRequest entry0).purpose = .entry ∧ (entryRequest entry0).kind = entry0.kind
    ∧ [entry0, entry1][0]? = some entry0 ∧ [entry0, entry1][1]? = some entry1 ∧ [entry0, entry1].length = 1 + 1
    ∧ (∀ x ∈ [Xfer.payloadRead 0x3000 (if k = 0 then 4 else 0), .replyWrite 0x3110 [0]],
        (exchanging k (moving .ready .exchange x)).port = some (.lane 0)
        ∧ ((exchanging k (moving .ready .exchange x)).work.lane 0).eng.xfer = some x
        ∧ ((exchanging k (moving .ready .exchange x)).work.lane 0).ctx.step = .exchange
        ∧ ((exchanging k (moving .ready .exchange x)).work.lane 0).link.state = .idle) := by decide +kernel

/-! ## The hypotheses of the statements can be met: plans and invariants -/

theorem meets_PageListWalksTheImage : image.pageCode.toNat ≤ 2 ∧ image.segs ≠ [] ∧ (∀ k, ¬ segmentFails image.segs k)
    ∧ isPageOf image.segs 128 128 :=
  ⟨by decide, by decide, seg_good, by decide, seg, by decide, 0xC0, by decide, by decide, by decide, by decide⟩

theorem meets_ClearPlanCoversTheUnits : target.valid = true ∧ (∀ k, ¬ segmentFails [seg] k)
    ∧ (∀ g ∈ [seg], target.base.toNat ≤ g.addr.toNat ∧ g.addr.toNat + g.len.toNat ≤ target.base.toNat + target.size.toNat) :=
  ⟨by decide, seg_good, by decide⟩

/-- A segment that ends at the end of the target and one byte past it. -/
theorem meets_RangeGeometryAndProtection :
    ¬ (0xFFF0 < target.base.toNat ∨ target.base.toNat + target.size.toNat < 0xFFF0 + 16)
    ∧ target.base.toNat + target.size.toNat < 0xFFF1 + 16 ∧ target.pageCode ≠ 2 ∧ target.protection.toNat = 0
    ∧ ({ target with protection := 1 } : TargetDesc).protection.toNat = 1 := by decide

/-- A WAITING READOUT job of lane 0, READY with its session open and the descriptor given. -/
def reading (d : TargetDesc) (start len : Word) (e : EndAction) : State :=
  let l := lane .ready .none
  (withWaiting (job (.readout false e 0x2000 0 start len))).withLane 0 { l with ctx := { l.ctx with desc := some d } }

/-- Ranges that end at the end of the target and one byte past it, and protection levels 1 and 2. -/
theorem meets_RangeGeometryAndProtection_readout : ∀ level ∈ [(1 : Nat), 2], ∀ bytes ∈ [(16 : Nat), 17],
    let p := BitVec.ofNat 8 level
    let len := BitVec.ofNat 32 bytes
    let s := reading { target with protection := p } 0xFFF0 len .keep
    s.Awake ∧ s.part.state = .running ∧ s.intake.held = none ∧ s.work.grantList = [0]
      ∧ (s.work.slot 0).map JobSlot.args = some (.readout false .keep 0x2000 0 0xFFF0 len)
      ∧ (∀ m, hasLane 1 m = true ↔ m = 0) ∧ (∀ m, s.work.ownerOf m = none) ∧ (s.work.ctx 0).state = .free
      ∧ (s.work.lane 0).ctx.state = .ready ∧ (s.work.lane 0).ctx.session = true ∧ (s.work.lane 0).ctx.answered = true
      ∧ (s.work.lane 0).ctx.desc = some { target with protection := p } ∧ (s.work.lane 0).Unstopped
      ∧ (s.work.lane 0).link.state = .idle ∧ (s.work.lane 0).eng.xfer = none ∧ (s.work.lane 0).supply.state ≠ .riding
      ∧ (s.work.buf 0).state = .free ∧ (target.base.toNat + target.size.toNat < (0xFFF0#32).toNat + len.toNat ↔ bytes = 17) := by
  decide +kernel

/-- R118: the range check of READOUT comes before its protection check, and a lane that passes both sends READ. -/
theorem test_readout_range_check :
    let kind := fun (s : State) => (s.work.frameOut 0).map (fun f => byteAt f 1)
    (∃ t, exec .grantScan (reading { target with protection := 2 } 0xFFF0 17 .keep) = .next t ∧ kind t = some 0x09
      ∧ (t.work.slot 0).map (fun j => j.results.get 0) = some (some .outOfRange))
    ∧ (∃ t, exec .grantScan (reading { target with protection := 2 } 0xFFF0 16 .keep) = .next t ∧ kind t = some 0x09
      ∧ (t.work.slot 0).map (fun j => j.results.get 0) = some (some .targetRefused))
    ∧ ∃ t, exec .grantScan (reading { target with protection := 1 } 0xFFF0 16 .keep) = .next t ∧ kind t = some 0x06 :=
  ⟨⟨_, rfl, by decide +kernel⟩, ⟨_, rfl, by decide +kernel⟩, _, rfl, by decide +kernel⟩

/-- The first data bit of the byte 0x01 at rate 5, read back from the lengths of its levels: the start bit, the bit, seven zeros and
the stop bit. A start bit that is high at its middle, and a low of ten bit times. Levels of 3 cycles, 3/16 of a bit time, and of 2. -/
theorem meets_CharactersOnTheLine : (5, 16) ∈ [(0, 417), (1, 192), (2, 96), (3, 48), (4, 24), (5, 16)]
    ∧ [0x3C#8, 0x01][1]? = some 0x01 ∧ (10 * 1 + 9) * 16 ≤ 319 ∧ 319 < (10 * 1 + 9 + 1) * 16
    ∧ (List.range 10).map (fun i => (lineAt 5 [16, 16, 112, 16] ((2 * i + 1) * 16 / 2)).1)
        = [false, true, false, false, false, false, false, false, false, true]
    ∧ (lineAt 5 [8, 152] (16 / 2)).1 = true ∧ (lineAt 5 [160, 16] (16 / 2)).1 = false
    ∧ (lineAt 5 [160, 16] (19 * 16 / 2)).1 = false
    ∧ (∀ r ∈ [3, 3, 16], 3 * 16 ≤ 16 * r) ∧ lineAt 5 [3, 3, 16] 7 = (false, 1) ∧ 3 * 16 ≤ 16 * 3 ∧ 16 * 2 < 3 * 16
    ∧ lineAt 5 [3, 2, 16] 7 = (false, 7) ∧ lineAt 5 [3, 2] 4 = (false, 4) ∧ (lineAt 5 [2, 16] 17).1 = true
    ∧ ((withLane0 .running (asking .active .clear .sending (powered.clearRequest 0 1))).work.frameOut 0).isSome = true := by
  decide +kernel

theorem meets_StepKeepsSettingsAndLanesSound : running.work.SettingsSound
    ∧ (withLane0 .running (asking .active .clear .awaiting (powered.clearRequest 0 1))).work.LanesSound := by
  refine ⟨⟨by decide +kernel, fun i j h => ?_⟩, ?_⟩
  · have e : ∀ i, running.work.slot i = none := by decide +kernel
    rw [e i] at h
    cases h
  · simp only [Work.LanesSound, Lane.Sound]
    decide +kernel

theorem meets_StepKeepsRingsAndReservations : (holding (record 6 1 [4]) running).QueueSound
    ∧ (rung 3 1 0 5 running).RingsSound ∧ (rung 3 1 0 5 running).FatalSound :=
  ⟨⟨by simp only [Work.QueueSound]; decide +kernel, by simp only [Work.roomLeft]; decide +kernel,
      by simp only [Work.roomLeft]; decide +kernel, by decide⟩,
    ⟨by decide, by decide, show (3 < 8 ∧ 1 < 8 ∧ 0 < 8 ∧ 5 < 8 ∧ _ ∧ _) from by decide +kernel⟩, fun h => absurd rfl h⟩

theorem meets_StepKeepsTheTablesSound : (withWaiting (job programArgs)).TablesSound := waiting_tables

/-- A pass of lanes 0 and 1 with a fetch in flight into the floor buffer 0 and a page held in the shared buffer 16. -/
def inPass (cursor : Cursor) (lanes : LaneMask := 3) (st : CtxState := .writePass) (due : Bool := false) : Work :=
  let w := (withJob { job programArgs with mask := 3, live := 3 }
    { image with state := st, checkDue := due, passLanes := lanes, sharedHeld := 1, fetch := some { buf := 0, page := 256 } }
    { lane .ready .write with ctx := { (lane .ready .write).ctx with cursor := cursor } }).work
  (w.setBuf 0 { state := .filling, owner := some 0, pass := .write, page := 256, count := 2, data := [] }).setBuf 16
    { state := .held, owner := some 0, pass := .write, page := 128, count := 1, data := List.replicate 128 0 }

theorem meets_StepKeepsThePoolWithinItsLimits : (inPass .start).PoolSound ∧ (inPass (.at 256)).PoolSound := by
  have h : ∀ q ∈ [Cursor.start, .at 256], (∀ c, ((inPass q).ctx c).Limits) ∧ (∀ b, ((inPass q).buf b).Limits b)
      ∧ ∀ c, ((inPass q).ctx c).fetch.all (fun f => decide (((inPass q).buf f.buf).owner = some c)) = true := by
    simp only [ImageCtx.Limits, PageBuf.Limits]
    decide +kernel
  have sound : ∀ q ∈ [Cursor.start, .at 256], (inPass q).PoolSound := fun q hq =>
    ⟨(h q hq).1, (h q hq).2.1, fun c f e => by
      have k := (h q hq).2.2 c
      rw [e] at k
      exact of_decide_eq_true k⟩
  exact ⟨sound _ (by simp), sound _ (by simp)⟩

theorem meets_LeavingAPassReleasesItsPages : (∀ cursor ∈ [Cursor.start, .at 256],
      ((inPass cursor).ctx 0).slot = some 0 ∧ hasLane ((inPass cursor).ctx 0).passLanes 0 = true
      ∧ hasLane ((inPass cursor).ctx 0).passLanes 1 = true ∧ ((inPass cursor).lane 0).ctx.cursor = cursor
      ∧ ((inPass cursor).buf 0).state = .filling ∧ 1 < ((inPass cursor).buf 0).count ∧ ((inPass cursor).buf 16).count ≤ 1
      ∧ ((inPass cursor).ctx 0).fetch = some { buf := 0, page := 256 })
    ∧ ∀ st ∈ [CtxState.writePass, .checkPass, .stopped], ∀ due ∈ [true, false],
      hasLane ((inPass .start 1 st due).ctx 0).passLanes 0 = true
      ∧ (∀ m, m ≠ 0 → hasLane ((inPass .start 1 st due).ctx 0).passLanes m = false)
      ∧ ((inPass .start 1 st due).ctx 0).state = st ∧ ((inPass .start 1 st due).ctx 0).checkDue = due
      ∧ ((inPass .start 1 st due).slot 0).map (fun j => decide (j.live ≠ 0)) = some true := by
  decide +kernel

end Sys2Proof.Tests
end

section
/-! The lanes after a power-on reset and a pin reset (R41). Both resets put the same tables in place whatever the state, and
those hold the same lane eight times; the statement is then read off that one lane. -/

namespace Sys2Proof.Proofs

-- One theorem at a time: a thread for each would ask for more stack than the check allows.
set_option Elab.async false

open Sys2Proof.Machine

/-- Every lane of the reset tables is the reset lane. -/
@[simp] theorem lane_workReset (n : LaneId) : Work.reset.lane n = Lane.reset := by
  simp [Work.lane, Work.reset, Vector.get_eq_getElem]

/-- The fault mask of STATUS is empty when no lane is in FAULT (R40). -/
theorem faultMask_eq_zero {w : Work} (h : ∀ n, (w.lane n).ctx.state ≠ .fault) : w.faultMask = 0 := by
  simp [Work.faultMask, Config.allLanes, h]

/-- A power-on reset and a pin reset put the reset tables in place, whatever the state was (R163). -/
theorem exec_reset_work (s : State) {c : Instr} (h : c = .powerOnReset ∨ c = .pinReset) :
    ∃ t, exec c s = .next t ∧ t.work = Work.reset := by
  rcases h with rfl | rfl
  · exact ⟨s.resetAll .powerOn s.part.resetLow, rfl, rfl⟩
  · exact ⟨s.resetAll .pin true, rfl, rfl⟩

/-- Settles O2: each conjunct is read off the reset lane, which every lane is after either reset. -/
theorem resetActsOnEveryLane : Obligations.ResetActsOnEveryLane := by
  intro s c hc
  obtain ⟨t, ht, hwork⟩ := exec_reset_work s hc
  have hlane : ∀ n, t.work.lane n = Lane.reset := fun n => by rw [hwork, lane_workReset]
  have noFault : ∀ n, (t.work.lane n).ctx.state ≠ .fault := fun n => by rw [hlane]; decide
  refine ⟨t, ht, faultMask_eq_zero noFault, fun n => ?_⟩
  rw [hlane n]
  exact ⟨rfl, rfl, rfl, rfl, rfl, rfl, rfl⟩

end Sys2Proof.Proofs
end

section
/-! The CRC-16 of frames and the CRC-32 of images as divisions one bit at a time (R49, R73). The model puts a whole byte into
the register and then shifts eight times; the statement brings each bit in at its own shift. Both registers take the same
argument: their shift and their outgoing bit distribute over exclusive or, so a shift of `r ^^^ v` is a shift of `r` that brings
in the outgoing bit of `v`, with `v` itself shifted on beside it. After eight shifts the byte has left the register. -/

namespace Sys2Proof.Proofs

-- One theorem at a time: a thread for each would ask for more stack than the check allows.
set_option Elab.async false

open Sys2Proof.Machine

/-- One step of a division: the register is shifted, and the polynomial goes in when the outgoing bit differs from the message
bit. -/
def divideBit {w : Nat} (out : BitVec w → Bool) (shift : BitVec w → BitVec w) (poly r : BitVec w) (bit : Bool) : BitVec w :=
  if (out r != bit) = true then shift r ^^^ poly else shift r

section
variable {w : Nat} {out : BitVec w → Bool} {shift : BitVec w → BitVec w} {poly : BitVec w}

theorem divideBit_xor (hout : ∀ a b, out (a ^^^ b) = (out a ^^ out b)) (hshift : ∀ a b, shift (a ^^^ b) = shift a ^^^ shift b)
    (r v : BitVec w) : divideBit out shift poly (r ^^^ v) false = divideBit out shift poly r (out v) ^^^ shift v := by
  have swap : shift r ^^^ shift v ^^^ poly = shift r ^^^ poly ^^^ shift v := by ac_rfl
  cases hr : out r <;> cases hv : out v <;> simp [divideBit, hout, hshift, hr, hv, swap]

/-- Shifting `n` times a register that holds a message `v` divides by the first `n` bits that leave `v`. -/
theorem iterate_divideBit_xor (hout : ∀ a b, out (a ^^^ b) = (out a ^^ out b))
    (hshift : ∀ a b, shift (a ^^^ b) = shift a ^^^ shift b) (n : Nat) (r v : BitVec w) :
    (divideBit out shift poly · false)^[n] (r ^^^ v)
      = ((List.range n).map fun i => out (shift^[i] v)).foldl (divideBit out shift poly) r ^^^ shift^[n] v := by
  induction n generalizing r v with
  | zero => rfl
  | succ n ih =>
    rw [Function.iterate_succ_apply, divideBit_xor hout hshift, ih, List.range_succ_eq_map]
    simp [Function.comp_def]

end

/-! ## The CRC-16 -/

theorem iterate_shiftLeft_one {w : Nat} (n : Nat) (v : BitVec w) : (fun x : BitVec w => x <<< 1)^[n] v = v <<< n := by
  induction n with
  | zero => simp
  | succ n ih => rw [Function.iterate_succ_apply', ih, BitVec.shiftLeft_add]

/-- The CRC-16 register after one message bit. -/
abbrev crc16Bit : Half → Bool → Half := divideBit (·.getLsbD 15) (· <<< 1) 0x1021#16

theorem crc16Shifts_eq_iterate (n : Nat) (r : Half) : crc16Shifts n r = (crc16Bit · false)^[n] r := by
  induction n generalizing r with
  | zero => rfl
  | succ n ih =>
    have hshift : crc16Shift r = crc16Bit r false := by simp [crc16Shift, crc16Bit, divideBit, BitVec.msb_eq_getLsbD_last]
    rw [crc16Shifts, Function.iterate_succ_apply, ih, hshift]

/-- One byte of the CRC-16 is eight message bits, the most significant first (R49). -/
theorem crc16Byte_eq_foldl (r : Half) (b : Byte) :
    crc16Byte r b = ([7, 6, 5, 4, 3, 2, 1, 0].map b.getLsbD).foldl crc16Bit r := by
  have bits : (List.range 8).map (fun i => (b.setWidth 16 <<< 8 <<< i).getLsbD 15)
      = [7, 6, 5, 4, 3, 2, 1, 0].map b.getLsbD := by
    simp [List.range_succ]
  have gone : b.setWidth 16 <<< 8 <<< 8 = 0#16 := by
    rw [← BitVec.shiftLeft_add, BitVec.shiftLeft_eq_zero (by decide)]
  rw [crc16Byte, crc16Shifts_eq_iterate, iterate_divideBit_xor (by simp) (by simp [BitVec.shiftLeft_xor_distrib])]
  simp only [iterate_shiftLeft_one, bits, gone, BitVec.xor_zero]

/-! ## The CRC-32 -/

theorem iterate_ushiftRight_one {w : Nat} (n : Nat) (v : BitVec w) : (fun x : BitVec w => x >>> 1)^[n] v = v >>> n := by
  induction n with
  | zero => simp
  | succ n ih => rw [Function.iterate_succ_apply', ih, BitVec.shiftRight_add]

/-- The CRC-32 register after one message bit. -/
abbrev crc32Bit : Word → Bool → Word := divideBit (·.getLsbD 0) (· >>> 1) 0xEDB88320#32

theorem crc32Shifts_eq_iterate (n : Nat) (r : Word) : crc32Shifts n r = (crc32Bit · false)^[n] r := by
  induction n generalizing r with
  | zero => rfl
  | succ n ih =>
    have hshift : crc32Shift r = crc32Bit r false := by simp [crc32Shift, crc32Bit, divideBit]
    rw [crc32Shifts, Function.iterate_succ_apply, ih, hshift]

/-- One byte of the CRC-32 is eight message bits, the least significant first (R73). -/
theorem crc32Byte_eq_foldl (r : Word) (b : Byte) :
    crc32Byte r b = ([0, 1, 2, 3, 4, 5, 6, 7].map b.getLsbD).foldl crc32Bit r := by
  have bits : (List.range 8).map (fun i => (b.setWidth 32 >>> i).getLsbD 0)
      = [0, 1, 2, 3, 4, 5, 6, 7].map b.getLsbD := by
    simp [List.range_succ]
  have gone : b.setWidth 32 >>> 8 = 0#32 := by
    ext i hi
    simp
  rw [crc32Byte, crc32Shifts_eq_iterate, iterate_divideBit_xor (by simp) (by simp [BitVec.ushiftRight_xor_distrib])]
  simp only [iterate_ushiftRight_one, bits, gone, BitVec.xor_zero]

/-- Settles O55: each byte of a message is its eight bits, so a message is the bits of its bytes in turn; the two check values
are computed. -/
theorem crcsOfFramesAndImages : Obligations.CrcsOfFramesAndImages := by
  refine ⟨fun bs => ?_, fun bs => ?_, by decide +kernel, by decide +kernel⟩
  · have bytes : crc16Byte = fun r b => ([7, 6, 5, 4, 3, 2, 1, 0].map b.getLsbD).foldl crc16Bit r :=
      funext₂ crc16Byte_eq_foldl
    rw [crc16, bytes, List.foldl_flatMap]
    rfl
  · have bytes : crc32Byte = fun r b => ([0, 1, 2, 3, 4, 5, 6, 7].map b.getLsbD).foldl crc32Bit r :=
      funext₂ crc32Byte_eq_foldl
    rw [crc32, crc32Bytes, bytes, List.foldl_flatMap]
    rfl

end Sys2Proof.Proofs
end

section
/-! The invariants of `Work` that every step keeps. An invariant is shown for the kinds of change that `WorkInv` names; that the
whole part then keeps it is said once (`keeps_of_workInv`), operation by operation through `Keeps`. -/

namespace Sys2Proof.Proofs

-- One theorem at a time: a thread for each would ask for more stack than the check allows.
set_option Elab.async false

open Sys2Proof.Machine Sys2Proof.Laws

/-- What a property of `Work` says of a part: it knows of the part's state only whether that is DRAINING. -/
def OfWork (P : Prop → Work → Prop) (s : State) : Prop := P (s.part.state = .draining) s.work

section
variable {P : Prop → Work → Prop} {s t : State}

theorem ofWork_iff (h : s.part.state ≠ .draining) : OfWork P s ↔ P False s.work := by
  rw [OfWork, eq_false h]

theorem ofWork_congr (hw : t.work = s.work) (hs : t.part.state = .draining ↔ s.part.state = .draining) (h : OfWork P s) :
    OfWork P t := by
  unfold OfWork
  rw [hw, propext hs]
  exact h

theorem ofWork_halt (K : WorkInv P) (code : FatalCode) (hs : s.part.state ≠ .draining) (h : OfWork P s) :
    OfWork P (s.halt code) := by
  rw [ofWork_iff (by rw [halt_state]; decide)]
  exact K.path _ _ _ (reach_halt s code) ((ofWork_iff hs).mp h)

theorem ofWork_tryQuiesced (h : OfWork P s) : OfWork P s.tryQuiesced := by
  refine ofWork_congr (work_tryQuiesced s) ?_ h
  rcases tryQuiesced_cases s with e | ⟨q, e⟩
  · rw [e]
  · simp [e, q]

theorem ofWork_jobTake (K : WorkInv P) (h : OfWork P s) : OfWork P s.jobTake := by
  rcases jobTake_cases s with e | ⟨r, -, hr, e⟩
  · rwa [e]
  · have hs : s.part.state ≠ .draining := by rw [canTake_running hr]; decide
    rw [e, ofWork_iff (s := s.take r) hs]
    exact K.record _ _ _ _ ((ofWork_iff hs).mp h)

theorem postBegin_frame (s : State) : ∃ p, s.postBegin = { s with posting := p } := by
  unfold State.postBegin
  split
  · split <;> exact ⟨_, rfl⟩
  · exact ⟨_, rfl⟩

theorem ofWork_setupEnd (K : WorkInv P) (r : ReadEnd) (h : OfWork P s) : OfWork P (s.setupEnd r) := by
  unfold State.setupEnd
  extract_lets ctl s1
  have h1 : OfWork P s1 := h
  split
  next hl =>
    have hs : s1.part.state ≠ .draining := by rw [hl]; decide
    unfold State.judgeSetup
    split
    · exact ofWork_halt K _ hs h1
    · split
      · exact ofWork_congr (s := s1) rfl (by simp [State.latchSetup, hl]) h1
      · exact ofWork_halt K _ hs h1
  · exact h1

theorem ofWork_recordArrives (K : WorkInv P) (r : ReadEnd) (h : OfWork P s) : OfWork P (s.recordArrives r) := by
  unfold State.recordArrives
  extract_lets void intake s1
  have h1 : OfWork P s1 := h
  split
  · exact ofWork_tryQuiesced h1
  next hv =>
    split
    · exact h1
    · have hs : s.part.state = .running := (by simpa [void] using hv : _ ∧ _).2
      exact ofWork_halt K _ (by rw [show s1.part.state = .running from hs]; decide) h1

theorem ofWork_modHead (K : WorkInv P) (f : Entry → Entry) (p : Option Posting) (o : Option PortUser) (h : OfWork P s) :
    OfWork P { s with posting := p, port := o, work := s.work.modHead f } := by
  unfold Work.modHead
  split
  · exact h
  · exact K.queue _ _ _ _ h

theorem ofWork_reportEnd (K : WorkInv P) (i : Nat) (r : WriteEnd) (h : OfWork P s) : OfWork P (s.reportEnd i r) := by
  unfold State.reportEnd
  dsimp only
  split
  · exact h
  · split
    · exact ofWork_modHead K _ _ _ h
    · split
      · exact h
      · exact ofWork_modHead K _ _ _ h

theorem ofWork_completionEnd (K : WorkInv P) (r : WriteEnd) (h : OfWork P s) : OfWork P (s.completionEnd r) := by
  unfold State.completionEnd
  dsimp only
  split
  · split
    · exact ofWork_tryQuiesced (K.queue _ _ _ _ h)
    · exact h
  · split
    next hp => exact ofWork_halt K _ (fun e => by rw [show s.part.state = .draining from e] at hp; cases hp) h
    · exact h

theorem ofWork_softReset (K : WorkInv P) (h : OfWork P s) : OfWork P s.softReset := by
  unfold State.softReset
  split
  · exact h
  next hs =>
    rw [OfWork, eq_true (rfl : PartState.draining = .draining)]
    exact K.draining _ ((ofWork_iff hs).mp h)

theorem ofWork_endDrain (K : WorkInv P) (hd : s.drainOver = true) (h : OfWork P s) : OfWork P s.endDrain := by
  rw [ofWork_iff (by simp [State.endDrain])]
  simp only [State.drainOver, Bool.and_eq_true, decide_eq_true_eq, List.all_eq_true] at hd
  obtain ⟨⟨⟨⟨⟨hs, hl⟩, -⟩, -⟩, -⟩, -⟩ := hd
  refine K.drained _ (fun n => (hl n ?_).1) (by rwa [OfWork, eq_true hs] at h)
  fin_cases n <;> simp [Config.allLanes]

theorem ofWork_writeJobTail (v : Word) (h : OfWork P s) : OfWork P (s.writeJobTail v) := by
  unfold State.writeJobTail
  split <;> exact h

theorem ofWork_writeDoneHead (v : Word) (h : OfWork P s) : OfWork P (s.writeDoneHead v) := by
  unfold State.writeDoneHead
  dsimp only
  split
  · split
    · exact h
    · obtain ⟨p, e⟩ := postBegin_frame
        { s with rings := { s.rings with doneHead := v.toNat, postTimes := s.rings.postTimes.drop (s.rings.releases v.toNat) } }
      rw [e]; exact h
  · exact h

/-- An invariant of `Work` is one of the whole part. -/
theorem keeps_of_workInv (K : WorkInv P) : Keeps (OfWork P) where
  refresh _ h := h
  quiet s t m h := by
    rw [OfWork, m.same.part]
    rcases m.work with p | ⟨hd, env, e⟩
    · exact K.path _ _ _ p h
    · rw [e]; exact K.scan _ _ _ hd h
  resets s c l _ := (ofWork_iff (by simp [State.resetAll, PartCtl.reset])).mpr K.reset
  release _ h := h
  enable s h := by
    unfold State.enable
    split
    next hs => exact ofWork_congr (s := s) rfl (by simp [hs]) h
    · exact h
  quiesce s h := by
    unfold State.quiesce
    split
    next hs => exact ofWork_tryQuiesced (ofWork_congr (s := s) rfl (by simp [hs]) h)
    · exact h
  quiesceRelease s h := by
    unfold State.quiesceRelease
    split
    next hs => exact ofWork_congr (s := s) rfl (by rcases hs with hs | hs <;> simp [hs]) h
    · exact h
  softReset _ h := ofWork_softReset K h
  tail _ v h := ofWork_writeJobTail v h
  doneHead _ v h := ofWork_writeDoneHead v h
  setupEnd _ r _ h := ofWork_setupEnd K r h
  start s h := by unfold State.startRecordRead; split <;> exact h
  arrives _ r _ h := ofWork_recordArrives K r h
  take _ h := ofWork_jobTake K h
  postBegin s h := by obtain ⟨p, e⟩ := postBegin_frame s; rw [e]; exact h
  report _ i r _ h := ofWork_reportEnd K i r h
  completion _ r _ h := ofWork_completionEnd K r h
  drain _ hd h := ofWork_endDrain K hd h

/-- Every step keeps an invariant of `Work`. -/
theorem step_keeps_workInv (K : WorkInv P) (h : OfWork P s) (e : step s = .next t) : OfWork P t :=
  (keeps_of_workInv K).step (fun _ _ h => h) (fun _ h => h) h e
end

/-! ## The moves that are no path: placing, linking, cancelling a WAITING job, draining -/

theorem lane_place (w : Work) (j : JobSlot) (n : LaneId) : (w.place j).lane n = w.lane n := by
  unfold Work.place; split <;> rfl

theorem slot_place {w : Work} {j j' : JobSlot} {i : SlotId} (h : (w.place j).slot i = some j') :
    w.slot i = some j' ∨ j' = j := by
  unfold Work.place at h
  split at h
  next k _ =>
    have e : (w.setSlot k (some j)).slot i = some j' := h
    rw [slot_setSlot] at e
    split at e
    · exact .inr (by simpa using e.symm)
    · exact .inl e
  · exact .inl h

/-- A WAITING job's removal is its completion, after changes to the Grant List and to its results. -/
theorem cancelWaiting_eq (w : Work) (env : Env) (i : SlotId) (k : CancelLink) :
    ∃ v : Work, w.cancelWaiting env i k = v.completeAs env i 1 ∧ v.lanes = w.lanes ∧ v.owner = w.owner ∧ v.ctxs = w.ctxs
      ∧ v.pool = w.pool ∧ ∀ m, m ≠ i → v.slot m = w.slot m :=
  ⟨_, rfl, rfl, rfl, rfl, rfl, fun m hm => by rw [slot_modSlot, if_neg hm]; rfl⟩

/-! ## Lanes and settings (R21, R23, R117, R138) -/

theorem lanesSound_inv : WorkInv (fun _ w => w.LanesSound) where
  path _ _ _ p h := lanes_of_path p h
  scan _ env w _ h := lanes_of_path (path_grantScan w env) h
  queue _ _ _ _ h := h
  reset n := by rw [lane_workReset]; unfold Lane.Sound; decide
  drained _ _ h := h
  draining w h n := by
    obtain ⟨ls, e, hl⟩ := eachLane_form Lane.beginDrain w
    rw [e]
    show (ls.get n).Sound
    rw [hl]
    exact (beginDrain_move _).2.1 (h n)
  place w r adm a _ h n := by rw [lane_place]; exact h n
  link _ _ _ _ _ h := h
  cancelWaiting w env i j k _ _ h n := by
    obtain ⟨v, e, hl, -⟩ := cancelWaiting_eq w env i k
    rw [e, completeAs_lane, Work.lane, hl]
    exact h n

theorem settingsSound_inv : WorkInv (fun _ w => w.SettingsSound) where
  path _ _ _ p h := settings_of_path p h
  scan _ env w _ h := settings_of_path (path_grantScan w env) h
  queue _ _ _ _ h := h
  reset := by
    refine ⟨fun n => by rw [lane_workReset]; decide, fun i j h => ?_⟩
    simp [Work.reset, Work.slot, Vector.get_eq_getElem] at h
  drained w _ h := ⟨h.1, fun i j e => by simp [Work.afterDrain, Work.reset, Work.slot, Vector.get_eq_getElem] at e⟩
  draining w h := by
    obtain ⟨ls, e, hl⟩ := eachLane_form Lane.beginDrain w
    rw [e]
    refine ⟨fun n => ?_, h.2⟩
    show (ls.get n).settings.inRange = true
    rw [hl, (beginDrain_move _).1]
    exact h.1 n
  place w r adm a ha h := by
    refine ⟨fun n => by rw [lane_place]; exact h.1 n, fun i j e => ?_⟩
    rcases slot_place e with e | rfl
    · exact h.2 i j e
    · exact judgeRecord_settingsOk r a ha
  link w i j k hj h := by
    refine ⟨h.1, fun m x e => ?_⟩
    rw [slot_setSlot] at e
    split at e
    · cases e; exact h.2 i j hj
    · exact h.2 m x e
  cancelWaiting w env i j k _ _ h := by
    obtain ⟨v, e, hl, -, -, -, hs⟩ := cancelWaiting_eq w env i k
    rw [e]
    refine ⟨fun n => by rw [completeAs_lane, Work.lane, hl]; exact h.1 n, fun m x hx => ?_⟩
    rw [completeAs_slot] at hx
    split at hx
    · cases hx
    next q => exact h.2 m x (by rw [← hs m q]; exact hx)

/-- Settles O56: both invariants are kept by every kind of change of `Work`. -/
theorem stepKeepsSettingsAndLanesSound : Obligations.StepKeepsSettingsAndLanesSound :=
  ⟨fun _ _ h e => step_keeps_workInv settingsSound_inv h e, fun _ _ h e => step_keeps_workInv lanesSound_inv h e⟩

/-! ## The tables (R4, R5, R9, R42, R82) -/

theorem tablesSound_reset (w : Work) (h : ∀ n, (w.lane n).ctx.slot = none) : w.afterDrain.TablesSound False where
  nodup := List.nodup_nil
  waiting i := by simp [Work.afterDrain, Work.reset, Work.slot, Vector.get_eq_getElem]
  lane n i e := by rw [show (w.afterDrain.lane n) = w.lane n from rfl, h] at e; cases e
  owner n i e := by simp [Work.afterDrain, Work.reset, Work.ownerOf, Vector.get_eq_getElem] at e
  drained f := f.elim
  holder n i e := by simp [Work.afterDrain, Work.reset, Work.ownerOf, Vector.get_eq_getElem] at e
  noContext i j e := by simp [Work.afterDrain, Work.reset, Work.slot, Vector.get_eq_getElem] at e
  context c i := by
    simp [Work.afterDrain, Work.reset, Work.slot, Work.ctx, Vector.get_eq_getElem, ImageCtx.free]
  free c := by simp [Work.afterDrain, Work.reset, Work.ctx, Vector.get_eq_getElem, ImageCtx.free]

/-- At the beginning of the drain a lane keeps its slot, or has drained and holds none (R42). -/
theorem tablesSound_beginDrain {w : Work} (h : w.TablesSound False) :
    (w.eachLane (fun w n => w.modLane n Lane.beginDrain)).TablesSound True := by
  obtain ⟨ls, e, hl⟩ := eachLane_form Lane.beginDrain w
  rw [e]
  have lane : ∀ n, ({ w with lanes := ls } : Work).lane n = (w.lane n).beginDrain := hl
  have rest : ∀ n, ((w.lane n).beginDrain.ctx.slot = (w.lane n).ctx.slot ∧ (w.lane n).beginDrain.eng.drained = false)
      ∨ ((w.lane n).beginDrain.ctx.slot = none ∧ (w.lane n).beginDrain.eng.drained = true) :=
    fun n => (beginDrain_move (w.lane n)).2.2
  refine ⟨h.nodup, h.waiting, fun n i q => ?_, fun n i q => ?_, fun _ n q => ?_, h.holder, h.noContext, h.context, h.free⟩
  · rw [lane] at q
    rcases rest n with ⟨r, -⟩ | ⟨r, -⟩ <;> rw [r] at q
    · exact h.lane n i q
    · cases q
  · rw [lane]
    rcases rest n with ⟨r, -⟩ | ⟨-, r⟩
    · rw [r]
      exact (h.owner n i q).imp_right (fun f => f.1.elim)
    · exact .inr ⟨trivial, r⟩
  · rw [lane] at q ⊢
    rcases rest n with ⟨-, r⟩ | ⟨r, -⟩
    · rw [q] at r; cases r
    · exact r

theorem tablesSound_inv : WorkInv (fun d w => w.TablesSound d) where
  path _ _ _ p h := (tables_of_path p h).sound
  scan _ env _ hd h := tables_grantScan hd env h
  queue _ w q k h := ⟨h.nodup, h.waiting, h.lane, h.owner, h.drained, h.holder, h.noContext, h.context, h.free⟩
  reset := tablesSound_reset Work.reset (fun n => by rw [lane_workReset]; rfl)
  drained w hd h := tablesSound_reset w (fun n => h.drained trivial n (hd n))
  draining _ h := tablesSound_beginDrain h
  place _ _ _ _ _ h := tables_place h _ rfl rfl
  link _ _ _ k hj h := tables_link h hj k
  cancelWaiting _ env _ _ k hj hs h := tables_cancelWaiting h env k hj hs

/-- Settles O58: the agreement of the tables is kept by every kind of change of `Work`. -/
theorem stepKeepsTheTablesSound : Obligations.StepKeepsTheTablesSound :=
  fun _ _ h e => step_keeps_workInv tablesSound_inv h e

/-! ## The limits of the Image Reader and the Page Pool (R82, R86, R87, R88, R93) -/

/-- A Page Pool with every context and buffer FREE is within its limits. -/
theorem poolSound_free {w : Work} (hc : w.ctxs = Work.reset.ctxs) (hb : w.pool = Work.reset.pool) : w.PoolSound := by
  have ctx : ∀ c, w.ctx c = .free := fun c => by simp [Work.ctx, hc, Work.reset, Vector.get_eq_getElem]
  have buf : ∀ b, w.buf b = .free := fun b => by simp [Work.buf, hb, Work.reset, Vector.get_eq_getElem]
  refine ⟨fun c => ?_, fun b => by rw [buf]; exact limits_free b, fun c f e => by rw [ctx] at e; cases e⟩
  rw [ctx]
  exact ⟨by decide, by simp [ImageCtx.free], fun _ => ⟨rfl, rfl, rfl⟩⟩

theorem poolSound_inv : WorkInv (fun _ w => w.PoolSound) where
  path _ _ _ p h := pool_of_path p h
  scan _ env w _ h := pool_of_path (path_grantScan w env) h
  queue _ _ _ _ h := ⟨h.contexts, h.buffers, h.fetches⟩
  reset := poolSound_free rfl rfl
  drained _ _ _ := poolSound_free rfl rfl
  draining w h := by
    obtain ⟨ls, e, -⟩ := eachLane_form Lane.beginDrain w
    rw [e]
    exact ⟨h.contexts, h.buffers, h.fetches⟩
  place w r adm a _ h := by
    unfold Work.place
    split <;> exact ⟨h.contexts, h.buffers, h.fetches⟩
  link _ _ _ _ _ h := ⟨h.contexts, h.buffers, h.fetches⟩
  cancelWaiting w env i j k _ _ h := by
    obtain ⟨v, e, -, -, hc, hp, -⟩ := cancelWaiting_eq w env i k
    rw [e]
    exact pool_completeAs (pool_congr h (fun c => .inl (by rw [Work.ctx, hc]; rfl)) (fun b => by rw [Work.buf, hp]; rfl)) env 1

/-- Settles O59: the limits are kept by every kind of change of `Work`. -/
theorem stepKeepsThePoolWithinItsLimits : Obligations.StepKeepsThePoolWithinItsLimits :=
  fun _ _ h e => step_keeps_workInv poolSound_inv h e

end Sys2Proof.Proofs
end

section
/-! The Post Queue's reservations, the rings and the fatal code (O57). Both properties read control fields of the part, so each
operation that changes those is looked at on its own (`Keeps`). -/

namespace Sys2Proof.Proofs

-- One theorem at a time: a thread for each would ask for more stack than the check allows.
set_option Elab.async false

open Sys2Proof.Machine Sys2Proof.Laws

/-! ## Reservations (R150, R152) -/

section
variable {s t : State} {w : Work}

theorem owed_slots {w w' : Work} (h : w'.slots = w.slots) : w'.owed = w.owed :=
  owed_congr _ _ (fun k => by rw [Work.slot, Work.slot, h])

theorem queueSound_fits (h : s.work.QueueSound) (f : QueueFits s.work w) : w.QueueSound ∧ (s.work.roomLeft → w.roomLeft) :=
  ⟨⟨f.1, f.2.trans h.2⟩, fun r => lt_of_le_of_lt f.2 r⟩

/-- An event that asks for no new reservation and leaves Job Intake as it is. -/
theorem queueSound_move (h : s.QueueSound) (f : QueueFits s.work t.work) (hi : t.intake = s.intake)
    (hp : t.port = some .intake → s.intake.reading = true) : t.QueueSound := by
  obtain ⟨h1, h2, h3, -⟩ := h
  obtain ⟨q, room⟩ := queueSound_fits h1 f
  refine ⟨q, ?_, ?_, ?_⟩ <;> rw [hi]
  · exact fun e => ⟨room (h2 e).1, (h2 e).2⟩
  · exact fun e => (h3 e).imp_right room
  · exact hp

/-- An event that asks for no new reservation and discards the record held, with that being read (R150, R162). -/
theorem queueSound_stop (h : s.QueueSound) (f : QueueFits s.work t.work) (hi : t.intake = s.intake.stop)
    (hp : t.port = some .intake → s.intake.reading = true) : t.QueueSound := by
  refine ⟨(queueSound_fits h.1 f).1, ?_, ?_, ?_⟩ <;> rw [hi]
  · simp [Intake.stop]
  · exact fun e => .inl e
  · exact hp

theorem queueFits_refl (h : s.QueueSound) : QueueFits s.work s.work := ⟨h.1.1, le_rfl⟩

theorem queueSound_tryQuiesced (h : s.QueueSound) : s.tryQuiesced.QueueSound := by
  rcases tryQuiesced_cases s with e | ⟨-, e⟩ <;> rw [e] <;> exact h

theorem queueSound_halt (code : FatalCode) (h : s.QueueSound) : (s.halt code).QueueSound := by
  have f := queueFits_of_path (reach_halt s code) h.1.1
  by_cases hs : s.part.state = .halted
  · rwa [State.halt, if_pos hs]
  · refine queueSound_stop h f ?_ ?_ <;> rw [State.halt, if_neg hs]
    · rfl
    · exact h.2.2.2

theorem queueSound_free (w : Work) (h : w.slots = Work.reset.slots) (hq : w.queue = []) (hr : w.reserved = 0) : w.QueueSound := by
  rw [Work.QueueSound, owed_slots h, hq, hr]
  decide

theorem queueSound_recordArrives (r : ReadEnd) (hp : s.port = some .intake) (h : s.QueueSound) :
    (s.recordArrives r).QueueSound := by
  obtain ⟨h1, h2, h3, h4⟩ := h
  unfold State.recordArrives
  extract_lets void intake s1
  have hs1 : s1.QueueSound := ⟨h1, fun e => ⟨(h2 e).1, rfl⟩, by simp [s1], by simp [s1]⟩
  split
  · exact queueSound_tryQuiesced hs1
  next hv =>
    split
    · have room : s.work.roomLeft :=
        (h3 (h4 hp)).resolve_left (by simpa [void] using (by simpa [void] using hv : _ ∧ _).1)
      exact ⟨h1, fun _ => ⟨room, rfl⟩, hs1.2.2⟩
    · exact queueSound_halt _ hs1

/-- A record held has its reservation, so its taking stays within the Post Queue's capacity (R152). -/
theorem queueSound_jobTake (h : s.QueueSound) : s.jobTake.QueueSound := by
  rcases jobTake_cases s with e | ⟨r, hr, hc, e⟩ <;> rw [e]
  · exact h
  obtain ⟨h1, h2, -, h4⟩ := h
  obtain ⟨room, idle⟩ := h2 (by rw [hr]; rfl)
  have free : ∀ a, judgeRecord r = .slotted a → s.work.freeSlot.isSome := by
    intro a ha
    simpa [State.canTake, canTake_running hc, ha] using hc
  obtain ⟨o, l⟩ := queueFits_take s.work { s.env with jobHead := (s.rings.jobHead + 1) % s.rings.jobSize } r
    s.intake.counter h1.1 free
  exact ⟨⟨o, l.trans room⟩, fun e => (by simp [State.take] at e), fun e => (by simp [State.take, idle] at e), h4⟩

theorem queueSound_start (h : s.QueueSound) : s.startRecordRead.QueueSound := by
  unfold State.startRecordRead
  split
  next hm =>
    simp only [State.mayReadRecord, Bool.and_eq_true, Option.isNone_iff_eq_none] at hm
    obtain ⟨⟨⟨-, room⟩, held⟩, -⟩ := hm
    have room : s.work.roomLeft := by simpa [Work.reservationFree, Work.roomLeft] using room
    exact ⟨h.1, fun e => (by simp [held] at e), fun _ => .inr room, fun _ => rfl⟩
  · exact h

/-- A change of the head entry's flags leaves the number of entries. -/
theorem modHead_frame (w : Work) (f : Entry → Entry) :
    ∃ q, w.modHead f = { w with queue := q } ∧ q.length = w.queue.length := by
  unfold Work.modHead
  split
  next e => exact ⟨w.queue, rfl, rfl⟩
  next e es h => exact ⟨_, rfl, by simp [h]⟩

theorem reportEnd_frame (s : State) (i : Nat) (r : WriteEnd) : ∃ p q, q.length = s.work.queue.length
    ∧ s.reportEnd i r = { s with port := none, posting := p, work := { s.work with queue := q } } := by
  unfold State.reportEnd
  obtain ⟨q1, e1, l1⟩ := modHead_frame s.work (fun e => { e with reportFailed := true })
  obtain ⟨q2, e2, l2⟩ := modHead_frame s.work (fun e => { e with reportWritten := true })
  dsimp only
  rw [e1, e2]
  split
  · exact ⟨_, s.work.queue, rfl, rfl⟩
  · split
    · exact ⟨_, q1, l1, rfl⟩
    · split
      · exact ⟨_, s.work.queue, rfl, rfl⟩
      · exact ⟨_, q2, l2, rfl⟩

theorem queueSound_completionEnd (r : WriteEnd) (h : s.QueueSound) : (s.completionEnd r).QueueSound := by
  have h0 : State.QueueSound { s with port := none, posting := none } := queueSound_move h (queueFits_refl h) rfl (by simp)
  unfold State.completionEnd
  dsimp only
  split
  · split
    · refine queueSound_tryQuiesced (queueSound_move h0 ⟨h.1.1, ?_⟩ rfl (by simp [State.posted]))
      simp [State.posted]
    · exact h0
  · split
    · exact queueSound_halt _ h0
    · exact h0

theorem queueSound_endDrain (hd : s.drainOver = true) : s.endDrain.QueueSound := by
  simp only [State.drainOver, Bool.and_eq_true, Option.isNone_iff_eq_none] at hd
  obtain ⟨⟨⟨⟨-, hp⟩, -⟩, -⟩, -⟩ := hd
  refine ⟨queueSound_free _ rfl rfl rfl, by simp [State.endDrain, Intake.reset], by simp [State.endDrain, Intake.reset], ?_⟩
  simp [State.endDrain, hp]

theorem queueSound_writeJobTail (v : Word) (h : s.QueueSound) : (s.writeJobTail v).QueueSound := by
  obtain ⟨h1, h2, h3, h4⟩ := h
  unfold State.writeJobTail
  split
  · refine ⟨h1, ?_⟩
    dsimp only
    split
    · exact ⟨by simp, h3, h4⟩
    · exact ⟨h2, h3, h4⟩
  · exact ⟨h1, h2, h3, h4⟩

theorem writeDoneHead_frame (s : State) (v : Word) :
    ∃ r p g, s.writeDoneHead v = { s with rings := r, posting := p, regs := g } := by
  unfold State.writeDoneHead
  dsimp only
  split
  · split
    · exact ⟨_, _, _, rfl⟩
    · obtain ⟨p, e⟩ := postBegin_frame
        { s with rings := { s.rings with doneHead := v.toNat, postTimes := s.rings.postTimes.drop (s.rings.releases v.toNat) } }
      exact ⟨_, p, _, e⟩
  · exact ⟨_, _, _, rfl⟩

theorem queueSound_keeps : Keeps State.QueueSound where
  refresh _ h := h
  quiet s t m h := by
    have f : QueueFits s.work t.work := by
      rcases m.work with p | ⟨-, env, e⟩
      · exact queueFits_of_path p h.1.1
      · rw [e]; exact queueFits_of_path (path_grantScan _ env) h.1.1
    exact queueSound_move h f m.same.intake (fun e => (m.port e).elim id h.2.2.2)
  resets s c l _ := ⟨queueSound_free _ rfl rfl rfl, by simp [State.resetAll, State.reset, Intake.reset],
    by simp [State.resetAll, State.reset, Intake.reset], by simp [State.resetAll, State.reset]⟩
  release _ h := h
  enable s h := by unfold State.enable; split <;> exact h
  quiesce s h := by
    unfold State.quiesce
    split
    · exact queueSound_tryQuiesced (queueSound_stop h (queueFits_refl h) rfl h.2.2.2)
    · exact h
  quiesceRelease s h := by unfold State.quiesceRelease; split <;> exact h
  softReset s h := by
    unfold State.softReset
    split
    · exact h
    · obtain ⟨ls, e, -⟩ := eachLane_form Lane.beginDrain s.work
      rw [e]
      exact queueSound_stop h ⟨h.1.1, le_rfl⟩ rfl h.2.2.2
  tail _ v h := queueSound_writeJobTail v h
  doneHead s v h := by obtain ⟨r, p, g, e⟩ := writeDoneHead_frame s v; rw [e]; exact h
  setupEnd s r hp h := by
    have h0 : State.QueueSound { s with port := none, part := { s.part with setupReading := false } } :=
      queueSound_move h (queueFits_refl h) rfl (by simp)
    unfold State.setupEnd
    dsimp only
    split
    · unfold State.judgeSetup
      split
      · exact queueSound_halt _ h0
      · split
        · exact h0
        · exact queueSound_halt _ h0
    · exact h0
  start _ h := queueSound_start h
  arrives _ r hp h := queueSound_recordArrives r hp h
  take _ h := queueSound_jobTake h
  postBegin s h := by obtain ⟨p, e⟩ := postBegin_frame s; rw [e]; exact h
  report s i r _ h := by
    obtain ⟨p, q, hq, e⟩ := reportEnd_frame s i r
    rw [e]
    exact queueSound_move h ⟨h.1.1, by simp [hq]⟩ rfl (by simp)
  completion _ r _ h := queueSound_completionEnd r h
  drain _ hd _ := queueSound_endDrain hd
end

/-! ## Ring arithmetic (R154) -/

section
variable {a b m : Nat}

theorem subMod_self (h : a < m) : subMod a a m = 0 := by
  rw [subMod, Nat.mod_eq_of_lt h, Nat.add_sub_cancel' h.le, Nat.mod_self]

/-- The distance from `b` on to `a` around a ring. -/
theorem subMod_cases (ha : a < m) (hb : b < m) : subMod a b m = if b ≤ a then a - b else a + m - b := by
  rw [subMod, Nat.mod_eq_of_lt hb]
  split
  · rw [show a + (m - b) = a - b + m by omega, Nat.add_mod_right, Nat.mod_eq_of_lt (by omega)]
  · rw [show a + (m - b) = a + m - b by omega, Nat.mod_eq_of_lt (by omega)]

/-- The write index moves on by one entry. -/
theorem subMod_succ (ha : a < m) (hb : b < m) (h : subMod a b m + 1 < m) :
    subMod ((a + 1) % m) b m = subMod a b m + 1 := by
  rw [subMod_cases ha hb] at h ⊢
  by_cases e : a + 1 = m
  · rw [e, Nat.mod_self, subMod_cases (by omega) hb]
    split_ifs at h ⊢ <;> omega
  · rw [Nat.mod_eq_of_lt (by omega), subMod_cases (by omega) hb]
    split_ifs at h ⊢ <;> omega

/-- DONE_HEAD moves on by a released part of the distance. -/
theorem subMod_release {v : Nat} (ha : a < m) (hb : b < m) (hv : v < m) (h : subMod v b m ≤ subMod a b m) :
    subMod a v m = subMod a b m - subMod v b m := by
  rw [subMod_cases hv hb, subMod_cases ha hb] at *
  rw [subMod_cases ha hv]
  split_ifs at h ⊢ <;> omega
end

/-! ## Rings and the fatal code (R148, R149, R154, R155, R158) -/

/-- What O57 says of the rings and the fatal code. -/
def RingsFatal (s : State) : Prop := s.RingsSound ∧ s.FatalSound

section
variable {s t : State}

/-- With a geometry latched: every index is within its ring, one post time stands for each unreleased entry, and a posting
under way has its place. -/
def RingsFit (r : Rings) (posting : Option Posting) (g : Geometry) : Prop :=
  r.jobTail < g.jobSize ∧ r.jobHead < g.jobSize ∧ r.doneHead < g.doneSize ∧ r.writeIdx < g.doneSize
    ∧ r.postTimes.length = r.unreleased ∧ (posting.isSome → r.unreleased + 1 < g.doneSize)

theorem ringsSound_some {g : Geometry} (hg : s.rings.geom = some g) :
    s.RingsSound ↔ s.part.state ≠ .disabled ∧ s.part.state ≠ .loading ∧ RingsFit s.rings s.posting g := by
  rw [State.RingsSound, hg]
  simp only [Option.isSome_some, implies_true, true_and, reduceCtorEq, imp_false, not_or, and_assoc]
  rfl

theorem ringsFatal_some {g : Geometry} (hg : s.rings.geom = some g) (early : s.part.state ≠ .disabled ∧ s.part.state ≠ .loading)
    (fit : RingsFit s.rings s.posting g) (fatal : s.FatalSound) : RingsFatal s :=
  ⟨(ringsSound_some hg).mpr ⟨early.1, early.2, fit⟩, fatal⟩

theorem ringsFatal_fit (h : RingsFatal s) {g : Geometry} (hg : s.rings.geom = some g) :
    (s.part.state ≠ .disabled ∧ s.part.state ≠ .loading) ∧ RingsFit s.rings s.posting g := by
  obtain ⟨e1, e2, fit⟩ := (ringsSound_some hg).mp h.1
  exact ⟨⟨e1, e2⟩, fit⟩

/-- The rings and the posting stay, and the part's state needs no more than it did. -/
theorem ringsFatal_congr (h : RingsFatal s) (hr : t.rings = s.rings) (hp : t.posting = s.posting)
    (posts : t.part.state.posts = true → s.part.state.posts = true)
    (early : t.part.state = .disabled ∨ t.part.state = .loading → s.part.state = .disabled ∨ s.part.state = .loading)
    (fatal : t.FatalSound) : RingsFatal t := by
  obtain ⟨⟨h1, h2, h3⟩, -⟩ := h
  refine ⟨⟨?_, ?_, ?_⟩, fatal⟩ <;> rw [hr]
  · exact fun e => h1 (posts e)
  · exact fun e => h2 (early e)
  · rw [hp]; exact h3

theorem ringsFatal_same (h : RingsFatal s) (hr : t.rings = s.rings := by rfl) (hp : t.posting = s.posting := by rfl)
    (hs : t.part.state = s.part.state := by rfl) (hf : t.part.fatal = s.part.fatal := by rfl) : RingsFatal t :=
  ringsFatal_congr h hr hp (by rw [hs]; exact id) (by rw [hs]; exact id) (by rw [State.FatalSound, hs, hf]; exact h.2)

theorem ringsFatal_noFatal (h : RingsFatal s) (hs : s.part.state ≠ .halted) (hd : s.part.state ≠ .draining) :
    s.part.fatal = .none := by
  by_contra e
  exact (h.2 e).elim hs hd

theorem ringsFatal_halt (code : FatalCode) (h : RingsFatal s) : RingsFatal (s.halt code) := by
  by_cases hs : s.part.state = .halted
  · rwa [State.halt, if_pos hs]
  · have e : (s.halt code).part.state = .halted := halt_state s code
    refine ringsFatal_congr h ?_ ?_ ?_ ?_ (fun _ => .inl e)
    · rw [State.halt, if_neg hs]; rfl
    · rw [State.halt, if_neg hs]; rfl
    · rw [e]; simp [PartState.posts]
    · rw [e]; simp

theorem ringsFatal_tryQuiesced (h : RingsFatal s) : RingsFatal s.tryQuiesced := by
  rcases tryQuiesced_cases s with e | ⟨q, e⟩ <;> rw [e]
  · exact h
  · have f := ringsFatal_noFatal h (by rw [q]; decide) (by rw [q]; decide)
    exact ringsFatal_congr (t := { s with part := { s.part with state := .quiesced } }) h rfl rfl
      (by simp [q, PartState.posts]) (by simp) (fun e => absurd f e)

/-- Without a geometry latched the indexes are 0 and nothing is posted. -/
theorem ringsFatal_none (hp : s.part.state.posts = false) (hf : s.part.fatal = .none) (hr : s.rings.geom = none)
    (h : s.rings.jobTail = 0 ∧ s.rings.jobHead = 0 ∧ s.rings.doneHead = 0 ∧ s.rings.writeIdx = 0
      ∧ s.rings.postTimes = [] ∧ s.posting = none) : RingsFatal s := by
  refine ⟨⟨by simp [hp], fun _ => hr, ?_⟩, fun e => absurd hf e⟩
  rw [hr]
  exact h

theorem ringsSound_geom {s : State} (h : s.RingsSound) (hp : s.posting.isSome) : ∃ g, s.rings.geom = some g := by
  cases hg : s.rings.geom with
  | some g => exact ⟨g, rfl⟩
  | none =>
    obtain ⟨-, -, h3⟩ := h
    rw [hg] at h3
    simp [h3.2.2.2.2.2] at hp

theorem ringsFatal_latchSetup {g : Geometry} (h : RingsFatal s) (hs : s.part.state = .loading) :
    RingsFatal (s.latchSetup g) := by
  have f := ringsFatal_noFatal h (by rw [hs]; decide) (by rw [hs]; decide)
  have hn : s.rings.geom = none := h.1.2.1 (.inr hs)
  obtain ⟨⟨-, -, h3⟩, -⟩ := h
  rw [hn] at h3
  obtain ⟨tail, -, done, -, -, posting⟩ := h3
  have size : ∀ k, 0 < 2 ^ k := fun k => by positivity
  refine ringsFatal_some (g := g) rfl ⟨by simp [State.latchSetup], by simp [State.latchSetup]⟩ ?_ (fun e => absurd f e)
  have u : (s.latchSetup g).rings.unreleased = 0 := by
    simp [Rings.unreleased, State.latchSetup, Rings.doneSize, done, subMod_self (size g.doneCode), Geometry.doneSize]
  refine ⟨?_, size _, ?_, size _, u.symm, ?_⟩
  · exact tail.trans_lt (size g.jobCode)
  · exact done.trans_lt (size g.doneCode)
  · simp [State.latchSetup, posting]

theorem ringsFatal_setupEnd (r : ReadEnd) (h : RingsFatal s) : RingsFatal (s.setupEnd r) := by
  have h0 : RingsFatal { s with port := none, part := { s.part with setupReading := false } } := ringsFatal_same h
  unfold State.setupEnd
  dsimp only
  split
  next hl =>
    unfold State.judgeSetup
    split
    · exact ringsFatal_halt _ h0
    · split
      · exact ringsFatal_latchSetup h0 hl
      · exact ringsFatal_halt _ h0
  · exact h0

theorem ringsFatal_recordArrives (r : ReadEnd) (h : RingsFatal s) : RingsFatal (s.recordArrives r) := by
  unfold State.recordArrives
  extract_lets void intake s1
  have h1 : RingsFatal s1 := ringsFatal_same h
  split
  · exact ringsFatal_tryQuiesced h1
  · split
    · exact ringsFatal_same h1
    · exact ringsFatal_halt _ h1

theorem ringsFatal_jobTake (h : RingsFatal s) : RingsFatal s.jobTake := by
  rcases jobTake_cases s with e | ⟨r, -, hc, e⟩ <;> rw [e]
  · exact h
  obtain ⟨g, hg⟩ := Option.isSome_iff_exists.mp (h.1.1 (by rw [canTake_running hc]; rfl))
  obtain ⟨early, tail, head, rest⟩ := ringsFatal_fit h hg
  refine ringsFatal_some hg early ⟨tail, ?_, rest⟩ h.2
  have e : s.rings.jobSize = g.jobSize := by rw [Rings.jobSize, hg]; rfl
  exact (Nat.mod_lt _ (by omega)).trans_eq e

theorem ringsFatal_postBegin (h : RingsFatal s) : RingsFatal s.postBegin := by
  unfold State.postBegin
  split
  · split
    next hc =>
      obtain ⟨hp, hr⟩ := hc
      obtain ⟨g, hg⟩ := Option.isSome_iff_exists.mp (h.1.1 hp)
      obtain ⟨early, f1, f2, f3, f4, f5, -⟩ := ringsFatal_fit h hg
      refine ringsFatal_some hg early ⟨f1, f2, f3, f4, f5, fun _ => ?_⟩ h.2
      have := of_decide_eq_true (Bool.and_eq_true_iff.mp hr).2
      rwa [Rings.doneSize, hg] at this
    · exact h
  · exact h

theorem ringsFatal_reportEnd {i : Nat} (r : WriteEnd) (hp : s.posting = some (.report i)) (h : RingsFatal s) :
    RingsFatal (s.reportEnd i r) := by
  obtain ⟨p, q, -, e⟩ := reportEnd_frame s i r
  obtain ⟨g, hg⟩ := ringsSound_geom h.1 (by rw [hp]; rfl)
  obtain ⟨early, f1, f2, f3, f4, f5, f6⟩ := ringsFatal_fit h hg
  rw [e]
  exact ringsFatal_some hg early ⟨f1, f2, f3, f4, f5, fun _ => f6 (by rw [hp]; rfl)⟩ h.2

theorem ringsFatal_completionEnd (r : WriteEnd) (hp : s.posting = some .completion) (h : RingsFatal s) :
    RingsFatal (s.completionEnd r) := by
  obtain ⟨g, hg⟩ := ringsSound_geom h.1 (by rw [hp]; rfl)
  obtain ⟨early, f1, f2, f3, f4, f5, f6⟩ := ringsFatal_fit h hg
  have size : s.rings.doneSize = g.doneSize := by rw [Rings.doneSize, hg]; rfl
  have h0 : RingsFatal { s with port := none, posting := none } :=
    ringsFatal_some hg early ⟨f1, f2, f3, f4, f5, by simp⟩ h.2
  have posted : RingsFatal (State.posted { s with port := none, posting := none }) := by
    refine ringsFatal_some hg early ⟨f1, f2, f3, ?_, ?_, by simp [State.posted]⟩ h.2
    · have pos : 0 < s.rings.doneSize := by omega
      exact (Nat.mod_lt _ pos).trans_eq size
    · have u : subMod ((s.rings.writeIdx + 1) % s.rings.doneSize) s.rings.doneHead s.rings.doneSize
          = subMod s.rings.writeIdx s.rings.doneHead s.rings.doneSize + 1 := by
        rw [size]
        refine subMod_succ f4 f3 ?_
        simpa [Rings.unreleased, size] using f6 (by rw [hp]; rfl)
      show (s.rings.postTimes ++ [_]).length = subMod _ _ s.rings.doneSize
      rw [List.length_append, f5]
      exact u.symm
  unfold State.completionEnd
  dsimp only
  split
  · split
    · exact ringsFatal_tryQuiesced posted
    · exact h0
  · split
    · exact ringsFatal_halt _ h0
    · exact h0

theorem ringsFatal_writeJobTail (v : Word) (h : RingsFatal s) : RingsFatal (s.writeJobTail v) := by
  unfold State.writeJobTail
  split
  next hc =>
    obtain ⟨hw, hv⟩ := hc
    obtain ⟨g, hg⟩ := Option.isSome_iff_exists.mp (Bool.and_eq_true_iff.mp hw).1
    obtain ⟨early, -, rest⟩ := ringsFatal_fit h hg
    rw [Rings.jobSize, hg] at hv
    exact ringsFatal_some hg early ⟨hv, rest⟩ h.2
  · exact ringsFatal_same h

theorem ringsFatal_writeDoneHead (v : Word) (h : RingsFatal s) : RingsFatal (s.writeDoneHead v) := by
  unfold State.writeDoneHead
  extract_lets k r t
  split
  next hc =>
    obtain ⟨hw, hv, hk⟩ := hc
    obtain ⟨g, hg⟩ := Option.isSome_iff_exists.mp (Bool.and_eq_true_iff.mp hw).1
    obtain ⟨early, f1, f2, f3, f4, f5, f6⟩ := ringsFatal_fit h hg
    have size : s.rings.doneSize = g.doneSize := by rw [Rings.doneSize, hg]; rfl
    rw [size] at hv
    have u : t.rings.unreleased = s.rings.unreleased - k := by
      show subMod _ _ s.rings.doneSize = subMod _ _ s.rings.doneSize - subMod _ _ s.rings.doneSize
      rw [size]
      refine subMod_release f4 f3 hv ?_
      simpa [k, Rings.releases, Rings.unreleased, size] using hk
    have ht : RingsFatal t := by
      refine ringsFatal_some hg early ⟨f1, f2, hv, f4, ?_, fun e => ?_⟩ h.2
      · rw [u, ← f5]
        exact List.length_drop
      · rw [u]
        exact lt_of_le_of_lt (by omega) (f6 e)
    split
    · exact ht
    · exact ringsFatal_postBegin ht
  · exact ringsFatal_same h

theorem ringsFatal_keeps : Keeps RingsFatal where
  refresh _ h := ringsFatal_same h
  quiet s t m h := ringsFatal_same h m.same.rings m.same.posting (by rw [m.same.part]) (by rw [m.same.part])
  resets s c l _ := ringsFatal_none rfl rfl rfl ⟨rfl, rfl, rfl, rfl, rfl, rfl⟩
  release _ h := ringsFatal_same h
  enable s h := by
    unfold State.enable
    split
    next hs =>
      have f := ringsFatal_noFatal h (by rw [hs]; decide) (by rw [hs]; decide)
      exact ringsFatal_congr h rfl rfl (by simp [PartState.posts]) (fun _ => .inl hs) (fun e => absurd f e)
    · exact h
  quiesce s h := by
    unfold State.quiesce
    split
    next hs =>
      have f := ringsFatal_noFatal h (by rw [hs]; decide) (by rw [hs]; decide)
      exact ringsFatal_tryQuiesced
        (ringsFatal_congr h rfl rfl (by simp [PartState.posts, hs]) (by simp) (fun e => absurd f e))
    · exact h
  quiesceRelease s h := by
    unfold State.quiesceRelease
    split
    next hs =>
      have hs : s.part.state ≠ .halted ∧ s.part.state ≠ .draining ∧ s.part.state.posts = true := by
        rcases hs with hs | hs <;> rw [hs] <;> decide
      have f := ringsFatal_noFatal h hs.1 hs.2.1
      exact ringsFatal_congr h rfl rfl (fun _ => hs.2.2) (by simp) (fun e => absurd f e)
    · exact h
  softReset s h := by
    unfold State.softReset
    split
    · exact h
    · exact ringsFatal_congr h rfl rfl (by simp [PartState.posts]) (by simp) (fun _ => .inr rfl)
  tail _ v h := ringsFatal_writeJobTail v h
  doneHead _ v h := ringsFatal_writeDoneHead v h
  setupEnd _ r _ h := ringsFatal_setupEnd r h
  start s h := by unfold State.startRecordRead; split <;> exact ringsFatal_same h
  arrives _ r _ h := ringsFatal_recordArrives r h
  take _ h := ringsFatal_jobTake h
  postBegin _ h := ringsFatal_postBegin h
  report _ _ r hp h := ringsFatal_reportEnd r hp h
  completion _ r hp h := ringsFatal_completionEnd r hp h
  drain s hd _ := by
    simp only [State.drainOver, Bool.and_eq_true, Option.isNone_iff_eq_none] at hd
    obtain ⟨⟨⟨-, posting⟩, -⟩, -⟩ := hd
    exact ringsFatal_none rfl rfl rfl ⟨rfl, rfl, rfl, rfl, rfl, posting⟩
end

/-- Settles O57: the reservations, and the rings with the fatal code, are kept by every operation that changes them. -/
theorem stepKeepsRingsAndReservations : Obligations.StepKeepsRingsAndReservations :=
  ⟨fun _ _ h e => queueSound_keeps.step (fun _ _ h => h) (fun _ h => h) h e,
    fun _ _ h e => ringsFatal_keeps.step (fun _ _ h => ringsFatal_same h) (fun _ h => ringsFatal_same h) h e⟩

end Sys2Proof.Proofs
end

section
/-! What every command answers, said once: all but the resets answer by `State.answer`, and none touches the queue of commands or
the level of RESET_N. The statements about steps, resets, IRQ_N and MISUSE follow (O1, O3, O8, O13, O19, O60). -/

namespace Sys2Proof.Proofs

-- One theorem at a time: a thread for each would ask for more stack than the check allows.
set_option Elab.async false

open Sys2Proof.Machine Sys2Proof.Laws

variable {s t u : State}

/-! ## What no command touches -/

/-- The fields that no command but a reset writes: the queue, RESET_N's level, and, but for the register commands, the registers
that hold no ring index. -/
structure Frame (s u : State) : Prop where
  pending : u.pending = s.pending
  resetLow : u.part.resetLow = s.part.resetLow
  regs : u.regs = s.regs

theorem Frame.rfl' : Frame s s := ⟨rfl, rfl, rfl⟩

theorem Frame.trans (h : Frame s t) (k : Frame t u) : Frame s u :=
  ⟨k.pending.trans h.pending, k.resetLow.trans h.resetLow, k.regs.trans h.regs⟩

theorem Frame.ite {p : Prop} [Decidable p] {v : State} (h : Frame s u) (k : Frame s v) : Frame s (if p then u else v) := by
  split <;> assumption

theorem frame_lane {n : LaneId} {f : Env → Work → Work} : Frame s (s.laneEvent n f) := ⟨rfl, rfl, rfl⟩

theorem frame_tryQuiesced (h : Frame s u) : Frame s u.tryQuiesced := .ite (h.trans ⟨rfl, rfl, rfl⟩) h

theorem frame_halt {code : FatalCode} (h : Frame s u) : Frame s (u.halt code) := .ite h (h.trans ⟨rfl, rfl, rfl⟩)

theorem frame_jobTake (s : State) : Frame s s.jobTake := by
  rcases jobTake_cases s with e | ⟨r, -, -, e⟩ <;> rw [e]
  · exact .rfl'
  · exact ⟨rfl, rfl, rfl⟩

theorem frame_takeFreed (s u : State) : Frame u (s.takeFreed u) := .ite (frame_jobTake u) .rfl'

theorem frame_postBegin (s : State) : Frame s s.postBegin := by
  obtain ⟨p, e⟩ := postBegin_frame s
  rw [e]; exact ⟨rfl, rfl, rfl⟩

theorem frame_quiesce (s : State) : Frame s s.quiesce :=
  .ite (frame_tryQuiesced ⟨rfl, rfl, rfl⟩) .rfl'

theorem frame_enable (s : State) : Frame s s.enable := .ite ⟨rfl, rfl, rfl⟩ .rfl'

theorem frame_quiesceRelease (s : State) : Frame s s.quiesceRelease := .ite ⟨rfl, rfl, rfl⟩ .rfl'

theorem frame_softReset (s : State) : Frame s s.softReset := .ite .rfl' ⟨rfl, rfl, rfl⟩

theorem frame_imageTurn (s : State) (c : CtxId) : Frame s (s.imageTurn c) := by
  unfold State.imageTurn
  dsimp only
  split <;> exact ⟨rfl, rfl, rfl⟩

theorem frame_arbitrate (s : State) : Frame s s.arbitrate := by
  unfold State.arbitrate
  refine .ite .rfl' (.ite ⟨rfl, rfl, rfl⟩ (.ite ⟨rfl, rfl, rfl⟩ (.ite ⟨rfl, rfl, rfl⟩ ?_)))
  split
  · exact ⟨rfl, rfl, rfl⟩
  · split
    · exact frame_imageTurn s _
    · exact .rfl'

theorem frame_setupEnd (s : State) (r : ReadEnd) : Frame s (s.setupEnd r) := by
  unfold State.setupEnd State.judgeSetup
  dsimp only
  refine .ite ?_ ⟨rfl, rfl, rfl⟩
  split
  · exact frame_halt ⟨rfl, rfl, rfl⟩
  · exact .ite ⟨rfl, rfl, rfl⟩ (frame_halt ⟨rfl, rfl, rfl⟩)

theorem frame_recordArrives (s : State) (r : ReadEnd) : Frame s (s.recordArrives r) := by
  unfold State.recordArrives
  dsimp only
  refine .ite (frame_tryQuiesced ⟨rfl, rfl, rfl⟩) ?_
  split
  · exact ⟨rfl, rfl, rfl⟩
  · exact frame_halt ⟨rfl, rfl, rfl⟩

theorem frame_reportEnd (s : State) (i : Nat) (r : WriteEnd) : Frame s (s.reportEnd i r) := by
  obtain ⟨p, q, -, e⟩ := reportEnd_frame s i r
  rw [e]; exact ⟨rfl, rfl, rfl⟩

theorem frame_completionEnd (s : State) (r : WriteEnd) : Frame s (s.completionEnd r) := by
  unfold State.completionEnd
  dsimp only
  split
  · exact .ite (frame_tryQuiesced ⟨rfl, rfl, rfl⟩) ⟨rfl, rfl, rfl⟩
  · exact .ite (frame_halt ⟨rfl, rfl, rfl⟩) ⟨rfl, rfl, rfl⟩

theorem frame_pageFetch (s : State) (r : ReadEnd) : ∃ u, execPageFetchReadEnd r s = s.answer u ∧ Frame s u := by
  refine ⟨_, rfl, ?_⟩
  split
  · split
    · unfold State.fetchRead
      dsimp only
      refine .ite ?_ .rfl'
      split
      · exact ⟨rfl, rfl, rfl⟩
      · exact .ite ⟨rfl, rfl, rfl⟩ ⟨rfl, rfl, rfl⟩
    · exact .ite ⟨rfl, rfl, rfl⟩ ⟨rfl, rfl, rfl⟩
  · exact .rfl'

/-- The commands that write a register which holds no ring index, or set or clear MISUSE. -/
def regsCmd : Instr → Bool
  | .clearMisuse | .setupLoWrite _ _ | .setupHiWrite _ _ | .jobTailWrite _ _ | .jobHeadWrite _ _ => true
  | .doneHeadWrite _ _ | .notifyWrite _ _ | .registerWrite _ _ _ | .drainEnd => true
  | _ => false

/-- The commands that do not answer by `State.answer`. -/
def resetCmd : Instr → Bool
  | .powerOnReset | .pinReset | .resetNRelease => true
  | _ => false

theorem exec_frame (s : State) (c : Instr) (hr : resetCmd c = false) (hc : regsCmd c = false) :
    ∃ u, exec c s = s.answer u ∧ Frame s u := by
  cases c <;> first | (exact absurd hr Bool.noConfusion) | (exact absurd hc Bool.noConfusion) | skip
  case pageFetchReadEnd r => exact frame_pageFetch s r
  all_goals refine ⟨_, rfl, ?_⟩
  case enable => exact frame_enable s
  case quiesce => exact frame_quiesce s
  case quiesceRelease => exact frame_quiesceRelease s
  case softReset => exact frame_softReset s
  case memoryPortArbitration => exact frame_arbitrate s
  case setupReadEnd r => exact .ite (frame_setupEnd s r) .rfl'
  case jobRecordReadStart => exact .ite ⟨rfl, rfl, rfl⟩ .rfl'
  case jobRecordReadEnd r => exact .ite ((frame_recordArrives s r).trans (frame_jobTake _)) .rfl'
  case jobTake => exact frame_jobTake s
  case grantScan => exact .ite ⟨rfl, rfl, rfl⟩ .rfl'
  case postBegin => exact frame_postBegin s
  case reportRecordWriteEnd r => split <;> [exact frame_reportEnd s _ r; exact .rfl']
  case completionWriteEnd r => split <;> [exact frame_completionEnd s r; exact .rfl']
  case holdIntervalExpiry => unfold State.holdExpired; split <;> exact ⟨rfl, rfl, rfl⟩
  case tdatLow n r => cases r <;> exact .ite frame_lane .rfl'
  case keyReadEnd n r => split <;> [exact .ite ⟨rfl, rfl, rfl⟩ .rfl'; exact .rfl']
  case readoutPageWriteEnd n r => split <;> [exact .ite ⟨rfl, rfl, rfl⟩ .rfl'; exact .rfl']
  case exchangePayloadReadEnd n r => split <;> [exact .ite ⟨rfl, rfl, rfl⟩ .rfl'; exact .rfl']
  case exchangeReplyWriteEnd n r => split <;> [exact .ite ⟨rfl, rfl, rfl⟩ .rfl'; exact .rfl']
  case descriptorHeaderReadEnd r =>
    split <;> [exact .ite (.ite ⟨rfl, rfl, rfl⟩ ⟨rfl, rfl, rfl⟩) .rfl'; exact .rfl']
  case descriptorTableReadEnd r =>
    split <;> [exact .ite (.ite ⟨rfl, rfl, rfl⟩ ⟨rfl, rfl, rfl⟩) .rfl'; exact .rfl']
  all_goals exact .ite frame_lane .rfl'

/-! ## Register commands -/

theorem pending_fullWrite {be : BitVec 4} {k : State → State} (h : (k s).pending = s.pending) :
    (s.fullWrite be k).pending = s.pending := by
  unfold State.fullWrite
  split
  · exact h
  · rfl

theorem pending_writeDoneHead (s : State) (v : Word) : (s.writeDoneHead v).pending = s.pending := by
  obtain ⟨r, p, g, e⟩ := writeDoneHead_frame s v
  rw [e]

theorem pending_writeJobTail (s : State) (v : Word) : (s.writeJobTail v).pending = s.pending := by
  unfold State.writeJobTail; split <;> rfl

theorem pending_writeNotify (s : State) (v : Word) : (s.writeNotify v).pending = s.pending := by
  unfold State.writeNotify; split <;> rfl

/-- A write of CONTROL without SOFT_RESET touches the registers by CLEAR_MISUSE only. -/
theorem writeControl_frame (s : State) (v : Word) (hv : v.getLsbD 2 = false) :
    ∃ u, Frame s u ∧ s.writeControl v = if v.getLsbD 3 then u.clearMisuse else u := by
  refine ⟨_, ?_, by unfold State.writeControl; rw [hv, if_neg Bool.false_ne_true]⟩
  exact .ite
    (Frame.trans (.ite (frame_enable s) .rfl') (frame_quiesce _))
    (Frame.trans (.ite (frame_enable s) .rfl') (frame_quiesceRelease _))

theorem pending_writeControl (s : State) (v : Word) : (s.writeControl v).pending = s.pending := by
  cases hv : v.getLsbD 2 with
  | true =>
    unfold State.writeControl
    rw [hv, if_pos rfl]
    exact (frame_softReset s).pending
  | false =>
    obtain ⟨u, hu, e⟩ := writeControl_frame s v hv
    rw [e]
    split <;> exact hu.pending

theorem pending_writeAt (s : State) (o : BitVec 5) (v : Word) : (s.writeAt o v).pending = s.pending := by
  unfold State.writeAt
  split; · exact pending_writeControl s v
  split; · rfl
  split; · rfl
  split; · exact pending_writeJobTail s v
  split; · rfl
  split; · exact pending_writeDoneHead s v
  split; · exact pending_writeNotify s v
  rfl

/-- Every command but the resets answers by `State.answer` and leaves the queue (log entry 31). -/
theorem exec_answer (s : State) (c : Instr) (hr : resetCmd c = false) :
    ∃ u, exec c s = s.answer u ∧ u.pending = s.pending := by
  cases hc : regsCmd c with
  | false =>
    obtain ⟨u, e, f⟩ := exec_frame s c hr hc
    exact ⟨u, e, f.pending⟩
  | true =>
    cases c <;> first | (exact absurd hc Bool.noConfusion) | skip
    all_goals refine ⟨_, rfl, ?_⟩
    case clearMisuse => rfl
    case jobHeadWrite => rfl
    case setupLoWrite => exact pending_fullWrite rfl
    case setupHiWrite => exact pending_fullWrite rfl
    case jobTailWrite => exact pending_fullWrite (pending_writeJobTail s _)
    case doneHeadWrite => exact pending_fullWrite (pending_writeDoneHead s _)
    case notifyWrite => exact pending_fullWrite (pending_writeNotify s _)
    case registerWrite => exact pending_fullWrite (pending_writeAt s _ _)
    case drainEnd => split <;> rfl

/-- Every command answers a next state and leaves the queue. -/
theorem exec_next (s : State) (c : Instr) : ∃ t, exec c s = .next t ∧ t.pending = s.pending := by
  cases hr : resetCmd c with
  | false =>
    obtain ⟨u, e, hp⟩ := exec_answer s c hr
    rw [e]
    refine ⟨_, rfl, ?_⟩
    split
    · rfl
    · exact (frame_takeFreed s u).pending.trans hp
  | true =>
    cases c <;> first | (exact absurd hr Bool.noConfusion) | exact ⟨_, rfl, rfl⟩

/-- Settles O1: a step is a tick or its front command by definition; that the command answers and keeps the queue is
`exec_next`. -/
theorem stepRunsFrontCommand : Obligations.StepRunsFrontCommand := by
  refine ⟨fun s c rest h => by rw [step, h], fun s h => ⟨_, by unfold step; split <;> [rfl; (rename_i e; rw [h] at e; cases e)], rfl⟩, exec_next⟩

/-! ## QUIESCED, and the fields of CONTROL (R159, R160) -/

theorem mem_allSlots (i : SlotId) : i ∈ Config.allSlots := by
  unfold Config.allSlots; fin_cases i <;> simp

/-- The part is QUIESCING and empty (R160). -/
theorem isQuiet_iff (s : State) : s.isQuiet = true ↔ s.part.state = .quiescing ∧ (∀ i, s.work.slot i = none)
    ∧ s.work.queue = [] ∧ s.work.reserved = 0 ∧ s.intake.reading = false := by
  simp [State.isQuiet, mem_allSlots, and_assoc]

theorem tryQuiesced_quiet (h : s.isQuiet = true) : s.tryQuiesced = { s with part := { s.part with state := .quiesced } } :=
  if_pos h

theorem tryQuiesced_busy (h : ¬ s.isQuiet = true) : s.tryQuiesced = s := if_neg h

/-- An event that leaves every slot answers its effect. -/
theorem answer_slot (aw : s.Awake) (h : u.work = s.work := by rfl) : s.answer u = .next u.refreshIrq :=
  answer_slots aw (by rw [h])

/-- Settles O4: each field's operation is its own definition, QUIESCE with the conditions of QUIESCED (`isQuiet_iff`). -/
theorem controlFieldWrites : Obligations.ControlFieldWrites := by
  intro s aw
  have quiesce : ∀ u, exec .quiesce s = s.answer s.quiesce ∧ (s.quiesce = u → u.work = s.work →
      exec .quiesce s = .next u.refreshIrq) := fun u => ⟨rfl, fun h w => by
    rw [← h] at w ⊢; exact answer_slot aw w⟩
  refine ⟨?_, fun hs empty he => ⟨fun h => ?_, fun h => ?_⟩, fun hs => ?_, ?_, answer_slot aw⟩
  · refine answer_slot aw ?_
    unfold State.enable
    split <;> rfl
  · refine (quiesce _).2 ?_ rfl
    rw [State.quiesce, if_pos hs]
    exact tryQuiesced_quiet ((isQuiet_iff _).mpr ⟨rfl, he.mp h⟩)
  · refine (quiesce _).2 ?_ rfl
    rw [State.quiesce, if_pos hs]
    exact tryQuiesced_busy (fun q => h (he.mpr ((isQuiet_iff _).mp q).2))
  · refine (quiesce _).2 ?_ rfl
    rw [State.quiesce, if_neg hs]
  · refine answer_slot aw ?_
    unfold State.quiesceRelease
    split <;> rfl

/-! ## Resets (R163) -/

theorem status_reset (s : State) (cause : ResetCause) (low : Bool) :
    (s.resetAll cause low).readRegister 0x04#5 = BitVec.ofNat 32 (256 * causeCode cause) := by
  have mask : Work.reset.faultMask = 0 := faultMask_eq_zero (fun n => by rw [lane_workReset]; decide)
  have e : (s.resetAll cause low).status = BitVec.ofNat 32 (0 + 16 * 0 + 256 * causeCode cause + 0
      + 65536 * Work.reset.faultMask.toNat) := rfl
  show (s.resetAll cause low).status = _
  rw [e, mask]
  simp

/-- The part after a reset but for its cause and the level of RESET_N. -/
theorem resetAll_holds (s : State) (cause : ResetCause) (low : Bool) (t : State) (ht : t = s.resetAll cause low) :
    t.readRegister 0x00#5 = 0 ∧ t.readRegister 0x08#5 = 0 ∧ t.readRegister 0x0C#5 = 0 ∧ t.readRegister 0x10#5 = 0
      ∧ t.readRegister 0x14#5 = 0 ∧ t.readRegister 0x18#5 = 0 ∧ t.readRegister 0x1C#5 = 0x00000100#32
      ∧ t.port = none ∧ t.posting = none ∧ t.irqHigh = true
      ∧ t.rings.geom = none ∧ t.rings.writeIdx = 0 ∧ t.rings.marker = true ∧ t.rings.postCount = 0
      ∧ t.rings.unreleased = 0 ∧ t.rings.postTimes = []
      ∧ t.intake.counter = 0 ∧ t.intake.held = none ∧ t.intake.reading = false
      ∧ (∀ i, t.work.slot i = none) ∧ t.work.grantList = [] ∧ (∀ n, t.work.ownerOf n = none)
      ∧ (∀ x, (t.work.ctx x).state = .free) ∧ (∀ b, (t.work.buf b).state = .free)
      ∧ t.work.queue = [] ∧ t.work.reserved = 0 := by
  subst ht
  have work : (s.resetAll cause low).work = Work.reset := rfl
  refine ⟨rfl, rfl, rfl, rfl, rfl, rfl, rfl, rfl, rfl, rfl, rfl, rfl, rfl, rfl, rfl, rfl, rfl, rfl, rfl, ?_⟩
  rw [work]
  refine ⟨fun i => ?_, rfl, fun n => ?_, fun x => ?_, fun b => ?_, rfl, rfl⟩
  · simp [Work.slot, Work.reset, Vector.get_eq_getElem]
  · simp [Work.ownerOf, Work.reset, Vector.get_eq_getElem]
  · simp [Work.ctx, Work.reset, Vector.get_eq_getElem, ImageCtx.free]
  · simp [Work.buf, Work.reset, Vector.get_eq_getElem, PageBuf.free]

/-- Settles O3: a reset answers `State.resetAll`, whose fields are read off; while RESET_N is low every other command answers
the state as it stands. -/
theorem resetsAndTheResetPin : Obligations.ResetsAndTheResetPin := by
  refine ⟨fun s c hc => ?_, fun s c low h1 h2 h3 => ?_, fun _ => rfl⟩
  · rcases hc with rfl | rfl
    · exact ⟨_, rfl, rfl, rfl, rfl, fun _ => ⟨rfl, status_reset s _ _⟩, fun h => by simp at h, resetAll_holds s _ _ _ rfl⟩
    · exact ⟨_, rfl, rfl, rfl, rfl, fun h => by simp at h, fun _ => ⟨rfl, rfl, status_reset s _ _⟩,
        resetAll_holds s _ _ _ rfl⟩
  · have hr : resetCmd c = false := by
      cases c <;> first | rfl | contradiction
    obtain ⟨u, e, -⟩ := exec_answer s c hr
    rw [e, State.answer, if_pos low]

/-- Settles O60: the reset state is the state in which the invariants of `Work` and of the rings begin. -/
theorem resetMeetsEveryInvariant : Obligations.ResetMeetsEveryInvariant :=
  ⟨rfl, settingsSound_inv.reset, lanesSound_inv.reset,
    ⟨queueSound_free _ rfl rfl rfl, by simp [State.reset, Intake.reset], by simp [State.reset, Intake.reset],
      by simp [State.reset]⟩,
    ⟨by simp [State.reset, PartCtl.reset, PartState.posts], fun _ => rfl, rfl, rfl, rfl, rfl, rfl, rfl⟩, fun h => absurd rfl h,
    (ofWork_iff (P := fun d w => w.TablesSound d) (s := State.reset) (by decide)).mpr tablesSound_inv.reset,
    poolSound_inv.reset⟩

end Sys2Proof.Proofs
end

section
/-! The register port: which writes are taken and which set MISUSE, what STATUS and the other registers read, when IRQ_N is low,
and the soft reset (O5 to O8, O19). -/

namespace Sys2Proof.Proofs

-- One theorem at a time: a thread for each would ask for more stack than the check allows.
set_option Elab.async false

open Sys2Proof.Machine Sys2Proof.Laws

variable {s t u : State}

/-! ## Writes that are taken, and writes that are misuse (R149, R155 to R157, R168) -/

theorem fullWrite_full (k : State → State) : s.fullWrite 0xF#4 k = k s := if_pos rfl

theorem fullWrite_part {be : BitVec 4} (h : be ≠ 0xF#4) (k : State → State) : s.fullWrite be k = s.setMisuse := if_neg h

/-- A ring index write is not taken (R149, R155): no geometry, a part state without rings, or a value `bad` for the geometry. -/
def ringIgnored (s : State) (bad : Geometry → Prop) : Prop :=
  s.rings.geom = none ∨ s.part.state ∈ [.disabled, .loading, .draining] ∨ ∃ g, s.rings.geom = some g ∧ bad g

theorem ringWrites_iff : s.ringWrites = true ↔
    s.rings.geom.isSome = true ∧ s.part.state ∈ [.running, .quiescing, .quiesced, .halted] := by
  simp [State.ringWrites, or_assoc]

/-- With a geometry latched, a part state has the rings or is one of the three without. -/
theorem ringWrites_of_not_mem {g : Geometry} (hg : s.rings.geom = some g) :
    s.ringWrites = true ↔ s.part.state ∉ [.disabled, .loading, .draining] := by
  rw [ringWrites_iff, hg]
  cases s.part.state <;> simp

theorem jobTail_taken_iff (v : Word) : (s.ringWrites = true ∧ v.toNat < s.rings.jobSize) ↔
    ¬ ringIgnored s (fun g => 2 ^ g.jobCode ≤ v.toNat) := by
  unfold ringIgnored
  cases hg : s.rings.geom with
  | none => simp [State.ringWrites, hg]
  | some g => simp [ringWrites_of_not_mem hg, Rings.jobSize, hg, Geometry.jobSize]

theorem doneHead_taken_iff (v : Word) : (s.ringWrites = true ∧ v.toNat < s.rings.doneSize
      ∧ s.rings.releases v.toNat ≤ s.rings.unreleased) ↔
    ¬ ringIgnored s (fun g => 2 ^ g.doneCode ≤ v.toNat ∨ s.rings.unreleased < s.rings.releases v.toNat) := by
  unfold ringIgnored
  cases hg : s.rings.geom with
  | none => simp [State.ringWrites, hg]
  | some g => simp [ringWrites_of_not_mem hg, Rings.doneSize, hg, Geometry.doneSize]

theorem writeJobTail_ignored {v : Word} (h : ringIgnored s (fun g => 2 ^ g.jobCode ≤ v.toNat)) :
    s.writeJobTail v = s.setMisuse := by
  rw [State.writeJobTail, if_neg (fun q => (jobTail_taken_iff v).mp q h)]

theorem writeJobTail_taken {v : Word} (h : ¬ ringIgnored s (fun g => 2 ^ g.jobCode ≤ v.toNat)) :
    s.writeJobTail v = { s with
      rings := { s.rings with jobTail := v.toNat }
      intake := if v.toNat = s.rings.jobHead then { s.intake with held := none } else s.intake } := by
  rw [State.writeJobTail, if_pos ((jobTail_taken_iff v).mpr h)]

theorem writeDoneHead_ignored {v : Word}
    (h : ringIgnored s (fun g => 2 ^ g.doneCode ≤ v.toNat ∨ s.rings.unreleased < s.rings.releases v.toNat)) :
    s.writeDoneHead v = s.setMisuse := by
  rw [State.writeDoneHead, if_neg (fun q => (doneHead_taken_iff v).mp q h)]

/-- DONE_HEAD and the post times as a write that is taken leaves them (R155). -/
def releasedTo (s : State) (v : Word) : State :=
  { s with rings := { s.rings with doneHead := v.toNat, postTimes := s.rings.postTimes.drop (s.rings.releases v.toNat) } }

theorem writeDoneHead_taken {v : Word}
    (h : ¬ ringIgnored s (fun g => 2 ^ g.doneCode ≤ v.toNat ∨ s.rings.unreleased < s.rings.releases v.toNat)) :
    s.writeDoneHead v = if s.rings.hasRoom then releasedTo s v else (releasedTo s v).postBegin := by
  rw [State.writeDoneHead]
  exact if_pos ((doneHead_taken_iff v).mpr h)

theorem notify_threshold (v : Word) : v.extractLsb' 8 8 = 0 ↔ v.toNat / 256 % 256 = 0 := by
  rw [← BitVec.toNat_inj]
  simp [BitVec.extractLsb'_toNat, Nat.shiftRight_eq_div_pow]

theorem writeNotify_ignored {v : Word} (h : v.toNat / 256 % 256 = 0) : s.writeNotify v = s.setMisuse :=
  if_pos ((notify_threshold v).mpr h)

theorem writeNotify_taken {v : Word} (h : v.toNat / 256 % 256 ≠ 0) : s.writeNotify v =
    { s with regs := { s.regs with notifyEnable := v.getLsbD 0, threshold := v.extractLsb' 8 8,
                                   holdCode := v.extractLsb' 16 2 } } :=
  if_neg (fun q => h ((notify_threshold v).mp q))

/-! ## Writes by offset (R168) -/

theorem writeAt_control (s : State) (v : Word) : s.writeAt 0x00#5 v = s.writeControl v := rfl
theorem writeAt_jobTail (s : State) (v : Word) : s.writeAt 0x10#5 v = s.writeJobTail v := rfl
theorem writeAt_jobHead (s : State) (v : Word) : s.writeAt 0x14#5 v = s.setMisuse := rfl
theorem writeAt_doneHead (s : State) (v : Word) : s.writeAt 0x18#5 v = s.writeDoneHead v := rfl
theorem writeAt_notify (s : State) (v : Word) : s.writeAt 0x1C#5 v = s.writeNotify v := rfl

/-- STATUS, and an offset that names no register, ignore a write. -/
theorem writeAt_other {o : BitVec 5} (v : Word)
    (h : o ∉ [0x00#5, 0x08#5, 0x0C#5, 0x10#5, 0x14#5, 0x18#5, 0x1C#5]) : s.writeAt o v = s := by
  simp only [List.mem_cons, List.not_mem_nil, or_false, not_or] at h
  obtain ⟨h0, h1, h2, h3, h4, h5, h6⟩ := h
  simp [State.writeAt, Config.offControl, Config.offSetupLo, Config.offSetupHi, Config.offJobTail, Config.offJobHead,
    Config.offDoneHead, Config.offNotify, *]

/-! ## Ring writes and register writes leave the slots -/

theorem work_writeJobTail (s : State) (v : Word) : (s.writeJobTail v).work = s.work := by
  unfold State.writeJobTail; split <;> rfl

theorem work_writeDoneHead (s : State) (v : Word) : (s.writeDoneHead v).work = s.work := by
  obtain ⟨r, p, g, e⟩ := writeDoneHead_frame s v
  rw [e]

theorem work_writeNotify (s : State) (v : Word) : (s.writeNotify v).work = s.work := by
  unfold State.writeNotify; split <;> rfl

/-! ## MISUSE (R157) -/

/-- An ignored write sets MISUSE and does nothing else. -/
theorem exec_misuse (aw : s.Awake) {c : Instr} (h : s.misuses c) : exec c s = .next s.setMisuse.refreshIrq := by
  have done : ∀ u, u = s.setMisuse → s.answer u = .next s.setMisuse.refreshIrq := fun u e => by rw [e]; exact answer_slot aw
  cases c <;> first | exact h.elim | skip
  case setupLoWrite be v => exact done _ (fullWrite_part h _)
  case setupHiWrite be v => exact done _ (fullWrite_part h _)
  case jobHeadWrite be v => exact done _ rfl
  all_goals rename_i be v
  case notifyWrite =>
    refine done _ ?_
    by_cases hb : be = 0xF#4
    · rw [hb, fullWrite_full]; exact writeNotify_ignored (h.resolve_left (fun q => q hb))
    · exact fullWrite_part hb _
  case jobTailWrite =>
    refine done _ ?_
    by_cases hb : be = 0xF#4
    · rw [hb, fullWrite_full]; exact writeJobTail_ignored (h.resolve_left (fun q => q hb))
    · exact fullWrite_part hb _
  case doneHeadWrite =>
    refine done _ ?_
    by_cases hb : be = 0xF#4
    · rw [hb, fullWrite_full]; exact writeDoneHead_ignored (h.resolve_left (fun q => q hb))
    · exact fullWrite_part hb _
  case registerWrite o =>
    refine done _ ?_
    by_cases hb : be = 0xF#4
    · rw [hb, fullWrite_full]
      rcases h.resolve_left (fun q => q hb) with rfl | ⟨rfl, q⟩ | ⟨rfl, q⟩ | ⟨rfl, q⟩
      · exact writeAt_jobHead s v
      · exact (writeAt_notify s v).trans (writeNotify_ignored q)
      · exact (writeAt_jobTail s v).trans (writeJobTail_ignored q)
      · exact (writeAt_doneHead s v).trans (writeDoneHead_ignored q)
    · exact fullWrite_part hb _

theorem misuse_writeJobTail {v : Word} (h : ¬ ringIgnored s (fun g => 2 ^ g.jobCode ≤ v.toNat)) :
    (s.writeJobTail v).regs.misuse = s.regs.misuse := by
  rw [writeJobTail_taken h]

theorem misuse_writeDoneHead {v : Word}
    (h : ¬ ringIgnored s (fun g => 2 ^ g.doneCode ≤ v.toNat ∨ s.rings.unreleased < s.rings.releases v.toNat)) :
    (s.writeDoneHead v).regs.misuse = s.regs.misuse := by
  rw [writeDoneHead_taken h]
  split
  · rfl
  · rw [(frame_postBegin _).regs]; rfl

theorem misuse_writeNotify {v : Word} (h : v.toNat / 256 % 256 ≠ 0) : (s.writeNotify v).regs.misuse = s.regs.misuse := by
  rw [writeNotify_taken h]

/-- A write of CONTROL that does not clear MISUSE leaves it. -/
theorem misuse_writeControl {v : Word} (h : ¬ (v.getLsbD 3 = true ∧ v.getLsbD 2 = false)) :
    (s.writeControl v).regs.misuse = s.regs.misuse := by
  cases hv : v.getLsbD 2 with
  | true => rw [State.writeControl, hv, if_pos rfl, (frame_softReset s).regs]
  | false =>
    obtain ⟨u, hu, e⟩ := writeControl_frame s v hv
    rw [e, if_neg (fun q => h ⟨q, hv⟩), hu.regs]

theorem misuse_writeAt {o : BitVec 5} {v : Word} (h : ¬ s.misuses (.registerWrite o 0xF#4 v))
    (k : ¬ s.clearsMisuse (.registerWrite o 0xF#4 v)) : (s.writeAt o v).regs.misuse = s.regs.misuse := by
  unfold State.writeAt
  split
  next e => exact misuse_writeControl (fun q => k ⟨e, rfl, q⟩)
  split; · rfl
  split; · rfl
  split
  next e => exact misuse_writeJobTail (fun q => h (.inr (.inr (.inr (.inl ⟨e, q⟩)))))
  split
  next e => exact absurd (.inr (.inl e)) h
  split
  next e => exact misuse_writeDoneHead (fun q => h (.inr (.inr (.inr (.inr ⟨e, q⟩)))))
  split
  next e => exact misuse_writeNotify (fun q => h (.inr (.inr (.inl ⟨e, q⟩))))
  · rfl

/-- What the answer leaves of MISUSE is what the effect leaves. -/
theorem answer_misuse (aw : s.Awake) {b : Bool} (h : u.regs.misuse = b) : ∃ t, s.answer u = .next t ∧ t.regs.misuse = b :=
  ⟨_, answer_awake aw u, by rw [refreshIrq_regs, (frame_takeFreed s u).regs, h]⟩

/-- The commands of R157 clear MISUSE. -/
theorem exec_clearsMisuse {c : Instr} (aw : s.Awake ∨ c = .powerOnReset ∨ c = .pinReset) (h : s.clearsMisuse c) :
    ∃ t, exec c s = .next t ∧ t.regs.misuse = false := by
  cases c <;> first | exact h.elim | skip
  case powerOnReset => exact ⟨_, rfl, rfl⟩
  case pinReset => exact ⟨_, rfl, rfl⟩
  all_goals replace aw : s.Awake := by simpa using aw
  case clearMisuse => exact answer_misuse aw rfl
  case drainEnd => exact answer_misuse aw (by rw [if_pos (show s.drainOver = true from h)]; rfl)
  case registerWrite o be v =>
    obtain ⟨rfl, rfl, h3, h2⟩ := h
    refine answer_misuse aw ?_
    obtain ⟨u, -, e⟩ := writeControl_frame s v h2
    rw [fullWrite_full, writeAt_control, e, if_pos h3]
    rfl

/-- Every other command leaves MISUSE. -/
theorem exec_keepsMisuse {c : Instr} (aw : s.Awake) (h : ¬ s.misuses c) (k : ¬ s.clearsMisuse c) :
    ∃ t, exec c s = .next t ∧ t.regs.misuse = s.regs.misuse := by
  cases hc : regsCmd c with
  | false =>
    cases hr : resetCmd c with
    | false =>
      obtain ⟨u, e, f⟩ := exec_frame s c hr hc
      rw [e]
      exact answer_misuse aw (by rw [f.regs])
    | true =>
      cases c <;> first | (exact absurd hr Bool.noConfusion) | skip
      case resetNRelease => exact ⟨_, rfl, rfl⟩
      all_goals exact absurd trivial k
  | true =>
    have full : ∀ {be : BitVec 4} {f : State → State}, be = 0xF#4 → (f s).regs.misuse = s.regs.misuse →
        ∃ t, s.answer (s.fullWrite be f) = .next t ∧ t.regs.misuse = s.regs.misuse := by
      intro be f hb e
      rw [hb, fullWrite_full]
      exact answer_misuse aw e
    cases c <;> first | (exact absurd hc Bool.noConfusion) | skip
    case clearMisuse => exact absurd trivial k
    case jobHeadWrite => exact absurd trivial h
    case drainEnd => exact answer_misuse aw (by rw [if_neg (show ¬ s.drainOver = true from k)])
    case setupLoWrite be v => exact full (not_not.mp h) rfl
    case setupHiWrite be v => exact full (not_not.mp h) rfl
    case notifyWrite be v => exact full (not_not.mp (not_or.mp h).1) (misuse_writeNotify (not_or.mp h).2)
    case jobTailWrite be v => exact full (not_not.mp (not_or.mp h).1) (misuse_writeJobTail (not_or.mp h).2)
    case doneHeadWrite be v => exact full (not_not.mp (not_or.mp h).1) (misuse_writeDoneHead (not_or.mp h).2)
    case registerWrite o be v =>
      obtain rfl : be = 0xF#4 := not_not.mp (not_or.mp h).1
      exact full rfl (misuse_writeAt h k)

/-! ## STATUS as it reads (R40, R159) -/

/-- The fold that collects lanes into a mask. -/
theorem hasLane_foldl_addLane (p : LaneId → Bool) (ns : List LaneId) (a : LaneMask) (n : LaneId) :
    hasLane (ns.foldl (fun m k => if p k then addLane m k else m) a) n = (hasLane a n || (decide (n ∈ ns) && p n)) := by
  induction ns generalizing a with
  | nil => simp
  | cons k ks ih =>
    rw [List.foldl_cons, ih]
    by_cases e : n = k
    · subst e
      cases hp : p n <;> simp [hasLane_addLane]
    · split <;> simp [hasLane_addLane, e]

theorem mem_allLanes (n : LaneId) : n ∈ Config.allLanes := by
  unfold Config.allLanes; fin_cases n <;> simp

theorem hasLane_faultMask (w : Work) (n : LaneId) : hasLane w.faultMask n = decide ((w.lane n).ctx.state = .fault) := by
  have h := hasLane_foldl_addLane (fun k => decide ((w.lane k).ctx.state = .fault)) Config.allLanes 0 n
  refine Eq.trans (by simp [Work.faultMask]) (h.trans ?_)
  simp [mem_allLanes, hasLane]

theorem codes_lt (a : PartState) (b : FatalCode) (c : ResetCause) :
    partStateCode a < 16 ∧ fatalCode b < 16 ∧ causeCode c < 16 := by
  cases a <;> cases b <;> cases c <;> decide

theorem bitByte_eq (flag : Bool) (bit : Nat) : bitByte flag bit = flag.toNat * 2 ^ bit := by
  cases flag <;> simp [bitByte]

theorem status_toNat (s : State) : s.status.toNat = partStateCode s.part.state + 16 * fatalCode s.part.fatal
    + 256 * causeCode s.part.cause + 4096 * s.regs.misuse.toNat + 65536 * s.work.faultMask.toNat := by
  obtain ⟨h1, h2, h3⟩ := codes_lt s.part.state s.part.fatal s.part.cause
  have := s.work.faultMask.isLt
  have := Bool.toNat_le s.regs.misuse
  rw [State.status, BitVec.toNat_ofNat, bitByte_eq]
  omega

theorem getLsbD_eq_decide {w : Nat} (v : BitVec w) (i : Nat) : v.getLsbD i = decide (v.toNat / 2 ^ i % 2 = 1) := by
  rw [BitVec.getLsbD, Nat.testBit_eq_decide_div_mod_eq]

theorem status_misuse (s : State) : (s.readRegister 0x04#5).getLsbD 12 = s.regs.misuse := by
  show s.status.getLsbD 12 = _
  obtain ⟨h1, h2, h3⟩ := codes_lt s.part.state s.part.fatal s.part.cause
  rw [getLsbD_eq_decide, status_toNat]
  cases s.regs.misuse <;> simp <;> omega

theorem status_fault (s : State) (n : LaneId) :
    (s.readRegister 0x04#5).getLsbD (16 + n.val) = decide ((s.work.lane n).ctx.state = .fault) := by
  show s.status.getLsbD (16 + n.val) = _
  obtain ⟨h1, h2, h3⟩ := codes_lt s.part.state s.part.fatal s.part.cause
  have := Bool.toNat_le s.regs.misuse
  have mask : s.status.toNat / 65536 = s.work.faultMask.toNat := by rw [status_toNat]; omega
  rw [← hasLane_faultMask, hasLane, getLsbD_eq_decide, getLsbD_eq_decide, pow_add, ← Nat.div_div_eq_div_mul,
    show 2 ^ 16 = 65536 by rfl, mask]

/-- Settles O8: an ignored write is `State.setMisuse`, the commands of R157 clear the flag, every other one leaves it, and STATUS
shows it. -/
theorem misuseFlag : Obligations.MisuseFlag := by
  intro s c
  refine ⟨fun aw h => exec_misuse aw h, exec_clearsMisuse, ?_, ?_⟩
  · rintro (⟨aw, h, k⟩ | ⟨low, h1, h2⟩)
    · exact exec_keepsMisuse aw h k
    · cases hr : resetCmd c with
      | false =>
        obtain ⟨u, e, -⟩ := exec_answer s c hr
        exact ⟨s, by rw [e, State.answer, if_pos (by simpa [State.Awake] using low)], rfl⟩
      | true =>
        cases c <;> first | (exact absurd hr Bool.noConfusion) | contradiction | exact ⟨_, rfl, rfl⟩
  · obtain ⟨t, e, -⟩ := exec_next s c
    exact ⟨t, e, status_misuse t⟩

/-! ## IRQ_N (R156) -/

theorem holdInterval_iff (code : BitVec 2) (us : Nat) :
    holdInterval code = some us ↔ (code, us) ∈ [(1#2, 50), (2#2, 200), (3#2, 1000)] := by
  have codes : ∀ c : BitVec 2, c = 0 ∨ c = 1 ∨ c = 2 ∨ c = 3 := by decide
  rcases codes code with rfl | rfl | rfl | rfl <;> simp [holdInterval, eq_comm]

theorem holdRule_iff (s : State) : s.holdRule = true ↔ ∃ us oldest, (s.regs.holdCode, us) ∈ [(1#2, 50), (2#2, 200), (3#2, 1000)]
    ∧ s.rings.postTimes.head? = some oldest ∧ 1 ≤ s.rings.unreleased ∧ us < s.clock / 48 - oldest := by
  simp only [← holdInterval_iff]
  unfold State.holdRule
  split
  next us oldest h1 h2 =>
    simp only [h1, h2, State.timebase, Bool.and_eq_true, decide_eq_true_eq, Option.some.injEq]
    refine ⟨fun h => ⟨us, oldest, rfl, rfl, h.1, of_decide_eq_true h.2⟩, ?_⟩
    rintro ⟨_, _, rfl, rfl, one, late⟩
    exact ⟨one, decide_eq_true late⟩
  next h =>
    simp only [Bool.false_eq_true, false_iff, not_exists]
    rintro us oldest ⟨h1, h2, -⟩
    exact h us oldest h1 h2

/-- The condition under which IRQ_N is low, in the words of R156. -/
theorem irqCondition_iff (s : State) : s.irqCondition = true ↔ s.part.state = .halted
    ∨ (s.regs.notifyEnable = true
      ∧ (s.regs.threshold.toNat ≤ s.rings.unreleased
        ∨ ∃ us oldest, (s.regs.holdCode, us) ∈ [(1#2, 50), (2#2, 200), (3#2, 1000)]
            ∧ s.rings.postTimes.head? = some oldest ∧ 1 ≤ s.rings.unreleased ∧ us < s.clock / 48 - oldest)) := by
  rw [← holdRule_iff]
  simp [State.irqCondition]

theorem irqFollows_exec (aw : s.Awake) {c : Instr} (hc : c ≠ .resetNRelease) (h : exec c s = .next t) : t.IrqFollows := by
  cases hr : resetCmd c with
  | false =>
    obtain ⟨u, e, -⟩ := exec_answer s c hr
    rw [e, answer_awake aw] at h
    cases h
    rfl
  | true =>
    cases c <;> first | (exact absurd hr Bool.noConfusion) | contradiction | (cases h; rfl)

/-- Settles O19: every answer refreshes IRQ_N, and its condition is that of R156. -/
theorem irqLineFollowsItsConditions : Obligations.IrqLineFollowsItsConditions := by
  refine ⟨fun s t c aw hc h => ?_, fun s oldest us aw hus ho => ?_⟩
  · have e : t.irqHigh = !t.irqCondition := irqFollows_exec aw hc h
    rw [← irqCondition_iff, e]
    simp
  · have run : s.holdExpired = { s with clock := max s.clock ((oldest + us + 1) * 48) } := by
      rw [State.holdExpired, (holdInterval_iff _ _).mpr hus, ho]
      rfl
    have passed : us < (max s.clock ((oldest + us + 1) * 48)) / 48 - oldest := by omega
    refine ⟨s.holdExpired.refreshIrq, answer_slot aw (by rw [run]), ?_⟩
    rw [run]
    refine ⟨passed, le_max_left _ _, rfl, fun hn hu => ?_⟩
    have low : State.irqCondition { s with clock := max s.clock ((oldest + us + 1) * 48) } = true :=
      (irqCondition_iff _).mpr (.inr ⟨hn, .inr ⟨us, oldest, hus, ho, hu, passed⟩⟩)
    rw [refreshIrq_irqHigh, low]
    rfl

end Sys2Proof.Proofs
end

section
/-! The ring indexes, the register window as it is written and read, and the soft reset (O5, O6, O7). -/

namespace Sys2Proof.Proofs

-- One theorem at a time: a thread for each would ask for more stack than the check allows.
set_option Elab.async false

open Sys2Proof.Machine Sys2Proof.Laws

variable {s t u : State}

/-! ## Posting begins (R153) -/

theorem postBegin_begins {e : Entry} {es : List Entry} (hp : s.posting = none) (hq : s.work.queue = e :: es)
    (hs : s.part.state.posts = true) (hr : s.rings.hasRoom = true) :
    s.postBegin = { s with posting := some e.firstPosting } := by
  unfold State.postBegin
  rw [hp, hq]
  exact if_pos ⟨hs, hr⟩

theorem postBegin_waits (h : s.posting.isSome = true ∨ s.work.queue = [] ∨ s.part.state.posts = false ∨ s.rings.hasRoom = false) :
    s.postBegin = s := by
  unfold State.postBegin
  split
  next e es hp hq =>
    rw [if_neg]
    rintro ⟨hs, hr⟩
    simp [hp, hq, hs, hr] at h
  · rfl

theorem hasRoom_iff {g : Geometry} {r : Rings} (hg : r.geom = some g) :
    r.hasRoom = true ↔ r.unreleased < 2 ^ g.doneCode - 1 := by
  simp [Rings.hasRoom, Rings.doneSize, hg, Geometry.doneSize]
  omega

theorem posts_iff (p : PartState) : p.posts = true ↔ p ∈ [.running, .quiescing, .quiesced] := by
  cases p <;> decide

/-! ## Ring indexes (R149, R155) -/

theorem subMod_eq {a b m : Nat} (h : b < m) : subMod a b m = (a + m - b) % m := by
  rw [subMod, Nat.mod_eq_of_lt h, Nat.add_sub_assoc h.le]

theorem not_ringIgnored {g : Geometry} {bad : Geometry → Prop} (hg : s.rings.geom = some g)
    (hs : s.part.state ∈ [.running, .quiescing, .quiesced, .halted]) (hb : ¬ bad g) : ¬ ringIgnored s bad := by
  have hs := (ringWrites_of_not_mem hg).mp (ringWrites_iff.mpr ⟨by rw [hg]; rfl, hs⟩)
  rintro (h | h | ⟨g', h, hb'⟩)
  · rw [hg] at h; cases h
  · exact hs h
  · rw [hg] at h; cases h; exact hb hb'

section
variable {v : Word} {g : Geometry}

/-- The part after a DONE_HEAD write that is taken: released, and posting if that waited for room (R155). -/
theorem exec_doneHead_taken (aw : s.Awake)
    (h : ¬ ringIgnored s (fun g => 2 ^ g.doneCode ≤ v.toNat ∨ s.rings.unreleased < s.rings.releases v.toNat)) :
    ∃ p, exec (.doneHeadWrite 0xF#4 v) s = .next (State.refreshIrq { releasedTo s v with posting := p })
      ∧ p = if s.rings.hasRoom then s.posting else (releasedTo s v).postBegin.posting := by
  refine ⟨_, ?_, rfl⟩
  show s.answer (s.fullWrite 0xF#4 (fun s => s.writeDoneHead v)) = _
  rw [fullWrite_full, writeDoneHead_taken h]
  obtain ⟨p, e⟩ := postBegin_frame (releasedTo s v)
  split
  · exact answer_slot aw
  · rw [e]; exact answer_slot aw

theorem doneHead_taken (aw : s.Awake) (hg : s.rings.geom = some g) (hd : s.rings.doneHead < 2 ^ g.doneCode)
    (hw : s.rings.writeIdx < 2 ^ g.doneCode) (hs : s.part.state ∈ [.running, .quiescing, .quiesced, .halted])
    (hv : v.toNat < 2 ^ g.doneCode) {released unreleased : Nat} (hr : released = s.rings.releases v.toNat)
    (hu : unreleased = s.rings.unreleased) (le : released ≤ unreleased) :
    ∃ t, exec (.doneHeadWrite 0xF#4 v) s = .next t
      ∧ t = State.refreshIrq
          { s with rings := { s.rings with doneHead := v.toNat, postTimes := s.rings.postTimes.drop released }
                   posting := t.posting }
      ∧ t.rings.unreleased = unreleased - released
      ∧ (∀ e es, unreleased = 2 ^ g.doneCode - 1 → 0 < released → s.posting = none → s.work.queue = e :: es →
          s.part.state ≠ .halted →
          t.posting = some (if e.reportAddr ≠ 0 ∧ e.lanes ≠ [] then .report 0 else .completion))
      ∧ (unreleased < 2 ^ g.doneCode - 1 ∨ released = 0 ∨ s.posting.isSome = true ∨ s.work.queue = []
          ∨ s.part.state = .halted → t.posting = s.posting) := by
  subst hr hu
  obtain ⟨p, hp, hpost⟩ := exec_doneHead_taken aw (not_ringIgnored hg hs
    (bad := fun g => 2 ^ g.doneCode ≤ v.toNat ∨ s.rings.unreleased < s.rings.releases v.toNat) (by omega))
  have left : (releasedTo s v).rings.unreleased = s.rings.unreleased - s.rings.releases v.toNat := by
    simp only [Rings.unreleased, Rings.releases, Rings.doneSize, releasedTo, hg] at le ⊢
    exact subMod_release hw hd hv le
  have room := hasRoom_iff hg
  have room' := hasRoom_iff (r := (releasedTo s v).rings) hg
  refine ⟨_, hp, rfl, left, fun e es full some_ idle queue running => ?_, fun h => ?_⟩
  · have hposts : s.part.state.posts = true := by
      rw [posts_iff]
      simp only [List.mem_cons, List.not_mem_nil, or_false] at hs ⊢
      tauto
    show p = _
    rw [hpost, if_neg (fun q => by have := room.mp q; omega),
      postBegin_begins (s := releasedTo s v) idle queue hposts (room'.mpr (by omega))]
    rfl
  · show p = _
    rw [hpost]
    split
    · rfl
    next full =>
      rw [postBegin_waits]
      · rfl
      · rw [room] at full
        rcases h with h | h | h | h | h
        · exact absurd h full
        · exact .inr (.inr (.inr (by rw [Bool.eq_false_iff, ne_eq, room', left, h]; exact full)))
        · exact .inl h
        · exact .inr (.inl h)
        · exact .inr (.inr (.inl (by rw [show (releasedTo s v).part.state = .halted from h]; rfl)))
end

/-- Settles O7: a write taken is `writeJobTail_taken` or `doneHead_taken`, one ignored is `exec_misuse`. -/
theorem ringIndexWrites : Obligations.RingIndexWrites := by
  refine ⟨fun s v aw => ⟨fun g hg hs hv => ?_, fun h => exec_misuse aw (.inr h)⟩, ?_⟩
  · show s.answer (s.fullWrite 0xF#4 (fun s => s.writeJobTail v)) = _
    rw [fullWrite_full, writeJobTail_taken (not_ringIgnored hg hs (by omega))]
    exact answer_slot aw
  · intro s v g aw hg hd hw hs hv released unreleased hr hu
    have size : s.rings.doneSize = 2 ^ g.doneCode := by rw [Rings.doneSize, hg]; rfl
    have hr : released = s.rings.releases v.toNat := by rw [hr, Rings.releases, size, subMod_eq hd]
    have hu : unreleased = s.rings.unreleased := by rw [hu, Rings.unreleased, size, subMod_eq hd]
    refine ⟨doneHead_taken aw hg hd hw hs hv hr hu, fun lt => exec_misuse aw ?_⟩
    exact .inr (.inr (.inr ⟨g, hg, .inr (by omega)⟩))

/-! ## The registers as they read (R168, Table 12-13) -/

theorem notify_toNat (r : Regs) : r.notify.toNat = (if r.notifyEnable = true then 1 else 0) + 256 * r.threshold.toNat
    + 65536 * r.holdCode.toNat := by
  have := r.threshold.isLt
  have := r.holdCode.isLt
  rw [Regs.notify, BitVec.toNat_ofNat, bitByte_eq]
  cases r.notifyEnable <;> simp <;> omega

theorem read_notify (s : State) : s.readRegister 0x1C#5 = s.regs.notify := rfl

/-- Two parts in the same part state read the same but in STATUS and in the register `o`, where all else agrees. -/
theorem read_same {o : BitVec 5} (hp : t.part.state = s.part.state) (hlo : o = 0x08#5 ∨ t.regs.setupLo = s.regs.setupLo)
    (hhi : o = 0x0C#5 ∨ t.regs.setupHi = s.regs.setupHi) (hjt : o = 0x10#5 ∨ t.rings.jobTail = s.rings.jobTail)
    (hjh : t.rings.jobHead = s.rings.jobHead) (hdh : o = 0x18#5 ∨ t.rings.doneHead = s.rings.doneHead)
    (hn : o = 0x1C#5 ∨ t.regs.notify = s.regs.notify) :
    ∀ o', o' ≠ o → o' ≠ 0x04#5 → t.readRegister o' = s.readRegister o' := by
  intro o' h h4
  have pick : ∀ {a : BitVec 5} {α : Type} {x y : α}, o' = a → (o = a ∨ x = y) → x = y := by
    rintro a α x y rfl (e | e)
    · exact absurd e.symm h
    · exact e
  unfold State.readRegister
  split; · simp [State.control, hp]
  split
  next e => exact absurd e h4
  split
  next e => exact pick e hlo
  split
  next e => exact pick e hhi
  split
  next e => rw [pick e hjt]
  split; · rw [hjh]
  split
  next e => rw [pick e hdh]
  split
  next e => exact pick e hn
  · rfl

/-- A write by offset of a register that has a command of its own does what that command does. -/
theorem exec_writeAt (s : State) (be : BitVec 4) (v : Word) :
    exec (.registerWrite 0x08#5 be v) s = exec (.setupLoWrite be v) s
    ∧ exec (.registerWrite 0x0C#5 be v) s = exec (.setupHiWrite be v) s
    ∧ exec (.registerWrite 0x10#5 be v) s = exec (.jobTailWrite be v) s
    ∧ exec (.registerWrite 0x14#5 be v) s = exec (.jobHeadWrite be v) s
    ∧ exec (.registerWrite 0x18#5 be v) s = exec (.doneHeadWrite be v) s
    ∧ exec (.registerWrite 0x1C#5 be v) s = exec (.notifyWrite be v) s
    ∧ (v.getLsbD 2 = true → exec (.registerWrite 0x00#5 0xF#4 v) s = exec .softReset s) := by
  refine ⟨rfl, rfl, rfl, ?_, rfl, rfl, fun hv => ?_⟩
  · show s.answer (s.fullWrite be (fun s => s.setMisuse)) = s.answer s.setMisuse
    unfold State.fullWrite
    split <;> rfl
  · show s.answer (s.fullWrite 0xF#4 (fun s => s.writeControl v)) = s.answer s.softReset
    rw [fullWrite_full, State.writeControl, hv, if_pos rfl]

/-! ## A write of CONTROL is one event (R159) -/

theorem work_enable (s : State) : s.enable.work = s.work := by unfold State.enable; split <;> rfl
theorem work_quiesce (s : State) : s.quiesce.work = s.work := by
  unfold State.quiesce
  split
  · exact work_tryQuiesced _
  · rfl
theorem work_quiesceRelease (s : State) : s.quiesceRelease.work = s.work := by unfold State.quiesceRelease; split <;> rfl

/-- A part that ENABLE took into LOADING is not touched by QUIESCE or its release. -/
theorem enable_quiesce (h : s.part.state = .disabled) : s.enable.quiesce = s.enable ∧ s.enable.quiesceRelease = s.enable := by
  have e : s.enable.part.state = .loading := by rw [State.enable, if_pos h]
  refine ⟨?_, ?_⟩
  · rw [State.quiesce, if_neg (by rw [e]; decide)]
  · rw [State.quiesceRelease, if_neg (by rw [e]; decide)]

theorem exec_writeControl (aw : s.Awake) {v : Word} (hv : v.getLsbD 2 = false) (c : Instr)
    (hc : c = (if v.getLsbD 0 = true ∧ s.part.state = .disabled then .enable
      else if v.getLsbD 1 = true then .quiesce else .quiesceRelease)) :
    ∃ u, exec c s = .next u ∧ exec (.registerWrite 0x00#5 0xF#4 v) s = .next
      (if v.getLsbD 3 = true then { u with regs := { u.regs with misuse := false } } else u) := by
  obtain ⟨x, work, hx, write⟩ : ∃ x : State, x.work = s.work ∧ exec c s = s.answer x
      ∧ s.writeControl v = if v.getLsbD 3 = true then x.clearMisuse else x := by
    rw [State.writeControl, hv, if_neg Bool.false_ne_true]
    by_cases he : v.getLsbD 0 = true ∧ s.part.state = .disabled
    · rw [if_pos he] at hc
      obtain ⟨q1, q2⟩ := enable_quiesce he.2
      refine ⟨s.enable, work_enable s, by rw [hc]; rfl, ?_⟩
      simp [he.1, q1, q2]
    · rw [if_neg he] at hc
      have same : (if v.getLsbD 0 = true then s.enable else s) = s := by
        split
        next h0 => rw [State.enable, if_neg (fun q => he ⟨h0, q⟩)]
        · rfl
      rw [same]
      by_cases h1 : v.getLsbD 1 = true
      · rw [if_pos h1] at hc
        exact ⟨s.quiesce, work_quiesce s, by rw [hc]; rfl, by simp [h1]⟩
      · rw [if_neg h1] at hc
        exact ⟨s.quiesceRelease, work_quiesceRelease s, by rw [hc]; rfl, by simp only [h1]; rfl⟩
  refine ⟨x.refreshIrq, by rw [hx, answer_slot aw work], ?_⟩
  show s.answer (s.fullWrite 0xF#4 (fun s => s.writeControl v)) = _
  rw [fullWrite_full, write]
  split
  · exact answer_slot aw work
  · exact answer_slot aw work

/-! ## The register window -/

theorem exec_notify_taken (aw : s.Awake) {v : Word} (h : 1 ≤ v.toNat / 256 % 256) :
    exec (.notifyWrite 0xF#4 v) s = .next (State.refreshIrq { s with regs := { s.regs with
      notifyEnable := v.getLsbD 0, threshold := v.extractLsb' 8 8, holdCode := v.extractLsb' 16 2 } }) := by
  show s.answer (s.fullWrite 0xF#4 (fun s => s.writeNotify v)) = _
  rw [fullWrite_full, writeNotify_taken (by omega)]
  exact answer_slot aw

theorem notify_fields (v : Word) : v.getLsbD 0 = decide (v.toNat % 2 = 1)
    ∧ (v.extractLsb' 8 8).toNat = v.toNat / 256 % 256 ∧ (v.extractLsb' 16 2).toNat = v.toNat / 65536 % 4 := by
  refine ⟨by rw [getLsbD_eq_decide]; simp, ?_, ?_⟩ <;>
    rw [BitVec.extractLsb'_toNat, Nat.shiftRight_eq_div_pow]

theorem registers_read (s : State) :
    (s.readRegister 0x04#5).toNat % 16 = partStateCode s.part.state
    ∧ (s.readRegister 0x04#5).toNat / 16 % 16 = fatalCode s.part.fatal
    ∧ (s.readRegister 0x04#5).toNat / 256 % 16 = causeCode s.part.cause
    ∧ (s.readRegister 0x04#5).toNat / 8192 % 8 = 0 ∧ (s.readRegister 0x04#5).toNat < 2 ^ 24
    ∧ (s.readRegister 0x00#5).toNat = (if s.part.state = .quiescing ∨ s.part.state = .quiesced then 2 else 0) := by
  obtain ⟨h1, h2, h3⟩ := codes_lt s.part.state s.part.fatal s.part.cause
  have := Bool.toNat_le s.regs.misuse
  have := s.work.faultMask.isLt
  have e : (s.readRegister 0x04#5).toNat = _ := status_toNat s
  have control : s.readRegister 0x00#5 = s.control := rfl
  rw [e, control]
  refine ⟨by omega, by omega, by omega, by omega, by omega, ?_⟩
  unfold State.control
  split <;> rfl

/-- What the registers read after a write of one of them. -/
theorem registers_after_write (aw : s.Awake) (v : Word) (others : State → BitVec 5 → Prop)
    (ho : ∀ t o, others t o ↔ ∀ o', o' ≠ o → o' ≠ 0x04#5 → t.readRegister o' = s.readRegister o') :
    (∃ t, exec (.setupLoWrite 0xF#4 v) s = .next t ∧ t.readRegister 0x08#5 = v ∧ others t 0x08#5)
    ∧ (∃ t, exec (.setupHiWrite 0xF#4 v) s = .next t ∧ t.readRegister 0x0C#5 = v ∧ others t 0x0C#5)
    ∧ (1 ≤ v.toNat / 256 % 256 → ∃ t, exec (.notifyWrite 0xF#4 v) s = .next t ∧ others t 0x1C#5
        ∧ (t.readRegister 0x1C#5).toNat = v.toNat % 2 + 256 * (v.toNat / 256 % 256) + 65536 * (v.toNat / 65536 % 4))
    ∧ (¬ s.misuses (.jobTailWrite 0xF#4 v) →
        ∃ t, exec (.jobTailWrite 0xF#4 v) s = .next t ∧ t.readRegister 0x10#5 = v ∧ others t 0x10#5)
    ∧ (¬ s.misuses (.doneHeadWrite 0xF#4 v) →
        ∃ t, exec (.doneHeadWrite 0xF#4 v) s = .next t ∧ t.readRegister 0x18#5 = v ∧ others t 0x18#5)
    ∧ ∀ c, s.misuses c → ∃ t, exec c s = .next t ∧ ∀ o, o ≠ 0x04#5 → t.readRegister o = s.readRegister o := by
  have word : BitVec.ofNat 32 v.toNat = v := by simp
  refine ⟨⟨_, answer_slot aw, rfl, ?_⟩, ⟨_, answer_slot aw, rfl, ?_⟩, fun h => ⟨_, exec_notify_taken aw h, ?_, ?_⟩,
    fun h => ?_, fun h => ?_, fun c hc => ⟨_, exec_misuse aw hc, fun o h4 => ?_⟩⟩
  · exact (ho _ _).mpr (read_same rfl (.inl rfl) (.inr rfl) (.inr rfl) rfl (.inr rfl) (.inr rfl))
  · exact (ho _ _).mpr (read_same rfl (.inr rfl) (.inl rfl) (.inr rfl) rfl (.inr rfl) (.inr rfl))
  · exact (ho _ _).mpr (read_same rfl (.inr rfl) (.inr rfl) (.inr rfl) rfl (.inr rfl) (.inl rfl))
  · obtain ⟨f1, f2, f3⟩ := notify_fields v
    rw [read_notify, notify_toNat]
    simp only [refreshIrq_regs, f1, f2, f3, decide_eq_true_eq]
    split <;> omega
  · refine ⟨_, ?_, ?_, (ho _ _).mpr
      (read_same (t := State.refreshIrq (s.writeJobTail v)) ?_ (.inr ?_) (.inr ?_) (.inl rfl) ?_ (.inr ?_) (.inr ?_))⟩
    · show s.answer (s.fullWrite 0xF#4 (fun s => s.writeJobTail v)) = _
      rw [fullWrite_full]
      exact answer_slot aw (work_writeJobTail s v)
    all_goals rw [writeJobTail_taken (fun q => h (.inr q))]
    · exact word
    all_goals rfl
  · obtain ⟨p, e, -⟩ := exec_doneHead_taken aw (fun q => h (.inr q))
    exact ⟨_, e, word, (ho _ _).mpr (read_same rfl (.inr rfl) (.inr rfl) (.inr rfl) rfl (.inl rfl) (.inr rfl))⟩
  · by_cases e : o = 0x00#5
    · subst e; rfl
    · exact read_same (s := s) (t := s.setMisuse.refreshIrq) (o := 0x00#5) rfl (.inr rfl) (.inr rfl) (.inr rfl) rfl (.inr rfl) (.inr rfl) o e h4

/-- Settles O6: the writes of the registers, by name and by offset, and the registers as they read. -/
theorem registerWindow : Obligations.RegisterWindow := by
  refine ⟨fun s v aw => ?_, exec_writeAt, fun s => ?_⟩
  · obtain ⟨f1, f2, f3⟩ := notify_fields v
    refine ⟨answer_slot aw, answer_slot aw, fun h => ⟨_, exec_notify_taken aw h, rfl, f1, f2, f3⟩,
      fun h => exec_misuse aw (.inr h), fun hv c hc => exec_writeControl aw hv c hc, answer_slot aw, answer_slot aw,
      fun o ho => ?_⟩
    show s.answer (s.fullWrite 0xF#4 (fun s => s.writeAt o v)) = _
    rw [fullWrite_full, writeAt_other]
    · exact answer_slot aw
    · revert ho; revert o; decide
  · obtain ⟨h1, h2, h3, h4, h5, h6⟩ := registers_read s
    exact ⟨status_fault s, h1, h2, h3, status_misuse s, h4, h5, h6, rfl, rfl, BitVec.toNat_ofNat _ _, BitVec.toNat_ofNat _ _,
      BitVec.toNat_ofNat _ _, notify_toNat s.regs, fun aw v others ho => registers_after_write aw v others ho⟩

/-! ## The soft reset (R42, R60, R162) -/

/-- What a report of being drained leaves of a lane. -/
theorem tryDrain_keeps (l : Lane) : l.tryDrain.supply = l.supply ∧ l.tryDrain.settings = l.settings ∧ l.tryDrain.link = l.link
    ∧ l.tryDrain.lines = l.lines ∧ l.tryDrain.ctx.state = l.ctx.state
    ∧ (l.ctx.session = false → l.tryDrain.ctx.session = false) := by
  unfold Lane.tryDrain
  split <;> exact ⟨rfl, rfl, rfl, rfl, rfl, fun h => by first | rfl | exact h⟩

theorem abandon_keeps (l : Lane) : l.abandon.supply = l.supply ∧ l.abandon.settings = l.settings
    ∧ l.abandon.link.state = .idle ∧ l.abandon.ctx.state = l.ctx.state ∧ l.abandon.lines.trstLow = l.lines.trstLow := by
  unfold Lane.abandon
  split
  next h => exact ⟨rfl, rfl, h, rfl, rfl⟩
  · exact ⟨rfl, rfl, rfl, rfl, rfl⟩

theorem rest_keeps (l : Lane) : l.rest.supply = l.supply ∧ l.rest.settings = l.settings ∧ l.rest.link = l.link := by
  unfold Lane.rest
  split <;> exact ⟨rfl, rfl, rfl⟩

/-- A lane on its way rests in HOLD (R42, R161). -/
theorem rest_holds {l : Lane} (h : l.ctx.state ∈ [.entry, .linking, .ready, .active, .hold]) :
    l.rest = { l.toHold with ctx := { l.toHold.ctx with fallbackCopy := none } } := by
  simp only [List.mem_cons, List.not_mem_nil, or_false] at h
  unfold Lane.rest
  rcases h with h | h | h | h | h <;> rw [h]

/-- A lane that is not on its way stays as it is. -/
theorem rest_stays {l : Lane} (h : l.ctx.state ∈ [.off, .powering, .settling, .run, .fault]) : l.rest = l := by
  simp only [List.mem_cons, List.not_mem_nil, or_false] at h
  unfold Lane.rest
  rcases h with h | h | h | h | h <;> rw [h]

theorem beginDrain_busyHold {l : Lane} (h : l.link.state = .busyHold) :
    l.beginDrain = { l with eng := { l.eng with drained := false } } := by
  unfold Lane.beginDrain
  dsimp only
  rw [if_pos h]
  exact tryDrain_busy (by rw [h]; decide)

/-- What SOFT_RESET does at one lane. -/
theorem beginDrain_spec (l : Lane) : l.beginDrain.supply = l.supply ∧ l.beginDrain.settings = l.settings
    ∧ (l.link.state = .busyHold → l.beginDrain.link = l.link ∧ l.beginDrain.lines = l.lines ∧ l.beginDrain.ctx = l.ctx)
    ∧ (l.link.state ≠ .busyHold → l.beginDrain.link.state = .idle
        ∧ (l.ctx.state ∈ [.entry, .linking, .ready, .active, .hold] →
            l.beginDrain.ctx.state = .hold ∧ l.beginDrain.ctx.session = false
              ∧ l.beginDrain.lines.trstLow = true ∧ l.beginDrain.lines.tselLow = false)
        ∧ (l.ctx.state ∈ [.off, .powering, .settling, .run, .fault] →
            l.beginDrain.ctx.state = l.ctx.state ∧ l.beginDrain.lines.trstLow = l.lines.trstLow)) := by
  by_cases hb : l.link.state = .busyHold
  · rw [beginDrain_busyHold hb]
    exact ⟨rfl, rfl, fun _ => ⟨rfl, rfl, rfl⟩, fun h => absurd hb h⟩
  · obtain ⟨k, hk, e⟩ : ∃ k : Lane, k = { l with eng := { l.eng with drained := false } }
        ∧ l.beginDrain = k.abandon.rest.tryDrain := by
      refine ⟨_, rfl, ?_⟩
      unfold Lane.beginDrain Lane.drainExchange
      dsimp only
      rw [if_neg hb]
    have kl : k.supply = l.supply ∧ k.settings = l.settings ∧ k.ctx = l.ctx ∧ k.lines = l.lines := by
      rw [hk]; exact ⟨rfl, rfl, rfl, rfl⟩
    obtain ⟨k1, k2, k3, k4⟩ := kl
    obtain ⟨a1, a2, a3, a4, a5⟩ := abandon_keeps k
    obtain ⟨r1, r2, r3⟩ := rest_keeps k.abandon
    obtain ⟨d1, d2, d3, d4, d5, d6⟩ := tryDrain_keeps k.abandon.rest
    rw [k3] at a4
    rw [k4] at a5
    rw [e]
    refine ⟨by rw [d1, r1, a1, k1], by rw [d2, r2, a2, k2], fun h => absurd h hb, fun _ =>
      ⟨by rw [d3, r3, a3], fun h => ?_, fun h => ?_⟩⟩
    · rw [← a4] at h
      rw [d4, d5]
      rw [rest_holds h] at d6 ⊢
      exact ⟨rfl, d6 rfl, rfl, rfl⟩
    · rw [← a4] at h
      rw [d4, d5, rest_stays h]
      exact ⟨a4, a5⟩

/-- The end of the drain leaves no freed slot to a record: none is held (R162). -/
theorem exec_drainEnd (aw : s.Awake) (h : s.drainOver = true) : exec .drainEnd s = .next s.endDrain.refreshIrq := by
  show s.answer (if s.drainOver then s.endDrain else s) = _
  rw [if_pos h]
  exact answer_none aw rfl

/-- Settles O5: SOFT_RESET is `Lane.beginDrain` at every lane (`beginDrain_spec`), DRAIN_END is `State.endDrain`. -/
theorem softResetDrainsAndClears : Obligations.SoftResetDrainsAndClears := by
  refine ⟨fun s aw hs => ?_, fun s aw hs => ?_, fun s aw hs lanes port posting setup reading => ?_⟩
  · show s.answer s.softReset = _
    rw [State.softReset, if_pos hs]
    exact answer_slot aw
  · obtain ⟨ls, e, hl⟩ := eachLane_form Lane.beginDrain s.work
    refine ⟨State.refreshIrq { s with part := { s.part with state := .draining }, intake := s.intake.stop
                                      work := { s.work with lanes := ls } },
      ?_, rfl, rfl, rfl, rfl, rfl, rfl, rfl, rfl, fun n => ?_⟩
    · show s.answer s.softReset = _
      rw [State.softReset, if_neg hs, e]
      exact answer_slots aw rfl
    · have lane : ({ s.work with lanes := ls } : Work).lane n = (s.work.lane n).beginDrain := hl n
      simp only [refreshIrq_work, lane]
      exact beginDrain_spec (s.work.lane n)
  · have ended : s.drainOver = true := by
      simp [State.drainOver, hs, lanes, port, posting, setup, reading]
    rw [exec_drainEnd aw ended]
    have low : s.endDrain.irqCondition = false := by simp [State.irqCondition, State.endDrain]
    rw [State.refreshIrq, low]
    rfl

end Sys2Proof.Proofs
end

section
/-! The setup block and the record read (O9, O10). -/

namespace Sys2Proof.Proofs

-- One theorem at a time: a thread for each would ask for more stack than the check allows.
set_option Elab.async false

open Sys2Proof.Machine Sys2Proof.Laws

variable {s t u : State} {w : Work}

/-! ## A halt (R161) -/

/-- A part that was not halted: everything that a halt changes. -/
theorem halt_eq (code : FatalCode) (h : s.part.state ≠ .halted) : ∃ w, s.halt code =
    { s with part := { s.part with state := .halted, fatal := code }, intake := s.intake.stop, work := w } := by
  rw [State.halt, if_neg h]
  exact ⟨_, rfl⟩

/-- An effect that halts the part holds no record, and IRQ_N is low. -/
theorem answer_halt (aw : s.Awake) (code : FatalCode) (h : u.part.state ≠ .halted) :
    s.answer (u.halt code) = .next (u.halt code).refreshIrq ∧ (u.halt code).refreshIrq.irqHigh = false := by
  refine ⟨answer_none aw ?_, ?_⟩
  · obtain ⟨w, e⟩ := halt_eq code h
    rw [e]; rfl
  · simp [State.irqCondition, halt_state]

/-! ## The setup block (R148) -/

theorem setup_valid_iff {data : List Byte} :
    (geometryOf data).valid = true ↔ fieldAt data 0 8 % 64 = 0 ∧ 3 ≤ fieldAt data 8 1 ∧ fieldAt data 8 1 ≤ 10
      ∧ fieldAt data 16 8 % 32 = 0 ∧ 3 ≤ fieldAt data 24 1 ∧ fieldAt data 24 1 ≤ 10
      ∧ fieldAt data 0 8 + 64 * 2 ^ fieldAt data 8 1 ≤ 2 ^ 64 ∧ fieldAt data 16 8 + 32 * 2 ^ fieldAt data 24 1 ≤ 2 ^ 64 := by
  have field : ∀ n i, fieldAt data i n < 256 ^ n := by
    intro n
    induction n with
    | zero => intro i; simp [fieldAt]
    | succ n ih =>
      intro i
      have := ih (i + 1)
      have := (byteAt data i).isLt
      rw [fieldAt, pow_succ]
      omega
  have addr : ∀ i, (hostAddrAt data i).toNat = fieldAt data i 8 := fun i => by
    rw [hostAddrAt, BitVec.toNat_ofNat, Nat.mod_eq_of_lt]
    exact (field 8 i).trans_eq (by norm_num)
  simp only [Geometry.valid, Bool.and_eq_true, decide_eq_true_eq]
  simp [geometryOf, Geometry.jobSize, Geometry.doneSize, addr, and_assoc]

/-- The end of the setup block read in LOADING is the judgement of the block. -/
theorem exec_setupRead (hs : s.part.state = .loading) (hp : s.port = some .setup) {r : ReadEnd} (hr : ReadEnd.fits 32 r = true) :
    exec (.setupReadEnd r) s
      = s.answer (State.judgeSetup { s with port := none, part := { s.part with setupReading := false } } r) := by
  show s.answer (if s.port = some .setup ∧ ReadEnd.fits 32 r then s.setupEnd r else s) = _
  rw [if_pos ⟨hp, hr⟩, State.setupEnd]
  dsimp only
  rw [if_pos hs]

/-- A good setup block starts the rings (R148). -/
theorem exec_setupRead_good (aw : s.Awake) (hs : s.part.state = .loading) (hp : s.port = some .setup) {data : List Byte}
    (len : data.length = 32) (hv : (geometryOf data).valid = true) :
    exec (.setupReadEnd (.ok data)) s = .next (State.refreshIrq (State.latchSetup
      { s with port := none, part := { s.part with setupReading := false } } (geometryOf data))) := by
  rw [exec_setupRead hs hp (by simp [ReadEnd.fits, len]), State.judgeSetup, if_pos hv]
  exact answer_slot (u := State.latchSetup _ _) aw

/-- The setup block halts the part. -/
theorem setup_halts (aw : s.Awake) (hs : s.part.state = .loading) (code : FatalCode) {r : ReadEnd}
    (h : exec (.setupReadEnd r) s
      = s.answer (State.halt { s with port := none, part := { s.part with setupReading := false } } code)) :
    ∃ t, exec (.setupReadEnd r) s = .next t ∧ t.part.state = .halted ∧ t.part.fatal = code ∧ t.rings = s.rings
      ∧ t.irqHigh = false := by
  have hn : (State.part { s with port := none, part := { s.part with setupReading := false } }).state ≠ .halted := by
    simp [hs]
  obtain ⟨a, irq⟩ := answer_halt (s := s) aw code hn
  refine ⟨_, h.trans a, ?_, ?_, ?_, irq⟩ <;> obtain ⟨w, e⟩ := halt_eq code hn <;> rw [e] <;> rfl

/-- Settles O9: the judgement of the setup block (`setup_valid_iff`), and the two halts. -/
theorem setupBlockJudged : Obligations.SetupBlockJudged := by
  intro s aw hs hp
  refine ⟨fun data len jobBase jobCode doneBase doneCode e1 e2 e3 e4 good hg => ⟨fun h => ?_, fun h => ?_⟩, ?_⟩
  · rw [e1, e2, e3, e4] at hg ⊢
    rw [exec_setupRead_good aw hs hp len (setup_valid_iff.mpr (hg.mp h))]
    rfl
  · refine setup_halts aw hs .setupInvalid ?_
    rw [exec_setupRead hs hp (by simp [ReadEnd.fits, len])]
    rw [e1, e2, e3, e4] at hg
    rw [State.judgeSetup, if_neg (fun q => h (hg.mpr (setup_valid_iff.mp q)))]
  · exact setup_halts aw hs .setupReadError (exec_setupRead hs hp rfl)

/-! ## The record read (R150, R160, R161) -/

theorem reservationFree_iff : w.reservationFree = true ↔ w.queue.length + w.reserved < 32 :=
  decide_eq_true_iff

theorem jobTake_idle (h : s.intake.held = none ∨ s.part.state ≠ .running) : s.jobTake = s := by
  rcases jobTake_cases s with e | ⟨r, hr, hc, -⟩
  · exact e
  · rcases h with h | h
    · rw [hr] at h; cases h
    · exact absurd (canTake_running hc) h

/-- An answer depends on the state before by its slots and RESET_N alone. -/
theorem answer_congr (hw : t.work = s.work) (hl : t.part.resetLow = s.part.resetLow) (aw : s.Awake) :
    t.answer u = s.answer u := by
  have awt : t.Awake := hl.trans aw
  rw [answer_awake awt, answer_awake aw, State.takeFreed, State.takeFreed, hw]

/-- The record read ends while Job Intake still wants the record. -/
theorem recordArrives_wanted (hs : s.part.state = .running) (hv : s.intake.readVoid = false) (data : List Byte) :
    s.recordArrives (.ok data) = { s with port := none, intake := { s.intake with held := some data, reading := false } } := by
  rw [State.recordArrives]
  dsimp only
  rw [if_neg (by simp [hs, hv])]
  simp [hv]

theorem recordArrives_error (hs : s.part.state = .running) (hv : s.intake.readVoid = false) :
    s.recordArrives .error
      = State.halt { s with port := none, intake := { s.intake with reading := false, readVoid := false } } .jobReadError := by
  rw [State.recordArrives]
  dsimp only
  rw [if_neg (by simp [hs, hv])]

/-- The record read ends after the part left RUNNING. -/
theorem recordArrives_void (h : s.part.state ≠ .running ∨ s.intake.readVoid = true) (r : ReadEnd) :
    s.recordArrives r
      = State.tryQuiesced { s with port := none, intake := { s.intake with reading := false, readVoid := false } } := by
  unfold State.recordArrives
  dsimp only
  rw [if_pos (by rcases h with h | h <;> simp [h])]

theorem exec_recordRead (hp : s.port = some .intake) {r : ReadEnd} (hr : ReadEnd.fits 64 r = true) :
    exec (.jobRecordReadEnd r) s = s.answer (s.recordArrives r).jobTake := by
  show s.answer (if s.port = some .intake ∧ ReadEnd.fits 64 r then s.recordReadEnd r else s) = _
  rw [if_pos ⟨hp, hr⟩]
  rfl

theorem freeSlot_none_iff : w.freeSlot = none ↔ ∀ i, w.slot i ≠ none := by
  simp [Work.freeSlot, mem_allSlots]

theorem canTake_full {r : List Byte} {args : JobArgs} (hj : judgeRecord r = .slotted args) (hf : ∀ i, s.work.slot i ≠ none) :
    s.canTake r = false := by
  simp [State.canTake, hj, freeSlot_none_iff.mpr hf]

theorem jobTake_full {r : List Byte} {args : JobArgs} (hh : s.intake.held = some r) (hj : judgeRecord r = .slotted args)
    (hf : ∀ i, s.work.slot i ≠ none) : s.jobTake = s := by
  rw [State.jobTake, hh]
  exact if_neg (by rw [canTake_full hj hf]; decide)

theorem exec_recordRead_error (aw : s.Awake) (hp : s.port = some .intake) (hs : s.part.state = .running)
    (hv : s.intake.readVoid = false) :
    ∃ t, exec (.jobRecordReadEnd .error) s = .next t ∧ t.part.state = .halted ∧ t.part.fatal = .jobReadError
      ∧ t.rings = s.rings ∧ t.intake.held = none ∧ t.intake.reading = false ∧ t.irqHigh = false := by
  have hn : (State.part { s with port := none, intake := { s.intake with reading := false, readVoid := false } }).state
      ≠ .halted := by simp [hs]
  obtain ⟨a, irq⟩ := answer_halt (s := s) aw .jobReadError hn
  rw [exec_recordRead hp rfl, recordArrives_error hs hv, jobTake_idle (.inr (by rw [halt_state]; decide)), a]
  refine ⟨_, rfl, ?_, ?_, ?_, ?_, ?_, irq⟩ <;> obtain ⟨w, e⟩ := halt_eq .jobReadError hn <;> rw [e] <;> rfl

/-- The end of a void read leaves the part as it is, but for QUIESCED. -/
theorem exec_recordRead_void (aw : s.Awake) (hp : s.port = some .intake) {r : ReadEnd} (hr : ReadEnd.fits 64 r = true)
    (h : s.part.state ≠ .running ∨ (s.intake.readVoid = true ∧ s.intake.held = none)) :
    exec (.jobRecordReadEnd r) s = .next (State.refreshIrq (State.tryQuiesced
      { s with port := none, intake := { s.intake with reading := false, readVoid := false } })) := by
  rw [exec_recordRead hp hr, recordArrives_void (h.imp_right And.left)]
  rw [jobTake_idle]
  · exact answer_slot aw (work_tryQuiesced _)
  · rcases tryQuiesced_cases { s with port := none, intake := { s.intake with reading := false, readVoid := false } }
      with e | ⟨-, e⟩
    · rw [e]; exact h.symm.imp_left And.right
    · rw [e]; exact .inr (by simp)

/-- Settles O10: the conditions of the read, and its end by the part state. -/
theorem jobRecordRead : Obligations.JobRecordRead := by
  intro s aw
  refine ⟨fun hs hg hne room hh hr => ?_, fun h => ?_, fun hp hs hv => ⟨fun data u len hu => ⟨?_, fun args hj hf => ?_⟩, ?_⟩,
    fun hp r u len hu => ⟨fun hs => ?_, fun hs hv hh => ?_, fun hs empty he => ⟨fun h => ?_, fun h => ?_⟩⟩⟩
  · show s.answer s.startRecordRead = _
    rw [State.startRecordRead, if_pos (by simp [State.mayReadRecord, *, reservationFree_iff.mpr room])]
    exact answer_slot aw
  · show s.answer s.startRecordRead = _
    rw [State.startRecordRead, if_neg]
    · exact answer_slot aw
    · simp only [State.mayReadRecord, Bool.and_eq_true, reservationFree_iff, decide_eq_true_eq, Bool.not_eq_true',
        Option.isNone_iff_eq_none]
      rintro ⟨⟨⟨⟨⟨q1, -⟩, q2⟩, q3⟩, q4⟩, q5⟩
      simp [q1, q2, q4, q5] at h
      omega
  · rw [exec_recordRead hp (by simp [ReadEnd.fits, len]), recordArrives_wanted hs hv, hu]
    exact (answer_congr (s := s) (u := State.jobTake { s with port := none, intake := { s.intake with held := some data, reading := false } })
      (t := { s with port := none, intake := { s.intake with held := some data, reading := false } }) rfl rfl aw).symm
  · rw [exec_recordRead hp (by simp [ReadEnd.fits, len]), recordArrives_wanted hs hv, ← hu,
      jobTake_full (r := data) (by rw [hu]) hj (by rw [hu]; exact hf)]
    exact answer_slot aw (by rw [hu])
  · exact exec_recordRead_error aw hp hs hv
  all_goals
    have fits : ReadEnd.fits 64 r = true := by
      cases r with
      | ok data => simp [ReadEnd.fits, len data rfl]
      | error => rfl
  · rw [exec_recordRead_void aw hp fits (.inl (fun q => by simp [q] at hs)), ← hu, tryQuiesced_busy]
    intro q
    have := ((isQuiet_iff u).mp q).1
    rw [hu] at this
    simp [show s.part.state = .quiescing from this] at hs
  · rw [exec_recordRead_void aw hp fits (.inr ⟨hv, hh⟩), ← hu, tryQuiesced_busy]
    intro q
    have := ((isQuiet_iff u).mp q).1
    rw [hu] at this
    simp [show s.part.state = .quiescing from this] at hs
  all_goals have quiet : u.isQuiet = true ↔ empty := by rw [isQuiet_iff, he, hu]; simp [hs]
  · rw [exec_recordRead_void aw hp fits (.inl (by rw [hs]; decide)), ← hu, tryQuiesced_quiet (quiet.mpr h), hu]
  · rw [exec_recordRead_void aw hp fits (.inl (by rw [hs]; decide)), ← hu, tryQuiesced_busy (fun q => h (quiet.mp q))]

end Sys2Proof.Proofs
end

section
/-! The taking of a record and the search for a CANCEL's job (O11, O13, O14). -/

namespace Sys2Proof.Proofs

-- One theorem at a time: a thread for each would ask for more stack than the check allows.
set_option Elab.async false

open Sys2Proof.Machine Sys2Proof.Laws

variable {s t u : State} {w : Work}

/-! ## The taking of a record (R1, R2, R5, R150, R151) -/

/-- The lowest-numbered free slot (R1). -/
theorem freeSlot_eq {i : SlotId} (h : w.slot i = none) (low : ∀ k, k < i → w.slot k ≠ none) : w.freeSlot = some i := by
  rw [Work.freeSlot, List.find?_eq_some_iff_append]
  refine ⟨by simp [h], ?_⟩
  have split : ∀ i : SlotId, Config.allSlots = Config.allSlots.take i ++ i :: Config.allSlots.drop (i + 1)
      ∧ (Config.allSlots.take i).all (· < i) = true := by decide
  obtain ⟨e, lt⟩ := split i
  refine ⟨_, _, e, fun a ha => ?_⟩
  have := low a (by simpa using List.all_eq_true.mp lt a ha)
  simpa [Option.isSome_iff_ne_none] using this

theorem jobTake_take {r : List Byte} (hh : s.intake.held = some r) (hc : s.canTake r = true) : s.jobTake = s.take r := by
  rw [State.jobTake, hh]
  exact if_pos hc

/-- A record that can be taken is taken; nothing is held after it. -/
theorem exec_jobTake (aw : s.Awake) {r : List Byte} (hh : s.intake.held = some r) (hc : s.canTake r = true) :
    exec .jobTake s = .next (s.take r).refreshIrq := by
  show s.answer s.jobTake = _
  rw [jobTake_take hh hc]
  exact answer_none aw rfl

theorem canTake_refused {r : List Byte} {reason : RefuseReason} (hs : s.part.state = .running) (hj : judgeRecord r = .refused reason) :
    s.canTake r = true := by simp [State.canTake, hj, hs]

theorem canTake_cancel {r : List Byte} {named : Word} (hs : s.part.state = .running) (hj : judgeRecord r = .cancel named) :
    s.canTake r = true := by simp [State.canTake, hj, hs]

theorem canTake_slotted {r : List Byte} {args : JobArgs} {i : SlotId} (hs : s.part.state = .running)
    (hj : judgeRecord r = .slotted args) (hf : s.work.freeSlot = some i) : s.canTake r = true := by
  simp [State.canTake, hj, hs, hf]

theorem jobSize_some {g : Geometry} (hg : s.rings.geom = some g) : s.rings.jobSize = 2 ^ g.jobCode := by
  simp [Rings.jobSize, hg, Geometry.jobSize]

theorem admit_refused {env : Env} {r : List Byte} {adm : Word} {reason : RefuseReason} (hj : judgeRecord r = .refused reason) :
    w.admitRecord env r adm = { w with queue := w.queue ++ [refusedEntry r adm reason env.jobHead] } := by
  simp [Work.admitRecord, hj, Work.fillEntry]

theorem admit_slotted {env : Env} {r : List Byte} {adm : Word} {args : JobArgs} {i : SlotId}
    (hj : judgeRecord r = .slotted args) (hf : w.freeSlot = some i) :
    w.admitRecord env r adm = { w.setSlot i (some (placedSlot r adm args)) with
      grantList := w.grantList ++ [i], reserved := w.reserved + 1 } := by
  have hf' : Work.freeSlot { w with reserved := w.reserved + 1 } = some i := hf
  simp only [Work.admitRecord, hj, Work.place, hf']
  rfl

/-- The taking of an accepted slotted record into the slot that is free (R1, R5, R150, R152). -/
theorem take_slotted {r : List Byte} {args : JobArgs} {i : SlotId} {g : Geometry} (hg : s.rings.geom = some g)
    (hj : judgeRecord r = .slotted args) (hf : s.work.freeSlot = some i) : s.take r =
    { s with
      rings := { s.rings with jobHead := (s.rings.jobHead + 1) % 2 ^ g.jobCode }
      intake := { s.intake with counter := s.intake.counter + 1, held := none }
      work := { s.work.setSlot i (some (placedSlot r s.intake.counter args)) with
        grantList := s.work.grantList ++ [i], reserved := s.work.reserved + 1 } } := by
  unfold State.take State.onWork
  dsimp only
  rw [admit_slotted hj hf, jobSize_some hg]

/-- Settles O11: a refused record's entry, the placing of an accepted one, and the wait for a slot. -/
theorem jobTakeRefusesOrPlaces : Obligations.JobTakeRefusesOrPlaces := by
  intro s g r aw hs hg hh head hd
  refine ⟨fun reason hj => ?_, fun args hj => ⟨fun i hi low => ?_, fun hf => ?_⟩⟩
  · rw [exec_jobTake aw hh (canTake_refused hs hj), hd]
    unfold State.take State.onWork
    dsimp only
    rw [admit_refused hj, jobSize_some hg]
    rfl
  · have hf := freeSlot_eq hi low
    rw [exec_jobTake aw hh (canTake_slotted hs hj hf), take_slotted hg hj hf, hd]
    rfl
  · show s.answer s.jobTake = _
    rw [jobTake_full hh hj hf]
    exact answer_slot aw

/-! ## The waiting record is taken by the event that frees a slot (R150) -/

/-- The part with this held record. -/
def holding (k : Option (List Byte)) (s : State) : State := { s with intake := { s.intake with held := k } }

/-- An effect that neither reads nor writes the held record, and keeps the intake and the rings. -/
structure Apart (F : State → State) : Prop where
  kept : ∀ s, (F s).intake = s.intake ∧ (F s).rings = s.rings
  holding : ∀ k s, F (holding k s) = holding k (F s)

theorem holding_ite {k : Option (List Byte)} {p : Prop} [Decidable p] {a b a' b' : State} (ha : a' = holding k a)
    (hb : b' = holding k b) : (if p then a' else b') = holding k (if p then a else b) := by
  split <;> assumption

theorem kept_ite {p : Prop} [Decidable p] {a b : State} (ha : a.intake = s.intake ∧ a.rings = s.rings)
    (hb : b.intake = s.intake ∧ b.rings = s.rings) :
    (if p then a else b).intake = s.intake ∧ (if p then a else b).rings = s.rings := by
  split <;> assumption

theorem apart_imageTurn (c : CtxId) : Apart (fun s => s.imageTurn c) where
  kept s := by
    unfold State.imageTurn
    dsimp only
    split <;> exact ⟨rfl, rfl⟩
  holding k s := by
    unfold State.imageTurn
    dsimp only [holding]
    split <;> rfl

theorem apart_arbitrate : Apart State.arbitrate where
  kept s := by
    unfold State.arbitrate
    refine kept_ite ⟨rfl, rfl⟩ (kept_ite ⟨rfl, rfl⟩ (kept_ite ⟨rfl, rfl⟩ (kept_ite ⟨rfl, rfl⟩ ?_)))
    split
    · exact ⟨rfl, rfl⟩
    · split
      · exact (apart_imageTurn _).kept s
      · exact ⟨rfl, rfl⟩
  holding k s := by
    have next : (holding k s).imageNext = s.imageNext := rfl
    have waits : (holding k s).work.laneWaits = s.work.laneWaits := rfl
    unfold State.arbitrate
    rw [next, waits]
    refine holding_ite rfl (holding_ite rfl (holding_ite rfl (holding_ite rfl ?_)))
    show (match (roundRobin s.portLast).find? s.work.laneWaits with | some n => _ | none => _) = _
    cases (roundRobin s.portLast).find? s.work.laneWaits with
    | some n => rfl
    | none =>
      cases s.imageNext with
      | some c => exact (apart_imageTurn c).holding k s
      | none => rfl

/-- The commands that may free a slot in a part that goes on in RUNNING are apart from the held record. -/
theorem exec_apart (c : Instr) (q : quietCmd c = true) : ∃ F, (∀ s, exec c s = s.answer (F s)) ∧ Apart F := by
  cases c <;> first | (exact absurd q Bool.false_ne_true) | skip
  all_goals refine ⟨_, fun s => rfl, ?_⟩
  case memoryPortArbitration => exact apart_arbitrate
  case tdatLow n r => cases r <;> exact ⟨fun s => kept_ite ⟨rfl, rfl⟩ ⟨rfl, rfl⟩, fun k s => holding_ite rfl rfl⟩
  case holdIntervalExpiry =>
    refine ⟨fun s => ?_, fun k s => ?_⟩ <;> unfold State.holdExpired
    · split <;> exact ⟨rfl, rfl⟩
    · dsimp only [holding]; split <;> rfl
  case pageFetchReadEnd r =>
    refine ⟨fun s => ?_, fun k s => ?_⟩
    · split
      · split
        · refine kept_ite ?_ ⟨rfl, rfl⟩
          unfold State.fetchRead
          dsimp only
          split
          · exact ⟨rfl, rfl⟩
          · exact kept_ite ⟨rfl, rfl⟩ ⟨rfl, rfl⟩
        · exact kept_ite ⟨rfl, rfl⟩ ⟨rfl, rfl⟩
      · exact ⟨rfl, rfl⟩
    · dsimp only [holding]
      split
      · cases r with
        | ok data =>
          refine holding_ite (k := k) ?_ rfl
          unfold State.fetchRead
          dsimp only
          split
          · rfl
          · exact holding_ite rfl rfl
        | error => exact holding_ite (k := k) rfl rfl
      · rfl
  case notifyWrite be v =>
    refine ⟨fun s => kept_ite ?_ ⟨rfl, rfl⟩, fun k s => holding_ite ?_ rfl⟩ <;> unfold State.writeNotify
    · exact kept_ite ⟨rfl, rfl⟩ ⟨rfl, rfl⟩
    · exact holding_ite rfl rfl
  case keyReadEnd | readoutPageWriteEnd | exchangePayloadReadEnd | exchangeReplyWriteEnd =>
    refine ⟨fun s => ?_, fun k s => ?_⟩
    · split
      · exact kept_ite ⟨rfl, rfl⟩ ⟨rfl, rfl⟩
      · exact ⟨rfl, rfl⟩
    · dsimp only [holding]
      split
      · exact holding_ite (k := k) rfl rfl
      · rfl
  case descriptorHeaderReadEnd | descriptorTableReadEnd =>
    refine ⟨fun s => ?_, fun k s => ?_⟩
    · split
      · exact kept_ite (kept_ite ⟨rfl, rfl⟩ ⟨rfl, rfl⟩) ⟨rfl, rfl⟩
      · exact ⟨rfl, rfl⟩
    · dsimp only [holding]
      split
      · exact holding_ite (k := k) (holding_ite rfl rfl) rfl
      · rfl
  all_goals first | exact ⟨fun s => ⟨rfl, rfl⟩, fun k s => rfl⟩ | exact ⟨fun s => kept_ite ⟨rfl, rfl⟩ ⟨rfl, rfl⟩, fun k s => holding_ite rfl rfl⟩

/-- What an effect leaves of the slots, in a part that holds no record and stays in RUNNING. -/
theorem slots_of_answer (aw : s.Awake) (hu : u.work.slots = s.work.slots ∨ u.part.state ≠ .running) (h : s.answer u = .next t)
    (hr : t.part.state = .running) : t.work.slots = s.work.slots := by
  rcases hu with e | e
  · rw [answer_slots aw e] at h
    cases h; exact e
  · rw [answer_awake aw] at h
    cases h
    exact absurd ((congrArg PartCtl.state (takeFreed_same s u).2.2.1).symm.trans hr) e

theorem slots_softReset (s : State) : s.softReset.work.slots = s.work.slots := by
  unfold State.softReset
  split
  · rfl
  · obtain ⟨ls, e, -⟩ := eachLane_form Lane.beginDrain s.work
    dsimp only
    rw [e]

theorem slots_writeControl (s : State) (v : Word) : (s.writeControl v).work.slots = s.work.slots := by
  have e : s.enable.work = s.work := work_enable s
  unfold State.writeControl
  split
  · exact slots_softReset s
  · dsimp only
    split <;> split <;> split <;> simp [State.clearMisuse, work_quiesce, work_quiesceRelease, e]

theorem slots_writeAt (s : State) (o : BitVec 5) (v : Word) : (s.writeAt o v).work.slots = s.work.slots := by
  have ite : ∀ {p : Prop} [Decidable p] {a b : State}, a.work.slots = s.work.slots → b.work.slots = s.work.slots →
      (if p then a else b).work.slots = s.work.slots := by intros; split <;> assumption
  unfold State.writeAt
  exact ite (slots_writeControl s v) (ite rfl (ite rfl (ite (congrArg _ (work_writeJobTail s v)) (ite rfl
    (ite (congrArg _ (work_writeDoneHead s v)) (ite (congrArg _ (work_writeNotify s v)) rfl))))))

theorem slots_fullWrite {be : BitVec 4} {k : State → State} (h : (k s).work.slots = s.work.slots) :
    (s.fullWrite be k).work.slots = s.work.slots := by
  unfold State.fullWrite
  split
  · exact h
  · rfl

/-- A command that is not apart frees no slot in a part that holds no record and stays in RUNNING. -/
theorem slots_exec (aw : s.Awake) (hh : s.intake.held = none) (c : Instr) (q : quietCmd c = false)
    (hc : ∀ e, c ≠ .jobRecordReadEnd e) (h : exec c s = .next t) (hr : t.part.state = .running) :
    t.work.slots = s.work.slots := by
  cases c <;> first | (exact absurd q.symm Bool.false_ne_true) | skip
  case jobRecordReadEnd e => exact absurd rfl (hc e)
  case powerOnReset => cases h; cases hr
  case pinReset => cases h; cases hr
  case resetNRelease => cases h; rfl
  all_goals refine slots_of_answer aw ?_ h hr
  case enable => exact .inl (congrArg _ (work_enable s))
  case quiesce => exact .inl (congrArg _ (work_quiesce s))
  case quiesceRelease => exact .inl (congrArg _ (work_quiesceRelease s))
  case softReset => exact .inl (slots_softReset s)
  case jobTailWrite be v => exact .inl (slots_fullWrite (congrArg _ (work_writeJobTail s v)))
  case doneHeadWrite be v => exact .inl (slots_fullWrite (congrArg _ (work_writeDoneHead s v)))
  case registerWrite o be v => exact .inl (slots_fullWrite (slots_writeAt s o v))
  case jobRecordReadStart => unfold State.startRecordRead; split <;> exact .inl rfl
  case jobTake => rw [jobTake_idle (.inl hh)]; exact .inl rfl
  case postBegin => obtain ⟨p, e⟩ := postBegin_frame s; rw [e]; exact .inl rfl
  case setupReadEnd r =>
    split
    · unfold State.setupEnd
      dsimp only
      split
      · cases r with
        | error => exact .inr (by rw [State.judgeSetup, halt_state]; decide)
        | ok data =>
          rw [State.judgeSetup]
          split
          · exact .inl rfl
          · exact .inr (by rw [halt_state]; decide)
      · exact .inl rfl
    · exact .inl rfl
  case reportRecordWriteEnd r =>
    split
    · obtain ⟨p, k, -, e⟩ := reportEnd_frame s _ r
      rw [e]; exact .inl rfl
    · exact .inl rfl
  case completionWriteEnd r =>
    split
    · unfold State.completionEnd
      dsimp only
      cases r with
      | ok =>
        dsimp only
        split
        · rw [work_tryQuiesced]; exact .inl rfl
        · exact .inl rfl
      | error =>
        dsimp only
        split
        · exact .inr (by rw [halt_state]; decide)
        · exact .inl rfl
    · exact .inl rfl
  case drainEnd =>
    split
    · exact .inr (by simp [State.endDrain])
    · exact .inl rfl

/-- Settles O13: a command that frees a slot is apart from the held record (`slots_exec`, `exec_apart`), which is then taken. -/
theorem freedSlotTakesTheWaitingRecord : Obligations.FreedSlotTakesTheWaitingRecord := by
  intro s t c g r args i aw hs hg hh hj full hc ht hr hi low
  have aw' : (holding none s).Awake := aw
  replace ht : exec c (holding none s) = .next t := ht
  cases q : quietCmd c with
  | false =>
    have e := slots_exec aw' rfl c q hc ht hr
    exact absurd ((congrArg (fun v => Vector.get v i) e).symm.trans hi) (full i)
  | true =>
    obtain ⟨F, hF, ap⟩ := exec_apart c q
    have free : t.work.freeSlot = some i := freeSlot_eq hi low
    obtain ⟨ki, kr⟩ := ap.kept s
    rw [hF, ap.holding, answer_none aw' rfl] at ht
    cases ht
    rw [hF, answer_awake aw, State.takeFreed, if_pos]
    · rw [jobTake_take (s := F s) (r := r) (by rw [ki, hh]) (canTake_slotted (s := F s) hr hj free),
        take_slotted (s := F s) (by rw [kr]; exact hg) hj free]
      rw [congrArg Rings.jobHead kr, congrArg Intake.counter ki]
      rfl
    · exact ⟨by rw [freeSlot_none_iff.mpr full]; rfl, by rw [show (F s).work.freeSlot = some i from free]; rfl,
        by simp [State.heldWaits, ki, hh, hj]⟩

end Sys2Proof.Proofs
end

section
/-! A CANCEL resolved at intake (O14), and the masks of a completing job (R16). -/

namespace Sys2Proof.Proofs

-- One theorem at a time: a thread for each would ask for more stack than the check allows.
set_option Elab.async false

open Sys2Proof.Machine Sys2Proof.Laws

variable {s t u : State} {w : Work} {env : Env} {i : SlotId} {j : JobSlot}

/-! ## The search for the named job (R3, R130) -/

theorem oldest_none {c : Word} {xs : List Named} : oldest c xs = none ↔ xs = [] := by
  cases xs with
  | nil => simp [oldest]
  | cons x xs => rw [oldest]; split <;> [simp; (split <;> simp)]

/-- The oldest member is a member, and none is older (R3). -/
theorem oldest_spec {c : Word} {xs : List Named} {x : Named} (h : oldest c xs = some x) :
    x ∈ xs ∧ ∀ y ∈ xs, (c - y.adm).toNat ≤ (c - x.adm).toNat := by
  induction xs generalizing x with
  | nil => cases h
  | cons z zs ih =>
    rw [oldest] at h
    split at h
    · rename_i e
      cases h
      rw [oldest_none.mp e]
      simp
    · rename_i y e
      obtain ⟨mem, le⟩ := ih e
      split at h
      · rename_i o
        cases h
        have lt : (c - z.adm).toNat < (c - x.adm).toNat := by simpa [older] using o
        refine ⟨.tail _ mem, fun v hv => ?_⟩
        cases hv with
        | head => exact lt.le
        | tail _ hv => exact le v hv
      · rename_i o
        cases h
        have ge : (c - y.adm).toNat ≤ (c - z.adm).toNat := by simpa [older] using o
        refine ⟨.head _, fun v hv => ?_⟩
        cases hv with
        | head => exact le_rfl
        | tail _ hv => exact (le v hv).trans ge

theorem mem_namedSlots {tag : Word} {x : Named} :
    x ∈ w.namedSlots tag ↔ ∃ i j, w.slot i = some j ∧ j.tag = tag ∧ x = .slot i j.adm := by
  simp only [Work.namedSlots, List.mem_filterMap, mem_allSlots, true_and, Option.bind_eq_some_iff, Option.ite_none_right_eq_some,
    Option.some.injEq]
  exact ⟨fun ⟨i, j, hj, ht, e⟩ => ⟨i, j, hj, ht, e.symm⟩, fun ⟨i, j, hj, ht, e⟩ => ⟨i, j, hj, ht, e.symm⟩⟩

theorem mem_namedEntries {tag : Word} {x : Named} :
    x ∈ w.namedEntries tag ↔ ∃ e ∈ w.queue, e.tag = tag ∧ e.kind ≠ 7 ∧ x = .entry e.adm := by
  simp only [Work.namedEntries, List.mem_filterMap, Option.ite_none_right_eq_some, Option.some.injEq]
  exact ⟨fun ⟨e, he, ⟨ht, hk⟩, q⟩ => ⟨e, he, ht, hk, q.symm⟩, fun ⟨e, he, ht, hk, q⟩ => ⟨e, he, ⟨ht, hk⟩, q.symm⟩⟩

/-- The named job is the oldest member of the search set; none is named when the set is empty (R130). -/
theorem findNamed_spec (w : Work) (counter tag : Word) :
    (w.findNamed counter tag = none ↔
      (∀ i j, w.slot i = some j → j.tag ≠ tag) ∧ ∀ e ∈ w.queue, e.tag = tag → e.kind = 7)
    ∧ ∀ x, w.findNamed counter tag = some x →
      ((∃ i j, x = .slot i j.adm ∧ w.slot i = some j ∧ j.tag = tag)
        ∨ ∃ e ∈ w.queue, x = .entry e.adm ∧ e.tag = tag ∧ e.kind ≠ 7)
      ∧ (∀ i j, w.slot i = some j → j.tag = tag → (counter - j.adm).toNat ≤ (counter - x.adm).toNat)
      ∧ ∀ e ∈ w.queue, e.tag = tag → e.kind ≠ 7 → (counter - e.adm).toNat ≤ (counter - x.adm).toNat := by
  constructor
  · rw [Work.findNamed, oldest_none, List.append_eq_nil_iff, List.eq_nil_iff_forall_not_mem, List.eq_nil_iff_forall_not_mem]
    refine and_congr ⟨fun h i j hj ht => h _ (mem_namedSlots.mpr ⟨i, j, hj, ht, rfl⟩), fun h x hx => ?_⟩
      ⟨fun h e he ht => by_contra fun hk => h _ (mem_namedEntries.mpr ⟨e, he, ht, hk, rfl⟩), fun h x hx => ?_⟩
    · obtain ⟨i, j, hj, ht, -⟩ := mem_namedSlots.mp hx
      exact h i j hj ht
    · obtain ⟨e, he, ht, hk, -⟩ := mem_namedEntries.mp hx
      exact hk (h e he ht)
  · intro x hx
    obtain ⟨mem, le⟩ := oldest_spec hx
    refine ⟨?_, fun i j hj ht => le _ (List.mem_append_left _ (mem_namedSlots.mpr ⟨i, j, hj, ht, rfl⟩)),
      fun e he ht hk => le _ (List.mem_append_right _ (mem_namedEntries.mpr ⟨e, he, ht, hk, rfl⟩))⟩
    rcases List.mem_append.mp mem with m | m
    · obtain ⟨i, j, hj, ht, e⟩ := mem_namedSlots.mp m
      exact .inl ⟨i, j, e, hj, ht⟩
    · obtain ⟨e, he, ht, hk, q⟩ := mem_namedEntries.mp m
      exact .inr ⟨e, he, q, ht, hk⟩

/-! ## The masks of a completing job (R16) -/

theorem mask_ext {a b : LaneMask} (h : ∀ n, hasLane a n = hasLane b n) : a = b :=
  BitVec.eq_of_getLsbD_eq fun k hk => h ⟨k, hk⟩

theorem hasLane_zero (n : LaneId) : hasLane 0#8 n = false := by simp [hasLane]

theorem hasLane_lanesWith (j : JobSlot) (p : LaneResult → Bool) (n : LaneId) :
    hasLane (j.lanesWith p) n = (hasLane j.mask n && (j.results.get n).elim false p) := by
  have h := hasLane_foldl_addLane (fun k => (j.results.get k).elim false p) (lanesIn j.mask) 0#8 n
  rw [hasLane_zero, Bool.false_or] at h
  have e : j.lanesWith p = (lanesIn j.mask).foldl (fun m k => if (j.results.get k).elim false p then addLane m k else m) 0 := by
    unfold JobSlot.lanesWith
    congr 1
    funext m k
    cases j.results.get k <;> rfl
  rw [e]
  refine h.trans ?_
  simp [mem_lanesIn]

/-! ## Rows 1 to 5 of Table 8-1 -/

theorem judge_cancel {r : List Byte} (h : byteAt r 4 = 7) : judgeRecord r = .cancel (wordAt r 16) := by
  simp [judgeRecord, recordKind, h, cancelKind]

/-- A job removed while WAITING: every requested lane NOT_RUN, and its cancel link (R132). -/
def withdrawn (j : JobSlot) (k : CancelLink) : JobSlot :=
  { j with results := Vector.ofFn (fun n : LaneId => if hasLane j.mask n then some .notRun else none), cancelLink := some k }

theorem withdrawn_masks (j : JobSlot) (k : CancelLink) :
    (withdrawn j k).notRun = j.mask ∧ (withdrawn j k).succeeded = 0 ∧ (withdrawn j k).failed = 0 := by
  have get : ∀ n, (withdrawn j k).results.get n = if hasLane j.mask n then some .notRun else none := fun n => by
    exact (Vector.getElem_ofFn n.isLt).trans rfl
  refine ⟨mask_ext fun n => ?_, mask_ext fun n => ?_, mask_ext fun n => ?_⟩ <;>
    refine (hasLane_lanesWith (withdrawn j k) _ n).trans ?_ <;> rw [get n] <;>
    cases h : hasLane j.mask n <;> simp [h, withdrawn, hasLane_zero]

/-- The entries of a job removed while WAITING (R132): nothing but its slot, its place in the Grant List and the Post Queue changes. -/
theorem cancelWaiting_spec (hj : w.slot i = some j) (hc : j.ctx = none) (k : CancelLink) :
    (w.cancelWaiting env i k).queue = w.queue ++ [(withdrawn j k).entry env.jobHead,
        cancelEntry k.tag k.adm j.tag .cancelDone 1 env.jobHead]
      ∧ (w.cancelWaiting env i k).slot i = none ∧ (∀ m, m ≠ i → (w.cancelWaiting env i k).slot m = w.slot m)
      ∧ (w.cancelWaiting env i k).grantList = w.grantList.filter (fun x => x ≠ i)
      ∧ (w.cancelWaiting env i k).lanes = w.lanes ∧ (w.cancelWaiting env i k).owner = w.owner
      ∧ (w.cancelWaiting env i k).ctxs = w.ctxs := by
  have e : w.cancelWaiting env i k = Work.setSlot
      { w with grantList := w.grantList.filter (fun x => x ≠ i)
               queue := (w.queue ++ [(withdrawn j k).entry env.jobHead]) ++ [cancelEntry k.tag k.adm j.tag .cancelDone 1 env.jobHead]
               reserved := w.reserved - 1 - 1
               slots := vset w.slots i (some (withdrawn j k)) } i none := by
    unfold Work.cancelWaiting
    dsimp only
    rw [Work.modSlot, show Work.slot { w with grantList := w.grantList.filter (fun x => x ≠ i) } i = some j from hj]
    unfold Work.completeAs
    rw [slot_setSlot, if_pos rfl]
    dsimp only [Option.map_some]
    split
    · rename_i c q
      exact absurd (q.symm.trans hc) (Option.some_ne_none c)
    · rfl
  rw [e]
  refine ⟨?_, ?_, fun m hm => ?_, rfl, rfl, rfl, rfl⟩
  · simp [Work.setSlot]
  · simp
  · rw [slot_setSlot, if_neg hm]; exact (vset_get _ _ _ _).trans (if_neg hm)

/-- The answer of a CANCEL that changes no job (R131). -/
theorem resolve_answered {counter tag adm named : Word} {st : JobStatus} {d : Half}
    (h : (w.findNamed counter named = none ∧ st = .notFound ∧ d = 0)
      ∨ (∃ i a j, w.findNamed counter named = some (.slot i a) ∧ w.slot i = some j
          ∧ ((j.cancelLink.isSome = true ∧ st = .alreadyCancelling ∧ d = 0)
            ∨ (j.cancelLink = none ∧ j.state = .ending ∧ st = .tooLate ∧ d = 2)))
      ∨ (∃ a, w.findNamed counter named = some (.entry a) ∧ st = .tooLate ∧ d = 1)) :
    w.resolveCancel env counter tag adm named = w.fillEntry (cancelEntry tag adm named st d env.jobHead) := by
  unfold Work.resolveCancel
  rcases h with ⟨f, rfl, rfl⟩ | ⟨i, a, j, f, hj, ⟨hc, rfl, rfl⟩ | ⟨hc, hs, rfl, rfl⟩⟩ | ⟨a, f, rfl, rfl⟩ <;> rw [f]
  · simp [hj, hc]
  · simp [hj, hc, hs]

theorem resolve_waiting {counter tag adm named a : Word} (f : w.findNamed counter named = some (.slot i a)) (hj : w.slot i = some j)
    (hc : j.cancelLink = none) (hs : j.state = .waiting) :
    w.resolveCancel env counter tag adm named = w.cancelWaiting env i { tag := tag, adm := adm } := by
  unfold Work.resolveCancel
  rw [f]
  simp [hj, hc, hs]

/-- Settles O14: the search (`findNamed_spec`), the answers of rows 1 to 4, and the removal of a WAITING job. -/
theorem cancelIsResolvedAtIntake : Obligations.CancelIsResolvedAtIntake := by
  refine ⟨findNamed_spec, fun s g r aw hs hg hh hk => ⟨fun st d h head hd => ?_, fun i a j f hj hc hw hx => ?_⟩⟩
  · have hj := judge_cancel hk
    rw [exec_jobTake aw hh (canTake_cancel hs hj), hd]
    unfold State.take State.onWork Work.admitRecord
    dsimp only
    rw [hj]
    dsimp only
    rw [resolve_answered (w := { s.work with reserved := s.work.reserved + 1 }) h, jobSize_some hg]
    rfl
  · have hr := judge_cancel hk
    rw [exec_jobTake aw hh (canTake_cancel hs hr)]
    have e : (s.take r).work = Work.cancelWaiting { s.work with reserved := s.work.reserved + 1 }
        (State.env { s with rings := { s.rings with jobHead := (s.rings.jobHead + 1) % s.rings.jobSize } }) i
        { tag := wordAt r 0, adm := s.intake.counter } := by
      unfold State.take State.onWork Work.admitRecord
      dsimp only
      rw [hr]
      exact resolve_waiting (w := { s.work with reserved := s.work.reserved + 1 }) f hj hc hw
    obtain ⟨q, none, others, grant, lanes, owner, ctxs⟩ := cancelWaiting_spec (w := { s.work with reserved := s.work.reserved + 1 })
      (env := State.env { s with rings := { s.rings with jobHead := (s.rings.jobHead + 1) % s.rings.jobSize } }) hj hx
      { tag := wordAt r 0, adm := s.intake.counter }
    rw [← e] at q none others grant lanes owner ctxs
    obtain ⟨mn, ms, mf⟩ := withdrawn_masks j { tag := wordAt r 0, adm := s.intake.counter }
    exact ⟨_, _, _, rfl, q, none, others, grant, lanes, owner, ctxs, rfl, rfl, rfl, rfl, rfl, mn, ms, mf, rfl, rfl, rfl, rfl, rfl,
      rfl, rfl⟩

end Sys2Proof.Proofs
end

section
/-! Posting (O15, O16), and what a halt does to the lanes (O17). -/

namespace Sys2Proof.Proofs

-- One theorem at a time: a thread for each would ask for more stack than the check allows.
set_option Elab.async false

open Sys2Proof.Machine Sys2Proof.Laws

variable {s t u : State} {w : Work} {env : Env} {n : LaneId}

/-! ## Posting begins and goes on (R153) -/

theorem exec_postBegin (aw : s.Awake) : exec .postBegin s = .next s.postBegin.refreshIrq := by
  obtain ⟨p, e⟩ := postBegin_frame s
  show s.answer s.postBegin = _
  rw [e]
  exact answer_slot aw

theorem exec_reportEnd (aw : s.Awake) {i : Nat} (hp : s.port = some .postQueue) (hi : s.posting = some (.report i)) (r : WriteEnd) :
    exec (.reportRecordWriteEnd r) s = .next (s.reportEnd i r).refreshIrq := by
  obtain ⟨p, q, -, e⟩ := reportEnd_frame s i r
  have h : exec (.reportRecordWriteEnd r) s = s.answer (s.reportEnd i r) := by
    show s.answer (match s.port, s.posting with
      | some .postQueue, some (.report i) => s.reportEnd i r
      | _, _ => s) = _
    rw [hp, hi]
  rw [h]
  exact answer_slots aw (by rw [e])

/-- Settles O15: the conditions of posting, and the write after each report record. -/
theorem postingWritesReportsFirst : Obligations.PostingWritesReportsFirst := by
  refine ⟨fun s g aw hg hp => ⟨fun e es hq hs room => ?_, fun h => ?_⟩, fun s i e es aw hs hp hi hq => ?_⟩
  · rw [exec_postBegin aw, postBegin_begins hp hq ((posts_iff _).mpr hs) ((hasRoom_iff hg).mpr room)]
    rfl
  · rw [exec_postBegin aw, postBegin_waits]
    rcases h with h | h | h
    · exact .inr (.inl h)
    · refine .inr (.inr (.inl ?_))
      simp only [List.mem_cons, List.not_mem_nil, or_false] at h
      rcases h with h | h | h | h <;> rw [h] <;> rfl
    · refine .inr (.inr (.inr (Bool.eq_false_iff.mpr (fun q => ?_))))
      exact absurd ((hasRoom_iff hg).mp q) (by omega)
  · have posts : s.part.state.posts = true := (posts_iff _).mpr hs
    rw [exec_reportEnd aw hp hi, exec_reportEnd aw hp hi]
    refine ⟨fun lt => ?_, fun ge => ?_, ?_⟩ <;> unfold State.reportEnd <;> dsimp only <;> rw [posts] <;>
      simp only [Bool.not_true, Bool.false_eq_true, if_false, Work.modHead, hq]
    · simp [lt]
    · simp [show ¬ i + 1 < e.lanes.length by omega]

/-! ## A lane at a halt (R59, R161) -/

/-- A lane whose exchange is over in a part that does not act: at rest once no host transfer is in flight (R161). -/
def restOnce (l : Lane) : Lane := if l.atBoundary then l.rest else l

/-- What a halt makes of a lane (R161). -/
def haltedLane (l : Lane) : Lane :=
  if l.linkIdle then restOnce l
  else match l.setStopMark with
    | .goesOn l => l
    | .ends l o => match l.link.req with
      | none => l
      | some r => restOnce (l.exchangeOver r.purpose o)

theorem restIfQuiet_eq (w : Work) (n : LaneId) : w.restIfQuiet n = w.modLane n restOnce := by
  unfold Work.restIfQuiet restOnce Work.modLane
  dsimp only
  split
  · rfl
  · exact (setLane_self _ _).symm

/-- In a part that does not act an exchange ends at its lane, and nothing else follows (R161). -/
theorem exchangeEnd_still (hn : env.acting = false) (o : ExchangeOutcome) : w.exchangeEnd env n o =
    w.modLane n (fun l => match l.link.req with | none => l | some r => restOnce (l.exchangeOver r.purpose o)) := by
  unfold Work.exchangeEnd Work.modLane
  dsimp only
  cases (w.lane n).link.req with
  | none => exact (setLane_self _ _).symm
  | some r =>
    dsimp only
    rw [hn, restIfQuiet_eq]
    exact modLane_modLane w n (Lane.exchangeOver r.purpose o) restOnce

theorem haltLane_eq (hn : env.acting = false) (w : Work) (n : LaneId) : Work.haltLane env w n = w.modLane n haltedLane := by
  unfold Work.haltLane haltedLane
  cases h : (w.lane n).linkIdle with
  | true =>
    rw [restIfQuiet_eq]
    simp [Work.modLane, h]
  | false =>
    simp only [Bool.not_false, if_true, Work.modLane, h, Bool.false_eq_true, if_false]
    cases (w.lane n).setStopMark with
    | goesOn l => rfl
    | ends l o =>
      show (w.setLane n l).exchangeEnd env n o = _
      rw [exchangeEnd_still hn]
      simp [Work.modLane]

/-- A part that is not HALTED: everything that a halt does (R161). -/
theorem halt_spec (s : State) (code : FatalCode) (h : s.part.state ≠ .halted) : ∃ ls : Vector Lane 8, s.halt code =
    { s with part := { s.part with state := .halted, fatal := code }, intake := s.intake.stop,
             work := { s.work with lanes := ls } }
      ∧ ∀ m, ls.get m = haltedLane (s.work.lane m) := by
  obtain ⟨ls, e, get⟩ := eachLane_form haltedLane s.work
  refine ⟨ls, ?_, get⟩
  rw [State.halt, if_neg h]
  unfold State.onWork
  dsimp only
  rw [← e]
  congr 2
  funext w n
  exact haltLane_eq rfl w n

/-! ## The completion record's write (R154, R160, R161) -/

theorem exec_completionEnd (hp : s.port = some .postQueue) (hc : s.posting = some .completion) (r : WriteEnd) :
    exec (.completionWriteEnd r) s = s.answer (s.completionEnd r) := by
  show s.answer (match s.port, s.posting with
    | some .postQueue, some .completion => s.completionEnd r
    | _, _ => s) = _
  rw [hp, hc]

/-- The end of a completion write that fails in a part that posts. -/
theorem exec_completionError (hp : s.port = some .postQueue) (hc : s.posting = some .completion)
    (hs : s.part.state ∈ [.running, .quiescing, .quiesced]) : exec (.completionWriteEnd .error) s
      = s.answer (State.halt { s with port := none, posting := none } .postWriteError) := by
  rw [exec_completionEnd hp hc, State.completionEnd]
  exact congrArg s.answer (if_pos ((posts_iff _).mpr hs))

theorem exec_completionOk (aw : s.Awake) (hp : s.port = some .postQueue) (hc : s.posting = some .completion)
    (hs : s.part.state ∈ [.running, .quiescing, .quiesced, .halted]) : exec (.completionWriteEnd .ok) s
      = .next (State.refreshIrq (State.tryQuiesced (State.posted { s with port := none, posting := none }))) := by
  have h : s.part.state.posts = true ∨ s.part.state = .halted := by
    simp only [List.mem_cons, List.not_mem_nil, or_false] at hs
    rcases hs with h | h | h | h <;> rw [h] <;> decide
  rw [exec_completionEnd hp hc, State.completionEnd]
  refine (congrArg s.answer (if_pos h)).trans (answer_slots aw ?_)
  rw [work_tryQuiesced]
  rfl

theorem posted_eq {g : Geometry} {e : Entry} {es : List Entry} (hg : s.rings.geom = some g)
    (hw : s.rings.writeIdx < 2 ^ g.doneCode) (hq : s.work.queue = e :: es) : s.posted =
    { s with
      rings := { s.rings with
        writeIdx := if s.rings.writeIdx + 1 = 2 ^ g.doneCode then 0 else s.rings.writeIdx + 1
        marker := if s.rings.writeIdx + 1 = 2 ^ g.doneCode then !s.rings.marker else s.rings.marker
        postCount := s.rings.postCount + 1
        postTimes := s.rings.postTimes ++ [s.clock / 48] }
      work := { s.work with queue := es } } := by
  have size : s.rings.doneSize = 2 ^ g.doneCode := by simp [Rings.doneSize, hg, Geometry.doneSize]
  have idx : (s.rings.writeIdx + 1) % 2 ^ g.doneCode = if s.rings.writeIdx + 1 = 2 ^ g.doneCode then 0 else s.rings.writeIdx + 1 := by
    split
    · rename_i h; rw [h, Nat.mod_self]
    · exact Nat.mod_eq_of_lt (by omega)
  unfold State.posted
  dsimp only
  rw [size, idx, hq]
  rfl

/-- Settles O16: the entry is posted (`posted_eq`), or the part is halted, or the write counts for nothing. -/
theorem completionWritePosts : Obligations.CompletionWritePosts := by
  intro s g e es aw hg hw hp hc hq
  refine ⟨fun hs empty he u hu => ?_, fun hs => ?_, fun hs => ?_, fun hs => ?_⟩
  · have post : State.posted { s with port := none, posting := none } = u :=
      (posted_eq (s := { s with port := none, posting := none }) hg hw hq).trans hu.symm
    have quiet : u.isQuiet = true ↔ empty := by
      rw [isQuiet_iff, he, hu]
      exact ⟨fun ⟨a, b, c, d, f⟩ => ⟨a, c, b, d, f⟩, fun ⟨a, c, b, d, f⟩ => ⟨a, b, c, d, f⟩⟩
    rw [exec_completionOk aw hp hc hs, post]
    refine ⟨fun h => ?_, fun h => ?_⟩
    · rw [tryQuiesced_quiet (quiet.mpr h), hu]
    · rw [tryQuiesced_busy (fun q => h (quiet.mp q))]
  · have hn : (State.part { s with port := none, posting := none }).state ≠ .halted := by
      simp only [List.mem_cons, List.not_mem_nil, or_false] at hs
      rcases hs with h | h | h <;> simp [h]
    rw [exec_completionError hp hc hs]
    obtain ⟨a, irq⟩ := answer_halt (s := s) aw .postWriteError hn
    obtain ⟨ls, h, -⟩ := halt_spec _ .postWriteError hn
    refine ⟨_, a, ?_, ?_, ?_, ?_, ?_, irq⟩ <;> rw [h] <;> rfl
  · have hn : ¬ s.part.state.posts = true := by
      simp only [List.mem_cons, List.not_mem_nil, or_false] at hs
      rcases hs with h | h <;> rw [h] <;> decide
    rw [exec_completionEnd hp hc, State.completionEnd]
    exact (congrArg s.answer (if_neg hn)).trans (answer_slot aw)
  · rw [exec_completionEnd hp hc, State.completionEnd]
    exact (congrArg s.answer (if_neg (by rw [show (State.part { s with port := none, posting := none }).state = .draining from hs]; decide))).trans
      (answer_slot aw)

/-! ## The lanes at a halt (R59, R161) -/

section lanes

variable {l : Lane}

theorem haltedLane_idle (h : l.link.state = .idle) : haltedLane l = if l.eng.xfer = none then l.rest else l := by
  unfold haltedLane restOnce
  simp [Lane.linkIdle, Lane.atBoundary, h]

/-- The exchange of a lane that does not wait for a quiet line runs on with its stop mark (R59). -/
theorem haltedLane_marked (h : l.link.state ∈ [.sending, .awaiting, .busyHold] ∨ l.Listens) :
    haltedLane l = { l with link := { l.link with stopMark := true } } := by
  unfold haltedLane Lane.setStopMark
  simp only [List.mem_cons, List.not_mem_nil, or_false] at h
  rcases h with (h | h | h) | ⟨h, d⟩ <;> simp [Lane.linkIdle, h]
  simp [d]

theorem haltedLane_discarding {r : Request} (h : l.link.state = .receiving) (d : l.link.discarding = true)
    (hr : l.link.req = some r) : haltedLane l = restOnce (l.exchangeOver r.purpose .stopped) := by
  unfold haltedLane Lane.setStopMark
  simp [Lane.linkIdle, h, d, hr]

/-- A lane whose exchange was stopped: the record is clear, and the session ends with a CLOSE (R34, R58). -/
theorem exchangeOver_stopped (l : Lane) (p : Purpose) : (l.exchangeOver p .stopped).link = .idle
    ∧ (l.exchangeOver p .stopped).lines = { l.lines with tdatDriven := false }
    ∧ (l.exchangeOver p .stopped).ctx.answered = false ∧ (l.exchangeOver p .stopped).ctx.seq = l.ctx.seq + 1
    ∧ (l.exchangeOver p .stopped).supply = l.supply ∧ (l.exchangeOver p .stopped).eng = l.eng
    ∧ (l.exchangeOver p .stopped).ctx.state = if l.ctx.state = .active then .ready else l.ctx.state := by
  unfold Lane.exchangeOver Lane.unanswered Lane.afterExchange Lane.closeExchange
  by_cases a : l.ctx.state = .active <;> cases c : p.isClose <;>
    simp [ExchangeOutcome.answered, a, Lane.endSession]

theorem rest_pins (l : Lane) : l.rest.link = l.link ∧ l.rest.lines.tdatDriven = l.lines.tdatDriven ∧ l.rest.ctx.answered = l.ctx.answered
    ∧ l.rest.ctx.seq = l.ctx.seq ∧ l.rest.supply = l.supply := by
  unfold Lane.rest; split <;> exact ⟨rfl, rfl, rfl, rfl, rfl⟩

theorem restOnce_pins (l : Lane) : (restOnce l).link = l.link ∧ (restOnce l).lines.tdatDriven = l.lines.tdatDriven
    ∧ (restOnce l).ctx.answered = l.ctx.answered ∧ (restOnce l).ctx.seq = l.ctx.seq ∧ (restOnce l).supply = l.supply := by
  unfold restOnce; split <;> [exact rest_pins l; exact ⟨rfl, rfl, rfl, rfl, rfl⟩]

end lanes

/-- The three read and write errors each halt a part that is not HALTED, and nothing else happens. -/
theorem halting_error (aw : s.Awake) {c : Instr}
    (h : (s.part.state = .loading ∧ s.port = some .setup ∧ c = .setupReadEnd .error)
      ∨ (s.part.state = .running ∧ s.port = some .intake ∧ s.intake.readVoid = false ∧ c = .jobRecordReadEnd .error)
      ∨ (s.part.state ∈ [.running, .quiescing, .quiesced] ∧ s.port = some .postQueue ∧ s.posting = some .completion
          ∧ c = .completionWriteEnd .error)) :
    ∃ u code, exec c s = .next (State.refreshIrq (State.halt u code)) ∧ u.part.state ≠ .halted ∧ u.port = none ∧ u.regs = s.regs
      ∧ u.rings = s.rings ∧ u.work = s.work := by
  rcases h with ⟨hs, hp, rfl⟩ | ⟨hs, hp, hv, rfl⟩ | ⟨hs, hp, hc, rfl⟩
  · have hn : (State.part { s with port := none, part := { s.part with setupReading := false } }).state ≠ .halted := by
      simp [hs]
    exact ⟨_, _, (exec_setupRead hs hp rfl).trans (answer_halt aw .setupReadError hn).1, hn, rfl, rfl, rfl, rfl⟩
  · have hn : (State.part { s with port := none, intake := { s.intake with reading := false, readVoid := false } }).state
        ≠ .halted := by simp [hs]
    refine ⟨_, .jobReadError, ?_, hn, rfl, rfl, rfl, rfl⟩
    rw [exec_recordRead hp rfl, recordArrives_error hs hv, jobTake_idle (.inr (by rw [halt_state]; decide))]
    exact (answer_halt aw .jobReadError hn).1
  · have hn : (State.part { s with port := none, posting := none }).state ≠ .halted := by
      simp only [List.mem_cons, List.not_mem_nil, or_false] at hs
      rcases hs with h | h | h <;> simp [h]
    exact ⟨_, _, (exec_completionError hp hc hs).trans (answer_halt aw .postWriteError hn).1, hn, rfl, rfl, rfl, rfl⟩

/-- Settles O17: a halt changes no table but the lanes (`halt_spec`), and each lane by its situation (`haltedLane`). -/
theorem haltBringsTheLanesToRest : Obligations.HaltBringsTheLanesToRest := by
  intro s c aw h
  obtain ⟨u, code, e, hn, port, regs, rings, work⟩ := halting_error aw h
  obtain ⟨ls, hu, get⟩ := halt_spec u code hn
  rw [work] at get
  have lane : ∀ n, (u.halt code).refreshIrq.work.lane n = haltedLane (s.work.lane n) := fun n => by rw [hu]; exact get n
  refine ⟨_, e, ?_, ?_, ?_, ?_, ?_, ?_, ?_, fun n l hl => ?_⟩
  · rw [refreshIrq_part, halt_state]
  · simp [State.irqCondition, halt_state]
  · rw [hu]; exact port
  · rw [hu]; rfl
  · rw [hu]; exact regs
  · rw [hu]; exact rings
  · rw [hu, ← work]; rfl
  rw [lane, ← hl]
  refine ⟨fun hi hx => ?_, fun hi hx hs => ?_, haltedLane_marked, fun hr hd hq => ?_⟩
  · rw [haltedLane_idle hi]
    rcases hx with hx | hx
    · rw [if_neg (Option.isSome_iff_ne_none.mp hx)]
    · rw [rest_stays hx, ite_self]
  · rw [haltedLane_idle hi, if_pos hx, rest_holds hs]
    exact ⟨rfl, rfl, rfl, rfl, rfl, rfl, rfl⟩
  · obtain ⟨r, hr'⟩ := Option.isSome_iff_exists.mp hq
    obtain ⟨a, b, c, d, f, g, st⟩ := exchangeOver_stopped l r.purpose
    obtain ⟨a', b', c', d', f'⟩ := restOnce_pins (l.exchangeOver r.purpose .stopped)
    rw [haltedLane_discarding hr hd hr']
    refine ⟨by rw [a', a]; rfl, by rw [b', b], by rw [c', c], by rw [d', d], by rw [f', f], fun hx hs => ?_⟩
    have bound : (l.exchangeOver r.purpose .stopped).atBoundary = true := by
      simp [Lane.atBoundary, Lane.linkIdle, a, g, hx, LinkUnit.idle]
    rw [restOnce, if_pos bound, rest_holds]
    · exact ⟨rfl, rfl, rfl, rfl⟩
    · rw [st]
      simp only [List.mem_cons, List.not_mem_nil, or_false] at hs
      rcases hs with h | h <;> simp [h]

end Sys2Proof.Proofs
end

section
/-! The records written to host memory (O18). -/

namespace Sys2Proof.Proofs

-- One theorem at a time: a thread for each would ask for more stack than the check allows.
set_option Elab.async false

open Sys2Proof.Machine Sys2Proof.Laws

/-! ## Little-endian fields in a list of bytes -/

theorem byteAt_append_left {a b : List Byte} {i : Nat} (h : i < a.length) : byteAt (a ++ b) i = byteAt a i := by
  simp [byteAt, List.getD_eq_getElem?_getD, List.getElem?_append_left h]

theorem byteAt_append_right {a b : List Byte} {i : Nat} (h : a.length ≤ i) : byteAt (a ++ b) i = byteAt b (i - a.length) := by
  simp [byteAt, List.getD_eq_getElem?_getD, List.getElem?_append_right h]

theorem fieldAt_append_left {a b : List Byte} {i n : Nat} (h : i + n ≤ a.length) : fieldAt (a ++ b) i n = fieldAt a i n := by
  induction n generalizing i with
  | zero => rfl
  | succ n ih => rw [fieldAt, fieldAt, ih (by omega), byteAt_append_left (by omega)]

theorem fieldAt_append_right {a b : List Byte} {i n : Nat} (h : a.length ≤ i) :
    fieldAt (a ++ b) i n = fieldAt b (i - a.length) n := by
  induction n generalizing i with
  | zero => rfl
  | succ n ih => rw [fieldAt, fieldAt, ih (by omega), byteAt_append_right h, Nat.sub_add_comm h]

/-- A little-endian field reads back as it was written. -/
theorem fieldAt_leBytes {n v : Nat} (h : v < 256 ^ n) : fieldAt (leBytes n v) 0 n = v := by
  induction n generalizing v with
  | zero => rw [pow_zero] at h; rw [fieldAt]; omega
  | succ n ih =>
    have tail : fieldAt (leBytes (n + 1) v) 1 n = fieldAt (leBytes n (v / 256)) 0 n := by
      rw [leBytes, show BitVec.ofNat 8 v :: leBytes n (v / 256) = [BitVec.ofNat 8 v] ++ leBytes n (v / 256) from rfl,
        fieldAt_append_right (by simp)]
      rfl
    have byte : (byteAt (leBytes (n + 1) v) 0).toNat = v % 256 := by simp [leBytes, byteAt]
    rw [fieldAt, zero_add, tail, byte, ih (by rw [pow_succ] at h; omega)]
    omega

theorem wordAt_leBytes (v : Word) : wordAt (leBytes 4 v.toNat) 0 = v := by
  rw [wordAt, fieldAt_leBytes (by have := v.isLt; omega), BitVec.ofNat_toNat, BitVec.setWidth_eq]

theorem halfAt_leBytes (v : Half) : halfAt (leBytes 2 v.toNat) 0 = v := by
  rw [halfAt, fieldAt_leBytes (by have := v.isLt; omega), BitVec.ofNat_toNat, BitVec.setWidth_eq]

theorem fieldAt_zeros (bs : List Byte) (i n : Nat) (h : ∀ k, i ≤ k → k < i + n → byteAt bs k = 0) : fieldAt bs i n = 0 := by
  induction n generalizing i with
  | zero => rfl
  | succ n ih =>
    rw [fieldAt, h i le_rfl (by omega), ih (i + 1) (fun k a b => h k (by omega) (by omega))]
    rfl

/-- The flag bits of a byte. -/
theorem flags_bits (a b c d : Bool) : (BitVec.ofNat 8 (bitByte a 0 + bitByte b 1 + bitByte c 2 + bitByte d 3)).getLsbD 0 = a
    ∧ (BitVec.ofNat 8 (bitByte a 0 + bitByte b 1 + bitByte c 2 + bitByte d 3)).getLsbD 1 = b
    ∧ (BitVec.ofNat 8 (bitByte a 0 + bitByte b 1 + bitByte c 2 + bitByte d 3)).getLsbD 2 = c
    ∧ (BitVec.ofNat 8 (bitByte a 0 + bitByte b 1 + bitByte c 2 + bitByte d 3)).getLsbD 3 = d
    ∧ (BitVec.ofNat 8 (bitByte a 0 + bitByte b 1 + bitByte c 2 + bitByte d 3)).toNat < 16 := by
  revert a b c d; decide

theorem flags_bits_three (a b c : Bool) : (BitVec.ofNat 8 (bitByte a 0 + bitByte b 1 + bitByte c 2)).getLsbD 0 = a
    ∧ (BitVec.ofNat 8 (bitByte a 0 + bitByte b 1 + bitByte c 2)).getLsbD 1 = b
    ∧ (BitVec.ofNat 8 (bitByte a 0 + bitByte b 1 + bitByte c 2)).getLsbD 2 = c
    ∧ (BitVec.ofNat 8 (bitByte a 0 + bitByte b 1 + bitByte c 2)).toNat < 8 := by
  revert a b c; decide

/-! ## The completion record (Table 12-7) -/

/-- A completion record in its parts: tag, eight bytes of codes and masks, detail, post count, JOB_HEAD, target tag. -/
theorem completionRecord_fields (e : Entry) (marker : Bool) (count : Half) (hj : e.jobHead < 1024) :
    let r := completionRecord e marker count
    r.length = 32 ∧ wordAt r 0 = e.tag ∧ byteAt r 4 = e.kind ∧ byteAt r 5 = statusCode e.status
      ∧ byteAt r 6 = BitVec.ofNat 8 (bitByte marker 0 + bitByte e.reportWritten 1 + bitByte e.reportFailed 2 + bitByte e.fallback 3)
      ∧ byteAt r 7 = e.requested ∧ byteAt r 8 = e.succeeded ∧ byteAt r 9 = e.failed ∧ byteAt r 10 = e.notRun
      ∧ halfAt r 12 = e.detail ∧ halfAt r 14 = count ∧ fieldAt r 16 2 = e.jobHead ∧ wordAt r 20 = e.targetTag
      ∧ byteAt r 11 = 0 ∧ fieldAt r 18 2 = 0 ∧ fieldAt r 24 8 = 0 := by
  have len := leBytes_length
  have w0 := wordAt_leBytes e.tag
  have w20 := wordAt_leBytes e.targetTag
  have h12 := halfAt_leBytes e.detail
  have h14 := halfAt_leBytes count
  have f16 : fieldAt (leBytes 2 e.jobHead) 0 2 = e.jobHead := fieldAt_leBytes (by omega)
  have z2 : fieldAt (leBytes 2 0) 0 2 = 0 := rfl
  have z8 : fieldAt (leBytes 8 0) 0 8 = 0 := rfl
  simp only [wordAt, halfAt] at w0 w20 h12 h14
  refine ⟨by simp [completionRecord, len], ?_, rfl, rfl, rfl, rfl, rfl, rfl, rfl, ?_, ?_, ?_, ?_, rfl, ?_, ?_⟩ <;>
    simp (disch := simp [len]) only [completionRecord, wordAt, halfAt, fieldAt_append_left, fieldAt_append_right] <;>
    simp only [List.length_append, List.length_cons, List.length_nil, len, Nat.reduceAdd, Nat.reduceSub, w0, w20, h12, h14, f16, z2, z8]

/-! ## The report record (Table 12-9) -/

theorem slice_middle {a b c : List Byte} {i n : Nat} (hi : i = a.length) (hn : n = b.length) : slice (a ++ b ++ c) i n = b := by
  subst hi hn
  simp [slice]

theorem targetDescBytes_length (d : TargetDesc) : (targetDescBytes d).length = 17 := by
  simp [targetDescBytes, leBytes_length]

/-- A descriptor reads back as it was written (R167). -/
theorem targetDescOf_bytes (d : TargetDesc) : targetDescOf (targetDescBytes d) = d := by
  have len := leBytes_length
  have device := wordAt_leBytes d.device
  have base := wordAt_leBytes d.base
  have size := wordAt_leBytes d.size
  simp only [wordAt] at device base size
  have words : wordAt (targetDescBytes d) 0 = d.device ∧ wordAt (targetDescBytes d) 4 = d.base
      ∧ wordAt (targetDescBytes d) 8 = d.size := by
    refine ⟨?_, ?_, ?_⟩ <;>
      simp (disch := simp [len]) only [targetDescBytes, wordAt, fieldAt_append_left, fieldAt_append_right] <;>
      simp only [List.length_append, len, Nat.reduceAdd, Nat.reduceSub, device, base, size]
  unfold targetDescOf
  rw [words.1, words.2.1, words.2.2]
  rfl

/-- The descriptor's place in a report record: 17 bytes, 0 without one. -/
def descBytes (c : OutcomeCopy) : List Byte :=
  match c.desc with
  | some d => targetDescBytes d
  | none => List.replicate 17 0

theorem descBytes_length (c : OutcomeCopy) : (descBytes c).length = 17 := by
  unfold descBytes
  split
  · exact targetDescBytes_length _
  · rfl

/-- The report record of a lane with an outcome copy, in its parts. -/
theorem reportRecord_some {x : LaneReport} {c : OutcomeCopy} (h : x.copy = some c) : reportRecord x =
    [BitVec.ofNat 8 x.lane.val, resultCode x.result, stepCode x.lastStep, BitVec.ofNat 8 c.retries,
      BitVec.ofNat 8 c.drops, BitVec.ofNat 8 c.rate,
      BitVec.ofNat 8 (bitByte c.desc.isSome 0 + bitByte c.faultAddr.isSome 1 + bitByte c.fallback 2),
      BitVec.ofNat 8 c.sumsSkipped]
    ++ leBytes 4 (c.faultAddr.getD 0).toNat ++ descBytes c ++ List.replicate 3 0 := by
  rw [reportRecord, h]
  rfl

theorem reportRecord_none {x : LaneReport} (h : x.copy = none) : reportRecord x =
    [BitVec.ofNat 8 x.lane.val, resultCode x.result, stepCode x.lastStep] ++ List.replicate 29 0 := by
  rw [reportRecord, h]

theorem lane_byte (n : LaneId) : (BitVec.ofNat 8 n.val).toNat = n.val := by
  have := n.isLt
  rw [BitVec.toNat_ofNat]; omega

theorem byte_ofNat {v : Nat} (h : v < 256) : (BitVec.ofNat 8 v).toNat = v := by
  rw [BitVec.toNat_ofNat]; omega

/-- Settles O18: each field at its place, by the parts that the records are written from. -/
theorem hostRecordLayouts : Obligations.HostRecordLayouts := by
  refine ⟨fun e marker count r hr hj => ?_, fun x r hr => ?_⟩
  · obtain ⟨len, tag, kind, status, flags, req, suc, fail, nr, det, cnt, head, target, z11, z18, z24⟩ :=
      completionRecord_fields e marker count hj
    obtain ⟨b0, b1, b2, b3, lt⟩ := flags_bits marker e.reportWritten e.reportFailed e.fallback
    rw [hr]
    refine ⟨len, tag, kind, status, ?_, ?_, ?_, ?_, ?_, req, suc, fail, nr, det, cnt, head, target, z11, z18, z24⟩ <;>
      rw [flags] <;> assumption
  · cases h : x.copy with
    | none =>
      rw [hr, reportRecord_none h]
      have zero : ∀ k, 3 ≤ k → byteAt ([BitVec.ofNat 8 x.lane.val, resultCode x.result, stepCode x.lastStep]
          ++ List.replicate 29 0) k = 0 := by
        intro k hk
        rw [byteAt_append_right hk, byteAt, List.getD_eq_getElem?_getD, List.getElem?_replicate]
        split <;> rfl
      refine ⟨rfl, lane_byte x.lane, rfl, rfl, fieldAt_zeros _ _ _ (fun k a _ => zero k (by omega)), ?_, fun _ => zero, nofun⟩
      rw [zero 6 (by omega)]; decide
    | some c =>
      rw [hr, reportRecord_some h]
      have len := leBytes_length
      have dlen := descBytes_length c
      have word := wordAt_leBytes (c.faultAddr.getD 0)
      simp only [wordAt] at word
      obtain ⟨b0, b1, b2, lt⟩ := flags_bits_three c.desc.isSome c.faultAddr.isSome c.fallback
      refine ⟨by simp [len, dlen], lane_byte x.lane, rfl, rfl, ?_, lt, nofun, fun c' e hr hd ha hk => ?_⟩
      · rw [fieldAt_append_right (by simp [len, dlen])]
        simp [len, dlen, fieldAt, byteAt]
      · cases e
        have mid : slice ([BitVec.ofNat 8 x.lane.val, resultCode x.result, stepCode x.lastStep, BitVec.ofNat 8 c.retries,
            BitVec.ofNat 8 c.drops, BitVec.ofNat 8 c.rate,
            BitVec.ofNat 8 (bitByte c.desc.isSome 0 + bitByte c.faultAddr.isSome 1 + bitByte c.fallback 2),
            BitVec.ofNat 8 c.sumsSkipped] ++ leBytes 4 (c.faultAddr.getD 0).toNat ++ descBytes c ++ List.replicate 3 0) 12 17
            = descBytes c := slice_middle (by simp [len]) dlen.symm
        refine ⟨byte_ofNat hr, byte_ofNat hd, byte_ofNat ha, b0, b1, b2, byte_ofNat hk, ?_, fun d e => ?_, fun e => ?_⟩
        · simp (disch := simp [len]) only [wordAt, fieldAt_append_left, fieldAt_append_right]
          simp only [List.length_cons, List.length_nil, Nat.reduceAdd, Nat.reduceSub, word]
        · rw [mid, descBytes, e]; exact targetDescOf_bytes d
        · rw [mid, descBytes, e]

end Sys2Proof.Proofs
end

section
/-! The checks of a job record by its bytes (O12). -/

namespace Sys2Proof.Proofs

-- One theorem at a time: a thread for each would ask for more stack than the check allows.
set_option Elab.async false

open Sys2Proof.Machine Sys2Proof.Laws

variable {r : List Byte}

/-! ## Codes of one byte -/

theorem endActionOf_none : ∀ b : Byte, 3 < b.toNat → endActionOf b = none := by decide +kernel

theorem endActionOf_isSome : ∀ b : Byte, b.toNat ≤ 3 → (endActionOf b).isSome = true := by decide +kernel

theorem endActionOf_some {b : Byte} {e : EndAction} (h : (b.toNat, e) ∈ [(0, .keep), (1, .hold), (2, .run), (3, .off)]) :
    endActionOf b = some e := by
  have byte : ∀ k, b.toNat = k → b = BitVec.ofNat 8 k := fun k hk => by rw [← hk, BitVec.ofNat_toNat, BitVec.setWidth_eq]
  simp only [List.mem_cons, List.not_mem_nil, or_false, Prod.mk.injEq] at h
  rcases h with ⟨h, rfl⟩ | ⟨h, rfl⟩ | ⟨h, rfl⟩ | ⟨h, rfl⟩ <;> rw [byte _ h] <;> decide

theorem actionOf_some {b : Byte} {a : ActionCode}
    (h : (b.toNat, a) ∈ [(0, .powerOn), (1, .powerOff), (2, .hold), (3, .run), (4, .clearFault)]) : actionOf b = some a := by
  have byte : ∀ k, b.toNat = k → b = BitVec.ofNat 8 k := fun k hk => by rw [← hk, BitVec.ofNat_toNat, BitVec.setWidth_eq]
  simp only [List.mem_cons, List.not_mem_nil, or_false, Prod.mk.injEq] at h
  rcases h with ⟨h, rfl⟩ | ⟨h, rfl⟩ | ⟨h, rfl⟩ | ⟨h, rfl⟩ | ⟨h, rfl⟩ <;> rw [byte _ h] <;> decide

theorem actionOf_none : ∀ b : Byte, 5 ≤ b.toNat → actionOf b = none := by decide +kernel

theorem fieldAt_one (i : Nat) : fieldAt r i 1 = (byteAt r i).toNat := rfl

/-! ## The kind of a record -/

/-- The two common checks, and the checks of the record's kind (R151). -/
theorem judge_kind (hm : byteAt r 5 ≠ 0) {k : Byte} (hk : byteAt r 4 = k) :
    (k = 1 → judgeRecord r = judgeProgram r) ∧ (k = 2 → judgeRecord r = judgeReadout r)
      ∧ (k = 3 → judgeRecord r = judgeIdentify r) ∧ (k = 4 → judgeRecord r = judgeExchange r)
      ∧ (k = 5 → judgeRecord r = judgeLaneSet r) ∧ (k = 6 → judgeRecord r = judgeLaneAction r) := by
  refine ⟨?_, ?_, ?_, ?_, ?_, ?_⟩ <;> rintro rfl <;>
    simp [judgeRecord, recordKind, hk, cancelKind, recordMask, show byteAt r 5 ≠ 0#8 from hm]

theorem judge_unknown (h : byteAt r 4 = 0 ∨ 7 < (byteAt r 4).toNat) : judgeRecord r = .refused .unknownKind := if_pos h

theorem judge_emptyMask (lo : 1 ≤ (byteAt r 4).toNat) (hi : (byteAt r 4).toNat ≤ 6) (hm : byteAt r 5 = 0) :
    judgeRecord r = .refused .emptyMask := by
  have h0 : byteAt r 4 ≠ 0 := fun e => by rw [e] at lo; exact absurd lo (by decide)
  have h7 : byteAt r 4 ≠ 7 := fun e => by rw [e] at hi; exact absurd hi (by decide)
  have hb : ¬ 7 < (byteAt r 4).toNat := by omega
  exact (if_neg (not_or.mpr ⟨h0, hb⟩)).trans ((if_neg h7).trans (if_pos hm))

/-- Each kind of record gives the arguments of its kind. -/
theorem judge_args_kind {args : JobArgs} : (judgeProgram r = .slotted args → kindCode args = 1)
    ∧ (judgeReadout r = .slotted args → kindCode args = 2) ∧ (judgeIdentify r = .slotted args → kindCode args = 3)
    ∧ (judgeExchange r = .slotted args → kindCode args = 4) ∧ (judgeLaneSet r = .slotted args → kindCode args = 5)
    ∧ (judgeLaneAction r = .slotted args → kindCode args = 6) := by
  unfold judgeProgram judgeReadout judgeIdentify judgeExchange judgeLaneSet judgeLaneAction
  dsimp only
  refine ⟨?_, ?_, ?_, ?_, ?_, ?_⟩ <;> intro h <;> repeat' split at h
  all_goals cases h
  all_goals rfl

theorem kind_cases : ∀ b : Byte, b.toNat ≤ 7 → b = 0 ∨ b = 1 ∨ b = 2 ∨ b = 3 ∨ b = 4 ∨ b = 5 ∨ b = 6 ∨ b = 7 := by decide +kernel

theorem judge_slotted {args : JobArgs} (h : judgeRecord r = .slotted args) : kindCode args = byteAt r 4 ∧ byteAt r 5 ≠ 0 := by
  obtain ⟨k1, k2, k3, k4, k5, k6⟩ := judge_args_kind (r := r) (args := args)
  unfold judgeRecord at h
  dsimp only [recordKind, recordMask] at h
  split at h; · cases h
  rename_i known
  split at h; · cases h
  rename_i cancel
  by_cases mask : byteAt r 5 = 0
  · exact absurd ((if_pos mask).symm.trans h) nofun
  replace h := (if_neg mask).symm.trans h
  refine ⟨?_, mask⟩
  split at h
  · rename_i e; rw [e]; exact k1 h
  split at h
  · rename_i e; rw [e]; exact k2 h
  split at h
  · rename_i e; rw [e]; exact k3 h
  split at h
  · rename_i e; rw [e]; exact k4 h
  split at h
  · rename_i e; rw [e]; exact k5 h
  · rename_i n1 n2 n3 n4 n5
    rw [k6 h]
    obtain ⟨n0, le⟩ := not_or.mp known
    rcases kind_cases (byteAt r 4) (by omega) with e | e | e | e | e | e | e | e
    · exact absurd e n0
    · exact absurd e n1
    · exact absurd e n2
    · exact absurd e n3
    · exact absurd e n4
    · exact absurd e n5
    · exact e.symm
    · exact absurd e cancel

/-! ## The checks of each kind (Tables 6-2 and 7-2) -/

/-- An image is required: a step of the set needs one, or CLEAR without CLEAR_ALL (R98). -/
theorem image_required (s : StepSet) (clearAll : Bool) : (s.write || s.check || s.sum || (s.clear && !clearAll)) = true ↔
    ¬ (s.write = false ∧ s.check = false ∧ s.sum = false ∧ (s.clear = true → clearAll = true)) := by
  obtain ⟨c, w, k, u, g⟩ := s
  revert c w k u g clearAll; decide

theorem judgeProgram_badAction (hs : (byteAt r 32).toNat % 32 ≠ 0) (he : 3 < (byteAt r 7).toNat) :
    judgeProgram r = .refused .badAction := by
  unfold judgeProgram
  dsimp only
  rw [if_neg (fun h => hs ((stepSet_isEmpty_iff _).mp h)), endActionOf_none _ he]

/-- A PROGRAM record with a step set and an end action: the two checks that are left. -/
theorem judgeProgram_rest {e : EndAction} (hs : (byteAt r 32).toNat % 32 ≠ 0) (he : endActionOf (byteAt r 7) = some e) :
    judgeProgram r =
      if (byteAt r 32).getLsbD 4 = true ∧ 3 < (byteAt r 33).toNat then .refused .badSetting
      else if hostAddrAt r 16 = 0 ∧ ((stepSetOf (byteAt r 32)).write || (stepSetOf (byteAt r 32)).check || (stepSetOf (byteAt r 32)).sum
          || ((stepSetOf (byteAt r 32)).clear && !(byteAt r 6).getLsbD 1)) = true then .refused .imageRequired
      else .slotted (.program (stepSetOf (byteAt r 32)) ((byteAt r 6).getLsbD 0) ((byteAt r 6).getLsbD 1) e (byteAt r 33).toNat
        (hostAddrAt r 16) (hostAddrAt r 24)) := by
  unfold judgeProgram
  dsimp only
  rw [if_neg (fun h => hs ((stepSet_isEmpty_iff _).mp h)), he]
  rfl

theorem settings_bounds (i : Nat) : fieldAt r i 1 ≤ 255 := by
  have := (byteAt r i).isLt
  rw [fieldAt_one]; omega

/-- The settings of a LANE-SET record are taken exactly when each lies in its range (Table 2-2). -/
theorem settingsOf_isSome : (settingsOf r).isSome = true ↔
    fieldAt r 16 1 ≤ 5 ∧ fieldAt r 17 1 ≤ 7 ∧ 1 ≤ fieldAt r 18 1 ∧ 1 ≤ fieldAt r 20 2 ∧ fieldAt r 20 2 ≤ 1023
      ∧ 1 ≤ fieldAt r 22 1 ∧ 1 ≤ fieldAt r 23 1 ∧ fieldAt r 24 1 ≤ 2 ∧ fieldAt r 25 1 ≤ 1 ∧ 1 ≤ fieldAt r 26 1
      ∧ 1 ≤ fieldAt r 28 1 ∧ 1 ≤ fieldAt r 29 1 ∧ fieldAt r 29 1 ≤ 4 := by
  have b := fun i => settings_bounds (r := r) i
  have policy : ∀ p : Byte, (p = 0 ∨ p = 1) ↔ p.toNat ≤ 1 := by decide +kernel
  have p25 := policy (byteAt r 25)
  rw [← fieldAt_one] at p25
  unfold settingsOf
  dsimp only
  rw [Option.isSome_ite, p25]
  simp only [Settings.inRange, Bool.and_eq_true, decide_eq_true_eq]
  have := b 18; have := b 22; have := b 23; have := b 26; have := b 27; have := b 28
  constructor
  · rintro ⟨_, ⟨⟨⟨⟨⟨⟨⟨⟨⟨⟨_, _⟩, _⟩, _⟩, _⟩, _⟩, _⟩, _⟩, _⟩, _⟩, _⟩⟩
    omega
  · intro h
    omega

/-- The values of a LANE-SET record that passes (Table 12-2). -/
theorem settingsOf_values {v : Settings} (h : settingsOf r = some v) : v =
    { rateCode := fieldAt r 16 1, retryLimit := fieldAt r 17 1, replyLimit := fieldAt r 18 1,
      clearLimit := fieldAt r 20 2, writeLimit := fieldAt r 22 1, sumLimit := fieldAt r 23 1,
      threshold := fieldAt r 24 1, dropPolicy := if fieldAt r 25 1 = 1 then .ride else .cut,
      powerUpLimit := fieldAt r 26 1, settleTime := fieldAt r 27 1, entryLimit := fieldAt r 28 1,
      entryAttempts := fieldAt r 29 1 } := by
  have policy : ∀ p : Byte, (p = 1) = (p.toNat = 1) := by decide +kernel
  unfold settingsOf at h
  dsimp only at h
  rw [Option.ite_none_right_eq_some] at h
  rw [← Option.some.inj h.2, fieldAt_one 25]
  congr 1
  exact if_congr (Eq.to_iff (policy _)) rfl rfl

theorem judgeLaneSet_slotted {v : Settings} : judgeLaneSet r = .slotted (.laneSet v) ↔ settingsOf r = some v := by
  unfold judgeLaneSet
  split <;> rename_i h <;> simp [h]

theorem judgeLaneSet_refused (h : settingsOf r = none) : judgeLaneSet r = .refused .badSetting := by
  rw [judgeLaneSet, h]

theorem judgeReadout_one (h : ¬ moreThanOne (byteAt r 5) = true) : judgeReadout r = match endActionOf (byteAt r 7) with
    | none => .refused .badAction
    | some e =>
      if wordAt r 36 = 0 then .refused .zeroLength
      else .slotted (.readout ((byteAt r 6).getLsbD 0) e (hostAddrAt r 16) (hostAddrAt r 24) (wordAt r 32) (wordAt r 36)) :=
  if_neg h

/-- Some entry of an EXCHANGE record up to its count fails a test. -/
theorem entries_any (p : ExchangeEntry → Bool) :
    (exchangeEntries r).any p = true ↔ ∃ i, i < (byteAt r 32).toNat ∧ p (exchangeEntryAt r i) = true := by
  simp [exchangeEntries]

theorem judgeExchange_count {e : EndAction} (hm : ¬ moreThanOne (byteAt r 5) = true) (he : endActionOf (byteAt r 7) = some e) :
    judgeExchange r =
      if (byteAt r 32).toNat = 0 ∨ 4 < (byteAt r 32).toNat then .refused .badSetting
      else if (exchangeEntries r).any (fun x => !exchangeKindPermitted x.kind) = true then .refused .refusedExchangeKind
      else if (exchangeEntries r).any (fun x => decide (Config.maxPayload < x.len) || decide (x.busyMs = 0)) = true then
        .refused .badSetting
      else .slotted (.exchange ((byteAt r 6).getLsbD 0) e (hostAddrAt r 16) (hostAddrAt r 24) (exchangeEntries r)) := by
  refine (if_neg hm).trans ?_
  rw [he]
  rfl

/-- The end actions by their codes, and none beyond 3. -/
theorem endActionOf_le (h : (byteAt r 7).toNat ≤ 3) : ∃ e, endActionOf (byteAt r 7) = some e :=
  Option.isSome_iff_exists.mp (endActionOf_isSome _ h)

/-- Settles O12: the common checks, and the checks of each kind in their order. -/
theorem recordChecks : Obligations.RecordChecks := by
  rintro r end_ rfl
  refine ⟨judge_unknown, judge_emptyMask, judge_cancel, fun args => judge_slotted, fun hm hk => ?_, fun hm hk => ?_, fun hm hk => ?_,
    fun hm hk => ?_, fun hm hk => ?_, fun hm hk => ?_⟩
  · rintro steps level imageless rfl rfl hi
    rw [(judge_kind hm hk).1 rfl]
    have image := image_required (stepSetOf (byteAt r 32)) ((byteAt r 6).getLsbD 1)
    refine ⟨fun h => if_pos ((stepSet_isEmpty_iff _).mpr h), fun hs => ⟨judgeProgram_badAction hs, fun he hg hl => ?_,
      fun he hg => ⟨fun hd hn => ?_, fun hd e hq => ?_⟩⟩⟩
    · obtain ⟨e, h⟩ := endActionOf_le he
      rw [judgeProgram_rest hs h, if_pos ⟨hg, hl⟩]
    · obtain ⟨e, h⟩ := endActionOf_le he
      rw [judgeProgram_rest hs h, if_neg (fun q => absurd (hg q.1) (by omega)), if_pos ⟨hd, image.mpr (fun q => hn (hi.mpr q))⟩]
    · rw [judgeProgram_rest hs (endActionOf_some hq), if_neg (fun q => absurd (hg q.1) (by omega)), if_neg]
      · rfl
      · rintro ⟨q, img⟩
        rcases hd with hd | hd
        · exact hd q
        · exact image.mp img (hi.mp hd)
  · intro several hs
    rw [(judge_kind hm hk).2.1 rfl]
    have more := (moreThanOne_iff (byteAt r 5)).trans hs.symm
    refine ⟨fun h => if_pos (more.mpr h), fun h => ?_⟩
    rw [judgeReadout_one (fun q => h (more.mp q))]
    refine ⟨fun he => by rw [endActionOf_none _ he], fun he hw => ?_, fun hw e hq => ?_⟩
    · obtain ⟨e, h⟩ := endActionOf_le he
      rw [h]; exact if_pos hw
    · rw [endActionOf_some hq]; exact if_neg hw
  · rw [(judge_kind hm hk).2.2.1 rfl, judgeIdentify]
    refine ⟨fun he => by rw [endActionOf_none _ he], fun he hw => ?_, fun hw e hq => ?_⟩
    · obtain ⟨e, h⟩ := endActionOf_le he
      rw [h]; exact if_pos hw
    · rw [endActionOf_some hq]; exact if_neg hw
  · rintro several count permitted fits hs rfl hp hf
    rw [(judge_kind hm hk).2.2.2.1 rfl]
    have more := (moreThanOne_iff (byteAt r 5)).trans hs.symm
    have kinds : (exchangeEntries r).any (fun x => !exchangeKindPermitted x.kind) = true
        ↔ ∃ i, i < (byteAt r 32).toNat ∧ ¬ permitted i := by
      rw [entries_any]
      refine exists_congr fun i => and_congr_right fun _ => ?_
      rw [hp, ← exchangeKindPermitted_iff, Bool.not_eq_true', Bool.not_eq_true]
      rfl
    have sizes : (exchangeEntries r).any (fun x => decide (Config.maxPayload < x.len) || decide (x.busyMs = 0)) = true
        ↔ ∃ i, i < (byteAt r 32).toNat ∧ ¬ fits i := by
      rw [entries_any]
      refine exists_congr fun i => and_congr_right fun _ => ?_
      rw [hf, Bool.or_eq_true, decide_eq_true_iff, decide_eq_true_iff]
      show 264 < fieldAt r (38 + 6 * i) 2 ∨ fieldAt r (40 + 6 * i) 2 = 0 ↔ _
      omega
    refine ⟨fun h => if_pos (more.mpr h), fun h => ?_⟩
    have one := fun q => h (more.mp q)
    refine ⟨fun he => ?_, fun he hc => ?_, fun he c1 c4 => ⟨fun hn => ?_, fun ok => ⟨fun hn => ?_, fun fit e hq => ?_⟩⟩⟩
    · refine (if_neg one).trans ?_
      rw [endActionOf_none _ he]
    all_goals
      have hq' : ∃ e, endActionOf (byteAt r 7) = some e := endActionOf_le he
    · obtain ⟨e, h⟩ := hq'
      rw [judgeExchange_count one h, if_pos hc]
    · obtain ⟨e, h⟩ := hq'
      rw [judgeExchange_count one h, if_neg (by omega), if_pos (kinds.mpr hn)]
    · obtain ⟨e, h⟩ := hq'
      rw [judgeExchange_count one h, if_neg (by omega), if_neg (fun q => absurd (kinds.mp q) (by simpa using ok)), if_pos (sizes.mpr hn)]
    · refine ⟨exchangeEntries r, ?_, by simp [exchangeEntries], fun i hi => by simp [exchangeEntries, hi, exchangeEntryAt]⟩
      rw [judgeExchange_count one (endActionOf_some hq), if_neg (by omega), if_neg (fun q => absurd (kinds.mp q) (by simpa using ok)),
        if_neg (fun q => absurd (sizes.mp q) (by simpa using fit))]
  · rw [(judge_kind hm hk).2.2.2.2.1 rfl]
    simp only [judgeLaneSet_slotted]
    refine ⟨?_, fun v => settingsOf_values, fun h => judgeLaneSet_refused ?_⟩
    · rw [← settingsOf_isSome, Option.isSome_iff_exists]
    · exact Option.eq_none_iff_forall_ne_some.mpr fun v hv => h v (judgeLaneSet_slotted.mpr hv)
  · rw [(judge_kind hm hk).2.2.2.2.2 rfl, judgeLaneAction, fieldAt_one]
    exact ⟨fun a ha => by rw [actionOf_some ha], fun h => by rw [actionOf_none _ h]⟩

end Sys2Proof.Proofs
end

section
/-! The memory port (O20). -/

namespace Sys2Proof.Proofs

-- One theorem at a time: a thread for each would ask for more stack than the check allows.
set_option Elab.async false

open Sys2Proof.Machine Sys2Proof.Laws

variable {s t u : State} {w : Work} {c : CtxId} {b : BufId}

/-! ## First of a list -/

/-- The first member of an ascending list with a property. -/
theorem find?_lowest {k : Nat} {l : List (Fin k)} (sorted : l.Pairwise (· < ·)) {p : Fin k → Bool} {i : Fin k} (mem : i ∈ l)
    (hi : p i = true) (low : ∀ m, m < i → p m = false) : l.find? p = some i := by
  obtain ⟨as, bs, rfl⟩ := List.append_of_mem mem
  refine List.find?_eq_some_iff_append.mpr ⟨hi, as, bs, rfl, fun a ha => ?_⟩
  have lt : a < i := (List.pairwise_append.mp sorted).2.2 a ha i (.head _)
  rw [low a lt]; rfl

theorem mem_allBufs (b : BufId) : b ∈ Config.allBufs := by
  revert b; decide +kernel

theorem allBufs_sorted : Config.allBufs.Pairwise (· < ·) := by decide +kernel

theorem roundRobin_eq : ∀ last : Fin 8, roundRobin last = (List.range 8).map (fun k => last + 1 + Fin.ofNat 8 k) := by decide

/-- The first waiter in round-robin order (R95, R164). -/
theorem roundRobin_first {last : Fin 8} {p : Fin 8 → Bool} {k : Nat} (hk : k < 8) (hp : p (last + 1 + Fin.ofNat 8 k) = true)
    (low : ∀ m, m < k → p (last + 1 + Fin.ofNat 8 m) = false) : (roundRobin last).find? p = some (last + 1 + Fin.ofNat 8 k) := by
  rw [roundRobin_eq, List.find?_map, List.find?_range_eq_some.mpr ⟨hp, List.mem_range.mpr hk, fun m hm => ?_⟩]
  · rfl
  · show (!p (last + 1 + Fin.ofNat 8 m)) = true
    rw [low m hm]; rfl

theorem roundRobin_none {last : Fin 8} {p : Fin 8 → Bool} (h : ∀ n, p n = false) : (roundRobin last).find? p = none := by
  simp [List.find?_eq_none, h]

/-! ## The buffer that the Image Reader takes (R87) -/

theorem isShared_iff : isShared b = true ↔ 16 ≤ b.val := decide_eq_true_iff

theorem bufFree_iff : w.bufFree b = true ↔ (w.buf b).state = .free := decide_eq_true_iff

theorem mayTake_floorA : w.MayTake c (floorA c) ↔ w.bufFree (floorA c) = true := by
  rw [bufFree_iff]
  exact ⟨And.left, fun h => ⟨h, .inl rfl⟩⟩

theorem mayTake_floorB : w.MayTake c (floorB c) ↔ w.bufFree (floorB c) = true := by
  rw [bufFree_iff]
  exact ⟨And.left, fun h => ⟨h, .inr (.inl rfl)⟩⟩

/-- The buffer taken is the lowest one that may be taken (R87). -/
theorem availableBuf_lowest (hb : w.MayTake c b) (low : ∀ b', b' < b → ¬ w.MayTake c b') : w.availableBuf c = some b := by
  have ca : (floorA c).val = 2 * c.val := rfl
  have cb : (floorB c).val = 2 * c.val + 1 := rfl
  have hc := c.isLt
  unfold Work.availableBuf
  obtain ⟨free, e | e | ⟨ge, lt⟩⟩ := hb
  · obtain rfl : b = floorA c := Fin.ext e
    rw [if_pos (mayTake_floorA.mp ⟨free, .inl rfl⟩)]
  · obtain rfl : b = floorB c := Fin.ext e
    rw [if_neg (fun q => low _ (Fin.lt_def.mpr (by omega)) (mayTake_floorA.mpr q)), if_pos (mayTake_floorB.mp ⟨free, .inr (.inl rfl)⟩)]
  · rw [if_neg (fun q => low _ (Fin.lt_def.mpr (by omega)) (mayTake_floorA.mpr q)),
      if_neg (fun q => low _ (Fin.lt_def.mpr (by omega)) (mayTake_floorB.mpr q))]
    refine (if_pos lt).trans (find?_lowest allBufs_sorted (mem_allBufs b) ?_ fun m hm => Bool.eq_false_iff.mpr fun q => low m hm ?_)
    · rw [isShared_iff.mpr ge, bufFree_iff.mpr free]; rfl
    · rw [Bool.and_eq_true, isShared_iff, bufFree_iff] at q
      exact ⟨q.2, .inr (.inr ⟨q.1, lt⟩)⟩

theorem availableBuf_isSome : (w.availableBuf c).isSome = true ↔ ∃ b, w.MayTake c b := by
  constructor
  · intro h
    obtain ⟨b, hb⟩ := Option.isSome_iff_exists.mp h
    refine ⟨b, ?_⟩
    unfold Work.availableBuf at hb
    split at hb
    · cases hb; exact mayTake_floorA.mpr ‹_›
    split at hb
    · cases hb; exact mayTake_floorB.mpr ‹_›
    split at hb
    · have q := List.find?_some hb
      rw [Bool.and_eq_true, isShared_iff, bufFree_iff] at q
      exact ⟨q.2, .inr (.inr ⟨q.1, ‹_›⟩)⟩
    · cases hb
  · rintro ⟨b, hb⟩
    obtain ⟨m, hm, low⟩ := wellFounded_lt.has_min {b | w.MayTake c b} ⟨b, hb⟩
    rw [availableBuf_lowest hm (fun b' lt h => low b' h lt)]; rfl

/-- A context waits for the Image Reader's turn (R88, R95, R133). -/
theorem wantsPort_iff : w.WantsPort c ↔ (w.descWork c || w.fetchWork c) = true := by
  have cancelled : (w.ctxCancelled c = false) ↔ ∀ i j, (w.ctx c).slot = some i → w.slot i = some j → j.cancelLink = none := by
    unfold Work.ctxCancelled
    split
    · rename_i j h
      obtain ⟨i, hi, hj⟩ := Option.bind_eq_some_iff.mp h
      rw [Option.isSome_eq_false_iff, Option.isNone_iff_eq_none]
      exact ⟨fun q i' j' hi' hj' => by rw [hi] at hi'; cases hi'; rw [hj] at hj'; cases hj'; exact q, fun q => q i j hi hj⟩
    · rename_i h
      exact ⟨fun _ i j hi hj => absurd (Option.bind_eq_some_iff.mpr ⟨i, hi, hj⟩) (by rw [h]; nofun), fun _ => rfl⟩
  simp only [Work.WantsPort, Work.descWork, Work.fetchWork, Bool.or_eq_true, Bool.and_eq_true, decide_eq_true_eq,
    Bool.not_eq_true', cancelled, availableBuf_isSome, Option.isNone_iff_eq_none, List.mem_cons, List.not_mem_nil, or_false, and_assoc]

/-! ## The transfer on the port -/

theorem exec_enable (aw : s.Awake) (hs : s.part.state = .disabled) : exec .enable s = .next (State.refreshIrq
    { s with part := { s.part with state := .loading, setupReading := true, setupAddr := s.regs.setupHi ++ s.regs.setupLo } }) := by
  show s.answer s.enable = _
  rw [State.enable, if_pos hs]
  exact answer_slot aw

/-! ## The arbiter (R164, Table 11-2) -/

theorem arbitrate_taken (h : s.port.isSome = true) : s.arbitrate = s := if_pos h

theorem arbitrate_posting (hp : s.port = none) (h : s.posting.isSome = true) : s.arbitrate = { s with port := some .postQueue } := by
  rw [State.arbitrate, hp, if_neg (by decide), if_pos h]

theorem arbitrate_setup (hp : s.port = none) (hq : s.posting = none) (h : s.part.setupReading = true) :
    s.arbitrate = { s with port := some .setup } := by
  rw [State.arbitrate, hp, hq, if_neg (by decide), if_neg (by decide), if_pos h]

/-- The classes below the Post Queue and the setup block: a record, a lane, the Image Reader. -/
theorem arbitrate_intake (hp : s.port = none) (hq : s.posting = none) (hs : s.part.setupReading = false)
    (h : s.intake.reading = true) : s.arbitrate = { s with port := some .intake } := by
  rw [State.arbitrate, hp, hq, hs, if_neg (by decide), if_neg (by decide), if_neg (by decide), if_pos h]

theorem arbitrate_lane (hp : s.port = none) (hq : s.posting = none) (hs : s.part.setupReading = false)
    (hi : s.intake.reading = false) {n : LaneId} (h : (roundRobin s.portLast).find? s.work.laneWaits = some n) :
    s.arbitrate = { s with port := some (.lane n), portLast := n } := by
  rw [State.arbitrate, hp, hq, hs, hi, if_neg (by decide), if_neg (by decide), if_neg (by decide), if_neg (by decide), h]

theorem arbitrate_image (hp : s.port = none) (hq : s.posting = none) (hs : s.part.setupReading = false)
    (hi : s.intake.reading = false) (h : ∀ n, (s.work.lane n).eng.xfer = none) :
    s.arbitrate = s.imageNext.elim s s.imageTurn := by
  have none : (roundRobin s.portLast).find? s.work.laneWaits = none := roundRobin_none (fun n => by simp [Work.laneWaits, h])
  rw [State.arbitrate, hp, hq, hs, hi, if_neg (by decide), if_neg (by decide), if_neg (by decide), if_neg (by decide), none]
  cases s.imageNext <;> rfl

theorem imageNext_none (h : s.part.state ∈ [.halted, .draining, .disabled] ∨ ∀ c, ¬ s.work.WantsPort c) : s.imageNext = none := by
  unfold State.imageNext
  rcases h with h | h
  · rw [if_neg]
    simp only [List.mem_cons, List.not_mem_nil, or_false] at h
    rcases h with h | h | h <;> simp [Env.acting, State.env, h, PartState.acts]
  · split
    · exact roundRobin_none (fun c => Bool.eq_false_iff.mpr fun q => h c (wantsPort_iff.mpr q))
    · rfl

theorem imageNext_first (ha : s.env.acting = true) {k : Nat} (hk : k < 8) (h : s.work.WantsPort (s.work.imgLast + 1 + Fin.ofNat 8 k))
    (low : ∀ m, m < k → ¬ s.work.WantsPort (s.work.imgLast + 1 + Fin.ofNat 8 m)) :
    s.imageNext = some (s.work.imgLast + 1 + Fin.ofNat 8 k) := by
  rw [State.imageNext, if_pos ha]
  exact roundRobin_first hk (wantsPort_iff.mp h) (fun m hm => Bool.eq_false_iff.mpr fun q => low m hm (wantsPort_iff.mpr q))

theorem imageTurn_desc {part : DescPart} (h : (s.work.ctx c).descDue = some part) : s.imageTurn c =
    { s with port := some (.image c (.desc part (s.work.ctx c).descPtr))
             work := { s.work.setCtx c { s.work.ctx c with descDue := none, descBusy := some part } with imgLast := c } } := by
  unfold State.imageTurn
  dsimp only
  rw [h]

theorem imageTurn_fetch {p : Nat} (h : (s.work.ctx c).descDue = none) (hp : (s.work.ctx c).nextPage = some p)
    (hb : s.work.availableBuf c = some b) : s.imageTurn c =
    { s with port := some (.image c (.fetch { buf := b, page := p } ((s.work.ctx c).reads p)))
             work := { s.work.startFetch c b p with imgLast := c } } := by
  unfold State.imageTurn
  dsimp only
  rw [h, hp, hb]

theorem startFetch_eq (w : Work) (c : CtxId) (b : BufId) (p : Nat) : w.startFetch c b p =
    (w.setBuf b
      { state := .filling, owner := some c, pass := if (w.ctx c).state = .checkPass then .check else .write, page := p
        count := (lanesIn (w.ctx c).passLanes).length
        data := List.replicate (64 * 2 ^ (w.ctx c).pageCode.toNat) (w.ctx c).fill }).setCtx c
      { w.ctx c with fetch := some { buf := b, page := p }
                     nextPage := pageAfter (w.ctx c).segs (64 * 2 ^ (w.ctx c).pageCode.toNat) p
                     sharedHeld := if 16 ≤ b.val then (w.ctx c).sharedHeld + 1 else (w.ctx c).sharedHeld } := by
  have shared : (if isShared b = true then (w.ctx c).sharedHeld + 1 else (w.ctx c).sharedHeld)
      = if 16 ≤ b.val then (w.ctx c).sharedHeld + 1 else (w.ctx c).sharedHeld := if_congr isShared_iff rfl rfl
  unfold Work.startFetch
  dsimp only
  rw [shared]
  rfl

/-- An arbitration leaves the slots, so it answers its effect. -/
theorem exec_arbitrate (aw : s.Awake) (h : s.arbitrate = u) (hw : u.work.slots = s.work.slots := by rfl) :
    exec .memoryPortArbitration s = .next u.refreshIrq := by
  show s.answer s.arbitrate = _
  rw [h]
  exact answer_slots aw hw

/-- Settles O20: the transfer of each user of the port, and the arbiter class by class. -/
theorem portGoesToTheHighestClass : Obligations.PortGoesToTheHighestClass := by
  refine ⟨?_, fun s aw => ⟨fun h => exec_arbitrate aw (arbitrate_taken h), fun hp h => exec_arbitrate aw (arbitrate_posting hp h),
    fun hp hq h => exec_arbitrate aw (arbitrate_setup hp hq h), fun hp hq hs h => exec_arbitrate aw (arbitrate_intake hp hq hs h),
    fun hp hq hs hi => ⟨fun k hk hx low => ?_, fun idle => ⟨fun h => ?_, fun hst k c x hk hc want low hx => ⟨fun part _ hd => ?_,
      fun p b _ hd hn hb lowb => ?_⟩⟩⟩⟩⟩
  · rintro s x rfl
    refine ⟨fun h => by rw [State.portTransfer, h], fun h => by rw [State.portTransfer, h], fun aw hs hq hp => ?_,
      fun g hg => ⟨fun h => by rw [State.portTransfer, h, hg]; rfl, fun e es h hq => ⟨fun hc => ?_, fun i lane hr hl => ?_⟩⟩,
      fun n a h => ⟨fun hx => ?_, fun len hx => ?_, fun b p data hx => ?_, fun data hx => ?_⟩,
      fun c a => ⟨fun h => by rw [State.portTransfer, h]; rfl, fun count code fill h => by rw [State.portTransfer, h]; rfl,
        fun f q rs h => by rw [State.portTransfer, h]; rfl⟩⟩
    · exact ⟨_, _, exec_enable aw hs, exec_arbitrate aw (arbitrate_setup hp hq rfl), rfl⟩
    · rw [State.portTransfer, h]
      show s.postTransfer = _
      rw [State.postTransfer, hc, hq, hg]; rfl
    · rw [State.portTransfer, h]
      show s.postTransfer = _
      rw [State.postTransfer, hr, hq]
      show (e.lanes[i]?).map _ = _
      rw [hl]; rfl
    all_goals
      rw [State.portTransfer, h]
      show (s.work.lane n).eng.xfer.map Xfer.transfer = _
      rw [hx]; rfl
  · exact exec_arbitrate aw (arbitrate_lane hp hq hs hi (roundRobin_first hk hx
      (fun m hm => by rw [Work.laneWaits, low m hm]; rfl)))
  · refine exec_arbitrate aw ?_
    rw [arbitrate_image hp hq hs hi idle, imageNext_none h]; rfl
  all_goals
    subst hc
    have next := imageNext_first (acting_of_mem hst).1 hk want low
  · refine exec_arbitrate aw ?_
    rw [hx] at hd ⊢
    rw [arbitrate_image hp hq hs hi idle, next, Option.elim_some, imageTurn_desc hd]
  · refine exec_arbitrate aw ?_
    rw [hx] at hd hn ⊢
    rw [arbitrate_image hp hq hs hi idle, next, Option.elim_some, imageTurn_fetch hd hn (availableBuf_lowest hb lowb), startFetch_eq]

end Sys2Proof.Proofs
end

section
/-! The outcome of a completed job (O26) and the jobs that a grant scan grants (O21). -/

namespace Sys2Proof.Proofs

-- One theorem at a time: a thread for each would ask for more stack than the check allows.
set_option Elab.async false

open Sys2Proof.Machine Sys2Proof.Laws

variable {s t u : State} {w : Work} {env : Env} {i : SlotId} {j : JobSlot} {n : LaneId}

/-! ## Masks, status and detail (R15, R16, R18) -/

theorem mem_succeeded : hasLane j.succeeded n = true ↔ hasLane j.mask n = true ∧ j.results.get n = some .done := by
  rw [JobSlot.succeeded, hasLane_lanesWith, Bool.and_eq_true]
  cases j.results.get n <;> simp

theorem mem_notRun : hasLane j.notRun n = true ↔ hasLane j.mask n = true ∧ j.results.get n = some .notRun := by
  rw [JobSlot.notRun, hasLane_lanesWith, Bool.and_eq_true]
  cases j.results.get n <;> simp

theorem mem_failed : hasLane j.failed n = true ↔ hasLane j.mask n = true
    ∧ ∃ r, j.results.get n = some r ∧ r ≠ .done ∧ r ≠ .notRun := by
  rw [JobSlot.failed, hasLane_lanesWith, Bool.and_eq_true]
  cases j.results.get n <;> simp

theorem hasLane_inter (a b : LaneMask) (n : LaneId) : hasLane (a &&& b) n = (hasLane a n && hasLane b n) := by simp [hasLane]

theorem disjoint_of_not_both {a b : LaneMask} (h : ∀ n, hasLane a n = true → hasLane b n = true → False) : a &&& b = 0 := by
  refine mask_ext fun n => ?_
  rw [hasLane_inter, show hasLane (0 : LaneMask) n = false from hasLane_zero n]
  cases ha : hasLane a n with
  | false => rfl
  | true => cases hb : hasLane b n with
    | false => rfl
    | true => exact (h n ha hb).elim

theorem allLanes_sorted : Config.allLanes.Pairwise (· < ·) := by decide

theorem lanesIn_lowest {m : LaneMask} (h : hasLane m n = true) (low : ∀ k, k < n → hasLane m k = false) :
    ∃ ns, lanesIn m = n :: ns := by
  have head : (lanesIn m).head? = some n := by
    rw [lanesIn, List.head?_filter]
    exact find?_lowest allLanes_sorted (mem_allLanes n) h low
  cases e : lanesIn m with
  | nil => rw [e] at head; cases head
  | cons k ks => rw [e] at head; cases head; exact ⟨ks, rfl⟩

theorem status_noImage (hc : j.cancelLink = none) (hi : j.imageFail = none) :
    j.status = if j.succeeded = j.mask then .ok else if j.succeeded ≠ 0 then .partialDone else .failed := by
  rw [JobSlot.status, hc, hi, if_neg (by decide)]

/-- The detail of a job that lanes have failed: the lowest of them and its result (R18). -/
theorem detail_failed (hs : j.status = .partialDone ∨ j.status = .failed) {r : LaneResult} (h : hasLane j.failed n = true)
    (low : ∀ m, m < n → hasLane j.failed m = false) (hr : j.results.get n = some r) :
    j.detail.toNat = n.val + 256 * (resultCode r).toNat := by
  obtain ⟨ns, e⟩ := lanesIn_lowest h low
  have lt : n.val + 256 * (resultCode r).toNat < 2 ^ 16 := by
    have := n.isLt; have := (resultCode r).isLt; omega
  have d : j.detail = BitVec.ofNat 16 (n.val + 256 * (resultCode r).toNat) := by
    rw [JobSlot.detail]
    rcases hs with hs | hs <;> rw [hs] <;> dsimp only <;> rw [e] <;> dsimp only <;> rw [hr] <;> rfl
  rw [d, BitVec.toNat_ofNat, Nat.mod_eq_of_lt lt]

/-- Settles O26: masks, status and detail by the tables, and the reports lane by lane. -/
theorem outcomeOfACompletedJob : Obligations.OutcomeOfACompletedJob := by
  rintro j head hr hm e rfl
  have cover : ∀ n, hasLane (j.succeeded ||| j.notRun ||| j.failed) n = hasLane j.mask n := by
    intro n
    rw [hasLane_or, hasLane_or]
    refine Bool.eq_iff_iff.mpr ?_
    rw [Bool.or_eq_true, Bool.or_eq_true, mem_succeeded, mem_notRun, mem_failed]
    constructor
    · rintro ((h | h) | h) <;> exact h.1
    · intro h
      obtain ⟨r, q⟩ := Option.isSome_iff_exists.mp (hr n h)
      by_cases d : r = .done
      · exact .inl (.inl ⟨h, by rw [q, d]⟩)
      by_cases d' : r = .notRun
      · exact .inl (.inr ⟨h, by rw [q, d']⟩)
      · exact .inr ⟨h, r, q, d, d'⟩
  refine ⟨rfl, fun n => mem_succeeded, fun n => mem_notRun, fun n => mem_failed, disjoint_of_not_both fun n a b => ?_,
    disjoint_of_not_both fun n a b => ?_, disjoint_of_not_both fun n a b => ?_, mask_ext cover, ?_, fun x hx => ?_, fun hc => ?_,
    fun hc d hi => ?_, fun hc hi => ?_, fun hc hi => ⟨fun h => ?_, fun h h' => ?_, fun h => ?_, fun h n r hf low hq => ?_⟩⟩
  · cases (mem_succeeded.mp a).2.symm.trans (mem_notRun.mp b).2
  · obtain ⟨-, r, q, d, -⟩ := mem_failed.mp b
    exact d (Option.some.inj (q.symm.trans (mem_succeeded.mp a).2))
  · obtain ⟨-, r, q, -, d⟩ := mem_failed.mp b
    exact d (Option.some.inj (q.symm.trans (mem_notRun.mp a).2))
  · exact (List.map_map ..).trans ((List.map_congr_left fun _ _ => rfl).trans (List.map_id _))
  · obtain ⟨n, hn, rfl⟩ := List.mem_map.mp hx
    obtain ⟨r, q⟩ := Option.isSome_iff_exists.mp (hr n (mem_lanesIn.mp hn))
    exact ⟨by simp [JobSlot.report, q], rfl, rfl⟩
  · have st : j.status = .cancelled := if_pos hc
    exact ⟨st, by show j.detail = 0; rw [JobSlot.detail, st]⟩
  · have st : j.status = .imageInvalid := by rw [JobSlot.status, hc, hi]; rfl
    have dt : j.detail = d.setWidth 16 := by rw [JobSlot.detail, st]; dsimp only; rw [hi]
    refine ⟨st, (congrArg BitVec.toNat dt).trans ?_⟩
    rw [BitVec.toNat_setWidth]
    have := d.isLt; omega
  · have st : j.status = .imageUnreadable := by rw [JobSlot.status, hc, hi]; rfl
    exact ⟨st, by show j.detail = 0; rw [JobSlot.detail, st]⟩
  · have st : j.status = .ok := (status_noImage hc hi).trans (if_pos h)
    exact ⟨st, by show j.detail = 0; rw [JobSlot.detail, st]⟩
  · exact (status_noImage hc hi).trans ((if_neg h).trans (if_pos h'))
  · have h0 : j.succeeded = 0 := h
    exact (status_noImage hc hi).trans ((if_neg (fun q => hm (q.symm.trans h0))).trans (if_neg (not_not.mpr h0)))
  · refine detail_failed ?_ hf low hq
    rw [status_noImage hc hi, if_neg (show ¬ j.succeeded = j.mask from h)]
    split
    · exact .inl rfl
    · exact .inr rfl

/-! ## The jobs that a scan grants (R6) -/

theorem and_or_zero {a b c : LaneMask} : a &&& (b ||| c) = 0 ↔ a &&& b = 0 ∧ a &&& c = 0 := by
  rw [show a &&& (b ||| c) = (a &&& b) ||| (a &&& c) by ext; simp [Bool.and_or_distrib_left]]
  constructor
  · intro h
    have each : ∀ n, (hasLane (a &&& b) n || hasLane (a &&& c) n) = false := fun n => by
      rw [← hasLane_or, h]; exact hasLane_zero n
    exact ⟨mask_ext fun n => (Bool.or_eq_false_iff.mp (each n)).1.trans (hasLane_zero n).symm,
      mask_ext fun n => (Bool.or_eq_false_iff.mp (each n)).2.trans (hasLane_zero n).symm⟩
  · rintro ⟨h, k⟩; rw [h, k]; rfl

/-- The grants of a list: the lanes of each are neither blocked nor asked for by a job before it. -/
theorem mem_grantableFrom {is : List SlotId} {b : LaneMask} : i ∈ w.grantableFrom b is ↔
    ∃ before after j, is = before ++ i :: after ∧ w.slot i = some j ∧ j.mask &&& b = 0
      ∧ ∀ k ∈ before, ∀ j', w.slot k = some j' → j'.mask &&& j.mask = 0 := by
  induction is generalizing b with
  | nil => simp [Work.grantableFrom]
  | cons k ks ih =>
    have later : ∀ c : LaneMask, (∀ j : JobSlot, j.mask &&& c = 0 ↔ j.mask &&& b = 0 ∧ ∀ j', w.slot k = some j' → j'.mask &&& j.mask = 0) →
        (i ∈ w.grantableFrom c ks ↔ ∃ before after j, k :: ks = (k :: before) ++ i :: after ∧ w.slot i = some j ∧ j.mask &&& b = 0
          ∧ ∀ x ∈ k :: before, ∀ j', w.slot x = some j' → j'.mask &&& j.mask = 0) := by
      intro c hc
      rw [ih]
      refine exists_congr fun before => exists_congr fun after => exists_congr fun j => ?_
      rw [List.cons_append, List.cons.injEq, List.forall_mem_cons, hc j]
      tauto
    have split : (∃ before after j, k :: ks = before ++ i :: after ∧ w.slot i = some j ∧ j.mask &&& b = 0
          ∧ ∀ x ∈ before, ∀ j', w.slot x = some j' → j'.mask &&& j.mask = 0)
        ↔ (k = i ∧ ∃ j, w.slot i = some j ∧ j.mask &&& b = 0)
          ∨ ∃ before after j, k :: ks = (k :: before) ++ i :: after ∧ w.slot i = some j ∧ j.mask &&& b = 0
            ∧ ∀ x ∈ k :: before, ∀ j', w.slot x = some j' → j'.mask &&& j.mask = 0 := by
      constructor
      · rintro ⟨_ | ⟨x, before⟩, after, j, e, hj, hb, hx⟩
        · exact .inl ⟨(List.cons.inj e).1, j, hj, hb⟩
        · obtain rfl := (List.cons.inj e).1
          exact .inr ⟨before, after, j, e, hj, hb, hx⟩
      · rintro (⟨rfl, j, hj, hb⟩ | ⟨before, after, j, e, hj, hb, hx⟩)
        · exact ⟨[], ks, j, rfl, hj, hb, by simp⟩
        · exact ⟨k :: before, after, j, e, hj, hb, hx⟩
    rw [split, Work.grantableFrom]
    cases hk : w.slot k with
    | none =>
      dsimp only
      rw [later b (fun j => by simp [hk])]
      refine (or_iff_right ?_).symm
      rintro ⟨rfl, j, hj, -⟩
      rw [hk] at hj; cases hj
    | some jk =>
      dsimp only
      have rest := later (b ||| jk.mask) (fun j => by
        rw [and_or_zero, hk]
        refine and_congr_right fun _ => ?_
        rw [BitVec.and_comm]
        exact ⟨fun h j' e => by cases e; exact h, fun h => h jk rfl⟩)
      split
      · rename_i hm
        rw [List.mem_cons, rest]
        refine or_congr_left ⟨?_, fun h => h.1.symm⟩
        rintro rfl; exact ⟨rfl, jk, hk, hm⟩
      · rename_i hm
        rw [rest]
        refine (or_iff_right ?_).symm
        rintro ⟨rfl, j, hj, hb⟩
        rw [hk] at hj; cases hj
        exact hm hb

theorem mem_grantable : i ∈ w.grantable ↔ ∃ before after j, w.grantList = before ++ i :: after ∧ w.slot i = some j
    ∧ (∀ n, hasLane j.mask n = true → w.ownerOf n = none)
    ∧ ∀ k ∈ before, ∀ j', w.slot k = some j' → j'.mask &&& j.mask = 0 := by
  have free : ∀ m : LaneMask, m &&& w.ownedMask = 0 ↔ ∀ n, hasLane m n = true → w.ownerOf n = none := by
    intro m
    refine ⟨fun h n hn => ?_, fun h => disjoint_of_not_both fun n a b => ?_⟩
    · have := hasLane_and h hn
      rw [hasLane_ownedMask] at this
      simpa using this
    · rw [hasLane_ownedMask, h n a] at b; cases b
  rw [Work.grantable, mem_grantableFrom]
  simp only [free]

/-- Two jobs ask for no lane in common. -/
def MasksApart (w : Work) (i k : SlotId) : Prop := ∀ j j', w.slot i = some j → w.slot k = some j' → j.mask &&& j'.mask = 0

theorem grantable_apart {is : List SlotId} (g : Grantable w is) {i k : SlotId} (hi : i ∈ is) (hk : k ∈ is) (ne : i ≠ k) :
    MasksApart w i k := by
  have : Std.Symm (MasksApart w) := ⟨fun a b h j j' ej ek => by rw [BitVec.and_comm]; exact h j' j ek ej⟩
  have apart : is.Pairwise (MasksApart w) := g.2.imp fun h j j' ej ek =>
    disjoint_of_not_both fun n x y => by rw [h.2 j j' n ej ek x] at y; exact Bool.false_ne_true y
  exact apart.forall hi hk ne

/-! ## What the grants leave -/

/-- The slot holds the job that was granted in it, or that job has completed. -/
def GrantedAs (w : Work) (i : SlotId) (j : JobSlot) : Prop :=
  w.slot i = none ∨ ∃ j', w.slot i = some j' ∧ j'.tag = j.tag ∧ j'.adm = j.adm ∧ j'.mask = j.mask ∧ j'.state ≠ .waiting

theorem grantedAs_slot {w' : Work} (h : GrantedAs w i j) (e : w'.slot i = w.slot i) : GrantedAs w' i j := by
  unfold GrantedAs; rw [e]; exact h

theorem grantedAs_reach {w' : Work} (p : Reach w w') (h : GrantedAs w i j) : GrantedAs w' i j := by
  induction p with
  | refl => exact h
  | lane | settings | served => exact grantedAs_slot (by assumption) rfl
  | drain n l d => exact d.elim
  | handOver k j' g => exact g.elim
  | pool v _ m ih => exact grantedAs_slot ih (congrArg (fun v => Vector.get v i) (poolMove_rest m).1)
  | @slot v k jk jk' _ hk _ m ih =>
    by_cases e : i = k
    · subst e
      rcases ih with ih | ⟨x, hx, ht, ha, hm, hs⟩
      · rw [ih] at hk; cases hk
      · rw [hk] at hx; cases hx
        obtain ⟨⟨t, m', a, -⟩, -, st⟩ := m
        refine .inr ⟨jk', by simp, t.trans ht, a.trans ha, m'.trans hm, ?_⟩
        rcases st with st | st <;> rw [st]
        · exact hs
        · decide
    · exact grantedAs_slot ih (by rw [slot_setSlot, if_neg e])
  | leave env n _ ih =>
    rcases leave_cases _ env n with e | ⟨k, -, v, rfl, e | ⟨jk, hk, -, e⟩ | ⟨-, e⟩⟩
    · rw [e]; exact ih
    · exact grantedAs_slot ih (by rw [e]; rfl)
    · by_cases q : i = k
      · subst q
        rcases ih with ih | ⟨x, hx, ht, ha, hm, -⟩
        · cases ih.symm.trans hk
        · cases hx.symm.trans hk
          exact .inr ⟨{ jk with state := .ending }, by rw [e, slot_setSlot, if_pos rfl], ht, ha, hm, nofun⟩
      · exact grantedAs_slot ih (by rw [e, slot_setSlot, if_neg q]; rfl)
    · by_cases q : i = k
      · exact .inl (by rw [e, completeAs_slot, if_pos q])
      · exact grantedAs_slot ih (by rw [e, completeAs_slot, if_neg q]; rfl)

theorem grantList_reach {w' : Work} (p : Reach w w') : w'.grantList = w.grantList := by
  induction p with
  | refl => rfl
  | lane _ _ _ _ ih | settings _ _ _ _ _ _ _ ih | served _ _ ih | slot _ _ _ _ _ _ _ ih => exact ih
  | drain n l d => exact d.elim
  | handOver k j' g => exact g.elim
  | pool v _ m ih => exact (poolMove_rest m).2.2.2.1.trans ih
  | leave env n _ ih =>
    rcases leave_cases _ env n with e | ⟨k, -, v, rfl, e | ⟨jk, -, -, e⟩ | ⟨-, e⟩⟩ <;> rw [e]
    · exact ih
    · exact ih
    · exact ih
    · rw [completeAs_grantList]; exact ih

/-- One grant: its job is no longer WAITING and off the Grant List, and the other waiting jobs stand. -/
theorem grantJob_spec {d : Prop} (hd : ¬d) (h : w.TablesSound d) (hj : w.slot i = some j) (hw : j.state = .waiting)
    (ho : ∀ n, hasLane j.mask n = true → w.ownerOf n = none) :
    (w.grantJob env i).grantList = w.grantList.filter (fun k => k ≠ i) ∧ GrantedAs (w.grantJob env i) i j
      ∧ (∀ k jk, k ≠ i → w.slot k = some jk → jk.state = .waiting → (w.grantJob env i).slot k = some jk)
      ∧ ∀ k jk, k ≠ i → GrantedAs w k jk → GrantedAs (w.grantJob env i) k jk := by
  have r := grantJob_reach env hj
  obtain ⟨-, -, hg, -, -, -, hs⟩ := handOver_fields w i j
  have kept := tables_of_path (r.mono id (fun f => f.elim)) (tables_handOver hd h hj hw ho)
  have other : ∀ k, k ≠ i → (w.handOver i j).slot k = w.slot k := by
    intro k hk
    rcases hs with ⟨q, -⟩ | ⟨c, -, q, -⟩ <;> rw [q, if_neg hk]
  refine ⟨(grantList_reach r).trans hg, grantedAs_reach r ?_, fun k jk hk e q => kept.waits k jk ((other k hk).trans e) q,
    fun k jk hk g => grantedAs_reach r (grantedAs_slot g (other k hk))⟩
  rcases hs with ⟨q, -⟩ | ⟨c, -, q, -⟩
  · exact .inr ⟨j.granted, by rw [q, if_pos rfl], rfl, rfl, rfl, nofun⟩
  · exact .inr ⟨{ j.granted with ctx := some c }, by rw [q, if_pos rfl], rfl, rfl, rfl, nofun⟩

/-- The grants of a scan, one after another. -/
theorem grantAll_spec {d : Prop} (hd : ¬d) (is : List SlotId) : ∀ w : Work, w.TablesSound d → Grantable w is →
    (is.foldl (Work.grantJob env) w).grantList = w.grantList.filter (fun k => k ∉ is)
      ∧ (∀ i ∈ is, ∀ j, w.slot i = some j → GrantedAs (is.foldl (Work.grantJob env) w) i j)
      ∧ (∀ i j, i ∉ is → w.slot i = some j → j.state = .waiting → (is.foldl (Work.grantJob env) w).slot i = some j)
      ∧ ∀ i j, i ∉ is → GrantedAs w i j → GrantedAs (is.foldl (Work.grantJob env) w) i j := by
  induction is with
  | nil => exact fun w _ _ => ⟨by simp, by simp, fun i j _ e _ => e, fun i j _ g => g⟩
  | cons k ks ih =>
    intro w h g
    obtain ⟨jk, hj, hw, ho⟩ := g.1 k (.head _)
    obtain ⟨t, g'⟩ := tables_grantJob hd env ks h g
    obtain ⟨list, granted, stands, kept⟩ := grantJob_spec (env := env) hd h hj hw ho
    obtain ⟨list', granted', stands', kept'⟩ := ih _ t g'
    have notin : k ∉ ks := fun m => ((List.pairwise_cons.mp g.2).1 k m).1 rfl
    rw [List.foldl_cons]
    refine ⟨?_, fun i hi j e => ?_, fun i j hi e q => ?_, fun i j hi e => ?_⟩
    · rw [list', list, List.filter_filter]
      refine List.filter_congr fun x _ => ?_
      by_cases e : x = k <;> simp [e]
    · by_cases e' : i = k
      · subst e'
        rw [hj] at e; cases e
        exact kept' i jk notin granted
      · have mem : i ∈ ks := (List.mem_cons.mp hi).resolve_left e'
        obtain ⟨ji, hi', hwi, -⟩ := g.1 i hi
        obtain rfl := Option.some.inj (hi'.symm.trans e)
        exact granted' i mem ji (stands i ji e' hi' hwi)
    · exact stands' i j (fun m => hi (.tail _ m)) (stands i j (fun e' => hi (e' ▸ .head _)) e q) q
    · exact kept' i j (fun m => hi (.tail _ m)) (kept i j (fun e' => hi (e' ▸ .head _)) e)

/-! ## GRANT_SCAN -/

/-- An effect answers itself when no record waits for a slot. -/
theorem answer_noneWaits (aw : s.Awake) (h : s.NoneWaits) (hu : u.intake = s.intake := by rfl) : s.answer u = .next u.refreshIrq := by
  rcases h with h | ⟨i, h⟩
  · exact answer_none aw (by rw [hu, h])
  · have free : ¬ s.work.freeSlot.isNone = true := fun q => freeSlot_none_iff.mp (Option.isNone_iff_eq_none.mp q) i h
    rw [answer_awake aw, State.takeFreed, if_neg (fun q => free q.1)]

theorem exec_grantScan (aw : s.Awake) (h : s.NoneWaits) (hs : s.part.state ∈ [.loading, .running, .quiescing, .quiesced]) :
    exec .grantScan s = .next (State.refreshIrq { s with work := s.work.grantScan s.env }) := by
  show s.answer s.grantScan = _
  rw [State.grantScan, if_pos (acting_of_mem hs).1]
  exact answer_noneWaits aw h

/-- Settles O21: the jobs granted (`mem_grantable`), and what the grants leave (`grantAll_spec`). -/
theorem scanGrantsEveryJobThatCanStart : Obligations.ScanGrantsEveryJobThatCanStart := by
  refine ⟨fun s aw hs => ?_, fun s aw hs sound waits starts hst => ?_⟩
  · show s.answer s.grantScan = _
    rw [State.grantScan, if_neg]
    · exact answer_slot aw
    · simp only [List.mem_cons, List.not_mem_nil, or_false] at hs
      rcases hs with h | h | h <;> simp [Env.acting, State.env, h, PartState.acts]
  · have mem : ∀ i, i ∈ s.work.grantable ↔ starts i := fun i => mem_grantable.trans (hst i).symm
    have nd := (acting_of_mem hs).2
    have g := grantable_spec sound
    obtain ⟨list, granted, stands, -⟩ := grantAll_spec (env := s.env) nd s.work.grantable s.work sound g
    refine ⟨fun i k j j' hi hk ne ej ek => ?_, _, exec_grantScan aw waits hs, ?_, fun i => ?_, fun i j hi e => ?_, fun i hi hm => ?_⟩
    · exact grantable_apart g ((mem i).mpr hi) ((mem k).mpr hk) ne j j' ej ek
    · exact list ▸ List.filter_sublist
    · show i ∈ (s.work.grantScan s.env).grantList ↔ _
      rw [Work.grantScan, list, List.mem_filter, ← mem i]
      simp
    · exact granted i ((mem i).mpr hi) j e
    · obtain ⟨j, e, q⟩ := (sound.waiting i).mp hm
      exact (stands i j (fun m => hi ((mem i).mp m)) e q).trans e.symm

end Sys2Proof.Proofs
end

section
/-! Characters on the line (O54), the page list (O51) and the clear plan (O52). -/

namespace Sys2Proof.Proofs

-- One theorem at a time: a thread for each would ask for more stack than the check allows.
set_option Elab.async false

open Sys2Proof.Machine Sys2Proof.Laws

/-! ## Characters as they are sent (R43) -/

theorem characterBits_eq (b : Byte) : characterBits b = [false, b.getLsbD 0, b.getLsbD 1, b.getLsbD 2, b.getLsbD 3,
    b.getLsbD 4, b.getLsbD 5, b.getLsbD 6, b.getLsbD 7, true] := rfl

theorem frameBits_length (frame : List Byte) : (frameBits frame).length = 10 * frame.length := by
  induction frame with
  | nil => rfl
  | cons c cs ih => simp [frameBits, characterBits_length] at ih ⊢; omega

theorem frameBits_getElem? {frame : List Byte} {k i : Nat} {b : Byte} (hb : frame[k]? = some b) (hi : i < 10) :
    (frameBits frame)[10 * k + i]? = (characterBits b)[i]? := by
  induction frame generalizing k with
  | nil => cases hb
  | cons c cs ih =>
    have split : frameBits (c :: cs) = characterBits c ++ frameBits cs := by simp [frameBits]
    rw [split]
    cases k with
    | zero =>
      cases hb
      rw [List.getElem?_append_left (by simpa [characterBits_length] using hi)]
      simp
    | succ k =>
      rw [List.getElem?_append_right (by simp [characterBits_length]; omega), characterBits_length,
        show 10 * (k + 1) + i - 10 = 10 * k + i by omega, ih hb]

/-- Bit `i` of byte `k` stands on the line for its bit time. -/
theorem sentLevel_frame {rate k i t : Nat} {frame : List Byte} {b : Byte} (hb : frame[k]? = some b) (hi : i < 10)
    (h : (10 * k + i) * bitTime rate ≤ t) (h' : t < (10 * k + i + 1) * bitTime rate) :
    some (sentLevel rate frame t) = (characterBits b)[i]? := by
  have at_ : t / bitTime rate = 10 * k + i := Nat.div_eq_of_lt_le h h'
  have bit := frameBits_getElem? hb hi
  rw [sentLevel, at_, List.getD_eq_getElem?_getD, bit]
  rw [List.getElem?_eq_getElem (by simpa [characterBits_length] using hi)]
  rfl

theorem bitTime_pos (rate : Nat) : 0 < bitTime rate := by
  unfold bitTime
  split <;> decide

theorem sentLevel_after {rate t : Nat} {frame : List Byte} (pos : 0 < bitTime rate) (h : 10 * frame.length * bitTime rate ≤ t) :
    sentLevel rate frame t = true := by
  rw [sentLevel, List.getD_eq_default]
  rw [frameBits_length]
  exact (Nat.le_div_iff_mul_le pos).mpr h

/-! ## Characters as they are read (R45) -/

theorem byte_of_bits : ∀ b : Byte, BitVec.ofNat 8 ((List.range 8).foldr (fun i v => (b.getLsbD i).toNat + 2 * v) 0) = b := by
  decide +kernel

theorem readCharacter_byte {rate : Nat} {levels : List Nat} {b : Byte}
    (h : ∀ i, i < 10 → some (sampleBit rate levels i) = (characterBits b)[i]?) : readCharacter rate levels = .byte b := by
  have start : sampleBit rate levels 0 = false := Option.some.inj (h 0 (by decide))
  have stop : sampleBit rate levels 9 = true := Option.some.inj (h 9 (by decide))
  have data : ∀ i ∈ List.range 8, sampleBit rate levels (i + 1) = b.getLsbD i := by
    intro i hi
    have lt : i < 8 := List.mem_range.mp hi
    refine Option.some.inj ((h (i + 1) (by omega)).trans ?_)
    rw [characterBits, List.cons_append, List.getElem?_cons_succ, List.getElem?_append_left (by simpa using lt)]
    simp [lt]
  have same : (List.range 8).foldr (fun i v => (sampleBit rate levels (i + 1)).toNat + 2 * v) 0
      = (List.range 8).foldr (fun i v => (b.getLsbD i).toNat + 2 * v) 0 :=
    List.foldr_ext _ _ _ (fun i hi v => by rw [data i hi])
  simp [readCharacter, start, stop, same, byte_of_bits]

/-! ## The glitch filter (R45) -/

theorem filterLevels_pass {rate acc : Nat} {levels : List Nat} (h : ∀ r ∈ levels, passesGlitchFilter rate r = true) :
    filterLevels rate false acc levels = acc :: levels := by
  induction levels generalizing acc with
  | nil => rfl
  | cons r rs ih =>
    rw [filterLevels, if_pos (h r (by simp)), ih (fun x hx => h x (by simp [hx]))]

theorem filterLevels_first {rate : Nat} (same : Bool) (acc : Nat) (levels : List Nat) :
    ∃ first rest, filterLevels rate same acc levels = first :: rest ∧ acc ≤ first := by
  induction levels generalizing same acc with
  | nil => cases same <;> exact ⟨acc, [], rfl, Nat.le_refl _⟩
  | cons r rs ih =>
    cases same with
    | true =>
      obtain ⟨first, rest, e, le⟩ := ih false (acc + r)
      exact ⟨first, rest, e, by omega⟩
    | false =>
      by_cases p : passesGlitchFilter rate r = true
      · exact ⟨acc, filterLevels rate false r rs, if_pos p, Nat.le_refl _⟩
      · obtain ⟨first, rest, e, le⟩ := ih true (acc + r)
        exact ⟨first, rest, (if_neg p).trans e, by omega⟩

theorem filterLevels_glitch {rate stood glitch : Nat} (hs : passesGlitchFilter rate stood = true)
    (hg : passesGlitchFilter rate glitch = false) (next : Nat) (before after : List Nat) (same : Bool) (acc : Nat) :
    filterLevels rate same acc (before ++ stood :: glitch :: next :: after)
      = filterLevels rate same acc (before ++ (stood + glitch + next) :: after)
    ∧ filterLevels rate same acc (before ++ [stood, glitch]) = filterLevels rate same acc (before ++ [stood + glitch]) := by
  have longer : ∀ x, passesGlitchFilter rate (stood + x) = true := by
    intro x
    simp only [passesGlitchFilter, decide_eq_true_eq] at hs ⊢
    omega
  induction before generalizing same acc with
  | nil =>
    cases same with
    | true => simp [filterLevels, hg, Nat.add_assoc]
    | false => simp [filterLevels, hs, hg, longer, Nat.add_assoc]
  | cons r rs ih =>
    cases same with
    | true => exact ih false (acc + r)
    | false =>
      simp only [List.cons_append, filterLevels]
      split
      · exact ⟨congrArg _ (ih false r).1, congrArg _ (ih false r).2⟩
      · exact ih true (acc + r)

theorem levelAt_high {first : Nat} {rest : List Nat} {t : Nat} (h : t < first) : (levelAt true (first :: rest) t).1 = true := by
  cases rest with
  | nil => rfl
  | cons r rs => rw [levelAt, if_pos h]; simp

/-- Settles O54: the bits of a frame stand in their bit times, a character is read by the levels at the middles of its bits, and
the glitch filter is followed level by level. -/
theorem charactersOnTheLine : Obligations.CharactersOnTheLine := by
  refine ⟨?_, ?_⟩
  · intro rate bit hmem
    obtain rfl : bit = bitTime rate := (bitTime_of_mem hmem).symm
    have pos : 0 < bitTime rate := bitTime_pos rate
    have passes : ∀ x, passesGlitchFilter rate x = true ↔ 3 * bitTime rate ≤ 16 * x := fun x => decide_eq_true_iff
    refine ⟨fun bits hbits => ⟨?_, ?_, ?_⟩, ?_, ?_, ?_⟩
    · intro frame k i t b hb hi h h'
      rw [hbits, ← characterBits_eq]
      exact sentLevel_frame hb hi h h'
    · intro frame t h
      exact sentLevel_after pos h
    · intro levels at_ hat
      have sample : ∀ i, sampleBit rate levels i = at_ i := fun i => (hat i).symm
      refine ⟨fun h0 => ?_, fun h0 h9 => ?_, fun b hb => ?_⟩
      · simp [readCharacter, sample, h0]
      · simp [readCharacter, sample, h0, h9]
      · refine readCharacter_byte fun i hi => ?_
        rw [sample, hb i hi, hbits, characterBits_eq]
    · intro levels t some_ h
      obtain ⟨r, rs, rfl⟩ := List.exists_cons_of_ne_nil some_
      rw [lineAt, filterLevels_pass (fun x hx => (passes x).mpr (h x hx))]
      rfl
    · intro stood glitch next t before after hs hg
      have glitched := filterLevels_glitch (rate := rate) ((passes stood).mpr hs)
        (Bool.eq_false_iff.mpr fun p => by have := (passes glitch).mp p; omega) next before after false 0
      exact ⟨congrArg (levelAt true · t) glitched.1, congrArg (levelAt true · t) glitched.2⟩
    · intro glitch next t after hg ht
      have short : ¬ passesGlitchFilter rate glitch = true := fun p => by have := (passes glitch).mp p; omega
      have joined : filterLevels rate false 0 (glitch :: next :: after) = filterLevels rate false (0 + glitch + next) after :=
        (if_neg short).trans rfl
      obtain ⟨first, rest, e, le⟩ := filterLevels_first (rate := rate) false (0 + glitch + next) after
      rw [lineAt, joined, e]
      exact levelAt_high (by omega)
  · intro w n frame t h
    rw [Work.drivenLevel, h]
    rfl

/-! ## A segment table without a bad segment (Table 5-1) -/

/-- The segments stand in ascending order, apart from each other, each with a byte. -/
def Ascending (segs : List Segment) : Prop := segs.Pairwise (fun g h => g.stop ≤ h.addr.toNat) ∧ ∀ g ∈ segs, g.addr.toNat < g.stop

theorem ascending_of_good {segs : List Segment} (h : ∀ k, ¬ segmentFails segs k) : Ascending segs := by
  refine ⟨?_, fun g hg => ?_⟩
  · refine (@List.isChain_iff_pairwise _ (fun g h : Segment => g.stop ≤ h.addr.toNat) segs ⟨fun hab hbc => ?_⟩).mp
      (List.isChain_iff_getElem.mpr fun k hk => ?_)
    · exact Nat.le_trans hab (Nat.le_trans (Nat.le_add_right _ _) hbc)
    · refine Nat.le_of_not_lt fun lt => h (k + 1) ⟨segs[k + 1], List.getElem?_eq_getElem hk, ?_⟩
      exact .inr (.inr (.inr (.inr ⟨segs[k], by omega, List.getElem?_eq_getElem (by omega), lt⟩)))
  · obtain ⟨k, hk, rfl⟩ := List.mem_iff_getElem.mp hg
    refine Nat.lt_add_of_pos_right (Nat.pos_of_ne_zero fun none_ => h k ⟨segs[k], List.getElem?_eq_getElem hk, .inl none_⟩)

theorem Ascending.tail {g : Segment} {gs : List Segment} (h : Ascending (g :: gs)) : Ascending gs :=
  ⟨(List.pairwise_cons.mp h.1).2, fun x hx => h.2 x (by simp [hx])⟩

theorem Ascending.above {g : Segment} {gs : List Segment} (h : Ascending (g :: gs)) : ∀ x ∈ gs, g.stop ≤ x.addr.toNat :=
  (List.pairwise_cons.mp h.1).1

/-! ## The page list (R83) -/

theorem add_le_of_multiples {m p q : Nat} (hp : p % m = 0) (hq : q % m = 0) (h : p < q) : p + m ≤ q := by
  obtain ⟨a, rfl⟩ := Nat.dvd_of_mod_eq_zero hp
  obtain ⟨b, rfl⟩ := Nat.dvd_of_mod_eq_zero hq
  have lt : a + 1 ≤ b := Nat.lt_of_mul_lt_mul_left h
  calc m * a + m = m * (a + 1) := (Nat.mul_succ m a).symm
    _ ≤ m * b := Nat.mul_le_mul_left m lt

theorem roundDown_mod (a m : Nat) : roundDown a m % m = 0 := Nat.mul_mod_left _ _

theorem roundDown_le (a m : Nat) : roundDown a m ≤ a := Nat.div_mul_le_self a m

theorem lt_roundDown_add (a : Nat) {m : Nat} (h : 0 < m) : a < roundDown a m + m := by
  have := Nat.div_add_mod' a m
  have := Nat.mod_lt a h
  unfold roundDown
  omega

section Pages

variable {segs : List Segment} {size p q : Nat}

theorem isPageOf_iff (asc : Ascending segs) (pos : 0 < size) :
    isPageOf segs size p ↔ p % size = 0 ∧ ∃ g ∈ segs, g.addr.toNat < p + size ∧ p < g.stop := by
  refine and_congr_right fun _ => exists_congr fun g => and_congr_right fun hg => ?_
  have := asc.2 g hg
  constructor
  · rintro ⟨a, h⟩
    unfold Segment.stop
    omega
  · intro h
    unfold Segment.stop at this h
    exact ⟨max p g.addr.toNat, by omega⟩

/-- The first page of an image is its lowest. -/
theorem firstPage_least (asc : Ascending segs) (pos : 0 < size) (some_ : segs ≠ []) :
    ∃ p, firstPage segs size = some p ∧ isPageOf segs size p ∧ ∀ q, isPageOf segs size q → p ≤ q := by
  obtain ⟨g, gs, rfl⟩ := List.exists_cons_of_ne_nil some_
  have below := roundDown_le g.addr.toNat size
  have above := lt_roundDown_add g.addr.toNat pos
  have := asc.2 g (by simp)
  refine ⟨roundDown g.addr.toNat size, rfl, ?_, fun q hq => ?_⟩
  · exact (isPageOf_iff asc pos).mpr ⟨roundDown_mod _ _, g, by simp, above, by omega⟩
  · obtain ⟨multiple, h, hmem, lt, -⟩ := (isPageOf_iff asc pos).mp hq
    refine Nat.le_of_not_lt fun less => ?_
    have := add_le_of_multiples multiple (roundDown_mod _ _) less
    have : g.addr.toNat ≤ h.addr.toNat := by
      rcases List.mem_cons.mp hmem with rfl | tail
      · exact Nat.le_refl _
      · have := asc.above h tail
        omega
    omega

/-- A page that follows is the lowest above. -/
theorem pageAfter_least (asc : Ascending segs) (pos : 0 < size) (hp : p % size = 0) (h : pageAfter segs size p = some q) :
    isPageOf segs size q ∧ p < q ∧ ∀ r, isPageOf segs size r → p < r → q ≤ r := by
  obtain ⟨g, hg, rfl⟩ := Option.map_eq_some_iff.mp h
  obtain ⟨reaches, before, after, split, short⟩ := List.find?_eq_some_iff_append.mp hg
  have reaches : p + size < g.stop := of_decide_eq_true reaches
  have below := roundDown_le g.addr.toNat size
  have above := lt_roundDown_add g.addr.toNat pos
  have mem : g ∈ segs := by simp [split]
  have := asc.2 g mem
  have next : (p + size) % size = 0 := by rw [Nat.add_mod_right, hp]
  have multiple : max (p + size) (roundDown g.addr.toNat size) % size = 0 := by
    rcases Nat.le_total (p + size) (roundDown g.addr.toNat size) with le | le
    · rw [Nat.max_eq_right le, roundDown_mod]
    · rw [Nat.max_eq_left le, next]
  refine ⟨(isPageOf_iff asc pos).mpr ⟨multiple, g, mem, by omega, by omega⟩, by omega, fun r hr lt => ?_⟩
  obtain ⟨rm, x, hx, le, lt'⟩ := (isPageOf_iff asc pos).mp hr
  have step := add_le_of_multiples hp rm lt
  have : g.addr.toNat ≤ x.addr.toNat := by
    rw [split, List.mem_append, List.mem_cons] at hx
    rcases hx with early | rfl | late
    · have := short x early
      simp at this
      omega
    · exact Nat.le_refl _
    · have sorted := asc.1
      rw [split] at sorted
      have := (List.pairwise_cons.mp (List.pairwise_append.mp sorted).2.1).1 x late
      omega
  have : roundDown g.addr.toNat size ≤ r := by
    refine Nat.le_of_not_lt fun less => ?_
    have := add_le_of_multiples rm (roundDown_mod _ _) less
    omega
  omega

theorem pageAfter_none (asc : Ascending segs) (pos : 0 < size) (hp : p % size = 0) :
    pageAfter segs size p = none ↔ ∀ r, isPageOf segs size r → r ≤ p := by
  constructor
  · intro h r hr
    obtain ⟨rm, x, hx, -, lt⟩ := (isPageOf_iff asc pos).mp hr
    have last := List.find?_eq_none.mp (Option.map_eq_none_iff.mp h) x hx
    refine Nat.le_of_not_lt fun less => ?_
    have := add_le_of_multiples hp rm less
    simp at last
    omega
  · intro h
    cases e : pageAfter segs size p with
    | none => rfl
    | some q =>
      obtain ⟨page, lt, -⟩ := pageAfter_least asc pos hp e
      exact absurd (h q page) (by omega)

theorem pageAfter_iff (asc : Ascending segs) (pos : 0 < size) (hp : p % size = 0) : pageAfter segs size p = some q ↔
    isPageOf segs size q ∧ p < q ∧ ∀ r, isPageOf segs size r → p < r → q ≤ r := by
  refine ⟨pageAfter_least asc pos hp, fun ⟨page, lt, least⟩ => ?_⟩
  cases e : pageAfter segs size p with
  | none => exact absurd ((pageAfter_none asc pos hp).mp e q page) (by omega)
  | some x =>
    obtain ⟨page', lt', least'⟩ := pageAfter_least asc pos hp e
    rw [Nat.le_antisymm (least' q page lt) (least x page' lt')]

/-! ## The reads of a page (R84) -/

/-- A piece is the part of a segment that lies in the page. -/
theorem mem_piecesFrom {i : Nat} {q : Piece} : q ∈ piecesFrom size p i segs → ∃ g ∈ segs,
    max p g.addr.toNat < min (p + size) g.stop ∧ q.host = addrPlus g.host (max p g.addr.toNat - g.addr.toNat)
      ∧ q.offset = max p g.addr.toNat - p ∧ q.len = min (p + size) g.stop - max p g.addr.toNat := by
  induction segs generalizing i with
  | nil => intro h; cases h
  | cons g gs ih =>
    intro h
    rw [piecesFrom] at h
    split at h
    · next inside =>
      rcases List.mem_cons.mp h with rfl | tail
      · exact ⟨g, by simp, inside, rfl, rfl, rfl⟩
      · obtain ⟨x, hx, e⟩ := ih tail
        exact ⟨x, by simp [hx], e⟩
    · obtain ⟨x, hx, e⟩ := ih h
      exact ⟨x, by simp [hx], e⟩

theorem piecesFrom_covers {i : Nat} {g : Segment} (hg : g ∈ segs) (inside : max p g.addr.toNat < min (p + size) g.stop) :
    ∃ q ∈ piecesFrom size p i segs, q.offset = max p g.addr.toNat - p
      ∧ q.len = min (p + size) g.stop - max p g.addr.toNat := by
  induction segs generalizing i with
  | nil => cases hg
  | cons x xs ih =>
    rw [piecesFrom]
    rcases List.mem_cons.mp hg with rfl | tail
    · rw [if_pos inside]
      exact ⟨_, List.mem_cons_self, rfl, rfl⟩
    · obtain ⟨q, hq, e⟩ := ih (i := i + 1) tail
      split
      · exact ⟨q, List.mem_cons_of_mem _ hq, e⟩
      · exact ⟨q, hq, e⟩

theorem piecesFrom_ascend {i : Nat} (asc : Ascending segs) :
    (piecesFrom size p i segs).Pairwise (fun a b => a.offset + a.len ≤ b.offset) := by
  induction segs generalizing i with
  | nil => exact .nil
  | cons g gs ih =>
    rw [piecesFrom]
    split
    · refine List.pairwise_cons.mpr ⟨fun b hb => ?_, ih asc.tail⟩
      obtain ⟨x, hx, -, -, offset, -⟩ := mem_piecesFrom hb
      have := asc.above x hx
      rw [offset]
      dsimp only
      omega
    · exact ih asc.tail

end Pages

/-- Settles O51: the segments ascend, so the page list takes the lowest page above each time and the pieces of a page follow one
another. -/
theorem pageListWalksTheImage : Obligations.PageListWalksTheImage := by
  intro x size _ hsize some_ good
  have asc := ascending_of_good good
  have pos : 0 < size := by rw [hsize]; positivity
  have own : x.size = size := hsize.symm
  have reads : ∀ p, x.reads p = (piecesFrom size p 0 x.segs).map
      (fun q => { addr := q.host, len := q.len, offset := q.offset }) := by
    intro p
    rw [ImageCtx.reads, ImageCtx.pieces, own]
  refine ⟨firstPage_least asc pos some_, fun p hp => ?_⟩
  have multiple := hp.1
  refine ⟨fun q => pageAfter_iff asc pos multiple, pageAfter_none asc pos multiple, ?_, ?_, ?_⟩
  · rw [reads]
    exact List.pairwise_map.mpr (piecesFrom_ascend asc)
  · intro rd hrd
    rw [reads] at hrd
    obtain ⟨q, hq, rfl⟩ := List.mem_map.mp hrd
    obtain ⟨g, hg, inside, host, offset, len⟩ := mem_piecesFrom hq
    have at_ : p + q.offset = max p g.addr.toNat := by omega
    refine ⟨by dsimp only; omega, by dsimp only; omega, g, hg, ?_, ?_, ?_⟩ <;> rw [at_]
    · exact Nat.le_max_right _ _
    · unfold Segment.stop at inside len
      dsimp only
      omega
    · exact host
  · intro g hg a lo hi inPage inPage'
    have inside : max p g.addr.toNat < min (p + size) g.stop := by
      unfold Segment.stop
      omega
    obtain ⟨q, hq, offset, len⟩ := piecesFrom_covers (i := 0) hg inside
    refine ⟨{ addr := q.host, len := q.len, offset := q.offset }, ?_, ?_, ?_⟩
    · rw [reads]
      exact List.mem_map_of_mem hq
    · dsimp only
      omega
    · dsimp only
      unfold Segment.stop at inside len
      omega

/-! ## Runs of units and their requests (R105) -/

/-- `runs` are the runs of consecutive units among those wanted, in ascending order with a gap between two of them. -/
structure RunsOf (wanted : Nat → Prop) (runs : List (Nat × Nat)) : Prop where
  ordered : ∀ r ∈ runs, r.1 ≤ r.2
  apart : runs.Pairwise (fun a b => a.2 + 1 < b.1)
  covers : ∀ u, wanted u ↔ ∃ r ∈ runs, r.1 ≤ u ∧ u ≤ r.2

/-- What the requests of one run are. -/
structure Splits (first last : Nat) (plan : List (Nat × Nat)) : Prop where
  sized : ∀ r ∈ plan, 1 ≤ r.2 ∧ r.2 ≤ 16 ∧ (r.2 < 16 → r.1 + r.2 = last + 1)
  within : ∀ r ∈ plan, first ≤ r.1 ∧ r.1 + r.2 ≤ last + 1
  ascend : plan.Pairwise (fun a b => a.1 + a.2 ≤ b.1)
  covers : ∀ u, first ≤ u → u ≤ last → ∃ r ∈ plan, r.1 ≤ u ∧ u < r.1 + r.2

theorem splitRun_splits (fuel first last : Nat) (h : last + 1 - first ≤ 16 * fuel) :
    Splits first last (splitRun fuel first last) := by
  induction fuel generalizing first with
  | zero => exact ⟨nofun, nofun, .nil, fun u lo hi => by omega⟩
  | succ fuel ih =>
    rw [splitRun]
    split
    · exact ⟨nofun, nofun, .nil, fun u lo hi => by omega⟩
    · obtain ⟨sized, within, ascend, covers⟩ := ih (first + min 16 (last - first + 1)) (by omega)
      refine ⟨?_, ?_, ?_, ?_⟩
      · intro r hr
        rcases List.mem_cons.mp hr with rfl | tail
        · dsimp only
          omega
        · exact sized r tail
      · intro r hr
        rcases List.mem_cons.mp hr with rfl | tail
        · dsimp only
          omega
        · have := within r tail
          omega
      · refine List.pairwise_cons.mpr ⟨fun r hr => (within r hr).1, ascend⟩
      · intro u lo hi
        by_cases here : u < first + min 16 (last - first + 1)
        · exact ⟨_, List.mem_cons_self, lo, here⟩
        · obtain ⟨r, hr, e⟩ := covers u (by omega) hi
          exact ⟨r, List.mem_cons_of_mem _ hr, e⟩

theorem runRequests_splits {r : Nat × Nat} (h : r.1 ≤ r.2) : Splits r.1 r.2 (runRequests r) := by
  refine splitRun_splits _ _ _ ?_
  unfold ceilDiv
  omega

section Plans

variable {wanted : Nat → Prop} {runs : List (Nat × Nat)}

theorem RunsOf.sized (h : RunsOf wanted runs) :
    ∀ q ∈ runs.flatMap runRequests, 1 ≤ q.2 ∧ q.2 ≤ 16 ∧ (q.2 < 16 → ¬ wanted (q.1 + q.2)) := by
  intro q hq
  obtain ⟨r, hr, hq⟩ := List.mem_flatMap.mp hq
  obtain ⟨one, sixteen, ends⟩ := (runRequests_splits (h.ordered r hr)).sized q hq
  refine ⟨one, sixteen, fun short want => ?_⟩
  obtain ⟨x, hx, lo, hi⟩ := (h.covers _).mp want
  rw [ends short] at lo hi
  have ordered := h.ordered r hr
  rcases eq_or_ne r x with rfl | ne
  · omega
  · have sides : runs.Pairwise (fun a b => a.2 + 1 < b.1 ∨ b.2 + 1 < a.1) := h.apart.imp .inl
    have gap := @List.Pairwise.forall _ _ _ ⟨fun _ _ => Or.symm⟩ sides r hr x hx ne
    omega

theorem RunsOf.ascend (h : RunsOf wanted runs) : (runs.flatMap runRequests).Pairwise (fun a b => a.1 + a.2 ≤ b.1) := by
  refine List.pairwise_flatMap.mpr ⟨fun r hr => (runRequests_splits (h.ordered r hr)).ascend, ?_⟩
  refine h.apart.imp_of_mem fun {r x} hr hx gap a ha b hb => ?_
  have := (runRequests_splits (h.ordered r hr)).within a ha
  have := (runRequests_splits (h.ordered x hx)).within b hb
  omega

theorem RunsOf.planned (h : RunsOf wanted runs) (u : Nat) :
    wanted u ↔ ∃ q ∈ runs.flatMap runRequests, q.1 ≤ u ∧ u < q.1 + q.2 := by
  rw [h.covers]
  constructor
  · rintro ⟨r, hr, lo, hi⟩
    obtain ⟨q, hq, e⟩ := (runRequests_splits (h.ordered r hr)).covers u lo hi
    exact ⟨q, List.mem_flatMap.mpr ⟨r, hr, hq⟩, e⟩
  · rintro ⟨q, hq, lo, hi⟩
    obtain ⟨r, hr, hq⟩ := List.mem_flatMap.mp hq
    have := (runRequests_splits (h.ordered r hr)).within q hq
    exact ⟨r, hr, by omega, by omega⟩

/-- The same of runs held last first. -/
structure RunsBack (wanted : Nat → Prop) (runs : List (Nat × Nat)) : Prop where
  ordered : ∀ r ∈ runs, r.1 ≤ r.2
  apart : runs.Pairwise (fun a b => b.2 + 1 < a.1)
  covers : ∀ u, wanted u ↔ ∃ r ∈ runs, r.1 ≤ u ∧ u ≤ r.2

theorem RunsBack.reverse (h : RunsBack wanted runs) : RunsOf wanted runs.reverse :=
  ⟨by simpa using h.ordered, List.pairwise_reverse.mpr h.apart, by simpa using h.covers⟩

/-- Adding the units of a segment above: the run of the units before is longer, or a run begins. -/
theorem addRun_runs {a b : Nat} (h : RunsBack wanted runs) (le : a ≤ b) (above : ∀ r ∈ runs, r.2 ≤ a) :
    RunsBack (fun u => wanted u ∨ a ≤ u ∧ u ≤ b) (addRun runs (a, b)) ∧ ∀ r ∈ addRun runs (a, b), r.2 ≤ b := by
  obtain ⟨ordered, apart, covers⟩ := h
  have higher : ∀ r ∈ runs, r.2 ≤ b := fun r hr => Nat.le_trans (above r hr) le
  cases runs with
  | nil => exact ⟨⟨by simpa [addRun] using le, by simp [addRun], by simp [addRun, covers]⟩, by simp [addRun]⟩
  | cons r rest =>
    obtain ⟨first, last⟩ := r
    rw [List.pairwise_cons] at apart
    rw [List.forall_mem_cons] at ordered above higher
    rw [addRun]
    split
    · have top : max last b = b := Nat.max_eq_right higher.1
      simp only [top]
      refine ⟨⟨List.forall_mem_cons.mpr ⟨?_, ordered.2⟩, List.pairwise_cons.mpr apart, fun u => ?_⟩,
        List.forall_mem_cons.mpr ⟨Nat.le_refl _, higher.2⟩⟩
      · exact Nat.le_trans ordered.1 higher.1
      · rw [covers u]
        simp only [List.mem_cons, exists_eq_or_imp]
        have joined : first ≤ u ∧ u ≤ b ↔ (first ≤ u ∧ u ≤ last) ∨ a ≤ u ∧ u ≤ b := by omega
        rw [joined, or_right_comm]
    · next gap =>
      refine ⟨⟨List.forall_mem_cons.mpr ⟨le, List.forall_mem_cons.mpr ordered⟩, ?_, fun u => ?_⟩,
        List.forall_mem_cons.mpr ⟨Nat.le_refl _, List.forall_mem_cons.mpr higher⟩⟩
      · refine List.pairwise_cons.mpr ⟨List.forall_mem_cons.mpr ⟨Nat.lt_of_not_le gap, fun r hr => ?_⟩,
          List.pairwise_cons.mpr apart⟩
        have := apart.1 r hr
        omega
      · rw [covers u]
        simp only [List.mem_cons, exists_eq_or_imp]
        exact or_comm

end Plans

/-! ## The clear plan (R105, R106) -/

variable {d : TargetDesc} {segs : List Segment}

theorem unitSize_pos (code : Byte) : 0 < unitSize code := by
  unfold unitSize
  positivity

/-- The units of a segment are those of its bytes. -/
theorem mem_unitsOf {g : Segment} (byte : g.addr.toNat < g.stop) (base : d.base.toNat ≤ g.addr.toNat) (u : Nat) :
    ((unitsOf d g).1 ≤ u ∧ u ≤ (unitsOf d g).2) ↔ ∃ a, g.addr.toNat ≤ a ∧ a < g.addr.toNat + g.len.toNat
      ∧ (a - d.base.toNat) / (1024 * 2 ^ d.clearCode.toNat) = u := by
  have pos := unitSize_pos d.clearCode
  rw [← unitSize]
  unfold unitsOf
  dsimp only
  constructor
  · rintro ⟨lo, hi⟩
    have hi := (Nat.le_div_iff_mul_le pos).mp hi
    refine ⟨max g.addr.toNat (d.base.toNat + u * unitSize d.clearCode), Nat.le_max_left _ _, ?_, ?_⟩
    · unfold Segment.stop at hi byte
      omega
    · rcases Nat.le_total g.addr.toNat (d.base.toNat + u * unitSize d.clearCode) with le | le
      · rw [Nat.max_eq_right le, Nat.add_sub_cancel_left, Nat.mul_div_cancel _ pos]
      · rw [Nat.max_eq_left le]
        exact Nat.le_antisymm lo ((Nat.le_div_iff_mul_le pos).mpr (by omega))
  · rintro ⟨a, lo, hi, rfl⟩
    exact ⟨Nat.div_le_div_right (by omega), Nat.div_le_div_right (by unfold Segment.stop; omega)⟩

theorem unitsOf_ordered {g : Segment} (byte : g.addr.toNat < g.stop) : (unitsOf d g).1 ≤ (unitsOf d g).2 :=
  Nat.div_le_div_right (by omega)

/-- The runs of an image's units, segment by segment: `wanted` are the units of the segments before. -/
theorem foldl_addRun_runs {wanted : Nat → Prop} {runs : List (Nat × Nat)} (asc : Ascending segs) (h : RunsBack wanted runs)
    (above : ∀ r ∈ runs, ∀ g ∈ segs, r.2 ≤ (unitsOf d g).1) :
    RunsBack (fun u => wanted u ∨ ∃ g ∈ segs, (unitsOf d g).1 ≤ u ∧ u ≤ (unitsOf d g).2)
      ((segs.map (unitsOf d)).foldl addRun runs) := by
  induction segs generalizing wanted runs with
  | nil => simpa using h
  | cons g gs ih =>
    obtain ⟨next, below⟩ := addRun_runs h (unitsOf_ordered (d := d) (asc.2 g (by simp))) (fun r hr => above r hr g (by simp))
    refine Eq.mp ?_ (ih asc.tail next fun r hr x hx => ?_)
    · congr 1
      funext u
      simp [or_assoc]
    · have := asc.above x hx
      exact Nat.le_trans (below r hr) (Nat.div_le_div_right (by omega))

theorem unitRuns_runs (asc : Ascending segs) (base : ∀ g ∈ segs, d.base.toNat ≤ g.addr.toNat) :
    RunsOf (unitTouched d segs) (unitRuns d segs) := by
  have back := foldl_addRun_runs (d := d) (wanted := fun _ => False) (runs := []) asc ⟨nofun, .nil, by simp⟩ nofun
  have same : (fun u => False ∨ ∃ g ∈ segs, (unitsOf d g).1 ≤ u ∧ u ≤ (unitsOf d g).2) = unitTouched d segs := by
    funext u
    simp only [false_or, unitTouched]
    exact propext (exists_congr fun g => and_congr_right fun hg => mem_unitsOf (asc.2 g hg) (base g hg) u)
  exact (same ▸ back).reverse

theorem unitCount_pos (h : d.valid = true) : 0 < unitCount d := by
  simp only [TargetDesc.valid, Bool.and_eq_true, decide_eq_true_eq, beq_iff_eq, ne_eq] at h
  obtain ⟨⟨⟨⟨⟨-, some_⟩, whole⟩, -⟩, -⟩, -⟩ := h
  have pos : 0 < d.size.toNat := Nat.pos_of_ne_zero fun z => some_ (BitVec.eq_of_toNat_eq z)
  exact Nat.div_pos (Nat.le_of_dvd pos (Nat.dvd_of_mod_eq_zero whole)) (unitSize_pos _)

/-- The runs that a clear plan asks for: the whole target, or the units of the image. -/
def planRuns (d : TargetDesc) (clearAll : Bool) (segs : List Segment) : List (Nat × Nat) :=
  if clearAll then [(0, unitCount d - 1)] else unitRuns d segs

theorem clearPlan_eq (d : TargetDesc) (clearAll : Bool) (segs : List Segment) :
    clearPlan d clearAll segs = (planRuns d clearAll segs).flatMap runRequests := by
  cases clearAll <;> simp [clearPlan, planRuns]

theorem planRuns_runs (clearAll : Bool) (valid : d.valid = true) (asc : Ascending segs)
    (base : ∀ g ∈ segs, d.base.toNat ≤ g.addr.toNat) :
    RunsOf (fun u => if clearAll = true then u < unitCount d else unitTouched d segs u) (planRuns d clearAll segs) := by
  cases clearAll with
  | false => simpa [planRuns] using unitRuns_runs asc base
  | true =>
    have := unitCount_pos valid
    refine ⟨by simp [planRuns], by simp [planRuns], fun u => ?_⟩
    simp only [planRuns, List.mem_singleton, exists_eq_left, if_true]
    omega

/-- Settles O52: the units wanted fall into runs with a gap between two of them, and the requests of a run follow one another
from its first unit to its last. -/
theorem clearPlanCoversTheUnits : Obligations.ClearPlanCoversTheUnits := by
  intro d segs valid good inside clearAll plan wanted hplan hwanted
  have asc := ascending_of_good good
  have runs := planRuns_runs clearAll valid asc (fun g hg => (inside g hg).1)
  have same : wanted = fun u => if clearAll = true then u < unitCount d else unitTouched d segs u :=
    funext fun u => propext (hwanted u)
  rw [← same] at runs
  rw [hplan, clearPlan_eq]
  refine ⟨runs.sized, runs.ascend, runs.planned, fun some_ none_ => ?_⟩
  have nothing : ∀ u, ¬ wanted u := fun u h => by
    obtain ⟨q, hq, -⟩ := (runs.planned u).mp h
    simp [none_] at hq
  cases clearAll with
  | true => exact nothing 0 ((hwanted 0).mpr (unitCount_pos valid))
  | false =>
    obtain ⟨g, gs, rfl⟩ := List.exists_cons_of_ne_nil (some_.resolve_right nofun)
    have byte := asc.2 g (by simp)
    exact nothing _ ((hwanted _).mpr ⟨g, by simp, g.addr.toNat, Nat.le_refl _, byte, rfl⟩)


end Sys2Proof.Proofs
end

section
/-! What a lane's event leaves in place, and what a final result does to its lane: the rules that the statements about
one lane share. -/

namespace Sys2Proof.Proofs

-- One theorem at a time: a thread for each would ask for more stack than the check allows.
set_option Elab.async false

open Sys2Proof.Machine Sys2Proof.Laws

variable {s t u : State} {v w w' : Work} {env : Env} {n m : LaneId} {i : SlotId} {j : JobSlot} {l : Lane} {r : LaneResult}

/-! ## The state that a command answers -/

/-- `t` holds `v`, but that a record that waited for a slot may have been placed in one that `v` leaves free (R150). -/
structure Yields (v : Work) (t : State) : Prop where
  lane : ∀ n, t.work.lane n = v.lane n
  buf : ∀ b, t.work.buf b = v.buf b
  ctx : ∀ c, t.work.ctx c = v.ctx c
  owner : ∀ n, t.work.ownerOf n = v.ownerOf n
  queue : t.work.queue = v.queue
  slot : ∀ i, t.work.slot i = v.slot i
    ∨ (v.slot i = none ∧ ∃ j, t.work.slot i = some j ∧ j.live = 0 ∧ j.state = .waiting)

theorem takeFreed_owner (s u : State) (n : LaneId) : (s.takeFreed u).work.ownerOf n = u.work.ownerOf n := by
  rcases takeFreed_spec s u with e | ⟨r, a, i, -, -, -, -, -, e⟩
  · rw [e]
  · rw [e]
    rfl

theorem answer_yields (aw : s.Awake) (u : State) : ∃ t, s.answer u = .next t ∧ Yields u.work t ∧ t.part = u.part
    ∧ t.port = u.port := by
  obtain ⟨lanes, port, part, queue, -, ctxs, pool, -, slots⟩ := takeFreed_same s u
  refine ⟨(s.takeFreed u).refreshIrq, answer_awake aw u, ⟨fun n => ?_, fun b => ?_, fun c => ?_, takeFreed_owner s u, queue,
    slots⟩, part, port⟩
  · exact congrArg (·.get n) lanes
  · exact congrArg (·.get b) pool
  · exact congrArg (·.get c) ctxs

/-- An event at one lane, outside the drain. -/
theorem laneEvent_yields (aw : s.Awake) (hd : s.part.state ≠ .draining) (f : Env → Work → Work) :
    ∃ t, s.answer (s.laneEvent n f) = .next t ∧ Yields (f s.env s.work) t ∧ t.part = s.part ∧ t.port = s.port := by
  obtain ⟨t, e, y, part, port⟩ := answer_yields aw (s.laneEvent n f)
  rw [laneEvent_work, drainCheck_other (show s.env.part ≠ .draining from hd)] at y
  exact ⟨t, e, y, part, port⟩

namespace Yields

theorem frameOut (y : Yields v t) (n : LaneId) : t.work.frameOut n = v.frameOut n := by
  unfold Work.frameOut
  rw [y.lane n]
  cases (v.lane n).link.req with
  | none => rfl
  | some r =>
    have same : t.work.payload n r = v.payload n r := by
      unfold Work.payload
      rw [y.lane n]
      cases r.source with
      | pool a b k => exact congrArg (fun p : PageBuf => a ++ p.data.take k) (y.buf b)
      | engine bytes => rfl
      | exchangeBuffer k => rfl
    exact congrArg (fun p => some (requestFrame r.kind (v.lane n).link.seq p)) same

theorem isLive (y : Yields v t) (n : LaneId) : t.work.isLive n = v.isLive n := by
  unfold Work.isLive Work.jobOf
  rw [y.lane n]
  cases (v.lane n).ctx.slot with
  | none => rfl
  | some i =>
    rcases y.slot i with e | ⟨e, j, f, live, -⟩
    · simp only [Option.bind_some, e]
    · simp only [Option.bind_some, e, f, live]
      exact hasLane_zero n

theorem taken (y : Yields v t) (h : w.ResultTaken v n r) : w.ResultTaken t.work n r := by
  intro i j a b c d
  rcases h i j a b c d with ⟨j', e, f⟩ | ⟨e, f⟩
  · rcases y.slot i with q | ⟨q, -⟩
    · exact .inl ⟨j', q.trans e, f⟩
    · rw [q] at e
      cases e
  · refine .inr ⟨fun j' g => ?_, y.queue ▸ f⟩
    rcases y.slot i with q | ⟨-, j2, g2, live, -⟩
    · exact e j' (q ▸ g)
    · rw [g2] at g
      cases g
      rw [live]
      exact hasLane_zero n

theorem copied {p : OutcomeCopy → Prop} (y : Yields v t) (h : w.ResultCopied v n r p) : w.ResultCopied t.work n r p := by
  intro i j a b c d
  rcases h i j a b c d with ⟨j', e, f⟩ | ⟨e, f⟩
  · rcases y.slot i with q | ⟨q, -⟩
    · exact .inl ⟨j', q.trans e, f⟩
    · rw [q] at e
      cases e
  · refine .inr ⟨fun j' g => ?_, y.queue ▸ f⟩
    rcases y.slot i with q | ⟨-, j2, g2, live, -⟩
    · exact e j' (q ▸ g)
    · rw [g2] at g
      cases g
      rw [live]
      exact hasLane_zero n

end Yields

/-! ## What leaves every job as it is, but for last steps -/

/-- Every lane has its job still, and every job is as it was but for its last steps. -/
structure SameJobs (w w' : Work) : Prop where
  lane : ∀ m, (w'.lane m).ctx.slot = (w.lane m).ctx.slot
  job : ∃ steps : SlotId → Vector Step 8, ∀ i, w'.slot i = (w.slot i).map (fun j => { j with lastSteps := steps i })
  owner : w'.owner = w.owner
  queue : w'.queue = w.queue

/-- The slots are as they were, and every lane has its job still. -/
theorem sameJobs_of (slots : ∀ i, w'.slot i = w.slot i) (lane : ∀ m, (w'.lane m).ctx.slot = (w.lane m).ctx.slot)
    (owner : w'.owner = w.owner) (queue : w'.queue = w.queue) : SameJobs w w' := by
  refine ⟨lane, ⟨fun i => (w.slot i).elim (Vector.replicate 8 .none) JobSlot.lastSteps, fun i => ?_⟩, owner, queue⟩
  rw [slots i]
  cases e : w.slot i <;> simp [e]

namespace SameJobs

theorem refl : SameJobs w w := sameJobs_of (fun _ => rfl) (fun _ => rfl) rfl rfl

theorem trans (h : SameJobs w v) (g : SameJobs v w') : SameJobs w w' := by
  obtain ⟨steps, hs⟩ := h.job
  obtain ⟨steps', hs'⟩ := g.job
  refine ⟨fun m => (g.lane m).trans (h.lane m), ⟨steps', fun i => ?_⟩, g.owner.trans h.owner,
    g.queue.trans h.queue⟩
  rw [hs' i, hs i, Option.map_map]
  rfl

theorem ownerOf (h : SameJobs w w') (m : LaneId) : w'.ownerOf m = w.ownerOf m := congrArg (·.get m) h.owner

theorem none (h : SameJobs w w') (i : SlotId) : w'.slot i = none ↔ w.slot i = none := by
  obtain ⟨steps, hs⟩ := h.job
  rw [hs i, Option.map_eq_none_iff]

/-- The job of a lane, with all that the statements ask of it but its last steps. -/
theorem jobOf (h : SameJobs w w') (n : LaneId) :
    ∃ steps, w'.jobOf n = (w.jobOf n).map (fun j => { j with lastSteps := steps }) := by
  obtain ⟨steps, hs⟩ := h.job
  unfold Work.jobOf
  rw [h.lane n]
  cases (w.lane n).ctx.slot with
  | none => exact ⟨Vector.replicate 8 .none, rfl⟩
  | some i => exact ⟨steps i, hs i⟩

/-- What depends on a job but for its last steps is as it was. -/
theorem ofJob {α : Type} (h : SameJobs w w') (n : LaneId) (f : JobSlot → α)
    (hf : ∀ j steps, f { j with lastSteps := steps } = f j) : (w'.jobOf n).map f = (w.jobOf n).map f := by
  obtain ⟨steps, e⟩ := h.jobOf n
  rw [e, Option.map_map]
  exact congrArg (fun g => (w.jobOf n).map g) (funext fun j => hf j steps)

theorem args (h : SameJobs w w') (n : LaneId) : (w'.jobOf n).map JobSlot.args = (w.jobOf n).map JobSlot.args :=
  h.ofJob n _ (fun _ _ => rfl)

theorem isLive (h : SameJobs w w') (n : LaneId) : w'.isLive n = w.isLive n := by
  obtain ⟨steps, e⟩ := h.jobOf n
  unfold Work.isLive
  rw [e]
  cases w.jobOf n <;> rfl

theorem laneCtx (h : SameJobs w w') (n : LaneId) : w'.laneCtx n = w.laneCtx n := by
  obtain ⟨steps, e⟩ := h.jobOf n
  unfold Work.laneCtx
  rw [e]
  cases w.jobOf n <;> rfl

theorem actionOf (h : SameJobs w w') (n : LaneId) : w'.actionOf n = w.actionOf n := by
  unfold Work.actionOf
  rw [h.args n]

theorem keyPointer (h : SameJobs w w') (n : LaneId) : w'.keyPointer n = w.keyPointer n := by
  obtain ⟨steps, e⟩ := h.jobOf n
  unfold Work.keyPointer
  rw [e]
  cases w.jobOf n <;> rfl

/-- The job that the lane was live in is there, with its tag, its number, its mask and its live lanes. -/
theorem slot (h : SameJobs w w') (e : w.slot i = some j) :
    ∃ steps, w'.slot i = some { j with lastSteps := steps } := by
  obtain ⟨steps, hs⟩ := h.job
  exact ⟨steps i, by rw [hs i, e]; rfl⟩

theorem taken (h : SameJobs w w') (g : w'.ResultTaken v n r) : w.ResultTaken v n r := by
  intro i j a b c d
  obtain ⟨steps, e⟩ := h.slot b
  exact g i { j with lastSteps := steps } ((h.lane n).trans a) e c d

theorem copied {p : OutcomeCopy → Prop} (h : SameJobs w w') (g : w'.ResultCopied v n r p) : w.ResultCopied v n r p := by
  intro i j a b c d
  obtain ⟨steps, e⟩ := h.slot b
  exact g i { j with lastSteps := steps } ((h.lane n).trans a) e c d

end SameJobs

/-- A slot that is free then was free before, so no record is taken. -/
theorem answer_sameJobs (aw : s.Awake) (h : SameJobs s.work u.work) : s.answer u = .next u.refreshIrq := by
  have unfreed : s.takeFreed u = u := by
    rcases takeFreed_spec s u with e | ⟨r, a, i, full, -, -, -, free, -⟩
    · exact e
    · have taken := freeSlot_none_iff.mp full i
      have empty : u.work.slot i = none := by
        have := List.find?_some free
        simpa using this
      exact absurd ((h.none i).mp empty) taken
  rw [answer_awake aw, unfreed]

/-! ## The operations that leave every job as it is -/

theorem sameJobs_modLane {f : Lane → Lane} (h : (f (w.lane n)).ctx.slot = (w.lane n).ctx.slot) :
    SameJobs w (w.modLane n f) := by
  refine sameJobs_of (fun _ => rfl) (fun m => ?_) rfl rfl
  rw [lane_modLane]
  split
  · next e => rw [e, h]
  · rfl

theorem sameJobs_setLane (h : l.ctx.slot = (w.lane n).ctx.slot) : SameJobs w (w.setLane n l) :=
  sameJobs_modLane (f := fun _ => l) h

theorem sameJobs_forLanes {f : Work → LaneId → Work} (h : ∀ w n, SameJobs w (f w n)) (ns : List LaneId) (w : Work) :
    SameJobs w (w.forLanes ns f) := by
  induction ns generalizing w with
  | nil => exact .refl
  | cons n ns ih => exact (h w n).trans (ih (f w n))

theorem sameJobs_setStep (w : Work) (n : LaneId) (st : Step) : SameJobs w (w.setStep n st) := by
  have moved : SameJobs w (w.modLane n (fun l => { l with ctx := { l.ctx with step := st, stepPos := none } })) :=
    sameJobs_modLane rfl
  unfold Work.setStep
  dsimp only
  split
  · exact moved
  · next i hi =>
    refine moved.trans ⟨fun m => rfl, ?_, rfl, rfl⟩
    refine ⟨fun k => (w.slot k).elim (Vector.replicate 8 .none)
      (fun j => if k = i ∧ hasLane j.live n = true then vset j.lastSteps n st else j.lastSteps), fun k => ?_⟩
    rw [slot_modSlot]
    simp only [slot_modLane]
    by_cases hk : k = i
    · subst hk
      cases w.slot k with
      | none => simp
      | some j => by_cases live : hasLane j.live n = true <;> simp [live]
    · cases w.slot k <;> simp [hk]

theorem sameJobs_enterStep (w : Work) (n : LaneId) (st : Step) (p : Option Nat) : SameJobs w (w.enterStep n st p) := by
  unfold Work.enterStep Work.setPos
  exact (sameJobs_setStep w n st).trans (sameJobs_modLane rfl)

theorem lane_enterStep (st : Step) (p : Option Nat) : (w.enterStep n st p).lane m =
    if m = n then { w.lane n with ctx := { (w.lane n).ctx with step := st, stepPos := p } } else w.lane m := by
  rw [Work.enterStep, Work.setPos, lane_modLane, lane_setStep, lane_setStep]
  by_cases h : m = n <;> simp [h]

theorem sameJobs_modCtx (c : CtxId) (f : ImageCtx → ImageCtx) : SameJobs w (w.modCtx c f) :=
  sameJobs_of (fun _ => rfl) (fun _ => rfl) rfl rfl

theorem sameJobs_setBuf (b : BufId) (p : PageBuf) : SameJobs w (w.setBuf b p) :=
  sameJobs_of (fun _ => rfl) (fun _ => rfl) rfl rfl

theorem sameJobs_freeBuf (w : Work) (b : BufId) : SameJobs w (w.freeBuf b) := by
  unfold Work.freeBuf
  dsimp only
  split
  · exact sameJobs_setBuf b _
  · exact (sameJobs_setBuf b _).trans (sameJobs_modCtx _ _)

theorem sameJobs_releaseBuf (w : Work) (b : BufId) : SameJobs w (w.releaseBuf b) := by
  unfold Work.releaseBuf
  dsimp only
  split
  · exact sameJobs_freeBuf w b
  · exact sameJobs_setBuf b _

theorem sameJobs_releaseBufs (bs : List BufId) (w : Work) : SameJobs w (bs.foldl Work.releaseBuf w) := by
  induction bs generalizing w with
  | nil => exact .refl
  | cons b bs ih => exact (sameJobs_releaseBuf w b).trans (ih _)

theorem sameJobs_beginPass (w : Work) (c : CtxId) (p : Pass) : SameJobs w (w.beginPass c p) :=
  (sameJobs_modCtx c _).trans (sameJobs_forLanes (fun _ _ => sameJobs_modLane rfl) _ _)

theorem sameJobs_endPass (w : Work) (c : CtxId) : SameJobs w (w.endPass c) := by
  unfold Work.endPass
  split
  · split
    · exact (sameJobs_beginPass w c .check).trans (sameJobs_forLanes (fun w n => sameJobs_setStep w n .check) _ _)
    · exact sameJobs_modCtx c _
  · exact sameJobs_modCtx c _
  all_goals exact .refl

theorem sameJobs_dropFromPass (w : Work) (c : CtxId) (n : LaneId) : SameJobs w (w.dropFromPass c n) := by
  unfold Work.dropFromPass
  split
  · dsimp only
    split
    · exact (sameJobs_modCtx c _).trans (sameJobs_endPass _ c)
    · exact sameJobs_modCtx c _
  · exact .refl

theorem sameJobs_passLeave (w : Work) (c : CtxId) (n : LaneId) : SameJobs w (w.passLeave c n) := by
  unfold Work.passLeave
  split
  · exact (sameJobs_releaseBufs _ w).trans (sameJobs_dropFromPass _ c n)
  · exact .refl

theorem sameJobs_consumePage (w : Work) (c : CtxId) (n : LaneId) : SameJobs w (w.consumePage c n) := by
  unfold Work.consumePage
  dsimp only
  split
  · exact (sameJobs_releaseBuf w _).trans (sameJobs_modLane rfl)
  · exact sameJobs_modLane rfl

theorem sameJobs_request (w : Work) (n : LaneId) (r : Request) : SameJobs w (w.request n r) := by
  unfold Work.request
  split
  · exact sameJobs_modLane rfl
  · exact sameJobs_modLane rfl

theorem sameJobs_transfer (w : Work) (n : LaneId) (x : Xfer) (h : Held) : SameJobs w (w.transfer n x h) := by
  unfold Work.transfer
  split
  · exact sameJobs_modLane rfl
  · exact sameJobs_modLane rfl

/-! ## Requests and stops -/

/-- A request that no ride window holds back begins at once (R51). -/
theorem request_begins (h : (w.lane n).supply.state ≠ .riding) (r : Request) :
    w.request n r = w.setLane n ((w.lane n).beginRequest (w.payload n r) r) := by
  rw [Work.request, if_neg (by simpa [Lane.riding] using h)]
  rfl

theorem payload_beginRequest (q r : Request) (p : List Byte) :
    (w.setLane n ((w.lane n).beginRequest p q)).payload n r = w.payload n r := by
  unfold Work.payload
  rw [lane_setLane, if_pos rfl]
  rfl

/-- The frame of a request that has begun. -/
theorem frameOut_request (h : (w.lane n).supply.state ≠ .riding) (r : Request) : (w.request n r).frameOut n
    = some (requestFrame r.kind (if r.purpose = .openSession then 0 else (w.lane n).ctx.seq) (w.payload n r)) := by
  rw [request_begins h, Work.frameOut, lane_setLane, if_pos rfl]
  show some (requestFrame r.kind _ ((w.setLane n ((w.lane n).beginRequest (w.payload n r) r)).payload n r)) = _
  rw [payload_beginRequest]
  rfl

theorem transfer_begins (h : (w.lane n).supply.state ≠ .riding) (x : Xfer) (hold : Held) :
    w.transfer n x hold = w.modLane n (fun l => { l with eng := { l.eng with xfer := some x, held := none } }) := by
  rw [Work.transfer, if_neg (by simpa [Lane.riding] using h)]

theorem stopResult_unstopped (h : l.Unstopped) : l.stopResult = none := by
  rw [Lane.stopResult, h.2, h.1]

theorem goOn_unstopped (h : (w.lane n).Unstopped) (env : Env) (k : Work → Work) : w.goOn env n k = k w := by
  rw [Work.goOn, stopResult_unstopped h]

theorem beginOrHold_begins (h : (w.lane n).supply.state ≠ .riding) (st : Step) (k : Work → Work) :
    w.beginOrHold n st k = k w := by
  rw [Work.beginOrHold, if_neg (by simpa [Lane.riding] using h)]

/-! ## What the end of a lane's work leaves of the lane -/

/-- A lane but for its owning slot and what its engine keeps for the job's steps: what a final result and the lane's leaving
do not touch. -/
def body (l : Lane) : Lane :=
  { l with
    ctx := { l.ctx with slot := none, step := .none, stepPos := none, cursor := .start, faultAddr := none,
                        fallbackCopy := none }
    eng := { l.eng with stop := none, due := none, resume := none, held := none, readPage := none, entryIdx := 0,
                        exPart := .payload } }

/-- A lane whose result has been taken: nothing is left of what would stop it, and it has its job still. -/
structure Final (l l' : Lane) : Prop where
  body : body l' = body l
  slot : l'.ctx.slot = l.ctx.slot
  unstopped : l'.Unstopped
  resume : l'.eng.resume = none

theorem body_release (l : Lane) : body l.release = body l := rfl

theorem body_toHold {l l' : Lane} (h : body l = body l') : body l.toHold = body l'.toHold := by
  show body (Lane.toHold (body l)) = body (Lane.toHold (body l'))
  rw [h]

theorem body_toOff {l l' : Lane} (h : body l = body l') : body l.toOff = body l'.toOff := by
  show body (Lane.toOff (body l)) = body (Lane.toOff (body l'))
  rw [h]

theorem body_enterFault {l l' : Lane} (h : body l = body l') (r : LaneResult) :
    body (l.enterFault r) = body (l'.enterFault r) := by
  show body (Lane.enterFault r (body l)) = body (Lane.enterFault r (body l'))
  rw [h]

theorem stepped_of_others (h : ∀ n, Others n w w') (m : LaneId) : ∃ cur st pos, w'.lane m =
    { w.lane m with ctx := { (w.lane m).ctx with cursor := cur, step := st, stepPos := pos } } := by
  refine h (m + 1) m fun e => ?_
  have : ∀ m : LaneId, m ≠ m + 1 := by decide
  exact this m e

theorem lane_record (live : w.isLive n = true) (r : LaneResult) (fa : Option Word) :
    ∃ x, (w.record n r fa).lane n =
      { w.lane n with
        ctx := { (w.lane n).ctx with faultAddr := x, fallbackCopy := none }
        eng := { (w.lane n).eng with stop := none, due := none, resume := none, held := none } } := by
  obtain ⟨i, j, hi, hj, hl⟩ := isLive_iff.mp live
  refine ⟨j.faultAddrFor (w.lane n) r fa, ?_⟩
  unfold Work.record
  simp [hi, hj, hl]

/-- What the Job Table does with a lane after its final result (R36): Table 2-5. -/
def destination (w : Work) (env : Env) (n : LaneId) (args : JobArgs) (r : LaneResult) : Work :=
  match r with
  | .linkLost | .targetStuck | .noTarget => (w.modLane n (Lane.enterFault r)).leave env n
  | .supplyFail | .supplyDrop | .notRun | .laneFaulted => w.leave env n
  | .done => match args.endAction? with
    | some e => w.startEnd env n e
    | none => w.leave env n
  | _ => match args.endAction? with
    | some e => w.startEnd env n e.afterFailure
    | none => w.leave env n

/-- What a lane's final result frees of the pool (R90, R119). -/
def unbound (w : Work) (n : LaneId) (j : JobSlot) : Work :=
  match j.ctx, j.args with
  | some c, .readout .. => w.freeFloors c
  | some c, _ => w.passLeave c n
  | none, _ => w

theorem settle_eq (h : w.jobOf n = some j) (r : LaneResult) :
    w.settle env n r = destination (unbound w n j) env n j.args r := by
  unfold Work.settle
  rw [h]
  rfl

theorem sameJobs_freeFloors (w : Work) (c : CtxId) : SameJobs w (w.freeFloors c) :=
  (sameJobs_freeBuf w _).trans (sameJobs_freeBuf _ _)

theorem lane_freeFloors (c : CtxId) : (w.freeFloors c).lane m = w.lane m := by
  rw [Work.freeFloors, lane_freeBuf, lane_freeBuf]

theorem sameJobs_unbound (w : Work) (n : LaneId) (j : JobSlot) : SameJobs w (unbound w n j) := by
  unfold unbound
  split
  · exact sameJobs_freeFloors w _
  · exact sameJobs_passLeave w _ n
  · exact .refl

theorem lane_unbound (w : Work) (n : LaneId) (j : JobSlot) (m : LaneId) : ∃ cur st pos, (unbound w n j).lane m =
    { w.lane m with ctx := { (w.lane m).ctx with cursor := cur, step := st, stepPos := pos } } := by
  unfold unbound
  split
  · exact ⟨_, _, _, lane_freeFloors _⟩
  · exact stepped_of_others (fun n' => others_passLeave _ n) m
  · exact ⟨_, _, _, rfl⟩

theorem jobOf_record (h : w.jobOf n = some j) (r : LaneResult) (fa : Option Word) :
    ∃ j', (w.record n r fa).jobOf n = some j' ∧ j'.args = j.args ∧ j'.ctx = j.ctx := by
  unfold Work.jobOf at h
  cases hi : (w.lane n).ctx.slot with
  | none => rw [hi] at h; cases h
  | some i =>
    rw [hi] at h
    have hj : w.slot i = some j := h
    unfold Work.record Work.jobOf
    rw [hi]
    dsimp only
    rw [hj]
    dsimp only
    by_cases live : hasLane j.live n = true
    · rw [if_pos live]
      simp only [lane_setSlot, lane_setLane, if_true, hi, Option.bind_some, slot_setSlot]
      exact ⟨_, rfl, rfl, rfl⟩
    · rw [if_neg live]
      refine ⟨j, ?_, rfl, rfl⟩
      rw [hi]
      exact hj

theorem owner_record (r : LaneResult) (fa : Option Word) : (w.record n r fa).ownerOf m = w.ownerOf m := by
  unfold Work.record
  split
  · rfl
  · split
    · rfl
    · split <;> rfl

theorem owner_leave (w : Work) (env : Env) (n m : LaneId) : (w.leave env n).ownerOf m =
    if m = n ∧ (w.lane n).ctx.slot.isSome = true then none else w.ownerOf m := by
  by_cases some_ : (w.lane n).ctx.slot = none
  · rw [Work.leave, some_]
    simp
  · obtain ⟨i, hi⟩ := Option.ne_none_iff_exists'.mp some_
    have released : ∀ x : Work, x.ownerOf m = ((w.modLane n Lane.release).setOwner n none).ownerOf m →
        x.ownerOf m = if m = n ∧ (w.lane n).ctx.slot.isSome = true then none else w.ownerOf m := by
      intro x hx
      rw [hx, ownerOf_setOwner, hi]
      by_cases hm : m = n <;> simp [hm]
    rcases leave_cases w env n with e | ⟨k, -, x, rfl, e | ⟨j, -, -, e⟩ | ⟨-, e⟩⟩
    · rw [Work.leave, hi] at e
      refine released _ ?_
      rw [Work.leave, hi]
      dsimp only
      unfold Work.settleJob
      split
      · rfl
      · split
        · rfl
        · split
          · rfl
          · exact completeAs_owner _ _ _ _ _
    · exact released _ (by rw [e])
    · exact released _ (by rw [e]; rfl)
    · exact released _ (by rw [e]; exact completeAs_owner _ _ _ _ _)

/-- A live lane's final result: it is recorded, the lane gives up its pages, and it goes to the destination of Table 2-5. -/
theorem finalize_eq (live : w.isLive n = true) (env : Env) (r : LaneResult) (fa : Option Word) :
    ∃ (v : Work) (args : JobArgs), (w.jobOf n).map JobSlot.args = some args ∧ Final (w.lane n) (v.lane n)
      ∧ (∀ m, v.ownerOf m = w.ownerOf m) ∧ w.finalize env n r fa = destination v env n args r := by
  obtain ⟨i, j, hi, hj, -⟩ := isLive_iff.mp live
  have job : w.jobOf n = some j := by rw [Work.jobOf, hi]; exact hj
  obtain ⟨j', job', args, -⟩ := jobOf_record job r fa
  obtain ⟨x, recorded⟩ := lane_record live r fa
  obtain ⟨cur, st, pos, stepped⟩ := lane_unbound (w.record n r fa) n j' n
  refine ⟨unbound (w.record n r fa) n j', j.args, by rw [job]; rfl, ?_, fun m => ?_, ?_⟩
  · rw [stepped, recorded]
    exact ⟨rfl, rfl, ⟨rfl, rfl⟩, rfl⟩
  · rw [(sameJobs_unbound _ n j').ownerOf m, owner_record]
  · rw [Work.finalize, if_pos live, settle_eq job' r, args]

theorem slot_of_live (live : w.isLive n = true) : (w.lane n).ctx.slot.isSome = true := by
  obtain ⟨i, j, hi, -⟩ := isLive_iff.mp live
  rw [hi]
  rfl

/-- The lane has left its job. -/
structure Left (w w' : Work) (n : LaneId) : Prop where
  body : body (w'.lane n) = body (w.lane n)
  slot : (w'.lane n).ctx.slot = none
  owner : w'.ownerOf n = none

theorem leave_left (h : (w.lane n).ctx.slot.isSome = true) (env : Env) : Left w (w.leave env n) n := by
  have lane := lane_leave (w := w) (n := n) (m := n) env
  rw [if_pos rfl, if_pos h] at lane
  refine ⟨?_, ?_, ?_⟩
  · rw [lane, body_release]
  · rw [lane]
    rfl
  · rw [owner_leave, if_pos ⟨rfl, h⟩]

/-- The results after which a lane leaves its job where it is (Table 2-5). -/
def leaves (args : JobArgs) (r : LaneResult) : Prop :=
  r ∈ [.supplyFail, .supplyDrop, .notRun, .laneFaulted]
    ∨ (r ∉ [.linkLost, .targetStuck, .noTarget] ∧ args.endAction? = none)

theorem destination_leaves {args : JobArgs} (h : leaves args r) : destination w env n args r = w.leave env n := by
  unfold leaves at h
  simp only [List.mem_cons, List.not_mem_nil, or_false] at h
  unfold destination
  split <;> simp_all

theorem finalize_leaves (live : w.isLive n = true) (h : ∀ args, (w.jobOf n).map JobSlot.args = some args → leaves args r)
    (env : Env) (fa : Option Word) : Left w (w.finalize env n r fa) n := by
  obtain ⟨v, args, job, final, -, e⟩ := finalize_eq live env r fa
  rw [e, destination_leaves (h args job)]
  have left := leave_left (w := v) (n := n) (by rw [final.slot]; exact slot_of_live live) env
  exact ⟨left.body.trans final.body, left.slot, left.owner⟩

/-- A result that takes its lane to FAULT (Table 2-5). -/
theorem finalize_faults (live : w.isLive n = true) (h : r ∈ [.linkLost, .targetStuck, .noTarget]) (env : Env)
    (fa : Option Word) : Left (w.modLane n (Lane.enterFault r)) (w.finalize env n r fa) n := by
  obtain ⟨v, args, -, final, -, e⟩ := finalize_eq live env r fa
  have there : destination v env n args r = (v.modLane n (Lane.enterFault r)).leave env n := by
    simp only [List.mem_cons, List.not_mem_nil, or_false] at h
    rcases h with rfl | rfl | rfl <;> rfl
  rw [e, there]
  have left := leave_left (w := v.modLane n (Lane.enterFault r)) (n := n)
    (by rw [lane_modLane, if_pos rfl]; show (v.lane n).ctx.slot.isSome = true; rw [final.slot]; exact slot_of_live live) env
  refine ⟨left.body.trans ?_, left.slot, left.owner⟩
  rw [lane_modLane, if_pos rfl, lane_modLane, if_pos rfl]
  exact body_enterFault final.body r

/-- The end action that follows a result (R36, Table 2-5); none where the lane leaves or enters FAULT. -/
def endActionAfter (args : JobArgs) (r : LaneResult) : Option EndAction :=
  match r with
  | .linkLost | .targetStuck | .noTarget | .supplyFail | .supplyDrop | .notRun | .laneFaulted => none
  | .done => args.endAction?
  | _ => args.endAction?.map EndAction.afterFailure

theorem finalize_ends (live : w.isLive n = true) {e : EndAction}
    (h : (w.jobOf n).bind (fun j => endActionAfter j.args r) = some e) (env : Env) (fa : Option Word) :
    ∃ v : Work, Final (w.lane n) (v.lane n) ∧ (∀ m, v.ownerOf m = w.ownerOf m)
      ∧ w.finalize env n r fa = v.startEnd env n e := by
  obtain ⟨v, args, job, final, owner, eq⟩ := finalize_eq live env r fa
  refine ⟨v, final, owner, eq.trans ?_⟩
  obtain ⟨j, hj, rfl⟩ := Option.map_eq_some_iff.mp job
  rw [hj] at h
  have h : endActionAfter j.args r = some e := h
  unfold destination
  unfold endActionAfter at h
  split <;> simp_all
  next =>
    obtain ⟨e', he, rfl⟩ := h
    simp [he]

theorem finalize_idle (h : w.isLive n = false) (env : Env) (r : LaneResult) (fa : Option Word) : w.finalize env n r fa = w := by
  rw [Work.finalize, if_neg (by simp [h])]

/-! ## End actions (R37, Table 2-6) -/

theorem startEnd_keep (h : (w.lane n).ctx.state ≠ .entry) (env : Env) : w.startEnd env n .keep = w.leave env n := by
  unfold Work.startEnd Work.finishEnd
  simp only [if_neg h, if_true]
  split <;> rfl

theorem startEnd_close {e : EndAction} (h : (w.lane n).ctx.state ≠ .entry) (he : e ≠ .keep)
    (session : (w.lane n).ctx.session = true) (answered : (w.lane n).ctx.answered = true) (env : Env) :
    w.startEnd env n e = w.request n ((w.lane n).closeRequest (.closeEnd e)) := by
  unfold Work.startEnd
  simp [h, he, session, answered]

theorem startEnd_finish {e : EndAction} (h : (w.lane n).ctx.state ≠ .entry)
    (closed : (w.lane n).ctx.session = false ∨ (w.lane n).ctx.answered = false) (env : Env) :
    w.startEnd env n e = w.finishEnd env n e := by
  unfold Work.startEnd
  rcases closed with c | c <;> by_cases he : e = .keep <;> simp [h, c, he]

/-! ## What a result is taken with -/

/-- A final result is recorded with the outcome copy of the lane as it is (R11). -/
theorem finalize_copied {p : OutcomeCopy → Prop} (env : Env) (r : LaneResult) (fa : Option Word)
    (h : ∀ i j, (w.lane n).ctx.slot = some i → w.slot i = some j → p (takenCopy w n j r fa)) :
    w.ResultCopied (w.finalize env n r fa) n r p := by
  intro i j a b c d
  rcases finalize_kept a b c d env r fa with ⟨j', e, tag, -, -, live, result, copy⟩
    | ⟨free, e, he, tag, adm, x, hx, lane, result, copy⟩
  · exact .inl ⟨j', e, tag, result, live, _, copy, h i j a b⟩
  · refine .inr ⟨fun j' g => ?_, e, he, tag, adm, x, hx, lane, result, _, copy, h i j a b⟩
    rw [free] at g
    cases g

end Sys2Proof.Proofs
end

section
/-! Power-up, entry, the reset pulse and a cut: O28, O29, O30, O31, O32. -/

namespace Sys2Proof.Proofs

-- One theorem at a time: a thread for each would ask for more stack than the check allows.
set_option Elab.async false

open Sys2Proof.Machine Sys2Proof.Laws

variable {s t u : State} {v w w' : Work} {env : Env} {n m : LaneId} {i : SlotId} {j : JobSlot} {l : Lane} {r : LaneResult}

/-- A lane's event whose condition does not hold changes nothing. -/
theorem answer_self (aw : s.Awake) : s.answer s = .next s.refreshIrq := answer_slots aw rfl

/-- Outside the drain, and on a lane that is not at rest, an event is what its rule makes of the tables. -/
theorem laneEvent_plain {f : Env → Work → Work}
    (h : s.part.state ≠ .draining ∨ ((f s.env s.work).lane n).atRest = false) :
    s.laneEvent n f = { s with work := f s.env s.work } := by
  unfold State.laneEvent State.onWork
  dsimp only
  rcases h with hd | rest
  · rw [drainCheck_other (show s.env.part ≠ .draining from hd)]
  · rw [Work.drainCheck]
    split
    · rw [Work.modLane, Lane.tryDrain, if_neg (by simp [rest]), setLane_self]
    · rfl

/-- An event that comes to a change of one lane. -/
theorem laneEvent_eq {f : Env → Work → Work} {l : Lane} (aw : s.Awake) (hd : s.part.state ≠ .draining ∨ l.atRest = false)
    (h : f s.env s.work = s.work.setLane n l) : s.answer (s.laneEvent n f) = .next (s.withLane n l).refreshIrq := by
  rw [laneEvent_plain (hd.imp_right fun q => by rw [h, lane_setLane, if_pos rfl, q]), h]
  exact answer_slots aw rfl

/-- An event that leaves every job as it is but for last steps. -/
theorem laneEvent_sameJobs {f : Env → Work → Work} (aw : s.Awake)
    (hd : s.part.state ≠ .draining ∨ ((f s.env s.work).lane n).atRest = false) (h : SameJobs s.work (f s.env s.work)) :
    s.answer (s.laneEvent n f) = .next (State.refreshIrq { s with work := f s.env s.work }) := by
  rw [laneEvent_plain hd]
  exact answer_sameJobs aw h

theorem atRest_of_state (h : l.ctx.state ∉ [.off, .hold, .run, .fault]) : l.atRest = false := by
  simp only [List.mem_cons, List.not_mem_nil, or_false, not_or] at h
  simp [Lane.atRest, h]

theorem qualified_iff (stood : Nat) : qualified stood = true ↔ 20 ≤ stood := decide_eq_true_iff

/-! ## Power-up (R25, R139, R140) -/

/-- The result of a lane that `w'` knows by the same job. -/
theorem taken_via (h : SameJobs w w') (env : Env) (r : LaneResult) (fa : Option Word) :
    w.ResultTaken (w'.finalize env n r fa) n r := h.taken (finalize_taken env r fa)

theorem drainCheck_lane (w : Work) (env : Env) (n m : LaneId) :
    (w.drainCheck env n).lane m = if m = n ∧ env.part = .draining then (w.lane n).tryDrain else w.lane m := by
  unfold Work.drainCheck
  by_cases h : env.part = .draining <;> by_cases hm : m = n <;> simp [h, hm]

/-- What the report of a lane that has drained leaves of it (R42). -/
theorem drainCheck_keeps (w : Work) (env : Env) (n : LaneId) :
    ((w.drainCheck env n).lane n).supply = (w.lane n).supply ∧ ((w.drainCheck env n).lane n).settings = (w.lane n).settings
    ∧ ((w.drainCheck env n).lane n).link = (w.lane n).link ∧ ((w.drainCheck env n).lane n).lines = (w.lane n).lines
    ∧ ((w.drainCheck env n).lane n).ctx.state = (w.lane n).ctx.state
    ∧ ((w.drainCheck env n).lane n).ctx.faultCause = (w.lane n).ctx.faultCause
    ∧ ((w.drainCheck env n).lane n).ctx.answered = (w.lane n).ctx.answered
    ∧ ((w.lane n).ctx.session = false → ((w.drainCheck env n).lane n).ctx.session = false)
    ∧ ((w.lane n).ctx.desc = none → ((w.drainCheck env n).lane n).ctx.desc = none)
    ∧ ((w.lane n).eng.phase = .none → ((w.drainCheck env n).lane n).eng.phase = .none) := by
  rw [drainCheck_lane]
  split
  · unfold Lane.tryDrain
    split
    · exact ⟨rfl, rfl, rfl, rfl, rfl, rfl, rfl, fun _ => rfl, fun _ => rfl, fun _ => rfl⟩
    · exact ⟨rfl, rfl, rfl, rfl, rfl, rfl, rfl, id, id, id⟩
  · exact ⟨rfl, rfl, rfl, rfl, rfl, rfl, rfl, id, id, id⟩

theorem drainCheck_others (w : Work) (env : Env) (n : LaneId) (h : m ≠ n) : (w.drainCheck env n).lane m = w.lane m := by
  rw [drainCheck_lane, if_neg (by simp [h])]

/-- A power-up that fails (R140). -/
theorem powerUpFailed_fault (w : Work) (env : Env) (n : LaneId) :
    body ((w.powerUpFailed env n).lane n) = body (((w.lane n).enterFault .supplyFail).supplyOff) := by
  have there : (w.modLane n (fun l => (l.enterFault .supplyFail).supplyOff)).lane n
      = ((w.lane n).enterFault .supplyFail).supplyOff := by rw [lane_modLane, if_pos rfl]
  unfold Work.powerUpFailed
  dsimp only
  split
  · cases live : (w.modLane n (fun l => (l.enterFault .supplyFail).supplyOff)).isLive n with
    | false => rw [finalize_idle live, there]
    | true => rw [(finalize_leaves live (fun _ _ => .inl (by simp)) env none).body, there]
  · rw [there]

theorem powerUpFailed_others (w : Work) (env : Env) (n : LaneId) : Others n w (w.powerUpFailed env n) := by
  unfold Work.powerUpFailed
  dsimp only
  split
  · exact (others_modLane _).trans (finalize_others _ _ _)
  · exact others_modLane _

/-! ## The action of a LANE-ACTION job (R39) -/

theorem actionOf_eq {a : ActionCode} : w.actionOf n = some a ↔ (w.jobOf n).map JobSlot.args = some (.laneAction a) := by
  unfold Work.actionOf
  cases w.jobOf n with
  | none => simp
  | some j => cases h : j.args <;> simp [h]

theorem actionOf_session (h : w.jobOf n = some j) (e : j.args.endAction?.isSome = true) : w.actionOf n = none := by
  unfold Work.actionOf
  rw [h]
  cases a : j.args <;> simp_all [JobArgs.endAction?]

/-- A lane of a LANE-ACTION job leaves with any result but those that lead to FAULT. -/
theorem leaves_action {a : ActionCode} (h : w.actionOf n = some a) (hr : r ∉ [.linkLost, .targetStuck, .noTarget]) :
    ∀ args, (w.jobOf n).map JobSlot.args = some args → leaves args r := by
  intro args e
  rw [actionOf_eq.mp h] at e
  cases e
  exact .inr ⟨hr, rfl⟩

theorem finalize_action {a : ActionCode} (live : w.isLive n = true) (h : w.actionOf n = some a)
    (hr : r ∉ [.linkLost, .targetStuck, .noTarget]) (env : Env) (fa : Option Word) : Left w (w.finalize env n r fa) n :=
  finalize_leaves live (leaves_action h hr) env fa

theorem sameJobs_action (w : Work) (n : LaneId) {f : Lane → Lane} (hs : ∀ l, (f l).ctx.slot = l.ctx.slot) :
    SameJobs w ((w.setStep n .action).modLane n f) :=
  (sameJobs_setStep w n .action).trans (sameJobs_modLane (hs _))

/-- A LANE-ACTION lane that is DONE in the final state that `f` gives it. -/
theorem actionDone_left {a : ActionCode} {f : Lane → Lane} (live : w.isLive n = true) (h : w.actionOf n = some a)
    (hs : ∀ l, (f l).ctx.slot = l.ctx.slot) (hb : ∀ l l', body l = body l' → body (f l) = body (f l')) (env : Env) :
    body ((w.actionDone env n f).lane n) = body (f (w.lane n)) ∧ ((w.actionDone env n f).lane n).ctx.slot = none
      ∧ (w.actionDone env n f).ownerOf n = none := by
  have same := sameJobs_action w n hs
  have left := finalize_action (r := .done) (by rw [same.isLive n, live]) (by rw [same.actionOf n, h]) (by simp) env none
  refine ⟨left.body.trans ?_, left.slot, left.owner⟩
  rw [lane_modLane, if_pos rfl, lane_setStep, if_pos rfl]
  exact hb _ _ rfl

/-! ## The end of a power-up (R25) -/

/-- The first attempt of an entry (R26, R27). -/
def firstAttempt (env : Env) (l : Lane) : Lane :=
  ({ l with ctx := { l.ctx with step := .entry, stepPos := none } }.startEntry false).selectPhase env

/-- An entry that a ride window holds back (R144). -/
def entryHeld (l : Lane) : Lane := { l.toHold with eng := { l.toHold.eng with held := some .entry } }

theorem beginEntry_lane (w : Work) (env : Env) (n m : LaneId) : (w.beginEntry env n).lane m =
    if m = n then (if (w.lane n).supply.state = .riding then entryHeld (w.lane n) else firstAttempt env (w.lane n))
    else w.lane m := by
  unfold Work.beginEntry
  by_cases riding : (w.lane n).supply.state = .riding
  · rw [if_pos (by simpa [Lane.riding] using riding), Work.holdBack, modLane_modLane, lane_modLane, if_pos riding]
    rfl
  · rw [if_neg (by simpa [Lane.riding] using riding), lane_modLane, lane_setStep, lane_setStep, if_pos rfl, if_neg riding]
    by_cases h : m = n <;> simp [h, firstAttempt]

theorem sameJobs_beginEntry (w : Work) (env : Env) (n : LaneId) : SameJobs w (w.beginEntry env n) := by
  unfold Work.beginEntry
  split
  · exact (sameJobs_modLane rfl).trans (sameJobs_modLane rfl)
  · exact (sameJobs_setStep w n .entry).trans (sameJobs_modLane rfl)

theorem atHold_session (acts : env.acting = true) (live : w.isLive n = true) (un : (w.lane n).Unstopped)
    (h : w.actionOf n = none) : w.atHold env n = w.beginEntry env n := by
  unfold Work.atHold
  rw [if_pos ⟨acts, live⟩, h]
  exact goOn_unstopped un env _

theorem atHold_idle (h : env.acting = false ∨ w.isLive n = false) : w.atHold env n = w := by
  unfold Work.atHold
  rw [if_neg]
  rintro ⟨a, b⟩
  rcases h with h | h <;> simp_all

/-- What a lane in HOLD goes on with leaves its supply as it stands. -/
theorem atHold_supply (un : (w.lane n).Unstopped) : ((w.atHold env n).lane n).supply = (w.lane n).supply := by
  cases acts : env.acting with
  | false => rw [atHold_idle (.inl acts)]
  | true =>
    cases live : w.isLive n with
    | false => rw [atHold_idle (.inr live)]
    | true =>
      cases h : w.actionOf n with
      | none =>
        rw [atHold_session acts live un h, beginEntry_lane, if_pos rfl]
        split <;> rfl
      | some a =>
        have done : ((w.actionDone env n id).lane n).supply = (w.lane n).supply :=
          congrArg (·.supply) (actionDone_left (f := id) live h (fun _ => rfl) (fun _ _ e => e) env).1
        unfold Work.atHold
        rw [if_pos ⟨acts, live⟩, h]
        unfold Work.actionAtHold
        cases a with
        | run =>
          simp only [un.1, Option.isSome_none, Bool.false_eq_true, if_false]
          split
          · rw [Work.holdBack, lane_modLane, if_pos rfl, lane_setStep, if_pos rfl]
          · rw [lane_modLane, if_pos rfl, lane_setStep, if_pos rfl]
            rfl
        | _ => exact done

/-- Settles O28: a level that has stood is taken, and the limit ends a power-up in FAULT with the supply off. -/
theorem powerUpEndsGoodOrFails : Obligations.PowerUpEndsGoodOrFails := by
  intro s n aw rising
  have good : ∀ stood, 20 ≤ stood → exec (.supplyGood n stood) s
      = s.answer (s.laneEvent n (fun env w => w.supplyGood env n)) := fun stood h =>
    congrArg s.answer (if_pos ⟨rising, (qualified_iff stood).mpr h⟩)
  refine ⟨fun stood h => ?_, fun stood h settle => ?_, fun stood h settle stop due => ?_, ?_⟩
  · refine (congrArg s.answer (if_neg fun ⟨_, q⟩ => ?_)).trans (answer_self aw)
    have := (qualified_iff stood).mp q
    omega
  · rw [good stood h]
    refine laneEvent_eq aw (.inr (atRest_of_state (by simp))) ?_
    unfold Work.supplyGood
    dsimp only
    rw [if_neg (by simpa [Lane.supplyGood] using settle)]
    simp only [Work.modLane, Lane.supplyGood, ms, State.env, Nat.mul_comm]
  · rw [good stood h]
    obtain ⟨t, e, y, -⟩ := answer_yields aw (s.laneEvent n (fun env w => w.supplyGood env n))
    have settled : ((s.work.supplyGood s.env n).lane n).supply = { (s.work.lane n).supply with
        state := .good, powerUp := none, settle := none, level := .above } := by
      have there : ((s.work.modLane n (Lane.supplyGood s.env)).modLane n Lane.settled).lane n
          = ((s.work.lane n).supplyGood s.env).settled := by simp
      unfold Work.supplyGood
      dsimp only
      rw [if_pos (by simpa [Lane.supplyGood] using settle), Work.settleEnd, atHold_supply]
      · rw [there]
        rfl
      · rw [there]
        exact ⟨stop, due⟩
    refine ⟨t, e, ?_⟩
    rw [y.lane n, laneEvent_work]
    exact (drainCheck_keeps _ s.env n).1.trans settled
  · have fails : exec (.powerUpLimitExpiry n) s = s.answer (s.laneEvent n (fun env w => w.powerUpFailed env n)) :=
      congrArg s.answer (if_pos rising)
    rw [fails]
    obtain ⟨t, e, y, -⟩ := answer_yields aw (s.laneEvent n (fun env w => w.powerUpFailed env n))
    rw [laneEvent_work] at y
    have fault := powerUpFailed_fault s.work s.env n
    have others := powerUpFailed_others s.work s.env n
    obtain ⟨supply, -, -, lines, state, cause, -⟩ := drainCheck_keeps (s.work.powerUpFailed s.env n) s.env n
    rw [← y.lane n] at supply lines state cause
    refine ⟨t, e, state.trans (congrArg (·.ctx.state) fault), cause.trans (congrArg (·.ctx.faultCause) fault), ?_, ?_, ?_, ?_,
      fun m hm => ?_, fun acts => ?_⟩
    · exact (congrArg Lines.tpwrOn lines).trans (congrArg (·.lines.tpwrOn) fault)
    · exact (congrArg Lines.trstLow lines).trans (congrArg (·.lines.trstLow) fault)
    · exact (congrArg Supply.state supply).trans (congrArg (·.supply.state) fault)
    · exact (congrArg Supply.powerUp supply).trans (congrArg (·.supply.powerUp) fault)
    · rw [y.lane m, drainCheck_others _ _ _ hm]
      exact others.pins hm
    · obtain ⟨acts, hd⟩ := acting_of_mem acts
      rw [drainCheck_other (show s.env.part ≠ .draining from hd)] at y
      have same : SameJobs s.work (s.work.modLane n (fun l => (l.enterFault .supplyFail).supplyOff)) := sameJobs_modLane rfl
      have final : s.work.powerUpFailed s.env n
          = (s.work.modLane n (fun l => (l.enterFault .supplyFail).supplyOff)).finalize s.env n .supplyFail none := by
        unfold Work.powerUpFailed
        dsimp only
        rw [if_pos acts]
      rw [final] at y
      exact ⟨by rw [y.isLive, finalize_notLive], y.taken (taken_via same _ _ _)⟩

/-! ## The end of the settle time (R25) -/

theorem settleEnd_eq (h : (s.work.lane n).supply.settle.isSome = true) :
    exec (.settleEnd n) s = s.answer (s.laneEvent n (fun env w => w.settleEnd env n)) := congrArg s.answer (if_pos h)

theorem lane_settled (w : Work) (n : LaneId) : (w.modLane n Lane.settled).lane n = (w.lane n).settled := by simp

theorem riding_settled (l : Lane) : l.settled.supply.state = .riding ↔ l.supply.state = .riding := by
  show (if l.supply.state = .riding then SupplyState.riding else SupplyState.good) = .riding ↔ _
  split <;> simp_all

/-- Settles O29: in HOLD the first attempt begins, or is held back. -/
theorem settleEndLeadsToHoldAndEntry : Obligations.SettleEndLeadsToHoldAndEntry := by
  intro s n aw settling
  rw [settleEnd_eq settling]
  refine ⟨fun part live ⟨j, job, session⟩ stop due => ?_, fun halted => ?_⟩
  · obtain ⟨acts, hd⟩ := acting_of_mem part
    have same : SameJobs s.work (s.work.modLane n Lane.settled) := sameJobs_modLane rfl
    have entry : s.work.settleEnd s.env n = (s.work.modLane n Lane.settled).beginEntry s.env n :=
      atHold_session acts (by rw [same.isLive n, live]) (by rw [lane_settled]; exact ⟨stop, due⟩)
        (by rw [same.actionOf n]; exact actionOf_session job session)
    refine ⟨_, laneEvent_sameJobs aw (.inl hd) (entry ▸ same.trans (sameJobs_beginEntry _ _ _)), ?_⟩
    have lane : (s.work.settleEnd s.env n).lane n = if (s.work.lane n).supply.state = .riding
        then entryHeld (s.work.lane n).settled else firstAttempt s.env (s.work.lane n).settled := by
      rw [entry, beginEntry_lane, if_pos rfl, lane_settled]
      simp only [riding_settled]
    have others : ∀ m, m ≠ n → (s.work.settleEnd s.env n).lane m = s.work.lane m := by
      intro m hm
      rw [entry, beginEntry_lane, if_neg hm, lane_modLane, if_neg hm]
    by_cases riding : (s.work.lane n).supply.state = .riding
    · rw [if_pos riding] at lane
      refine ⟨?_, ?_, ?_, others, fun h => absurd riding h, fun _ => ?_⟩
      all_goals simp only [refreshIrq_work, lane]
      · rfl
      · rfl
      · rfl
      · exact ⟨if_pos riding, rfl, rfl, rfl, rfl⟩
    · rw [if_neg riding] at lane
      refine ⟨?_, ?_, ?_, others, fun _ => ?_, fun h => absurd h riding⟩
      all_goals simp only [refreshIrq_work, lane]
      · rfl
      · rfl
      · rfl
      · exact ⟨if_neg riding, rfl, rfl, rfl, rfl, rfl⟩
  · have idle : s.env.acting = false := by
      unfold State.env Env.acting
      rw [halted]
      rfl
    have rests : s.work.settleEnd s.env n = s.work.setLane n (s.work.lane n).settled := atHold_idle (.inl idle)
    refine ⟨_, laneEvent_eq aw (.inl (by rw [halted]; decide)) rests, rfl, ?_, ?_⟩
    all_goals simp only [refreshIrq_work, withLane_work, lane_setLane, if_true]
    exact ⟨rfl, rfl, rfl, rfl⟩

/-! ## The reset pulse of RUN (R37, R39) -/

theorem taken_idle (h : w.isLive n = false) : w.ResultTaken v n r := by
  intro i j a b c _
  exact absurd (idleIn_iff.mp h i j a b) (by simp [c])

theorem leave_idle (h : w.isLive n = false) (env : Env) : (w.leave env n).isLive n = false :=
  notLive_of_reach (reach_leave w env n) h

theorem leave_slot_none (w : Work) (env : Env) (n : LaneId) : ((w.leave env n).lane n).ctx.slot = none := by
  rw [lane_leave, if_pos rfl]
  by_cases h : (w.lane n).ctx.slot.isSome = true
  · rw [if_pos h]
    rfl
  · rw [if_neg h]
    simpa using h

theorem leave_body (w : Work) (env : Env) (n : LaneId) : body ((w.leave env n).lane n) = body (w.lane n) := by
  rw [lane_leave, if_pos rfl]
  split <;> rfl

theorem pulseDone_others (w : Work) (env : Env) (n : LaneId) : Others n w (w.pulseDone env n) := by
  unfold Work.pulseDone
  dsimp only
  split
  · exact (others_modLane _).trans (finalize_others _ _ _)
  · exact (others_modLane _).trans (others_leave _)

/-- The end of the reset pulse of a lane that a RUN brought there (R37, R39). -/
theorem pulseDone_leads (action : w.isLive n = true → w.actionOf n = some .run) (env : Env) :
    body ((w.pulseDone env n).lane n) = body (w.lane n).releasePulse ∧ ((w.pulseDone env n).lane n).ctx.slot = none
      ∧ ((w.lane n).ctx.slot.isSome = true → (w.pulseDone env n).ownerOf n = none)
      ∧ w.ResultTaken (w.pulseDone env n) n .done := by
  have same : SameJobs w (w.modLane n Lane.releasePulse) := sameJobs_modLane rfl
  have lane : (w.modLane n Lane.releasePulse).lane n = (w.lane n).releasePulse := by simp
  unfold Work.pulseDone
  dsimp only
  cases live : w.isLive n with
  | true =>
    rw [if_pos (by rw [same.isLive n, live])]
    have left := finalize_action (r := .done) (by rw [same.isLive n, live])
      (by rw [same.actionOf n]; exact action live) (by simp) env none
    exact ⟨left.body.trans (by rw [lane]), left.slot, fun _ => left.owner, taken_via same _ _ _⟩
  | false =>
    rw [if_neg (by rw [same.isLive n, live]; simp)]
    refine ⟨(leave_body _ _ _).trans (by rw [lane]), leave_slot_none _ _ _, fun h => ?_, taken_idle live⟩
    rw [owner_leave, if_pos ⟨rfl, by rw [lane]; exact h⟩]

/-- Settles O31: the pulse's end releases TRST, and the lane is through with its job. -/
theorem resetPulseEndsInRun : Obligations.ResetPulseEndsInRun := by
  intro s n l ends aw hl pulse part
  subst hl
  obtain ⟨-, hd⟩ := acting_of_mem part
  have runs : exec (.resetPulseEnd n) s
      = s.answer (s.laneEvent n (fun env w => w.phaseOver n .pulse (fun w => w.pulseDone env n))) :=
    congrArg s.answer (if_pos (by rw [State.phase, pulse]; rfl))
  rw [runs]
  refine ⟨fun riding => ?_, fun steady action => ?_⟩
  · exact laneEvent_eq aw (.inl hd) (if_pos (by simp [Lane.riding, riding]))
  · obtain ⟨t, e, y, -⟩ := laneEvent_yields aw hd (fun env w => w.phaseOver n .pulse (fun w => w.pulseDone env n)) (n := n)
    have released : s.work.phaseOver n .pulse (fun w => w.pulseDone s.env n) = s.work.pulseDone s.env n := if_neg (by simp [Lane.riding, steady])
    rw [released] at y
    obtain ⟨kept, slot, owner, taken⟩ := pulseDone_leads action s.env
    refine ⟨t, e, ?_, ?_, ?_, fun h => ?_, fun m hm => ?_, y.taken taken⟩
    · rw [y.lane n]
      exact congrArg (·.ctx.state) kept
    · rw [y.lane n]
      exact congrArg (·.lines) kept
    · rw [y.lane n, slot]
    · rw [y.owner n, owner h]
    · rw [y.lane m]
      exact (pulseDone_others s.work s.env n).pins hm

/-! ## A cut (R142, R143) -/

theorem cutLane_body (w : Work) (env : Env) (n : LaneId) : body ((w.cutLane env n).lane n) = body (w.lane n).cut := by
  have there : (w.modLane n Lane.cut).lane n = (w.lane n).cut := by simp
  unfold Work.cutLane
  dsimp only
  split
  · rw [there]
  · split
    · next live =>
      split
      · rw [lane_modLane, if_pos rfl, there]
        rfl
      · rw [(finalize_leaves live (fun _ _ => .inl (by simp)) env none).body, there]
    · rw [leave_body, there]

theorem cutLane_others (w : Work) (env : Env) (n : LaneId) : Others n w (w.cutLane env n) := by
  unfold Work.cutLane
  dsimp only
  split
  · exact others_modLane _
  · split
    · split
      · exact (others_modLane _).trans (others_modLane _)
      · exact (others_modLane _).trans (finalize_others _ _ _)
    · exact (others_modLane _).trans (others_leave _)

theorem cut_slot (l : Lane) : l.cut.ctx.slot = l.ctx.slot := by
  show l.abandon.ctx.slot = l.ctx.slot
  unfold Lane.abandon
  split <;> rfl

theorem cut_xfer (l : Lane) : l.cut.eng.xfer = l.eng.xfer := by
  show l.abandon.eng.xfer = l.eng.xfer
  unfold Lane.abandon
  split <;> rfl

theorem sameJobs_cut (w : Work) (n : LaneId) : SameJobs w (w.modLane n Lane.cut) := sameJobs_modLane (cut_slot _)

/-- What abandoning its exchange does to a lane that has one (R60). -/
theorem cut_exchange (l : Lane) : l.cut.link.state = .idle ∧ l.cut.supply = l.supplyOff.supply ∧ l.cut.settings = l.settings
    ∧ (l.link.state ≠ .idle → l.cut.lines.tdatDriven = false ∧ l.cut.ctx.answered = false ∧ l.cut.ctx.seq = l.ctx.seq + 1) := by
  refine ⟨(abandon_keeps l).2.2.1, ?_, (abandon_keeps l).2.1, fun h => ?_⟩
  · exact congrArg (fun x : Supply => { x with state := .unpowered, powerUp := none, settle := none, ride := none, level := .below })
      (abandon_keeps l).1
  · unfold Lane.cut Lane.abandon
    rw [if_neg h]
    exact ⟨rfl, rfl, rfl⟩

/-- Settles O32: at the lane a cut does all at once, and the result follows now or after the host transfer in flight. -/
theorem cutSwitchesTheLaneOff : Obligations.CutSwitchesTheLaneOff := by
  intro s n l c aw hl cause
  subst hl
  have cuts : exec c s = s.answer (s.laneEvent n (fun env w => w.cutLane env n)) := by
    rcases cause with ⟨rfl, riding⟩ | ⟨stood, rfl, stands, above, watched, policy, sound⟩
    · exact congrArg s.answer (if_pos (by simp [Lane.riding, riding]))
    · have watches : (s.work.lane n).supply.watchesDrops = true := by
        simp only [List.mem_cons, List.not_mem_nil, or_false] at watched
        simp [Supply.watchesDrops, above, watched]
      have drops : s.work.drop s.env n = s.work.cutLane s.env n := by
        unfold Work.drop
        dsimp only
        rw [if_neg sound, policy]
      refine (congrArg s.answer (if_pos ⟨watches, (qualified_iff stood).mpr stands⟩)).trans ?_
      unfold State.laneEvent State.onWork
      dsimp only
      rw [drops]
  rw [cuts]
  obtain ⟨t, e, y, -⟩ := answer_yields aw (s.laneEvent n (fun env w => w.cutLane env n))
  rw [laneEvent_work] at y
  have cut := cutLane_body s.work s.env n
  obtain ⟨supply, settings, link, lines, state, fault, answered, session, desc, phase⟩ :=
    drainCheck_keeps (s.work.cutLane s.env n) s.env n
  rw [← y.lane n] at supply settings link lines state fault answered session desc phase
  obtain ⟨idle, off, same, exchange⟩ := cut_exchange (s.work.lane n)
  have lines := lines.trans (congrArg (·.lines) cut)
  refine ⟨t, e, state.trans (congrArg (·.ctx.state) cut), fault.trans (congrArg (·.ctx.faultCause) cut),
    session (congrArg (·.ctx.session) cut), desc (congrArg (·.ctx.desc) cut), congrArg Lines.tpwrOn lines,
    congrArg Lines.trstLow lines, congrArg Lines.tselLow lines, fun busy => ?_, fun busy hd => ?_, ?_, ?_, ?_, ?_, fun m hm => ?_,
    fun acts => ?_⟩
  · obtain ⟨released, unanswered, -⟩ := exchange busy
    exact ⟨(congrArg Lines.tdatDriven lines).trans released,
      answered.trans ((congrArg (·.ctx.answered) cut).trans unanswered)⟩
  · rw [drainCheck_other (show s.env.part ≠ .draining from hd)] at y
    rw [y.lane n]
    exact (congrArg (·.ctx.seq) cut).trans (exchange busy).2.2
  · exact (congrArg LinkUnit.state (link.trans (congrArg (·.link) cut))).trans idle
  · exact (supply.trans (congrArg (·.supply) cut)).trans off
  · exact phase (congrArg (·.eng.phase) cut)
  · exact (settings.trans (congrArg (·.settings) cut)).trans same
  · rw [y.lane m, drainCheck_others _ _ _ hm]
    exact (cutLane_others s.work s.env n).pins hm
  · obtain ⟨acts, hd⟩ := acting_of_mem acts
    rw [drainCheck_other (show s.env.part ≠ .draining from hd)] at y
    have jobs := sameJobs_cut s.work n
    have there : (s.work.modLane n Lane.cut).lane n = (s.work.lane n).cut := by simp
    unfold Work.cutLane at y
    simp only [acts, Bool.not_true, Bool.false_eq_true, if_false, jobs.isLive n, there, cut_xfer] at y
    refine ⟨fun free => ?_, fun flight live => ?_, fun dead => ?_⟩
    · cases live : s.work.isLive n with
      | true =>
        simp only [live, free, if_true, Option.isSome_none, Bool.false_eq_true, if_false] at y
        exact ⟨by rw [y.isLive, finalize_notLive], y.taken (taken_via jobs _ _ _)⟩
      | false =>
        simp only [live, Bool.false_eq_true, if_false] at y
        exact ⟨by rw [y.isLive, leave_idle (by rw [jobs.isLive n, live])], taken_idle live⟩
    · simp only [live, flight, if_true] at y
      have due : SameJobs (s.work.modLane n Lane.cut) ((s.work.modLane n Lane.cut).modLane n
        (fun l => { l with eng := { l.eng with due := some (.supplyDrop, none) } })) := sameJobs_modLane rfl
      refine ⟨by rw [y.isLive, due.isLive n, jobs.isLive n, live], ?_, ?_⟩
      · rw [y.lane n, lane_modLane, if_pos rfl]
      · rw [y.lane n, lane_modLane, if_pos rfl, there]
        exact cut_xfer _
    · simp only [dead, Bool.false_eq_true, if_false] at y
      rw [y.lane n, leave_slot_none]

/-! ## Entry attempts (R27, R29) -/

theorem sameJobs_sendOpen (w : Work) (n : LaneId) : SameJobs w (w.sendOpen n) := by
  unfold Work.sendOpen
  dsimp only
  split
  · exact sameJobs_transfer _ _ _ _
  · exact sameJobs_request _ _ _

/-- The lane as the presence pulse leaves it (R27). -/
def linkingLane (l : Lane) : Lane :=
  { l with ctx := { l.ctx with state := .linking, step := .linking, stepPos := none }
           lines := { l.lines with tselLow := false }, eng := { l.eng with phase := .none } }

theorem startLinking_eq (w : Work) (n : LaneId) : ∃ v : Work, w.startLinking n = v.sendOpen n ∧ SameJobs w v
    ∧ ∀ m, v.lane m = if m = n then linkingLane (w.lane n) else w.lane m := by
  refine ⟨_, rfl, (sameJobs_modLane rfl).trans (sameJobs_setStep _ _ _), fun m => ?_⟩
  rw [lane_setStep, lane_modLane, lane_modLane]
  by_cases h : m = n <;> simp [h, linkingLane]

theorem presenceLow_eq (now released low stood : Nat) : presenceLow now released ⟨low, stood⟩
    = if now - stood - low < released then now - stood - released else low := rfl

/-- Settles O30: each phase leads to the next, and a pulse that is long enough to LINKING. -/
theorem entryAttemptsAndThePresencePulse : Obligations.EntryAttemptsAndThePresencePulse := by
  intro s n l released ends aw hl
  subst hl
  have select : ∀ x, (s.work.lane n).eng.phase = .select x → exec (.selectPhaseEnd n) s = s.answer (s.laneEvent n
      (fun env w => w.phaseOver n .presence (fun w => w.modLane n (Lane.presencePhase env)))) := fun x h =>
    congrArg s.answer (if_pos (by rw [State.phase, h]; rfl))
  have reset : ∀ x, (s.work.lane n).eng.phase = .reset x → exec (.entryResetEnd n) s = s.answer (s.laneEvent n
      (fun env w => w.phaseOver n .select (fun w => w.modLane n (Lane.selectPhase env)))) := fun x h =>
    congrArg s.answer (if_pos (by rw [State.phase, h]; rfl))
  have limit : ∀ x y, (s.work.lane n).eng.phase = .presence x y → exec (.entryLimitExpiry n) s
      = s.answer (s.laneEvent n (fun env w => w.attemptFailed env n)) := fun x y h =>
    congrArg s.answer (if_pos (by rw [State.phase, h]; rfl))
  refine ⟨fun entry => ⟨fun h steady => ?_, fun h riding => ?_, fun h steady => ?_, fun h riding => ?_, fun h left => ?_,
    fun h last part => ?_⟩, fun h low stood timed htimed => ⟨fun short => ?_, fun long passed steady => ?_⟩⟩
  · rw [select _ h]
    refine laneEvent_eq aw (.inr (atRest_of_state (by simp [entry]))) ?_
    refine (if_neg (by simp [Lane.riding, steady])).trans ?_
    simp only [Work.modLane, Lane.presencePhase, ms, State.env, Nat.mul_comm]
  · rw [select _ h]
    exact laneEvent_eq aw (.inr (atRest_of_state (by simp [entry]))) (if_pos (by simp [Lane.riding, riding]))
  · rw [reset _ h]
    refine laneEvent_eq aw (.inr (atRest_of_state (by simp [entry]))) ?_
    refine (if_neg (by simp [Lane.riding, steady])).trans ?_
    simp only [Work.modLane]
    unfold Lane.selectPhase
    rw [← entry]
    rfl
  · rw [reset _ h]
    exact laneEvent_eq aw (.inr (atRest_of_state (by simp [entry]))) (if_pos (by simp [Lane.riding, riding]))
  · rw [limit _ _ h]
    refine laneEvent_eq aw (.inr (atRest_of_state (by simp [entry]))) ?_
    refine (if_pos left).trans ?_
    simp only [Work.modLane]
    unfold Lane.entryReset
    rw [← entry]
    rfl
  · obtain ⟨-, hd⟩ := acting_of_mem part
    rw [limit _ _ h]
    obtain ⟨t, e, y, -⟩ := laneEvent_yields aw hd (fun env w => w.attemptFailed env n) (n := n)
    have same : SameJobs s.work (s.work.modLane n (Lane.enterFault .noTarget)) := sameJobs_modLane rfl
    have fails : s.work.attemptFailed s.env n
        = (s.work.modLane n (Lane.enterFault .noTarget)).finalize s.env n .noTarget none := if_neg (by omega)
    rw [fails] at y
    have fault : body (((s.work.modLane n (Lane.enterFault .noTarget)).finalize s.env n .noTarget none).lane n)
        = body ((s.work.lane n).enterFault .noTarget) := by
      cases live : (s.work.modLane n (Lane.enterFault .noTarget)).isLive n with
      | true =>
        rw [(finalize_faults live (by simp) s.env none).body]
        simp only [lane_modLane, if_true]
        rfl
      | false => rw [finalize_idle live, lane_modLane, if_pos rfl]
    rw [← y.lane n] at fault
    refine ⟨t, e, congrArg (·.ctx.state) fault, congrArg (·.ctx.faultCause) fault, congrArg (·.lines) fault,
      congrArg (·.supply) fault, fun m hm => ?_, by rw [y.isLive, finalize_notLive], y.taken (taken_via same _ _ _)⟩
    rw [y.lane m]
    exact ((others_modLane _).trans (finalize_others _ _ _)).pins hm
  · refine (congrArg s.answer (if_neg fun ⟨_, long, passed⟩ => ?_)).trans (answer_self aw)
    rw [State.phase, h, Phase.released, presenceLow_eq, ← htimed] at long
    have long : 20 * 417 ≤ timed := long
    have passed : 3 * 417 ≤ 16 * stood := of_decide_eq_true passed
    omega
  · have begins : exec (.presencePulse n ⟨low, stood⟩) s = s.answer (s.laneEvent n (fun _ w => w.startLinking n)) := by
      refine congrArg s.answer (if_pos ⟨by rw [State.phase, h]; rfl, ?_, decide_eq_true passed⟩)
      rw [State.phase, h, Phase.released, presenceLow_eq, ← htimed]
      exact long
    obtain ⟨v, eq, same, lane⟩ := startLinking_eq s.work n
    have at_n : v.lane n = linkingLane (s.work.lane n) := by rw [lane, if_pos rfl]
    have calm : (v.lane n).supply.state ≠ .riding := by rw [at_n]; exact steady
    have pointer := same.keyPointer n
    have jobs : SameJobs s.work (s.work.startLinking n) := eq ▸ same.trans (sameJobs_sendOpen v n)
    have shape : ∃ l', (s.work.startLinking n).lane n = l' ∧ l'.ctx.state = .linking ∧ l'.ctx.step = .linking
        ∧ l'.lines.tselLow = false ∧ l'.lines.trstLow = (s.work.lane n).lines.trstLow
        ∧ (∀ m, m ≠ n → (s.work.startLinking n).lane m = s.work.lane m)
        ∧ (s.work.keyPointer n = 0 → s.work.startLinking n = v.request n ((v.lane n).openRequest []))
        ∧ (s.work.keyPointer n ≠ 0 → l'.eng.xfer = some (.keyRead (s.work.keyPointer n)) ∧ l'.link = (s.work.lane n).link) := by
      rw [eq]
      unfold Work.sendOpen
      dsimp only
      rw [pointer]
      by_cases none_ : s.work.keyPointer n = 0
      · rw [if_neg (by simp [none_]), request_begins calm, lane_setLane, if_pos rfl]
        refine ⟨_, rfl, ?_, ?_, ?_, ?_, fun m hm => ?_, fun _ => rfl, fun h => absurd none_ h⟩
        · show (v.lane n).ctx.state = _; rw [at_n]; rfl
        · show (v.lane n).ctx.step = _; rw [at_n]; rfl
        · show (v.lane n).lines.tselLow = _; rw [at_n]; rfl
        · show (v.lane n).lines.trstLow = _; rw [at_n]; rfl
        · rw [lane_setLane, if_neg hm, lane, if_neg hm]
      · rw [if_pos none_, transfer_begins calm, lane_modLane, if_pos rfl]
        refine ⟨_, rfl, ?_, ?_, ?_, ?_, fun m hm => ?_, fun h => absurd h none_, fun _ => ⟨rfl, ?_⟩⟩
        · show (v.lane n).ctx.state = _; rw [at_n]; rfl
        · show (v.lane n).ctx.step = _; rw [at_n]; rfl
        · show (v.lane n).lines.tselLow = _; rw [at_n]; rfl
        · show (v.lane n).lines.trstLow = _; rw [at_n]; rfl
        · rw [lane_modLane, if_neg hm, lane, if_neg hm]
        · show (v.lane n).link = _; rw [at_n]; rfl
    obtain ⟨l', at_', state, step, tsel, trst, others, plain, key⟩ := shape
    rw [begins]
    refine ⟨_, laneEvent_sameJobs aw (.inr (atRest_of_state (by rw [at_', state]; simp))) jobs, ?_⟩
    simp only [refreshIrq_work, at_']
    refine ⟨state, step, tsel, trst, others, jobs.queue, jobs.owner, fun none_ => ?_, key⟩
    · have sent := plain none_
      have frame := frameOut_request calm ((v.lane n).openRequest [])
      have sends : l' = (v.lane n).beginRequest (v.payload n ((v.lane n).openRequest [])) ((v.lane n).openRequest []) := by
        rw [← at_', sent, request_begins calm, lane_setLane, if_pos rfl]
      rw [sends, sent, frame, at_n]
      exact ⟨rfl, rfl, rfl, rfl, rfl, rfl, rfl, rfl, rfl, rfl⟩

end Sys2Proof.Proofs
end

section
/-! The link's timers, failed attempts and frames that are not accepted: O34, O35, O36. -/

namespace Sys2Proof.Proofs

-- One theorem at a time: a thread for each would ask for more stack than the check allows.
set_option Elab.async false

open Sys2Proof.Machine Sys2Proof.Laws

variable {s t u : State} {v w w' : Work} {env : Env} {n m : LaneId} {l : Lane}

/-! ## Link events (R51 to R55) -/

/-- An event that changes the lane's link, on a lane with a request outstanding then. -/
theorem linkUpdate_eq {f : Env → Lane → Lane} (aw : s.Awake)
    (hd : s.part.state ≠ .draining ∨ (f s.env (s.work.lane n)).link.state ≠ .idle) :
    s.answer (s.linkUpdate n f) = .next (s.withLane n (f s.env (s.work.lane n))).refreshIrq :=
  laneEvent_eq aw (hd.imp_right fun h => by simp [Lane.atRest, Lane.atBoundary, Lane.linkIdle, h]) rfl

/-- An event after which the exchange goes on. -/
theorem linkEvent_goesOn {f : Env → Lane → LinkEvent} {l : Lane} (aw : s.Awake) (hl : l.link.state ≠ .idle)
    (h : f s.env (s.work.lane n) = .goesOn l) :
    s.answer (s.linkEvent n f) = .next (s.withLane n l).refreshIrq :=
  laneEvent_eq aw (.inr (by simp [Lane.atRest, Lane.atBoundary, Lane.linkIdle, hl])) (by rw [h]; rfl)

section Rate

variable {rate bit : Nat} (h : (rate, bit) ∈ [(0, 417), (1, 192), (2, 96), (3, 48), (4, 24), (5, 16)])

include h

theorem passes_iff (stood : Nat) : passesGlitchFilter rate stood = true ↔ 3 * bit ≤ 16 * stood := by
  rw [passesGlitchFilter, bitTime_of_mem h]
  exact decide_eq_true_iff

theorem busyHoldTime_eq : busyHoldTime rate = 20 * bit := by rw [busyHoldTime, bitTime_of_mem h]

theorem quietTime_eq : quietTime rate = 40 * bit := by rw [quietTime, bitTime_of_mem h]

theorem bitMiddle_eq (i : Nat) : bitMiddle rate i = (2 * i + 1) * bit / 2 := by rw [bitMiddle, bitTime_of_mem h]

theorem isNoise_iff (low : Nat) : isNoise rate low = true ↔ low ≤ bit / 2 := by
  rw [isNoise, bitMiddle_eq h, decide_eq_true_iff]
  omega

end Rate

/-- An event that is not one there, or that changes nothing, leaves the part as it is. -/
theorem answer_if (aw : s.Awake) {p : Prop} [Decidable p] {k : State} (h : p → s.answer k = .next s.refreshIrq) :
    s.answer (if p then k else s) = .next s.refreshIrq := by
  split
  · next q => exact h q
  · exact answer_self aw

theorem withLane_self (s : State) (n : LaneId) : s.withLane n (s.work.lane n) = s := by
  rw [State.withLane, setLane_self]

/-- An event that leaves the lane as it is. -/
theorem linkUpdate_same {f : Env → Lane → Lane} (aw : s.Awake)
    (hd : s.part.state ≠ .draining ∨ (s.work.lane n).link.state ≠ .idle) (h : f s.env (s.work.lane n) = s.work.lane n) :
    s.answer (s.linkUpdate n f) = .next s.refreshIrq := by
  rw [linkUpdate_eq aw (by rw [h]; exact hd), h, withLane_self]

theorem await_eq (env : Env) (l : Lane) : l.await env =
    { l with link := { l.link with state := .awaiting, timer := .running (env.clock + 48000 * l.link.replyLimit),
                                   busyStart := none, discarding := false }
             lines := { l.lines with tdatDriven := false } } := by
  rw [Lane.await, ms, Nat.mul_comm]

theorem frameSent_eq (env : Env) (l : Lane) : l.frameSent env =
    { l with link := { l.link with state := .awaiting, timer := .running (env.clock + 48000 * l.link.replyLimit),
                                   busyStart := none, released := env.clock, discarding := false }
             lines := { l.lines with tdatDriven := false } } := by
  rw [Lane.frameSent, await_eq]

/-- A low that begins where none can be timed, or one is timed already (R46, R52). -/
theorem low_same (env : Env) (start : Nat)
    (h : l.link.state ∈ [.idle, .sending, .busyHold] ∨ (l.link.state = .receiving ∧ l.link.discarding = false)) :
    l.low env start = l := by
  simp only [List.mem_cons, List.not_mem_nil, or_false] at h
  unfold Lane.low
  split
  · rfl
  · rcases h with (h | h | h) | ⟨h, d⟩ <;> rw [h]
    simp [d]

/-- The end of a low where none is timed changes nothing (R46, R52). -/
theorem lowEnded_same {low : Nat} (h : l.link.busyStart = none ∨ l.link.state ∈ [.idle, .sending, .busyHold]
    ∨ (l.link.state = .receiving ∧ l.link.discarding = false) ∨ busyHoldTime l.link.rate < low) : l.lowEnded low = l := by
  simp only [List.mem_cons, List.not_mem_nil, or_false] at h
  unfold Lane.lowEnded
  split
  · next timed =>
    obtain ⟨timed, le⟩ := timed
    rcases h with h | (h | h | h) | ⟨h, d⟩ | h
    · simp [h] at timed
    all_goals try rw [h]
    · simp [d]
    · omega
  · rfl

theorem noise_same (env : Env) (h : l.link.busyStart = none ∨ l.link.state ∈ [.idle, .sending, .busyHold]
    ∨ (l.link.state = .receiving ∧ l.link.discarding = false)) : l.noise env = l := by
  simp only [List.mem_cons, List.not_mem_nil, or_false] at h
  unfold Lane.noise
  split
  · next timed =>
    rcases h with h | (h | h | h) | ⟨h, d⟩
    · simp [h] at timed
    all_goals rw [h]
    simp [d]
  · rfl

theorem canHold_false (h : l.link.busyStart = none ∨ l.link.state ∈ [.idle, .sending, .busyHold]
    ∨ (l.link.state = .receiving ∧ l.link.discarding = false)) : l.canHold = false := by
  simp only [List.mem_cons, List.not_mem_nil, or_false] at h
  rcases h with h | (h | h | h) | ⟨h, d⟩ <;> simp [Lane.canHold, *]

theorem rest_tdat (l : Lane) : l.rest.lines.tdatDriven = l.lines.tdatDriven := by
  unfold Lane.rest
  split <;> rfl

/-! ## A lane's reports on its line, one by one -/

section Reports

variable {bit : Nat}
  (hr : ((s.work.lane n).link.rate, bit) ∈ [(0, 417), (1, 192), (2, 96), (3, 48), (4, 24), (5, 16)])

include hr

theorem exec_lowBegan {stood : Nat} (long : 3 * bit ≤ 16 * stood) : exec (.tdatLow n (.began stood)) s
    = s.answer (s.linkUpdate n (fun env l => l.low env (env.clock - stood))) :=
  congrArg s.answer (if_pos ((passes_iff hr stood).mpr long))

theorem exec_lowEnded {stood : Nat} (long : 3 * bit ≤ 16 * stood) (low : Nat) : exec (.tdatLow n (.ended low stood)) s
    = s.answer (s.linkUpdate n (fun _ l => l.lowEnded low)) :=
  congrArg s.answer (if_pos ((passes_iff hr stood).mpr long))

theorem exec_noise {stood low : Nat} (long : 3 * bit ≤ 16 * stood) (long' : 3 * bit ≤ 16 * low) (short : low ≤ bit / 2) :
    exec (.startBitDiscarded ⟨n, low, stood⟩) s = s.answer (s.linkUpdate n (fun env l => l.noise env)) :=
  congrArg s.answer (if_pos ⟨(passes_iff hr low).mpr long', (isNoise_iff hr low).mpr short, (passes_iff hr stood).mpr long⟩)

theorem exec_hold {low : Nat} (timed : (s.work.lane n).canHold = true) (long : 20 * bit < low) :
    exec (.busyHoldRecognised n low) s = s.answer (s.linkUpdate n (fun _ l => l.holdRecognised)) :=
  congrArg s.answer (if_pos ⟨timed, by rw [busyHoldTime_eq hr]; exact long⟩)

/-- Where no low is timed or can be, reports change nothing. -/
theorem reports_same (aw : s.Awake) {stood : Nat} (long : 3 * bit ≤ 16 * stood) (hd : s.part.state ≠ .draining ∨ (s.work.lane n).link.state ≠ .idle)
    (h : (s.work.lane n).link.state ∈ [.idle, .sending, .busyHold]
      ∨ ((s.work.lane n).link.state = .receiving ∧ (s.work.lane n).link.discarding = false)) (low : Nat) :
    exec (.tdatLow n (.began stood)) s = .next s.refreshIrq ∧ exec (.tdatLow n (.ended low stood)) s = .next s.refreshIrq
      ∧ exec (.startBitDiscarded ⟨n, low, stood⟩) s = .next s.refreshIrq
      ∧ ∀ x, exec (.busyHoldRecognised n x) s = .next s.refreshIrq := by
  refine ⟨?_, ?_, answer_if aw fun _ => linkUpdate_same aw hd (noise_same _ (.inr h)), fun x => answer_if aw fun ⟨c, _⟩ => ?_⟩
  · rw [exec_lowBegan hr long, linkUpdate_same aw hd (low_same _ _ h)]
  · rw [exec_lowEnded hr long, linkUpdate_same aw hd (lowEnded_same (.inr (h.imp_right .inl)))]
  · rw [canHold_false (.inr h)] at c
    cases c

end Reports

/-- Settles O34: each report on the line finds the lane in one of the exchange's states and moves its timers or nothing. -/
theorem exchangeTimers : Obligations.ExchangeTimers := by
  intro s n l bit aw hl hr onLink hon
  subst hl
  refine ⟨fun sending => ?_, fun stood low short => ?_, fun stood long hd state low => ?_,
    fun stood long receiving listening low => ?_, fun stood long untimed => ⟨fun ends awaiting running => ?_,
      fun receiving discarding => ?_, fun low state => ?_⟩,
    fun low stood start long timed awaiting => ⟨fun lo hi => ?_, fun h => ?_, fun left long' short paused => ?_, fun lo => ?_⟩,
    fun low stood start long timed receiving discarding => ⟨fun hi => ?_, fun c hc => ?_⟩, fun low short => ?_,
    fun low start long timed state => ?_, fun stood long hold => ⟨fun hd => ?_, fun drains => ?_⟩⟩
  · refine (congrArg s.answer (if_pos sending)).trans ?_
    rw [linkUpdate_eq aw (.inr (by rw [frameSent_eq]; simp)), frameSent_eq]
    rfl
  · have fails : ¬ passesGlitchFilter (s.work.lane n).link.rate stood = true := fun q => by
      have := (passes_iff hr stood).mp q
      omega
    exact ⟨answer_if aw fun q => absurd q fails, answer_if aw fun q => absurd q fails,
      answer_if aw fun ⟨_, q⟩ => absurd q fails, answer_if aw fun ⟨_, _, q⟩ => absurd q fails,
      answer_if aw fun ⟨q, _⟩ => absurd q fails⟩
  · obtain ⟨began, ended, noise, hold⟩ := reports_same hr aw long (.inl hd) (.inl state) low
    exact ⟨began, ended, noise, hold stood⟩
  · obtain ⟨began, ended, noise, hold⟩ := reports_same hr aw long (.inr (by simp [receiving])) (.inr ⟨receiving, listening⟩) low
    exact ⟨began, ended, noise, hold low⟩
  · have lowers : (s.work.lane n).low s.env (s.env.clock - stood) = { s.work.lane n with link := { (s.work.lane n).link with
        timer := .paused (ends - s.clock), busyStart := some (max (s.clock - stood) (s.work.lane n).link.released) } } := by
      simp [Lane.low, untimed, awaiting, running, ReplyTimer.pause, State.env]
    rw [exec_lowBegan hr long, linkUpdate_eq aw (.inr (by rw [lowers]; simp [awaiting])), hon, lowers]
  · have lowers : (s.work.lane n).low s.env (s.env.clock - stood) = { s.work.lane n with link := { (s.work.lane n).link with
        busyStart := some (s.clock - stood) } } := by
      simp [Lane.low, untimed, receiving, discarding, State.env]
    rw [exec_lowBegan hr long, linkUpdate_eq aw (.inr (by rw [lowers]; simp [receiving])), hon, lowers]
  · have busy : s.part.state ≠ .draining ∨ (s.work.lane n).link.state ≠ .idle := .inr fun h => by simp [h] at state
    refine ⟨?_, answer_if aw fun _ => linkUpdate_same aw busy (noise_same _ (.inl untimed)), answer_if aw fun ⟨c, _⟩ => ?_⟩
    · rw [exec_lowEnded hr long, linkUpdate_same aw busy (lowEnded_same (.inl untimed))]
    · rw [canHold_false (.inl untimed)] at c
      cases c
  · have ends : (s.work.lane n).lowEnded low = { s.work.lane n with link := { (s.work.lane n).link with
        state := .receiving, busyStart := none } } := by
      have heard : ¬ isNoise (s.work.lane n).link.rate low = true := fun q => by
        have := (isNoise_iff hr low).mp q
        omega
      unfold Lane.lowEnded
      rw [if_pos ⟨by rw [timed]; rfl, by rw [busyHoldTime_eq hr]; exact hi⟩, awaiting]
      exact if_neg heard
    rw [exec_lowEnded hr long, linkUpdate_eq aw (.inr (by rw [ends]; simp)), hon, ends]
  · have same : (s.work.lane n).lowEnded low = s.work.lane n := by
      rcases h with short | long'
      · unfold Lane.lowEnded
        split
        · rw [awaiting]
          exact if_pos ((isNoise_iff hr low).mpr short)
        · rfl
      · exact lowEnded_same (.inr (.inr (.inr (by rw [busyHoldTime_eq hr]; exact long'))))
    rw [exec_lowEnded hr long, linkUpdate_same aw (.inr (by simp [awaiting])) same]
  · have resumes : (s.work.lane n).noise s.env = { s.work.lane n with link := { (s.work.lane n).link with
        timer := .running (s.clock + left), busyStart := none } } := by
      simp [Lane.noise, timed, awaiting, paused, ReplyTimer.resume, State.env]
    rw [exec_noise hr long long' short, linkUpdate_eq aw (.inr (by rw [resumes]; simp [awaiting])), hon, resumes]
  · refine answer_if aw fun ⟨_, q, _⟩ => ?_
    have := (isNoise_iff hr low).mp q
    omega
  · rw [exec_lowEnded hr long, linkUpdate_same aw (.inr (by simp [receiving]))
      (lowEnded_same (.inr (.inr (.inr (by rw [busyHoldTime_eq hr]; exact hi)))))]
  · have ends : ∃ f : Env → Lane → Lane, exec c s = s.answer (s.linkUpdate n f)
        ∧ f s.env (s.work.lane n) = (s.work.lane n).discardedLowEnds := by
      rcases hc with ⟨rfl, hi⟩ | ⟨rfl, long', short⟩
      · refine ⟨_, exec_lowEnded hr long low, ?_⟩
        unfold Lane.lowEnded
        rw [if_pos ⟨by rw [timed]; rfl, by rw [busyHoldTime_eq hr]; exact hi⟩, receiving]
        exact if_pos discarding
      · refine ⟨_, exec_noise hr long long' short, ?_⟩
        unfold Lane.noise
        rw [if_pos (by rw [timed]; rfl), receiving]
        exact if_pos discarding
    obtain ⟨f, eq, over_⟩ := ends
    refine ⟨fun runs => ?_, fun absent => ?_⟩
    · have goes : (s.work.lane n).discardedLowEnds = { s.work.lane n with link := { (s.work.lane n).link with
          busyStart := none } } := if_neg runs
      rw [eq, linkUpdate_eq aw (.inr (by rw [over_, goes]; simp [receiving])), hon, over_, goes]
    · have goes : (s.work.lane n).discardedLowEnds
          = Lane.resend { s.work.lane n with link := { (s.work.lane n).link with busyStart := none } } := if_pos absent
      rw [eq, linkUpdate_eq aw (.inr (by rw [over_, goes]; simp [Lane.resend])), over_, goes]
      rfl
  · refine answer_if aw fun ⟨_, q⟩ => ?_
    rw [busyHoldTime_eq hr] at q
    omega
  · have canHold : (s.work.lane n).canHold = true := by
      rcases state with h | ⟨h, d⟩ <;> simp [Lane.canHold, timed, h]
      exact d
    rw [exec_hold hr canHold long, linkUpdate_eq aw (.inr (by simp [Lane.holdRecognised])), hon]
    rfl
  · refine (congrArg s.answer (if_pos ⟨hold, (passes_iff hr stood).mpr long⟩)).trans ?_
    have goes : (if s.env.part = .draining then (s.work.lane n).drainExchange else (s.work.lane n).await s.env)
        = (s.work.lane n).await s.env := if_neg hd
    rw [linkUpdate_eq aw (.inl hd)]
    rw [goes, await_eq]
    rfl
  · have begins : exec (.busyHoldEnd ⟨n, stood⟩) s = s.answer (s.linkUpdate n
        (fun env l => if env.part = .draining then l.drainExchange else l.await env)) :=
      congrArg s.answer (if_pos ⟨hold, (passes_iff hr stood).mpr long⟩)
    rw [begins]
    obtain ⟨t, e, y, part, -⟩ := answer_yields aw (s.linkUpdate n
      (fun env l => if env.part = .draining then l.drainExchange else l.await env))
    have goes : (s.linkUpdate n (fun env l => if env.part = .draining then l.drainExchange else l.await env)).work
        = (s.work.setLane n (s.work.lane n).drainExchange).drainCheck s.env n := by
      show (s.work.setLane n (if s.env.part = .draining then _ else _)).drainCheck s.env n = _
      rw [if_pos (show s.env.part = .draining from drains)]
    rw [goes] at y
    obtain ⟨supply, -, link, lines, state, -, -, session, -, -⟩ :=
      drainCheck_keeps (s.work.setLane n (s.work.lane n).drainExchange) s.env n
    rw [← y.lane n, lane_setLane, if_pos rfl] at supply link lines state session
    obtain ⟨supply', settings', idle, state', -⟩ := abandon_keeps (s.work.lane n)
    obtain ⟨supply2, -, link2⟩ := rest_keeps (s.work.lane n).abandon
    refine ⟨t, e, part, ?_, ?_, supply.trans (supply2.trans supply'), fun way => ?_, fun m hm => ?_⟩
    · rw [link, Lane.drainExchange, link2, idle]
    · have abandons : (s.work.lane n).abandon = (s.work.lane n).closeExchange false := if_neg (by rw [hold]; decide)
      rw [lines, Lane.drainExchange, rest_tdat, abandons]
      rfl
    · have rests := rest_holds (l := (s.work.lane n).abandon)
        (by rw [state']; simp only [List.mem_cons, List.not_mem_nil, or_false] at way ⊢; tauto)
      refine ⟨state.trans ?_, session ?_, (congrArg Lines.trstLow lines).trans ?_⟩ <;> rw [Lane.drainExchange, rests] <;> rfl
    · rw [y.lane m, drainCheck_others _ _ _ hm, lane_setLane, if_neg hm]

/-! ## Failed attempts (R54, R55) -/

theorem discard_eq (env : Env) (l : Lane) : l.discard env =
    { l with link := { l.link with state := .receiving, discarding := true,
                                   timer := .running (env.clock + 48000 * l.link.replyLimit) } } := by
  rw [Lane.discard, ms, Nat.mul_comm]

theorem attemptFails_resends (env : Env) (left : l.link.resends < l.link.retryLimit) (unmarked : l.link.stopMark = false) :
    l.attemptFails env false = .goesOn l.resend := by
  unfold Lane.attemptFails
  rw [if_neg (by omega), if_neg (by simp [unmarked])]
  rfl

theorem attemptFails_waits (env : Env) (left : l.link.resends < l.link.retryLimit) (unmarked : l.link.stopMark = false) :
    l.attemptFails env true = .goesOn (l.discard env) := by
  unfold Lane.attemptFails
  rw [if_neg (by omega), if_neg (by simp [unmarked])]
  rfl

theorem listens_iff (l : Lane) : l.canReceive = true ↔ l.Listens := by
  simp [Lane.canReceive, Lane.Listens]

section Causes

variable {rate bit : Nat} (hr : (rate, bit) ∈ [(0, 417), (1, 192), (2, 96), (3, 48), (4, 24), (5, 16)])

include hr

theorem sampleBit_eq (levels : List Nat) (i : Nat) : sampleBit rate levels i = (lineAt rate levels ((2 * i + 1) * bit / 2)).1 := by
  rw [sampleBit, bitMiddle_eq hr]

theorem lowStop_iff (levels : List Nat) : readCharacter rate levels = .lowStop
    ↔ (lineAt rate levels (bit / 2)).1 = false ∧ (lineAt rate levels (19 * bit / 2)).1 = false := by
  have start : sampleBit rate levels 0 = (lineAt rate levels (bit / 2)).1 := by rw [sampleBit_eq hr]; simp
  have stop : sampleBit rate levels 9 = (lineAt rate levels (19 * bit / 2)).1 := by rw [sampleBit_eq hr]
  unfold readCharacter
  rw [start, stop]
  cases (lineAt rate levels (bit / 2)).1 <;> cases (lineAt rate levels (19 * bit / 2)).1 <;> simp

theorem lowStop_holds (levels : List Nat) : FramingCause.holds rate (.lowStop levels) = true ↔ 19 * bit / 2 ≤ levels.sum
    ∧ (lineAt rate levels (bit / 2)).1 = false ∧ (lineAt rate levels (19 * bit / 2)).1 = false := by
  rw [← lowStop_iff hr, ← show bitMiddle rate 9 = 19 * bit / 2 from bitMiddle_eq hr 9]
  exact decide_eq_true_iff

theorem gap_holds (high : Nat) : FramingCause.holds rate (.gap high) = true ↔ 40 * bit < high := by
  rw [← quietTime_eq hr]
  exact decide_eq_true_iff

omit hr

theorem badLead_holds (b : Byte) : FramingCause.holds rate (.badLead b) = true ↔ b ≠ 0x3C#8 := decide_eq_true_iff

theorem longLen_holds (k : Nat) : FramingCause.holds rate (.longLen k) = true ↔ 264 < k := decide_eq_true_iff

end Causes

theorem lowSince_lowStop (rate now : Nat) (levels : List Nat) : FramingCause.lowSince rate now (.lowStop levels)
    = if (lineAt rate levels levels.sum).1 = true then none else some (now - (lineAt rate levels levels.sum).2) := by
  unfold FramingCause.lowSince lowAtEnd
  dsimp only
  split <;> rfl

/-- A framing error with a resend to follow leads to the wait for a quiet line. -/
theorem exec_framingError (aw : s.Awake) (listens : (s.work.lane n).Listens)
    (left : (s.work.lane n).link.resends < (s.work.lane n).link.retryLimit) (unmarked : (s.work.lane n).link.stopMark = false)
    {cause : FramingCause} (h : FramingCause.holds (s.work.lane n).link.rate cause = true) :
    exec (.framingError n cause) s = .next (State.refreshIrq (s.withLane n
      { s.work.lane n with link := { (s.work.lane n).link with
          state := .receiving, discarding := true
          busyStart := FramingCause.lowSince (s.work.lane n).link.rate s.clock cause
          timer := .running (s.clock + 48000 * (s.work.lane n).link.replyLimit) } })) := by
  refine (congrArg s.answer (if_pos ⟨(listens_iff _).mpr listens, h⟩)).trans ?_
  refine linkEvent_goesOn aw (by simp) ?_
  unfold Lane.framingError
  dsimp only
  rw [attemptFails_waits, discard_eq]
  · rfl
  · exact left
  · exact unmarked

/-- Settles O35: a failed attempt with a resend left is sent again at once, or after a quiet line. -/
theorem failedAttemptsAreSentAgain : Obligations.FailedAttemptsAreSentAgain := by
  intro s n l bit aw hl hr left unmarked again waiting hagain hwaiting
  subst hl
  have resent : again = (s.withLane n (s.work.lane n).resend).refreshIrq := hagain
  refine ⟨?_, fun ends awaiting running => ?_, fun rest paused => ?_, fun listens cause hc => ?_,
    fun listens levels long start stop => ?_, fun cause hc => ?_, fun receiving discarding => ⟨fun high hc => ?_,
      fun high quiet untimed => ?_, fun ends running untimed => ?_, fun ends start running timed => ?_⟩⟩
  · rw [resent, Work.frameOut, Work.frameOut]
    simp only [refreshIrq_work, withLane_work, lane_setLane, if_true]
    unfold Work.payload
    rw [lane_setLane, if_pos rfl]
    rfl
  · refine (congrArg s.answer (if_pos ⟨awaiting, by rw [running]; rfl⟩)).trans ?_
    rw [resent]
    exact linkEvent_goesOn aw (by simp [Lane.resend]) (attemptFails_resends s.env left unmarked)
  · refine answer_if aw fun ⟨_, q⟩ => ?_
    rw [paused] at q
    cases q
  · have real : FramingCause.holds (s.work.lane n).link.rate cause = true
        ∧ FramingCause.lowSince (s.work.lane n).link.rate s.clock cause = none := by
      rcases hc with ⟨b, rfl, h⟩ | ⟨k, rfl, h⟩ | ⟨high, rfl, h⟩
      · exact ⟨(badLead_holds b).mpr h, rfl⟩
      · exact ⟨(longLen_holds k).mpr h, rfl⟩
      · exact ⟨(gap_holds hr high).mpr h, rfl⟩
    rw [exec_framingError aw listens left unmarked real.1, real.2, hwaiting]
  · rw [exec_framingError aw listens left unmarked ((lowStop_holds hr levels).mpr ⟨long, start, stop⟩), hwaiting, lowSince_lowStop]
  · refine answer_if aw fun ⟨c, h⟩ => ?_
    have listens := (listens_iff _).mp c
    rcases hc with hc | rfl | ⟨k, rfl, hk⟩ | ⟨high, rfl, hh⟩ | ⟨levels, rfl, hc⟩
    · exact absurd listens hc
    · exact absurd rfl ((badLead_holds _).mp h)
    · have := (longLen_holds k).mp h
      omega
    · have := (gap_holds hr high).mp h
      omega
    · obtain ⟨long, start, stop⟩ := (lowStop_holds hr levels).mp h
      rcases hc with hc | hc | hc
      · omega
      · rw [start] at hc
        cases hc
      · rw [stop] at hc
        cases hc
  · refine answer_if aw fun ⟨_, _, h⟩ => ?_
    simp only [QuietCause.holds, Bool.and_eq_true, decide_eq_true_eq, quietTime_eq hr] at h
    obtain ⟨untimed, quiet⟩ := h
    rcases hc with hc | hc
    · omega
    · rw [Option.isNone_iff_eq_none] at untimed
      simp [untimed] at hc
  · have holds : QuietCause.holds (s.work.lane n) (.lineHigh high) = true := by
      simp only [QuietCause.holds, Bool.and_eq_true, decide_eq_true_eq, quietTime_eq hr]
      exact ⟨by rw [untimed]; rfl, quiet⟩
    refine (congrArg s.answer (if_pos ⟨receiving, discarding, holds⟩)).trans ?_
    have goes : (s.work.lane n).quietOver = (s.work.lane n).resend := if_neg (by simp [untimed])
    rw [linkUpdate_eq aw (.inr (by rw [goes]; simp [Lane.resend])), goes, resent]
  · refine (congrArg s.answer (if_pos ⟨receiving, discarding, by rw [QuietCause.holds, running]; rfl⟩)).trans ?_
    have goes : (s.work.lane n).quietOver = (s.work.lane n).resend := if_neg (by simp [untimed])
    rw [linkUpdate_eq aw (.inr (by rw [goes]; simp [Lane.resend])), goes, resent]
  · refine (congrArg s.answer (if_pos ⟨receiving, discarding, by rw [QuietCause.holds, running]; rfl⟩)).trans ?_
    have goes : (s.work.lane n).quietOver = { s.work.lane n with link := { (s.work.lane n).link with timer := .absent } } :=
      if_pos (by simp [timed])
    rw [linkUpdate_eq aw (.inr (by rw [goes]; simp [receiving])), goes]

/-! ## Frames that are not accepted (R56) -/

/-- A complete frame is judged. -/
theorem exec_replyFrame (listens : (s.work.lane n).Listens) (frame : List Byte) : exec (.replyFrameComplete n frame) s
    = s.answer (s.linkEvent n (fun env l => l.judge env frame)) :=
  congrArg s.answer (if_pos ((listens_iff _).mpr listens))

/-- Settles O36: a frame that is rejected leads to the wait for a quiet line, a stale one back to AWAITING. -/
theorem rejectedAndStaleReplies : Obligations.RejectedAndStaleReplies := by
  intro s n l r kind seq status payload check frame aw hl listens hreq short hframe
  subst hl
  obtain ⟨complete, fields⟩ := replyOf_replyWith (kind := kind) (seq := seq) (status := status) (check := check) short
  rw [← hframe] at complete fields
  rw [exec_replyFrame listens]
  refine ⟨fun left unmarked bad => linkEvent_goesOn aw (by simp) ?_, fun good stale rest paused => ?_⟩
  · have fails : (s.work.lane n).judge s.env frame = Lane.attemptFails s.env true
        { s.work.lane n with link := { (s.work.lane n).link with busyStart := none, replyArea := frame } } := by
      unfold Lane.judge
      simp only [complete, fields, Bool.not_true, Bool.false_eq_true, if_false]
      rcases bad with bad | ⟨good, mine, bad⟩
      · rw [if_pos (Ne.symm bad)]
      · rw [if_neg (by simp [good]), if_neg (by simp [mine])]
        rcases bad with bad | rfl
        · rw [if_pos (by simpa [Lane.kindOut, hreq] using bad)]
        · split
          · rfl
          · exact if_pos rfl
    rw [fails, attemptFails_waits]
    · rw [discard_eq]
      rfl
    · exact left
    · exact unmarked
  · refine linkEvent_goesOn aw (by simp) ?_
    unfold Lane.judge
    simp only [complete, fields, Bool.not_true, Bool.false_eq_true, if_false]
    rw [if_neg (by simp [good]), if_pos stale, paused]
    rfl

end Sys2Proof.Proofs
end

section
/-! The end of an exchange, and what it leaves of the lane: O37. -/

namespace Sys2Proof.Proofs

-- One theorem at a time: a thread for each would ask for more stack than the check allows.
set_option Elab.async false

open Sys2Proof.Machine Sys2Proof.Laws

variable {s t u : State} {v w w' : Work} {env : Env} {n m : LaneId} {i : SlotId} {j : JobSlot} {l : Lane} {r : LaneResult}
  {q : Request} {o : ExchangeOutcome}

/-! ## The lane at the end of an exchange (R35, R57, R58) -/

/-- A lane whose exchange has ended: the record clear, the sequence number advanced, and ACTIVE left for READY. -/
def closedLane (answered : Bool) (l : Lane) : Lane :=
  { l with
    ctx := { l.ctx with seq := l.ctx.seq + 1, answered := answered, trial := if answered then false else l.ctx.trial
                        state := if l.ctx.state = .active then .ready else l.ctx.state }
    link := .idle
    lines := { l.lines with tdatDriven := false } }

theorem exchangeOver_eq (p : Purpose) (o : ExchangeOutcome) (l : Lane) : l.exchangeOver p o
    = if p.isClose = true then (closedLane o.answered l).endSession else closedLane o.answered l := by
  have closed : (l.afterExchange o).unanswered = closedLane o.answered l := by
    unfold Lane.afterExchange Lane.unanswered closedLane Lane.closeExchange
    cases ha : o.answered <;> by_cases hs : l.ctx.state = .active <;> simp [hs]
  unfold Lane.exchangeOver
  rw [closed]

/-- An exchange that carried no CLOSE ends. -/
theorem exchangeEnd_request (acts : env.acting = true) (req : (w.lane n).link.req = some q) (open_ : q.purpose.isClose = false) :
    w.exchangeEnd env n o = (w.setLane n (closedLane o.answered (w.lane n))).requestEnd env n q (w.lane n).ctx.trial
      (w.lane n).link.replyArea o := by
  have over_ : w.modLane n (Lane.exchangeOver q.purpose o) = w.setLane n (closedLane o.answered (w.lane n)) := by
    rw [Work.modLane, exchangeOver_eq, if_neg (by simp [open_])]
  unfold Work.exchangeEnd
  rw [req]
  simp only [acts, Bool.not_true, Bool.false_eq_true, if_false, over_]
  cases hp : q.purpose <;> rw [hp] at open_ <;> first | rfl | cases open_

/-- A CLOSE ends (R34, R75). -/
theorem exchangeEnd_close (acts : env.acting = true) (req : (w.lane n).link.req = some q) :
    (∀ e, q.purpose = .closeEnd e → w.exchangeEnd env n o
      = (w.setLane n (closedLane o.answered (w.lane n)).endSession).closeEndDone env n e o)
    ∧ (∀ a, q.purpose = .closeAction a → w.exchangeEnd env n o
      = (w.setLane n (closedLane o.answered (w.lane n)).endSession).closeActionDone env n a o)
    ∧ (q.purpose = .closeFresh → w.exchangeEnd env n o
      = (w.setLane n (closedLane o.answered (w.lane n)).endSession).closeFreshDone env n) := by
  have over_ : q.purpose.isClose = true → w.modLane n (Lane.exchangeOver q.purpose o)
      = w.setLane n (closedLane o.answered (w.lane n)).endSession := fun h => by
    rw [Work.modLane, exchangeOver_eq, if_pos h]
  refine ⟨fun e hp => ?_, fun a hp => ?_, fun hp => ?_⟩
  all_goals
    unfold Work.exchangeEnd
    rw [req]
    simp only [acts, Bool.not_true, Bool.false_eq_true, if_false, over_ (by rw [hp]; rfl)]
    rw [hp]

/-- What the end of an exchange comes to does not look at the timers of the link. -/
theorem exchangeEnd_link (k : LinkUnit) (had : (w.lane n).link.req = some q) (req : k.req = some q)
    (area : k.replyArea = (w.lane n).link.replyArea) (env : Env) (o : ExchangeOutcome) :
    (w.setLane n { w.lane n with link := k }).exchangeEnd env n o = w.exchangeEnd env n o := by
  have over_ : ((w.setLane n { w.lane n with link := k }).modLane n (Lane.exchangeOver q.purpose o))
      = w.modLane n (Lane.exchangeOver q.purpose o) := by
    simp only [Work.modLane, lane_setLane, if_true, setLane_setLane, exchangeOver_eq]
    rfl
  unfold Work.exchangeEnd
  simp only [lane_setLane, if_true, req, area, had, over_]

theorem laneEvent_congr {f g : Env → Work → Work} (h : f s.env s.work = g s.env s.work) : s.laneEvent n f = s.laneEvent n g := by
  unfold State.laneEvent State.onWork
  dsimp only
  rw [h]

/-! ## Exchanges that end without a reply (R53, R55, R59) -/

theorem exec_timeoutEnds {o : ExchangeOutcome} (awaiting : (s.work.lane n).link.state = .awaiting)
    (running : ∃ ends, (s.work.lane n).link.timer = .running ends)
    (h : (s.work.lane n).attemptFails s.env false = .ends (s.work.lane n) o) :
    exec (.replyTimeout n) s = s.answer (s.laneEvent n (fun env w => w.exchangeEnd env n o)) := by
  obtain ⟨ends, running⟩ := running
  refine (congrArg s.answer (if_pos ⟨awaiting, by rw [running]; rfl⟩)).trans (congrArg s.answer (laneEvent_congr ?_))
  show s.work.linkStep s.env n ((s.work.lane n).attemptFails s.env false) = s.work.exchangeEnd s.env n o
  rw [h, Work.linkStep, setLane_self]

theorem attemptFails_exhausted (env : Env) (quiet : Bool) (h : l.link.resends = l.link.retryLimit) :
    l.attemptFails env quiet = .ends l .exhausted := if_pos h

theorem attemptFails_stopped (env : Env) (quiet : Bool) (left : l.link.resends < l.link.retryLimit)
    (marked : l.link.stopMark = true) : l.attemptFails env quiet = .ends l .stopped := by
  unfold Lane.attemptFails
  rw [if_neg (by omega), if_pos marked]

theorem exec_framingExhausted {f : FramingCause} (listens : (s.work.lane n).Listens) (req : (s.work.lane n).link.req = some q)
    (used : (s.work.lane n).link.resends = (s.work.lane n).link.retryLimit)
    (holds : FramingCause.holds (s.work.lane n).link.rate f = true) :
    exec (.framingError n f) s = s.answer (s.laneEvent n (fun env w => w.exchangeEnd env n .exhausted)) := by
  refine (congrArg s.answer (if_pos ⟨(listens_iff _).mpr listens, holds⟩)).trans (congrArg s.answer (laneEvent_congr ?_))
  unfold Lane.framingError
  dsimp only
  rw [attemptFails_exhausted _ _ (by exact used)]
  exact exchangeEnd_link { (s.work.lane n).link with
    busyStart := FramingCause.lowSince (s.work.lane n).link.rate s.clock f } req req rfl s.env .exhausted

theorem exec_busyLimit (hd : s.part.state ≠ .draining) (hold : (s.work.lane n).link.state = .busyHold) :
    exec (.busyLimitExpiry n) s = s.answer (s.laneEvent n (fun env w => w.exchangeEnd env n .busyLimit)) :=
  (congrArg s.answer (if_pos hold)).trans (congrArg s.answer (laneEvent_congr (if_neg hd)))

theorem fail_eq (h : (w.lane n).eng.xfer = none) (env : Env) (r : LaneResult) (fa : Option Word) :
    w.fail env n r fa = w.finalize env n r fa := by
  rw [Work.fail, if_pos (by rw [h]; rfl)]

theorem sameJobs_closed (w : Work) (n : LaneId) (a : Bool) : SameJobs w (w.setLane n (closedLane a (w.lane n))) :=
  sameJobs_setLane rfl

/-! ## What a result leaves of a lane that has no CLOSE to send (R37) -/

/-- An end action from ENTRY begins in HOLD, without a CLOSE (R29, R134). -/
theorem startEnd_entry (entry : (w.lane n).ctx.state = .entry) (env : Env) (e : EndAction) :
    w.startEnd env n e = (w.modLane n Lane.toHold).finishEnd env n e := by
  unfold Work.startEnd
  rw [if_pos entry]
  by_cases he : e = .keep <;> simp [he, Lane.toHold, Lane.driveTrstLow, Lane.endSession]

/-- A property of a lane that neither its leaving, nor FAULT, nor an end action changes; it leaves no session to close, or
stands in a request too. -/
structure Settled (P : Lane → Prop) : Prop where
  body : ∀ {l l'}, body l' = body l → P l → P l'
  closed : ∀ {l}, P l → (l.ctx.session = false ∨ l.ctx.answered = false) ∨ ∀ bytes q, P (l.beginRequest bytes q)
  fault : ∀ {l}, P l → ∀ r, P (l.enterFault r)
  hold : ∀ {l}, P l → P l.toHold
  off : ∀ {l}, P l → P l.toOff
  pulse : ∀ {l}, P l → ∀ env, P (l.startPulse env)

namespace Settled

variable {P : Lane → Prop}

theorem modLane {f : Lane → Lane} (h : P (f (w.lane n))) : P ((w.modLane n f).lane n) := by
  rw [lane_modLane, if_pos rfl]
  exact h

theorem leave (k : Settled P) (h : P (w.lane n)) (env : Env) : P ((w.leave env n).lane n) := k.body (leave_body w env n) h

theorem finishEnd (k : Settled P) (h : P (w.lane n)) (env : Env) (e : EndAction) : P ((w.finishEnd env n e).lane n) := by
  unfold Work.finishEnd
  split
  · exact k.leave h env
  · split
    · exact k.leave h env
    · exact k.leave (modLane (k.hold h)) env
    · exact k.leave (modLane (k.off h)) env
    · exact modLane (k.pulse h env)

theorem startEnd (k : Settled P) (h : P (w.lane n)) (env : Env) (e : EndAction) : P ((w.startEnd env n e).lane n) := by
  by_cases entry : (w.lane n).ctx.state = .entry
  · rw [startEnd_entry entry]
    exact k.finishEnd (modLane (k.hold h)) env e
  · by_cases closes : e ≠ .keep ∧ (w.lane n).ctx.session = true ∧ (w.lane n).ctx.answered = true
    · obtain ⟨he, session, answered⟩ := closes
      rw [startEnd_close entry he session answered]
      rcases k.closed h with c | sends
      · rcases c with c | c
        · rw [session] at c
          cases c
        · rw [answered] at c
          cases c
      · unfold Work.request Work.holdBack
        split
        · refine modLane ?_
          exact k.body (l := w.lane n) rfl h
        · exact modLane (sends _ _)
    · by_cases he : e = .keep
      · rw [he, startEnd_keep entry]
        exact k.leave h env
      · rw [startEnd_finish entry (by simpa [he, Classical.or_iff_not_imp_left] using closes)]
        exact k.finishEnd h env e

theorem finalize (k : Settled P) (h : P (w.lane n)) (env : Env) (r : LaneResult) (fa : Option Word) :
    P ((w.finalize env n r fa).lane n) := by
  cases live : w.isLive n with
  | false => rw [finalize_idle live]; exact h
  | true =>
    obtain ⟨v, args, -, final, -, e⟩ := finalize_eq live env r fa
    have h := k.body final.body h
    rw [e]
    unfold destination
    split
    iterate 3 exact k.leave (modLane (k.fault h _)) env
    iterate 4 exact k.leave h env
    all_goals
      split
      · exact k.startEnd h env _
      · exact k.leave h env

end Settled

/-- A lane whose last exchange was not answered: its number, and its Link Unit at rest. -/
structure Unanswered (seq : Byte) (l : Lane) : Prop where
  seq : l.ctx.seq = seq
  answered : l.ctx.answered = false
  link : l.link = .idle
  tdat : l.lines.tdatDriven = false

theorem settled_unanswered (seq : Byte) : Settled (Unanswered seq) where
  body h k := ⟨(congrArg (·.ctx.seq) h).trans k.seq, (congrArg (·.ctx.answered) h).trans k.answered,
    (congrArg (·.link) h).trans k.link, (congrArg (·.lines.tdatDriven) h).trans k.tdat⟩
  closed k := .inl (.inr k.answered)
  fault k _ := ⟨k.seq, k.answered, k.link, k.tdat⟩
  hold k := ⟨k.seq, k.answered, k.link, k.tdat⟩
  off k := ⟨k.seq, k.answered, k.link, k.tdat⟩
  pulse k _ := ⟨k.seq, k.answered, k.link, k.tdat⟩

/-- Settles O37: an exchange that ends without a reply ends the lane, but for the first request after a PACE. -/
theorem exchangesThatEndWithoutAReply : Obligations.ExchangesThatEndWithoutAReply := by
  intro s n l q c aw hl part live req purpose free
  subst hl
  obtain ⟨acts, hd⟩ := acting_of_mem part
  have open_ : q.purpose.isClose = false := by
    simp only [List.mem_cons, List.not_mem_nil, or_false] at purpose
    rcases purpose with (h | h | h | h) | ⟨k, h⟩ | ⟨p, h⟩ | ⟨p, h⟩ | ⟨p, b, h⟩ | ⟨k, x, h⟩ | ⟨k, h⟩ <;> rw [h] <;> rfl
  have jobs := sameJobs_closed s.work n false
  have at_n : (s.work.setLane n (closedLane false (s.work.lane n))).lane n = closedLane false (s.work.lane n) := by
    rw [lane_setLane, if_pos rfl]
  have free' : ((s.work.setLane n (closedLane false (s.work.lane n))).lane n).eng.xfer = none := by rw [at_n]; exact free
  refine ⟨fun cause hc => ?_, fun hc awaiting running used trial un => ?_, fun hc awaiting running left marked stop due => ?_⟩
  · have ends : ∃ o : ExchangeOutcome, exec c s = s.answer (s.laneEvent n (fun env w => w.exchangeEnd env n o))
        ∧ s.work.exchangeEnd s.env n o
          = (s.work.setLane n (closedLane false (s.work.lane n))).finalize s.env n cause none
        ∧ cause ∈ [.linkLost, .targetStuck, .noTarget] := by
      rcases hc with ⟨rfl, rfl, hold⟩ | ⟨rfl, trial, used, hc⟩
      · refine ⟨.busyLimit, exec_busyLimit hd hold, ?_, by simp⟩
        rw [exchangeEnd_request acts req open_]
        exact fail_eq free' _ .targetStuck none
      · refine ⟨.exhausted, ?_, ?_, by simp⟩
        · rcases hc with ⟨f, holds, rfl, listens⟩ | ⟨rfl, awaiting, running⟩
          · exact exec_framingExhausted listens req used holds
          · exact exec_timeoutEnds awaiting running (attemptFails_exhausted _ _ used)
        · rw [exchangeEnd_request acts req open_, trial]
          exact fail_eq free' _ .linkLost none
    obtain ⟨o, e, ended, toFault⟩ := ends
    obtain ⟨t, e', y, -⟩ := laneEvent_yields aw hd (fun env w => w.exchangeEnd env n o) (n := n)
    rw [ended] at y
    have fault := (finalize_faults (r := cause) (by rw [jobs.isLive n, live]) toFault s.env none).body
    rw [← y.lane n, lane_modLane, if_pos rfl, at_n] at fault
    refine ⟨t, e.trans e', congrArg (·.ctx.state) fault, congrArg (·.ctx.faultCause) fault, congrArg (·.ctx.session) fault,
      congrArg (·.ctx.answered) fault, congrArg (·.ctx.seq) fault, congrArg (·.link.state) fault,
      congrArg (·.link.req) fault, congrArg (·.lines) fault, congrArg (·.supply) fault, fun m hm => ?_,
      by rw [y.isLive, finalize_notLive], y.taken (taken_via jobs _ _ _)⟩
    rw [y.lane m]
    exact ((others_modLane (fun _ => closedLane false (s.work.lane n))).trans (finalize_others _ _ _)).pins hm
  · subst hc
    have ended : s.work.exchangeEnd s.env n .exhausted
        = (s.work.setLane n (closedLane false (s.work.lane n))).beginFallback s.env n q := by
      rw [exchangeEnd_request acts req open_, trial]
      exact goOn_unstopped (w := s.work.setLane n (closedLane false (s.work.lane n))) (by rw [at_n]; exact un) s.env
        fun v => v.beginFallback s.env n q
    have fallback : SameJobs s.work (s.work.exchangeEnd s.env n .exhausted) := by
      rw [ended]
      unfold Work.beginFallback
      exact (jobs.trans (sameJobs_modLane rfl)).trans (sameJobs_setStep _ _ _)
    rw [exec_timeoutEnds awaiting running (attemptFails_exhausted _ _ used)]
    refine ⟨_, laneEvent_sameJobs aw (.inl hd) fallback, ?_, fun m hm => ?_, ?_⟩
    · simp only [refreshIrq_work, ended]
      unfold Work.beginFallback
      dsimp only
      rw [lane_setStep, if_pos rfl, lane_modLane, if_pos rfl, at_n]
      rfl
    · simp only [refreshIrq_work, ended]
      unfold Work.beginFallback
      dsimp only
      rw [lane_setStep, if_neg hm, lane_modLane, if_neg hm, lane_setLane, if_neg hm]
    · rw [refreshIrq_work, fallback.isLive n, live]
  · subst hc
    have ended : s.work.exchangeEnd s.env n .stopped
        = (s.work.setLane n (closedLane false (s.work.lane n))).finalize s.env n .cancelled none := by
      rw [exchangeEnd_request acts req open_]
      show Work.goOn (s.work.setLane n (closedLane false (s.work.lane n))) s.env n id = _
      unfold Work.goOn Lane.stopResult Lane.atBoundary
      rw [at_n, show (closedLane false (s.work.lane n)).eng = (s.work.lane n).eng from rfl, due, stop, free]
      rfl
    obtain ⟨t, e, y, -⟩ := laneEvent_yields aw hd (fun env w => w.exchangeEnd env n .stopped) (n := n)
    rw [ended] at y
    have quiet : Unanswered ((s.work.lane n).ctx.seq + 1) (t.work.lane n) := by
      rw [y.lane n]
      exact (settled_unanswered _).finalize (by rw [at_n]; exact ⟨rfl, rfl, rfl, rfl⟩) s.env .cancelled none
    refine ⟨t, (exec_timeoutEnds awaiting running (attemptFails_stopped _ _ left marked)).trans e,
      by rw [y.isLive, finalize_notLive], y.taken (taken_via jobs _ _ _), quiet.answered, quiet.seq,
      by rw [quiet.link]; rfl, quiet.tdat, fun m hm => ?_⟩
    rw [y.lane m]
    exact ((others_modLane (fun _ => closedLane false (s.work.lane n))).trans (finalize_others _ _ _)).pins hm

end Sys2Proof.Proofs
end

section
/-! Accepted replies, and those that decide a lane: O38, O40. -/

namespace Sys2Proof.Proofs

-- One theorem at a time: a thread for each would ask for more stack than the check allows.
set_option Elab.async false

open Sys2Proof.Machine Sys2Proof.Laws

variable {s t u : State} {v w w' : Work} {env : Env} {n m : LaneId} {i : SlotId} {j : JobSlot} {l : Lane} {r : LaneResult}
  {q : Request} {o : ExchangeOutcome} {status : Byte} {p : List Byte}

/-! ## A frame that R56 accepts -/

/-- The tables in which the exchange of lane `n` is over. -/
def closedWork (w : Work) (n : LaneId) (a : Bool) : Work := w.setLane n (closedLane a (w.lane n))

theorem lane_closedWork (a : Bool) : (closedWork w n a).lane m = if m = n then closedLane a (w.lane n) else w.lane m :=
  lane_setLane _ _ _ _

theorem at_closedWork (a : Bool) : (closedWork w n a).lane n = closedLane a (w.lane n) :=
  (lane_closedWork a).trans (if_pos rfl)

theorem sameJobs_closedWork (w : Work) (n : LaneId) (a : Bool) : SameJobs w (closedWork w n a) := sameJobs_closed w n a

theorem others_closedWork (w : Work) (n : LaneId) (a : Bool) : Others n w (closedWork w n a) :=
  others_modLane (fun _ => closedLane a (w.lane n))

/-- The lane with its frame complete. -/
def framed (w : Work) (n : LaneId) (frame : List Byte) : Work :=
  w.setLane n { w.lane n with link := { (w.lane n).link with busyStart := none, replyArea := frame } }

/-- A frame that R56 accepts ends the exchange. -/
theorem exec_accepted (listens : (s.work.lane n).Listens) (req : (s.work.lane n).link.req = some q) (short : p.length ≤ 264)
    (good : status ≠ statusBadFrame) {frame : List Byte}
    (hf : frame = replyFrame (q.kind + 0x80#8) (s.work.lane n).link.seq status p) :
    exec (.replyFrameComplete n frame) s
      = s.answer (s.laneEvent n (fun env w => (framed w n frame).exchangeEnd env n (.accepted status p))) := by
  obtain ⟨complete, fields⟩ := replyOf_replyWith (kind := q.kind + 0x80#8) (seq := (s.work.lane n).link.seq)
    (status := status) (check := replyCheck (q.kind + 0x80#8) (s.work.lane n).link.seq status p) short
  replace hf : frame = replyWith (q.kind + 0x80#8) (s.work.lane n).link.seq status p
    (replyCheck (q.kind + 0x80#8) (s.work.lane n).link.seq status p) := hf
  rw [← hf] at complete fields
  rw [exec_replyFrame listens]
  refine congrArg s.answer (laneEvent_congr ?_)
  show s.work.linkStep s.env n ((s.work.lane n).judge s.env frame) = _
  unfold Lane.judge
  simp only [complete, fields, Bool.not_true, Bool.false_eq_true, if_false, ne_eq, not_true, Lane.kindOut, req, if_neg good]
  rw [framed, ← req]
  rfl

theorem exchangeEnd_framed (acts : env.acting = true) (req : (w.lane n).link.req = some q) (open_ : q.purpose.isClose = false)
    (frame : List Byte) : (framed w n frame).exchangeEnd env n (.accepted status p)
      = (closedWork w n true).replyTaken env n q frame status p := by
  have at_n : (framed w n frame).lane n
      = { w.lane n with link := { (w.lane n).link with busyStart := none, replyArea := frame } } := by
    rw [framed, lane_setLane, if_pos rfl]
  rw [exchangeEnd_request acts (by rw [at_n]; exact req) open_, at_n, framed, setLane_setLane]
  rfl

/-- The reply to a request of linking or of a step, taken (R62). -/
theorem reply_yields (aw : s.Awake) (part : s.part.state ∈ [.loading, .running, .quiescing, .quiesced])
    (listens : (s.work.lane n).Listens) (req : (s.work.lane n).link.req = some q) (open_ : q.purpose.isClose = false)
    (short : p.length ≤ 264) (good : status ≠ statusBadFrame) {frame : List Byte}
    (hf : frame = replyFrame (q.kind + 0x80#8) (s.work.lane n).link.seq status p) :
    ∃ t, exec (.replyFrameComplete n frame) s = .next t
      ∧ Yields ((closedWork s.work n true).replyTaken s.env n q frame status p) t
      ∧ (SameJobs s.work ((closedWork s.work n true).replyTaken s.env n q frame status p) →
          t = State.refreshIrq { s with work := (closedWork s.work n true).replyTaken s.env n q frame status p }) := by
  obtain ⟨acts, hd⟩ := acting_of_mem part
  have ended := exchangeEnd_framed acts req open_ frame (status := status) (p := p)
  obtain ⟨t, e, y, -⟩ := laneEvent_yields aw hd
    (fun env w => (framed w n frame).exchangeEnd env n (.accepted status p)) (n := n)
  refine ⟨t, (exec_accepted listens req short good hf).trans e, ended ▸ y, fun same => ?_⟩
  have e' := laneEvent_sameJobs (f := fun env w => (framed w n frame).exchangeEnd env n (.accepted status p)) aw (.inl hd)
    (n := n) (by rw [ended]; exact same)
  rw [ended] at e'
  exact Host.Outcome.next.inj (e.symm.trans e')

/-- A success: status OK and the length that the request asks for. -/
theorem replyTaken_ok (frame : List Byte) (step : q.purpose ≠ .entry) (linking : q.purpose ≠ .openSession)
    (len : p.length = q.replyLength) : w.replyTaken env n q frame 0 p = w.replySuccess env n q p := by
  unfold Work.replyTaken
  rw [if_neg step, if_neg (by decide)]
  dsimp only
  rw [if_neg linking, if_neg (by simp [len])]

/-- Status OK with another length. -/
theorem replyTaken_length (frame : List Byte) (step : q.purpose ≠ .entry) (linking : q.purpose ≠ .openSession)
    (len : p.length ≠ q.replyLength) : w.replyTaken env n q frame 0 p = w.failRefused env n statusOk q.kind .length := by
  unfold Work.replyTaken
  rw [if_neg step, if_neg (by decide)]
  dsimp only
  rw [if_neg linking, if_pos len]

/-! ## A result with its fault address (R114) -/

theorem jobOf_slot (a : (w.lane n).ctx.slot = some i) (b : w.slot i = some j) : w.jobOf n = some j := by
  rw [Work.jobOf, a]
  exact b

/-- No rule of its own forms the fault address: it is a session job's, and the EXCHANGE step is not under way. -/
def Plain (j : JobSlot) (l : Lane) : Prop :=
  j.args.endAction?.isSome = true ∧ ∀ fresh e block key es, j.args = .exchange fresh e block key es → l.ctx.step ≠ .exchange

theorem faultAddrFor_plain (h : Plain j l) (hr : r ≠ .laneFaulted) (fa : Option Word) : j.faultAddrFor l r fa = fa := by
  obtain ⟨session, step⟩ := h
  unfold JobSlot.faultAddrFor
  cases h : j.args with
  | laneSet | laneAction => rw [h] at session; cases session
  | exchange fresh e block key es => simp [hr, step fresh e block key es h]
  | _ => simp [hr]

theorem finalize_at (job : w.jobOf n = some j) (plain : Plain j (w.lane n)) (hr : r ≠ .laneFaulted) (env : Env)
    (fa : Option Word) : w.ResultTakenAt (w.finalize env n r fa) n r fa := by
  refine finalize_copied env r fa fun i k a b => ?_
  have : k = j := Option.some.inj ((jobOf_slot a b).symm.trans job)
  subst this
  exact faultAddrFor_plain plain hr fa

/-- The job after what leaves every job as it is but for its last steps. -/
theorem job_after (h : SameJobs w w') (job : w.jobOf n = some j) : ∃ j', w'.jobOf n = some j' ∧ j'.args = j.args
    ∧ j'.ctx = j.ctx ∧ j'.live = j.live ∧ j'.mask = j.mask := by
  obtain ⟨steps, e⟩ := h.jobOf n
  rw [job] at e
  exact ⟨_, e, rfl, rfl, rfl, rfl⟩

/-- A failure of a lane without a host transfer in flight, as the event answers it. -/
theorem failed_at (same : SameJobs s.work w) (job : s.work.jobOf n = some j) (plain : Plain j (w.lane n))
    (free : (w.lane n).eng.xfer = none) {fa : Option Word} (hr : r ≠ .laneFaulted) (y : Yields (w.fail env n r fa) t) :
    t.work.isLive n = false ∧ s.work.ResultTakenAt t.work n r fa := by
  obtain ⟨j', job', args, -⟩ := job_after same job
  rw [fail_eq free] at y
  exact ⟨by rw [y.isLive, finalize_notLive],
    y.copied (same.copied (finalize_at job' (by unfold Plain; rw [args]; exact plain) hr env fa))⟩

theorem plain_program {steps : StepSet} {fresh clearAll : Bool} {e : EndAction} {level : Nat} {ptr key : HostAddr}
    (args : j.args = .program steps fresh clearAll e level ptr key) (l : Lane) : Plain j l :=
  ⟨by rw [args]; rfl, fun _ _ _ _ _ h => by rw [args] at h; cases h⟩

/-! ## The reply to OPEN (R30, R64, R65) -/

/-- The session is open. -/
def opened (l : Lane) : Lane := { l with ctx := { l.ctx with session := true } }

theorem replyTaken_opens (frame : List Byte) (purpose : q.purpose = .openSession) (un : (w.lane n).Unstopped) :
    w.replyTaken env n q frame 0 [] = (w.modLane n opened).request n (w.lane n).queryRequest := by
  have there : (w.modLane n opened).lane n = opened (w.lane n) := by rw [lane_modLane, if_pos rfl]
  have next : (w.modLane n opened).replySuccess env n q [] = (w.modLane n opened).request n (w.lane n).queryRequest := by
    unfold Work.replySuccess
    rw [purpose]
    dsimp only
    rw [goOn_unstopped (by rw [there]; exact un), there]
    rfl
  rw [← next]
  unfold Work.replyTaken
  rw [if_neg (by simp [purpose]), if_neg (by decide), if_pos purpose, if_neg (by simp [Request.replyLength, purpose])]
  rfl

/-- Settles O38: a session and QUERY, KEY_REJECTED, or TARGET_REFUSED. -/
theorem openReplyIsTaken : Obligations.OpenReplyIsTaken := by
  intro s n l q status p aw hl part live ⟨j, job, session⟩ state step listens req purpose kind free un short
  subst hl
  by_cases bad : status = statusBadFrame
  · obtain ⟨t, e, -⟩ := exec_next s (.replyFrameComplete n (replyFrame 0x81#8 (s.work.lane n).link.seq status p))
    exact ⟨t, e, fun h => absurd (h.symm.trans bad) (by decide), fun h => absurd (h.symm.trans bad) (by decide),
      fun h => absurd bad (by simp_all [statusBadFrame])⟩
  obtain ⟨t, e, y, exact_⟩ := reply_yields aw part listens req (by rw [purpose]; rfl) short bad
    (frame := replyFrame 0x81#8 (s.work.lane n).link.seq status p) (by rw [kind]; rfl)
  have same := sameJobs_closedWork s.work n true
  have at_n := at_closedWork (w := s.work) (n := n) true
  refine ⟨t, e, fun ok empty ride => ?_, fun wrong => ?_, fun other => ?_⟩
  · subst ok empty
    have taken := replyTaken_opens (w := closedWork s.work n true) (env := s.env)
      (replyFrame 0x81#8 (s.work.lane n).link.seq 0 []) purpose (by rw [at_n]; exact un)
    have there : ((closedWork s.work n true).modLane n opened).lane n = opened (closedLane true (s.work.lane n)) := by
      rw [lane_modLane, if_pos rfl, at_n]
    have ride' : (((closedWork s.work n true).modLane n opened).lane n).supply.state ≠ .riding := by rw [there]; exact ride
    rw [taken] at y exact_
    have t_eq := exact_ ((same.trans (sameJobs_modLane rfl)).trans (sameJobs_request _ _ _))
    have frame := frameOut_request ride' ((closedWork s.work n true).lane n).queryRequest
    rw [← y.frameOut n, there] at frame
    have begun : t = (s.withLane n ((opened (closedLane true (s.work.lane n))).beginRequest []
        (s.work.lane n).queryRequest)).refreshIrq := by
      rw [t_eq, request_begins ride', there, at_n, Work.modLane, setLane_setLane, closedWork, setLane_setLane]
      rfl
    have link : (t.work.lane n).link = ((opened (closedLane true (s.work.lane n))).beginRequest []
        (s.work.lane n).queryRequest).link := by
      rw [begun, refreshIrq_work, State.withLane, lane_setLane, if_pos rfl]
    refine ⟨begun.trans ?_, by rw [link]; rfl, by rw [link]; rfl, by rw [link]; rfl, by rw [link]; rfl, by rw [link]; rfl,
      frame.trans (by rw [at_n]; rfl)⟩
    rw [link]
    unfold opened Lane.beginRequest closedLane
    simp only [state]
    rfl
  · subst wrong
    have taken : (closedWork s.work n true).replyTaken s.env n q (replyFrame 0x81#8 (s.work.lane n).link.seq 4 p) 4 p
        = (closedWork s.work n true).fail s.env n .keyRejected none := by
      unfold Work.replyTaken Work.refusedStatus
      rw [if_neg (by simp [purpose]), if_pos (by decide), if_pos ⟨purpose, rfl⟩]
    rw [taken] at y
    exact failed_at same job ⟨session, fun _ _ _ _ _ _ => by rw [at_n]; simp [closedLane, step]⟩ (by rw [at_n]; exact free) (by simp) y
  · simp only [List.mem_cons, List.not_mem_nil, or_false, not_or] at other
    obtain ⟨h0, h1, h4⟩ := other
    have taken : (closedWork s.work n true).replyTaken s.env n q (replyFrame 0x81#8 (s.work.lane n).link.seq status p) status p
        = (closedWork s.work n true).fail s.env n .targetRefused (some (causeWord status q.kind .status)) := by
      unfold Work.replyTaken Work.refusedStatus
      rw [if_neg (by simp [purpose]), if_pos (show status ≠ statusOk from h0), if_neg (fun h => h4 h.2)]
      rfl
    rw [taken] at y
    have word : causeWord status q.kind .status = BitVec.ofNat 32 (status.toNat + 256) := by
      rw [kind]
      rfl
    rw [← word]
    exact failed_at same job ⟨session, fun _ _ _ _ _ _ => by rw [at_n]; simp [closedLane, step]⟩ (by rw [at_n]; exact free) (by simp) y

/-! ## Page buffers (R86, R89) -/

theorem buf_freeBuf (b b' : BufId) : (w.freeBuf b).buf b' = if b' = b then .free else w.buf b' := by
  unfold Work.freeBuf
  dsimp only
  split
  · exact buf_setBuf ..
  · rw [buf_modCtx, buf_setBuf]

theorem ctx_freeBuf (b : BufId) (c : CtxId) :
    ∃ k f, (w.freeBuf b).ctx c = { w.ctx c with sharedHeld := k, fetch := f } := by
  unfold Work.freeBuf
  dsimp only
  split
  · exact ⟨_, _, rfl⟩
  · rw [ctx_modCtx]
    split
    · next h =>
      subst h
      exact ⟨_, _, rfl⟩
    · exact ⟨_, _, rfl⟩

theorem buf_releaseBuf (b b' : BufId) : (w.releaseBuf b).buf b' = if b' = b then
    (if (w.buf b).count ≤ 1 then .free else { w.buf b with count := (w.buf b).count - 1 }) else w.buf b' := by
  unfold Work.releaseBuf
  dsimp only
  split
  · exact buf_freeBuf b b'
  · exact buf_setBuf ..

theorem ctx_releaseBuf (b : BufId) (c : CtxId) :
    ∃ k f, (w.releaseBuf b).ctx c = { w.ctx c with sharedHeld := k, fetch := f } := by
  unfold Work.releaseBuf
  dsimp only
  split
  · exact ctx_freeBuf b c
  · exact ⟨_, _, rfl⟩

theorem mem_bufsOf {c : CtxId} {b : BufId} :
    b ∈ w.bufsOf c ↔ (w.buf b).owner = some c ∧ (w.buf b).state ≠ .free := by
  unfold Work.bufsOf Work.bufFree
  rw [List.mem_filter]
  simp [mem_allBufs]

theorem heldPage_some {c : CtxId} {b : BufId} {page : Nat} (held : (w.buf b).state = .held) (owner : (w.buf b).owner = some c)
    (at_ : (w.buf b).page = page) (only : ∀ b', b' ≠ b → (w.buf b').owner = some c → (w.buf b').page ≠ page) :
    w.heldPage c page = some b := by
  unfold Work.heldPage
  cases found : (w.bufsOf c).find? (fun b => (w.buf b).state = .held && (w.buf b).page = page) with
  | none =>
    have := List.find?_eq_none.mp found b (mem_bufsOf.mpr ⟨owner, by simp [held]⟩)
    simp [held, at_] at this
  | some b' =>
    have there := List.find?_some found
    have owned := (mem_bufsOf.mp (List.mem_of_find?_eq_some found)).1
    by_cases same : b' = b
    · rw [same]
    · have page' := only b' same owned
      simp [page'] at there

theorem heldPage_none {c : CtxId} {page : Nat}
    (no : ∀ b, (w.buf b).state = .held → (w.buf b).owner = some c → (w.buf b).page ≠ page) : w.heldPage c page = none := by
  unfold Work.heldPage
  rw [List.find?_eq_none]
  intro b hb
  have owned := (mem_bufsOf.mp hb).1
  have other := no b
  simp_all

theorem pageReady_at {c : CtxId} {page : Nat} (h : (w.ctx c).pageAt (w.lane n).ctx.cursor = some page) :
    w.pageReady c n = (w.heldPage c page).map (fun b => (page, b)) := by
  rw [Work.pageReady, h]

theorem firstDiff_at {xs ys : List Byte} {off : Nat} (hx : off < xs.length) (hy : off < ys.length)
    (differ : byteAt xs off ≠ byteAt ys off) (same : ∀ k, k < off → byteAt xs k = byteAt ys k) :
    firstDiff xs ys = some off := by
  induction off generalizing xs ys with
  | zero =>
    cases xs with
    | nil => simp at hx
    | cons x xs =>
      cases ys with
      | nil => simp at hy
      | cons y ys =>
        have : x ≠ y := differ
        simp [firstDiff, this]
  | succ off ih =>
    cases xs with
    | nil => simp at hx
    | cons x xs =>
      cases ys with
      | nil => simp at hy
      | cons y ys =>
        have : x = y := same 0 (by omega)
        have tail := ih (xs := xs) (ys := ys) (by simpa using hx) (by simpa using hy) differ
          (fun k hk => same (k + 1) (by omega))
        simp [firstDiff, this, tail]

theorem lane_consumePage (c : CtxId) : (w.consumePage c n).lane m = if m = n then
    { w.lane n with ctx := { (w.lane n).ctx with cursor := (w.ctx c).advance (w.lane n).ctx.cursor } } else w.lane m := by
  unfold Work.consumePage
  dsimp only
  rw [lane_modLane]
  split
  · split <;> simp [lane_releaseBuf]
  · split <;> simp [lane_releaseBuf]

/-! ## The replies that decide a PROGRAM lane (R62, R74, R110, R112, R113) -/

theorem laneCtx_of_job {c : CtxId} (job : w.jobOf n = some j) (ctx : j.ctx = some c) : w.laneCtx n = some c := by
  rw [Work.laneCtx, job]
  exact ctx

/-- The lane caches the level that GUARD sent (R74). -/
def guarded (level : Nat) (l : Lane) : Lane :=
  { l with ctx := { l.ctx with desc := l.ctx.desc.map (fun d => { d with protection := BitVec.ofNat 8 level }) } }

theorem lane_guarded (level : Nat) : (w.modLane n (guarded level)).lane n = guarded level (w.lane n) := by
  rw [lane_modLane, if_pos rfl]

theorem replySuccess_guard {k level : Nat} {steps : StepSet} {fresh clearAll : Bool} {e : EndAction} {ptr key : HostAddr}
    (purpose : q.purpose = .guard k)
    (args : (w.jobOf n).map JobSlot.args = some (.program steps fresh clearAll e level ptr key)) (env : Env) :
    w.replySuccess env n q [] = (w.modLane n (guarded k)).finalize env n .done none := by
  unfold Work.replySuccess
  rw [purpose, args]
  rfl

/-- After GUARD the lane is DONE, and its end action begins. -/
theorem guarded_ends {level k : Nat} {steps : StepSet} {fresh clearAll : Bool} {e : EndAction} {ptr key : HostAddr}
    (live : w.isLive n = true) (args : (w.jobOf n).map JobSlot.args = some (.program steps fresh clearAll e level ptr key))
    (env : Env) : ∃ v : Work, Final (guarded k (w.lane n)) (v.lane n)
      ∧ (w.modLane n (guarded k)).finalize env n .done none = v.startEnd env n e := by
  have same : SameJobs w (w.modLane n (guarded k)) := sameJobs_modLane rfl
  obtain ⟨j, job, args⟩ := Option.map_eq_some_iff.mp args
  obtain ⟨j', job', args', -⟩ := job_after same job
  obtain ⟨v, final, -, ended⟩ := finalize_ends (w := w.modLane n (guarded k)) (n := n) (r := .done) (e := e)
    (by rw [same.isLive n, live]) (by rw [job', Option.bind_some, args', args]; rfl) env none
  rw [lane_guarded] at final
  exact ⟨v, final, ended⟩

/-- The length field of a READ. -/
theorem readLength (page : Nat) {size : Nat} (h : size < 2 ^ 16) : fieldAt (leBytes 4 page ++ leBytes 2 size) 4 2 = size := by
  have four : (leBytes 4 page).length = 4 := rfl
  rw [fieldAt_append_right four.le, four]
  exact fieldAt_leBytes h

/-- Settles O40: SUM_MISMATCH, COMPARE_MISMATCH, DONE and TARGET_REFUSED. -/
theorem programRepliesDecideTheLane : Obligations.ProgramRepliesDecideTheLane := by
  intro s n l q j c steps fresh clearAll e level ptr key p aw hl part live job args ctx state listens req free short
  subst hl
  obtain ⟨t, exec_t, -⟩ := exec_next s (.replyFrameComplete n (replyFrame (q.kind + 0x80#8) (s.work.lane n).link.seq 0 p))
  have same := sameJobs_closedWork s.work n true
  have at_n := at_closedWork (w := s.work) (n := n) true
  have session : j.args.endAction?.isSome = true := by rw [args]; rfl
  obtain ⟨j', job', args', ctx', -⟩ := job_after same job
  have args_v : ((closedWork s.work n true).jobOf n).map JobSlot.args = some (.program steps fresh clearAll e level ptr key) := by
    rw [job', Option.map_some, args', args]
  have ctx_v : (closedWork s.work n true).laneCtx n = some c := laneCtx_of_job job' (ctx'.trans ctx)
  -- every reply here is taken in the tables in which the exchange is over
  have replied : q.purpose.isClose = false → Yields ((closedWork s.work n true).replyTaken s.env n q
      (replyFrame (q.kind + 0x80#8) (s.work.lane n).link.seq 0 p) 0 p) t := fun open_ => by
    obtain ⟨t', e', y, -⟩ := reply_yields (status := 0) aw part listens req open_ short (by decide) rfl
    rw [exec_t] at e'
    cases e'
    exact y
  refine ⟨t, exec_t, fun k v g purpose seg len differs => ?_, ?_, fun k d purpose empty desc => ?_, fun page purpose kind full => ?_⟩
  · have y := replied (by rw [purpose]; rfl)
    rw [replyTaken_ok _ (by simp [purpose]) (by simp [purpose]) (by simp [Request.replyLength, purpose, len])] at y
    have taken : (closedWork s.work n true).replySuccess s.env n q p
        = (closedWork s.work n true).fail s.env n .sumMismatch (some g.addr) := by
      unfold Work.replySuccess
      rw [purpose, args_v]
      dsimp only
      unfold Work.sumReply Work.laneSegs
      rw [if_neg differs, ctx_v]
      dsimp only
      rw [show (closedWork s.work n true).ctx c = s.work.ctx c from rfl, seg]
      rfl
    rw [taken] at y
    exact failed_at same job (plain_program args _) (by rw [at_n]; exact free) (by simp) y
  · intro page b size off purpose source hpage hsize len sized cursor held owner at_ only enough inside differ before
    have y := replied (by rw [purpose]; rfl)
    rw [replyTaken_ok _ (by simp [purpose]) (by simp [purpose]) (by
      simp only [Request.replyLength, purpose, source, len]
      exact (readLength page hsize).symm)] at y
    have ready : (closedWork s.work n true).pageReady c n = some (page, b) := by
      rw [pageReady_at (page := page) (by rw [at_n]; exact congrArg (ImageCtx.pageAt _) cursor),
        heldPage_some (w := closedWork s.work n true) held owner at_ only]
      rfl
    have differs : (closedWork s.work n true).compare n c p = some off := by
      unfold Work.compare
      rw [ready]
      show firstDiff ((s.work.buf b).data.take (s.work.ctx c).size) p = some off
      have bound : (s.work.ctx c).size = size := sized.symm
      have taken : ∀ k, k < size → byteAt ((s.work.buf b).data.take size) k = byteAt (s.work.buf b).data k := fun k hk => by
        simp [byteAt, hk]
      rw [bound]
      refine firstDiff_at (by simp; omega) (by omega) ?_ fun k hk => ?_
      · rw [taken off inside]
        exact differ
      · rw [taken k (by omega)]
        exact before k hk
    have taken : (closedWork s.work n true).replySuccess s.env n q p = ((closedWork s.work n true).consumePage c n).fail
        s.env n .compareMismatch (some (BitVec.ofNat 32 (page + off))) := by
      unfold Work.replySuccess
      rw [purpose, args_v]
      dsimp only
      rw [ctx_v]
      unfold Work.checkReply
      dsimp only
      rw [differs]
    rw [taken] at y
    exact failed_at (same.trans (sameJobs_consumePage _ c n)) job (plain_program args _)
      (by rw [lane_consumePage, if_pos rfl, at_n]; exact free) (by simp) y
  · subst empty
    have y := replied (by rw [purpose]; rfl)
    rw [replyTaken_ok _ (by simp [purpose]) (by simp [purpose]) (by simp [Request.replyLength, purpose])] at y
    rw [replySuccess_guard purpose args_v] at y
    have same' := same.trans (sameJobs_modLane (w := closedWork s.work n true) (n := n) (f := guarded k) rfl)
    refine ⟨by rw [y.isLive, finalize_notLive], y.taken (taken_via same' _ _ _), fun he => ?_⟩
    subst he
    obtain ⟨v, final, ended⟩ := guarded_ends (k := k) (w := closedWork s.work n true) (by rw [same.isLive n, live]) args_v s.env
    have kept := final.body
    rw [at_n] at kept
    rw [y.lane n, ended, startEnd_keep (by
      have : (v.lane n).ctx.state = .ready := (congrArg (·.ctx.state) kept).trans (if_pos state)
      simp [this])]
    refine (congrArg (·.ctx.desc) ((leave_body v s.env n).trans kept)).trans ?_
    show (s.work.lane n).ctx.desc.map _ = _
    rw [desc]
    rfl
  · have y := replied (by rw [purpose]; rfl)
    have len : p.length ≠ q.replyLength := by simpa [Request.replyLength, purpose] using full
    rw [replyTaken_length _ (by simp [purpose]) (by simp [purpose]) len] at y
    have word : causeWord statusOk q.kind .length = 0x00010500#32 := by rw [kind]; rfl
    rw [Work.failRefused, word] at y
    exact failed_at same job (plain_program args _) (by rw [at_n]; exact free) (by simp) y

end Sys2Proof.Proofs
end

section
/-! End actions and the ends of CLOSE: O27. -/

namespace Sys2Proof.Proofs

-- One theorem at a time: a thread for each would ask for more stack than the check allows.
set_option Elab.async false

open Sys2Proof.Machine Sys2Proof.Laws

variable {s t u : State} {v w w' : Work} {env : Env} {n m : LaneId} {i : SlotId} {j : JobSlot} {l : Lane} {r : LaneResult}
  {q : Request} {o : ExchangeOutcome} {a : Bool} {k : Byte}

/-! ## The lane after its CLOSE (R34, R75) -/

/-- A lane whose CLOSE is over: no session is left, and its Link Unit is at rest. -/
structure Over (a : Bool) (k : Byte) (l : Lane) : Prop where
  link : l.link = .idle
  tdat : l.lines.tdatDriven = false
  session : l.ctx.session = false
  desc : l.ctx.desc = none
  rate : l.ctx.rate = 0
  answered : l.ctx.answered = a
  seq : l.ctx.seq = k

/-- TRST is low as well. -/
structure Closed (a : Bool) (k : Byte) (l : Lane) : Prop extends Over a k l where
  trst : l.lines.trstLow = true

theorem over_closedLane (a : Bool) (l : Lane) : Over a (l.ctx.seq + 1) (closedLane a l).endSession :=
  ⟨rfl, rfl, rfl, rfl, rfl, rfl, rfl⟩

namespace Over

theorem hold (h : Over a k l) : Closed a k l.toHold := ⟨⟨h.link, h.tdat, rfl, rfl, rfl, h.answered, h.seq⟩, rfl⟩

theorem off (h : Over a k l) : Closed a k l.toOff := ⟨⟨h.link, h.tdat, rfl, rfl, rfl, h.answered, h.seq⟩, rfl⟩

theorem pulse (h : Over a k l) (env : Env) : Closed a k (l.startPulse env) :=
  ⟨⟨h.link, h.tdat, rfl, rfl, rfl, h.answered, h.seq⟩, rfl⟩

theorem fault (h : Over a k l) (r : LaneResult) : Closed a k (l.enterFault r) :=
  ⟨⟨h.link, h.tdat, rfl, rfl, rfl, h.answered, h.seq⟩, rfl⟩

theorem ofBody {l' : Lane} (h : Over a k l) (b : body l' = body l) : Over a k l' :=
  ⟨(congrArg (·.link) b).trans h.link, (congrArg (·.lines.tdatDriven) b).trans h.tdat,
    (congrArg (·.ctx.session) b).trans h.session, (congrArg (·.ctx.desc) b).trans h.desc,
    (congrArg (·.ctx.rate) b).trans h.rate, (congrArg (·.ctx.answered) b).trans h.answered,
    (congrArg (·.ctx.seq) b).trans h.seq⟩

end Over

theorem closed_ofBody {l' : Lane} (h : Closed a k l) (b : body l' = body l) : Closed a k l' :=
  ⟨h.toOver.ofBody b, (congrArg (·.lines.trstLow) b).trans h.trst⟩

theorem settled_closed (a : Bool) (k : Byte) : Settled (Closed a k) where
  body b h := closed_ofBody h b
  closed h := .inl (.inl h.session)
  fault h r := h.fault r
  hold h := h.hold
  off h := h.off
  pulse h env := h.pulse env

/-- A lane that leaves through `f`. -/
theorem left_through {f : Lane → Lane} (slot : (f (w.lane n)).ctx.slot.isSome = true) (env : Env) :
    body (((w.modLane n f).leave env n).lane n) = body (f (w.lane n)) ∧ (((w.modLane n f).leave env n).lane n).ctx.slot = none
      ∧ ((w.modLane n f).leave env n).ownerOf n = none := by
  have there : (w.modLane n f).lane n = f (w.lane n) := by rw [lane_modLane, if_pos rfl]
  have left := leave_left (w := w.modLane n f) (n := n) (by rw [there]; exact slot) env
  exact ⟨left.body.trans (by rw [there]), left.slot, left.owner⟩

/-- What the end of an exchange with a CLOSE comes to is the same whatever its timers and its reply. -/
theorem exchangeEnd_framedClose (acts : env.acting = true) (req : (w.lane n).link.req = some q)
    (close : q.purpose.isClose = true) (frame : List Byte) :
    (framed w n frame).exchangeEnd env n o = w.exchangeEnd env n o := by
  have at_n : (framed w n frame).lane n
      = { w.lane n with link := { (w.lane n).link with busyStart := none, replyArea := frame } } := by
    rw [framed, lane_setLane, if_pos rfl]
  have same : (framed w n frame).setLane n (closedLane o.answered ((framed w n frame).lane n)).endSession
      = w.setLane n (closedLane o.answered (w.lane n)).endSession := by
    rw [at_n, framed, setLane_setLane]
    rfl
  obtain ⟨endA, endB, endC⟩ := exchangeEnd_close (w := w) (o := o) acts req
  obtain ⟨framedA, framedB, framedC⟩ := exchangeEnd_close (w := framed w n frame) (o := o) acts (by rw [at_n]; exact req)
  rw [same] at framedA framedB framedC
  cases hp : q.purpose <;> rw [hp] at close <;> try cases close
  · rw [endC hp, framedC hp]
  · rw [endA _ hp, framedA _ hp]
  · rw [endB _ hp, framedB _ hp]

/-- How a CLOSE ended: by a reply of any status, or by a failure of its exchange. -/
def Ending (o : ExchangeOutcome) (failure : Option LaneResult) : Prop :=
  (failure = none ∧ ∃ status p, o = .accepted status p)
    ∨ (failure = some .linkLost ∧ o = .exhausted) ∨ (failure = some .targetStuck ∧ o = .busyLimit)

/-- The tables in which a CLOSE has ended. -/
def overWork (w : Work) (n : LaneId) (a : Bool) : Work := w.setLane n (closedLane a (w.lane n)).endSession

theorem at_overWork (a : Bool) : (overWork w n a).lane n = (closedLane a (w.lane n)).endSession :=
  (lane_setLane ..).trans (if_pos rfl)

theorem sameJobs_overWork (w : Work) (n : LaneId) (a : Bool) : SameJobs w (overWork w n a) := sameJobs_setLane rfl

theorem others_overWork (w : Work) (n : LaneId) (a : Bool) : Others n w (overWork w n a) :=
  others_modLane (fun _ => (closedLane a (w.lane n)).endSession)

/-! ## The end of an end-action CLOSE (R38, Table 2-6) -/

theorem closeEndDone_failed {e : EndAction} {failure : Option LaneResult} {cause : LaneResult} (he : e ≠ .off)
    (h : Ending o failure) (failed : failure = some cause) :
    w.closeEndDone env n e o = (w.modLane n (Lane.enterFault cause)).leave env n := by
  subst failed
  rcases h with ⟨h, -⟩ | ⟨h, rfl⟩ | ⟨h, rfl⟩
  · cases h
  · cases h
    cases e <;> first | rfl | exact absurd rfl he
  · cases h
    cases e <;> first | rfl | exact absurd rfl he

theorem closeEndDone_finish {e : EndAction} {failure : Option LaneResult} (h : Ending o failure)
    (he : e = .off ∨ failure = none) : w.closeEndDone env n e o = w.finishEnd env n e := by
  rcases h with ⟨-, status, p, rfl⟩ | ⟨f, rfl⟩ | ⟨f, rfl⟩
  · cases e <;> rfl
  · rcases he with rfl | he
    · rfl
    · rw [f] at he
      cases he
  · rcases he with rfl | he
    · rfl
    · rw [f] at he
      cases he

theorem finishEnd_on (h : (w.lane n).ctx.state ≠ .off) (env : Env) :
    w.finishEnd env n .hold = (w.modLane n Lane.toHold).leave env n
      ∧ w.finishEnd env n .off = (w.modLane n Lane.toOff).leave env n
      ∧ w.finishEnd env n .run = w.modLane n (Lane.startPulse env) := ⟨if_neg h, if_neg h, if_neg h⟩

theorem closed_closeEndDone {e : EndAction} {failure : Option LaneResult} (h : Ending o failure) (he : e ≠ .keep)
    (on : (w.lane n).ctx.state ≠ .off) (over_ : Over a k (w.lane n)) (env : Env) :
    Closed a k ((w.closeEndDone env n e o).lane n) := by
  have rule := settled_closed a k
  by_cases finish : e = .off ∨ failure = none
  · rw [closeEndDone_finish h finish]
    obtain ⟨hold, off, run⟩ := finishEnd_on on env
    cases e with
    | keep => exact absurd rfl he
    | hold => rw [hold]; exact rule.leave (Settled.modLane over_.hold) env
    | off => rw [off]; exact rule.leave (Settled.modLane over_.off) env
    | run => rw [run]; exact Settled.modLane (over_.pulse env)
  · obtain ⟨ne, some_⟩ := not_or.mp finish
    obtain ⟨cause, failed⟩ := Option.ne_none_iff_exists'.mp some_
    rw [closeEndDone_failed ne h failed]
    exact rule.leave (Settled.modLane (over_.fault cause)) env

/-! ## The end of the CLOSE of a LANE-ACTION (R39, Table 7-5) -/

theorem closeActionDone_off : w.closeActionDone env n .powerOff o = w.actionDone env n Lane.toOff := by
  cases o <;> rfl

theorem closeActionDone_failed {b : ActionCode} {failure : Option LaneResult} {cause : LaneResult} (hb : b ≠ .powerOff)
    (h : Ending o failure) (failed : failure = some cause) :
    w.closeActionDone env n b o = w.finalize env n cause none ∧ cause ∈ [.linkLost, .targetStuck, .noTarget] := by
  subst failed
  rcases h with ⟨h, -⟩ | ⟨h, rfl⟩ | ⟨h, rfl⟩
  · cases h
  · cases h
    exact ⟨by cases b <;> first | rfl | exact absurd rfl hb, by simp⟩
  · cases h
    exact ⟨by cases b <;> first | rfl | exact absurd rfl hb, by simp⟩

theorem closeActionDone_run {failure : Option LaneResult} (h : Ending o failure) (good : failure = none) :
    w.closeActionDone env n .run o = if (w.lane n).eng.stop.isSome then (w.modLane n Lane.toHold).finalize env n .cancelled none
      else w.modLane n (Lane.startPulse env) := by
  rcases h with ⟨-, status, p, rfl⟩ | ⟨f, -⟩ | ⟨f, -⟩
  · rfl
  · rw [f] at good
    cases good
  · rw [f] at good
    cases good

theorem closeActionDone_hold {b : ActionCode} {failure : Option LaneResult} (h : Ending o failure) (good : failure = none)
    (off : b ≠ .powerOff) (run : b ≠ .run) : w.closeActionDone env n b o = w.actionDone env n Lane.toHold := by
  rcases h with ⟨-, status, p, rfl⟩ | ⟨f, -⟩ | ⟨f, -⟩
  · cases b <;> first | rfl | exact absurd rfl off | exact absurd rfl run
  · rw [f] at good
    cases good
  · rw [f] at good
    cases good

theorem closed_actionDone {f : Lane → Lane} (h : ∀ st, Closed a k (f { w.lane n with ctx :=
    { (w.lane n).ctx with step := st, stepPos := none } })) (env : Env) : Closed a k ((w.actionDone env n f).lane n) := by
  unfold Work.actionDone
  refine (settled_closed a k).finalize ?_ env .done none
  rw [lane_modLane, if_pos rfl, lane_setStep, if_pos rfl]
  exact h .action

theorem closed_closeActionDone {b : ActionCode} {failure : Option LaneResult} (h : Ending o failure)
    (live : w.isLive n = true) (over_ : Over a k (w.lane n)) (env : Env) : Closed a k ((w.closeActionDone env n b o).lane n) := by
  have rule := settled_closed a k
  have stepped : ∀ st, Over a k { w.lane n with ctx := { (w.lane n).ctx with step := st, stepPos := none } } := fun st =>
    over_.ofBody rfl
  by_cases off : b = .powerOff
  · rw [off, closeActionDone_off]
    exact closed_actionDone (fun st => (stepped st).off) env
  · cases hf : failure with
    | some cause =>
      obtain ⟨e, toFault⟩ := closeActionDone_failed (w := w) (env := env) (n := n) off h hf
      rw [e]
      refine closed_ofBody (over_.fault cause) ((finalize_faults live toFault env none).body.trans ?_)
      rw [lane_modLane, if_pos rfl]
    | none =>
      by_cases run : b = .run
      · rw [run, closeActionDone_run h hf]
        split
        · exact rule.finalize (Settled.modLane over_.hold) env .cancelled none
        · exact Settled.modLane (over_.pulse env)
      · rw [closeActionDone_hold h hf off run]
        exact closed_actionDone (fun st => (stepped st).hold) env

/-! ## The end of the CLOSE of a FRESH job (R33) -/

theorem closed_closeFreshDone (over_ : Over a k (w.lane n)) (env : Env) : Closed a k ((w.closeFreshDone env n).lane n) := by
  have there : (w.modLane n Lane.toHold).lane n = (w.lane n).toHold := by rw [lane_modLane, if_pos rfl]
  have held : Closed a k ((w.modLane n Lane.toHold).lane n) := by rw [there]; exact over_.hold
  unfold Work.closeFreshDone Work.goOn
  split
  · rw [beginEntry_lane, if_pos rfl]
    split
    · exact ⟨⟨held.link, held.tdat, rfl, rfl, rfl, held.answered, held.seq⟩, rfl⟩
    · exact ⟨⟨held.link, held.tdat, rfl, rfl, rfl, held.answered, held.seq⟩, rfl⟩
  · split
    · exact (settled_closed a k).finalize held env _ _
    · exact held

/-! ## The other lanes -/

theorem others_closes (w : Work) (env : Env) (n : LaneId) (o : ExchangeOutcome) :
    (∀ e, Others n w (w.closeEndDone env n e o)) ∧ (∀ b, Others n w (w.closeActionDone env n b o))
      ∧ Others n w (w.closeFreshDone env n) := by
  have done : ∀ f : Lane → Lane, Others n w (w.actionDone env n f) := fun f =>
    ((others_setStep n .action).trans (others_modLane f)).trans (finalize_others _ _ _)
  refine ⟨fun e => ?_, fun b => ?_, ?_⟩
  · unfold Work.closeEndDone
    split
    · exact others_finishEnd env _
    · exact (others_modLane _).trans (others_leave env)
    · exact (others_modLane _).trans (others_leave env)
    · exact others_finishEnd env _
  · unfold Work.closeActionDone
    split
    · exact done _
    · exact finalize_others _ _ _
    · exact finalize_others _ _ _
    · split
      · exact (others_modLane _).trans (finalize_others _ _ _)
      · exact others_modLane _
    · exact done _
  · have begun : ∀ v : Work, Others n v (v.beginEntry env n) := fun v => .of_eq fun m hm => by
      rw [beginEntry_lane, if_neg hm]
    refine (others_modLane Lane.toHold).trans ?_
    unfold Work.closeFreshDone Work.goOn
    split
    · exact begun _
    · split
      · exact finalize_others _ _ _
      · exact .refl

/-! ## The statement -/

/-- DONE at an accepted GUARD: the end action begins. -/
theorem endAction_begins (s : State) (n : LaneId) (l : Lane) (q : Request) (j : JobSlot) (steps : StepSet)
    (fresh clearAll : Bool) (e : EndAction) (level k : Nat) (ptr key : HostAddr) (aw : s.Awake) (hl : l = s.work.lane n)
    (part : s.part.state ∈ [.loading, .running, .quiescing, .quiesced]) (live : s.work.isLive n = true)
    (job : s.work.jobOf n = some j) (args : j.args = .program steps fresh clearAll e level ptr key)
    (state : l.ctx.state = .active) (session : l.ctx.session = true) (listens : l.Listens) (req : l.link.req = some q)
    (purpose : q.purpose = .guard k) (kind : q.kind = 0x08#8) (ride : l.supply.state ≠ .riding) :
    ∃ t, exec (.replyFrameComplete n (replyFrame 0x88#8 l.link.seq 0 [])) s = .next t
      ∧ s.work.ResultTaken t.work n .done ∧ (∀ m, m ≠ n → (s.work.lane m).SamePins (t.work.lane m))
      ∧ (e = .keep → (t.work.lane n).ctx.state = .ready ∧ (t.work.lane n).ctx.slot = none
          ∧ (t.work.lane n).ctx.session = true ∧ (t.work.lane n).ctx.seq = l.ctx.seq + 1
          ∧ (t.work.lane n).ctx.rate = l.ctx.rate ∧ (t.work.lane n).link.state = .idle
          ∧ (t.work.lane n).lines = { l.lines with tdatDriven := false })
      ∧ (e ≠ .keep → (t.work.lane n).ctx.state = .active ∧ (t.work.lane n).ctx.slot = l.ctx.slot
          ∧ (t.work.lane n).ctx.session = true ∧ (t.work.lane n).link.state = .sending
          ∧ (t.work.lane n).link.busyLimit = l.settings.replyLimit
          ∧ t.work.frameOut n = some (requestFrame 0x09#8 (l.ctx.seq + 1) [])) := by
  subst hl
  obtain ⟨t, exec_t, y, -⟩ := reply_yields (status := 0) (p := []) aw part listens req (by rw [purpose]; rfl) (by simp)
    (by decide) (frame := replyFrame 0x88#8 (s.work.lane n).link.seq 0 []) (by rw [kind]; rfl)
  have same := sameJobs_closedWork s.work n true
  obtain ⟨j', job', args', -⟩ := job_after same job
  have args_v : ((closedWork s.work n true).jobOf n).map JobSlot.args = some (.program steps fresh clearAll e level ptr key) := by
    rw [job', Option.map_some, args', args]
  rw [replyTaken_ok _ (by simp [purpose]) (by simp [purpose]) (by simp [Request.replyLength, purpose]),
    replySuccess_guard purpose args_v] at y
  have same' := same.trans (sameJobs_modLane (w := closedWork s.work n true) (n := n) (f := guarded k) rfl)
  obtain ⟨v, final, ended⟩ := guarded_ends (k := k) (w := closedWork s.work n true) (by rw [same.isLive n, live]) args_v s.env
  have kept := final.body
  have slot := final.slot
  rw [at_closedWork] at kept slot
  have ready : (v.lane n).ctx.state = .ready := (congrArg (·.ctx.state) kept).trans (if_pos state)
  have on : (v.lane n).ctx.state ≠ .entry := by simp [ready]
  have live_v : (v.lane n).ctx.slot.isSome = true := by rw [slot]; exact slot_of_live live
  refine ⟨t, exec_t, y.taken (taken_via same' _ _ _), fun m hm => ?_, fun he => ?_, fun he => ?_⟩
  · rw [y.lane m]
    exact (((others_closedWork s.work n true).trans (others_modLane _)).trans (finalize_others _ _ _)).pins hm
  · subst he
    have left := leave_left live_v s.env
    rw [← startEnd_keep on, ← ended] at left
    have kept' := left.body.trans kept
    rw [← y.lane n] at kept'
    exact ⟨(congrArg (·.ctx.state) kept').trans (if_pos state), by rw [y.lane n, left.slot],
      (congrArg (·.ctx.session) kept').trans session, congrArg (·.ctx.seq) kept', congrArg (·.ctx.rate) kept',
      congrArg (·.link.state) kept', congrArg (·.lines) kept'⟩
  · have ride_v : (v.lane n).supply.state ≠ .riding := by exact fun h => ride ((congrArg (·.supply.state) kept).symm.trans h)
    have close : (closedWork s.work n true |>.modLane n (guarded k)).finalize s.env n .done none
        = v.request n ((v.lane n).closeRequest (.closeEnd e)) :=
      ended.trans (startEnd_close on he ((congrArg (·.ctx.session) kept).trans session) (congrArg (·.ctx.answered) kept) s.env)
    have frame := frameOut_request ride_v ((v.lane n).closeRequest (.closeEnd e))
    rw [← close, ← y.frameOut n] at frame
    rw [close, request_begins ride_v] at y
    have at_n := y.lane n
    rw [lane_setLane, if_pos rfl] at at_n
    rw [at_n]
    refine ⟨rfl, slot, (congrArg (·.ctx.session) kept).trans session, rfl, congrArg (·.settings.replyLimit) kept, ?_⟩
    rw [frame]
    exact congrArg (fun x => some (requestFrame 0x09#8 x [])) (congrArg (·.ctx.seq) kept)

/-- How each of the three events ends a CLOSE. -/
theorem close_exec {c : Instr} {answered : Bool} {failure : Option LaneResult}
    (part : s.part.state ∈ [.loading, .running, .quiescing, .quiesced])
    (req : (s.work.lane n).link.req = some q) (kind : q.kind = 0x09#8) (close : q.purpose.isClose = true)
    (cause : (answered = true ∧ failure = none ∧ (s.work.lane n).Listens ∧ ∃ status p, status ≠ 0x01#8 ∧ p.length ≤ 264
        ∧ c = .replyFrameComplete n (replyFrame 0x89#8 (s.work.lane n).link.seq status p))
      ∨ (answered = false ∧ failure = some .linkLost ∧ (s.work.lane n).link.resends = (s.work.lane n).link.retryLimit
        ∧ (s.work.lane n).link.state = .awaiting ∧ (∃ ends, (s.work.lane n).link.timer = .running ends) ∧ c = .replyTimeout n)
      ∨ (answered = false ∧ failure = some .targetStuck ∧ (s.work.lane n).link.state = .busyHold ∧ c = .busyLimitExpiry n)) :
    ∃ o : ExchangeOutcome, o.answered = answered ∧ Ending o failure
      ∧ exec c s = s.answer (s.laneEvent n (fun env w => w.exchangeEnd env n o)) := by
  obtain ⟨acts, hd⟩ := acting_of_mem part
  rcases cause with ⟨rfl, rfl, listens, status, p, good, short, rfl⟩ | ⟨rfl, rfl, used, awaiting, running, rfl⟩ | ⟨rfl, rfl, hold, rfl⟩
  · refine ⟨.accepted status p, rfl, .inl ⟨rfl, status, p, rfl⟩, ?_⟩
    rw [exec_accepted listens req short good (frame := replyFrame 0x89#8 (s.work.lane n).link.seq status p) (by rw [kind]; rfl)]
    exact congrArg s.answer (laneEvent_congr (exchangeEnd_framedClose acts req close _))
  · exact ⟨.exhausted, rfl, .inr (.inl ⟨rfl, rfl⟩), exec_timeoutEnds awaiting running (attemptFails_exhausted _ _ used)⟩
  · exact ⟨.busyLimit, rfl, .inr (.inr ⟨rfl, rfl⟩), exec_busyLimit hd hold⟩

/-- What the end of an end-action CLOSE leads to, the job's work on the lane being over. -/
theorem closeEnd_leads {e : EndAction} {failure : Option LaneResult} (ending : Ending o failure)
    (state : (s.work.lane n).ctx.state = .active) (slot : (s.work.lane n).ctx.slot.isSome = true) {answered : Bool}
    (y : Yields ((overWork s.work n answered).closeEndDone s.env n e o) t) :
    (e = .off → (t.work.lane n).ctx.state = .off ∧ (t.work.lane n).lines.tpwrOn = false
      ∧ (t.work.lane n).supply.state = .unpowered ∧ (t.work.lane n).ctx.slot = none ∧ t.work.ownerOf n = none)
    ∧ (e ≠ .off → ∀ cause, failure = some cause →
      (t.work.lane n).ctx.state = .fault ∧ (t.work.lane n).ctx.faultCause = some cause
      ∧ (t.work.lane n).supply = (s.work.lane n).supply ∧ (t.work.lane n).ctx.slot = none ∧ t.work.ownerOf n = none)
    ∧ (e = .hold → failure = none →
      (t.work.lane n).ctx.state = .hold ∧ (t.work.lane n).supply = (s.work.lane n).supply ∧ (t.work.lane n).ctx.slot = none
      ∧ t.work.ownerOf n = none)
    ∧ (e = .run → failure = none →
      (t.work.lane n).ctx.state = .hold ∧ (t.work.lane n).supply = (s.work.lane n).supply
      ∧ (t.work.lane n).ctx.slot = (s.work.lane n).ctx.slot
      ∧ (t.work.lane n).lines.tselLow = false ∧ (t.work.lane n).eng.phase = .pulse (s.clock + 48000)) := by
  have at_n := at_overWork (w := s.work) (n := n) answered
  have on : ((overWork s.work n answered).lane n).ctx.state ≠ .off := by
    rw [at_n]
    show (if (s.work.lane n).ctx.state = .active then LaneState.ready else (s.work.lane n).ctx.state) ≠ .off
    rw [if_pos state]
    decide
  have slot' : ((overWork s.work n answered).lane n).ctx.slot.isSome = true := by rw [at_n]; exact slot
  obtain ⟨hold, off, run⟩ := finishEnd_on on s.env
  refine ⟨fun he => ?_, fun he cause failed => ?_, fun he good => ?_, fun he good => ?_⟩
  · subst he
    rw [closeEndDone_finish ending (.inl rfl), off] at y
    obtain ⟨b, out, free⟩ := left_through (f := Lane.toOff) slot' s.env
    rw [← y.lane n] at b out
    exact ⟨congrArg (·.ctx.state) b, congrArg (·.lines.tpwrOn) b, congrArg (·.supply.state) b, out, by rw [y.owner, free]⟩
  · rw [closeEndDone_failed he ending failed] at y
    obtain ⟨b, out, free⟩ := left_through (f := Lane.enterFault cause) slot' s.env
    rw [← y.lane n, at_n] at b
    rw [← y.lane n] at out
    exact ⟨congrArg (·.ctx.state) b, congrArg (·.ctx.faultCause) b, congrArg (·.supply) b, out, by rw [y.owner, free]⟩
  · subst he
    rw [closeEndDone_finish ending (.inr good), hold] at y
    obtain ⟨b, out, free⟩ := left_through (f := Lane.toHold) slot' s.env
    rw [← y.lane n, at_n] at b
    rw [← y.lane n] at out
    exact ⟨congrArg (·.ctx.state) b, congrArg (·.supply) b, out, by rw [y.owner, free]⟩
  · subst he
    rw [closeEndDone_finish ending (.inr good), run] at y
    rw [y.lane n, lane_modLane, if_pos rfl, at_n]
    exact ⟨rfl, rfl, rfl, rfl, rfl⟩

/-- What the end of the CLOSE of a LANE-ACTION leads to. -/
theorem closeAction_leads {b : ActionCode} {failure : Option LaneResult} (ending : Ending o failure)
    (live : s.work.isLive n = true) (action : s.work.actionOf n = some b) {answered : Bool}
    (y : Yields ((overWork s.work n answered).closeActionDone s.env n b o) t) :
    (b = .powerOff → (t.work.lane n).ctx.state = .off ∧ (t.work.lane n).lines.tpwrOn = false
      ∧ s.work.ResultTaken t.work n .done)
    ∧ (b ∈ [.hold, .run] → ∀ cause, failure = some cause →
      (t.work.lane n).ctx.state = .fault ∧ (t.work.lane n).ctx.faultCause = some cause
      ∧ (t.work.lane n).supply = (s.work.lane n).supply
      ∧ s.work.ResultCopied t.work n cause (fun o => o.rate = 0 ∧ o.desc = none))
    ∧ (b = .hold → failure = none → (t.work.lane n).ctx.state = .hold ∧ s.work.ResultTaken t.work n .done)
    ∧ (b = .run → failure = none → (s.work.lane n).eng.stop = none →
      (t.work.lane n).ctx.state = .hold ∧ t.work.isLive n = true
      ∧ (t.work.lane n).eng.phase = .pulse (s.clock + 48000))
    ∧ (b = .run → failure = none → (s.work.lane n).eng.stop.isSome = true →
      (t.work.lane n).ctx.state = .hold ∧ (t.work.lane n).eng.phase = .none
      ∧ s.work.ResultTaken t.work n .cancelled) := by
  have at_n := at_overWork (w := s.work) (n := n) answered
  have same := sameJobs_overWork s.work n answered
  have live : (overWork s.work n answered).isLive n = true := by rw [same.isLive n, live]
  have action' : (overWork s.work n answered).actionOf n = some b := by rw [same.actionOf n, action]
  have done : ∀ (f : Lane → Lane) (_ : ∀ l, (f l).ctx.slot = l.ctx.slot) (_ : ∀ l l', body l = body l' → body (f l) = body (f l')),
      Yields ((overWork s.work n answered).actionDone s.env n f) t →
      body (t.work.lane n) = body (f (closedLane answered (s.work.lane n)).endSession) ∧ s.work.ResultTaken t.work n .done :=
    fun f hs hb y => by
      obtain ⟨b, -⟩ := actionDone_left live action' hs hb s.env
      rw [← y.lane n, at_n] at b
      exact ⟨b, y.taken (taken_via (same.trans (sameJobs_action _ n hs)) _ _ _)⟩
  refine ⟨fun hb => ?_, fun hb cause failed => ?_, fun hb good => ?_, fun hb good unstopped => ?_, fun hb good stopped => ?_⟩
  · subst hb
    rw [closeActionDone_off] at y
    obtain ⟨b, taken⟩ := done Lane.toOff (fun _ => rfl) (fun _ _ h => body_toOff h) y
    exact ⟨congrArg (·.ctx.state) b, congrArg (·.lines.tpwrOn) b, taken⟩
  · obtain ⟨fails, toFault⟩ := closeActionDone_failed (w := overWork s.work n answered) (env := s.env) (n := n) (b := b)
      (by rintro rfl; simp at hb) ending failed
    rw [fails] at y
    have b := (finalize_faults live toFault s.env none).body
    rw [← y.lane n, lane_modLane, if_pos rfl, at_n] at b
    refine ⟨congrArg (·.ctx.state) b, congrArg (·.ctx.faultCause) b, congrArg (·.supply) b, ?_⟩
    exact y.copied (same.copied (finalize_copied s.env cause none fun _ _ _ _ => by rw [takenCopy, at_n]; exact ⟨rfl, rfl⟩))
  · subst hb
    rw [closeActionDone_hold ending good (by decide) (by decide)] at y
    obtain ⟨b, taken⟩ := done Lane.toHold (fun _ => rfl) (fun _ _ h => body_toHold h) y
    exact ⟨congrArg (·.ctx.state) b, taken⟩
  · subst hb
    rw [closeActionDone_run ending good, if_neg (by rw [at_n]; simp [closedLane, Lane.endSession, unstopped])] at y
    rw [y.isLive n, (sameJobs_modLane (f := Lane.startPulse s.env) rfl).isLive n, live, y.lane n, lane_modLane, if_pos rfl, at_n]
    exact ⟨rfl, rfl, rfl⟩
  · subst hb
    rw [closeActionDone_run ending good, if_pos (by rw [at_n]; exact stopped)] at y
    have held : SameJobs (overWork s.work n answered) ((overWork s.work n answered).modLane n Lane.toHold) := sameJobs_modLane rfl
    have b := (finalize_action (r := .cancelled) (by rw [held.isLive n, live]) (by rw [held.actionOf n, action']) (by simp)
      s.env none).body
    rw [← y.lane n, lane_modLane, if_pos rfl, at_n] at b
    exact ⟨congrArg (·.ctx.state) b, congrArg (·.eng.phase) b, y.taken (taken_via (same.trans held) _ _ _)⟩

/-- What the end of the CLOSE of a FRESH job leads to: its first entry attempt. -/
theorem closeFresh_leads (live : s.work.isLive n = true) (un : (s.work.lane n).Unstopped)
    (ride : (s.work.lane n).supply.state ≠ .riding) {answered : Bool}
    (y : Yields ((overWork s.work n answered).closeFreshDone s.env n) t) :
    (t.work.lane n).ctx.state = .entry ∧ (t.work.lane n).ctx.step = .entry ∧ (t.work.lane n).ctx.attempts = 1
    ∧ (t.work.lane n).ctx.fallback = false ∧ (t.work.lane n).lines.tselLow = true ∧ t.work.isLive n = true
    ∧ (t.work.lane n).supply = (s.work.lane n).supply ∧ (t.work.lane n).eng.phase = .select (s.clock + 48000) := by
  have at_n := at_overWork (w := s.work) (n := n) answered
  have same := sameJobs_overWork s.work n answered
  have there : ((overWork s.work n answered).modLane n Lane.toHold).lane n
      = (closedLane answered (s.work.lane n)).endSession.toHold := by rw [lane_modLane, if_pos rfl, at_n]
  have begins : (overWork s.work n answered).closeFreshDone s.env n
      = ((overWork s.work n answered).modLane n Lane.toHold).beginEntry s.env n := by
    unfold Work.closeFreshDone
    exact goOn_unstopped (by rw [there]; exact un) _ _
  rw [begins] at y
  have live' : t.work.isLive n = true := by
    rw [y.isLive n, (sameJobs_beginEntry _ _ _).isLive n, (sameJobs_modLane (f := Lane.toHold) rfl).isLive n, same.isLive n, live]
  rw [live', y.lane n, beginEntry_lane, if_pos rfl, there,
    if_neg (show (closedLane answered (s.work.lane n)).endSession.toHold.supply.state ≠ .riding from ride)]
  exact ⟨rfl, rfl, rfl, rfl, rfl, rfl, rfl, rfl⟩

/-- Settles O27: the end action begins at DONE, and each CLOSE ends as its purpose asks. -/
theorem endActionsAndTheirCloses : Obligations.EndActionsAndTheirCloses := by
  refine ⟨fun s n l q j steps fresh clearAll e level k ptr key aw hl part live job args state session listens req purpose
    kind _ ride => endAction_begins s n l q j steps fresh clearAll e level k ptr key aw hl part live job args state session
      listens req purpose kind ride, fun s n l q c answered failure aw hl part state req kind free purpose cause => ?_⟩
  subst hl
  obtain ⟨acts, hd⟩ := acting_of_mem part
  have close : q.purpose.isClose = true := by
    rcases purpose with h | ⟨e, -, h⟩ | ⟨b, h, -⟩ <;> rw [h] <;> rfl
  obtain ⟨o, ho, ending, runs⟩ := close_exec part req kind close cause
  obtain ⟨t, e, y, -⟩ := laneEvent_yields aw hd (fun env w => w.exchangeEnd env n o) (n := n)
  obtain ⟨closeEnd, closeAction, closeFresh⟩ := exchangeEnd_close (w := s.work) (env := s.env) (n := n) (o := o) acts req
  rw [ho] at closeEnd closeAction closeFresh
  have at_n := at_overWork (w := s.work) (n := n) answered
  have same := sameJobs_overWork s.work n answered
  have over_ : Over answered ((s.work.lane n).ctx.seq + 1) ((overWork s.work n answered).lane n) := by
    rw [at_n]
    exact over_closedLane _ _
  have on : ((overWork s.work n answered).lane n).ctx.state ≠ .off := by
    rw [at_n]
    show (if (s.work.lane n).ctx.state = .active then LaneState.ready else (s.work.lane n).ctx.state) ≠ .off
    rw [if_pos state]
    decide
  have others : Others n s.work (s.work.exchangeEnd s.env n o) := by
    obtain ⟨othersEnd, othersAction, othersFresh⟩ := others_closes (overWork s.work n answered) s.env n o
    refine (others_overWork s.work n answered).trans ?_
    rcases purpose with h | ⟨e, -, h⟩ | ⟨b, h, -⟩
    · rw [closeFresh h]
      exact othersFresh
    · rw [closeEnd e h]
      exact othersEnd e
    · rw [closeAction b h]
      exact othersAction b
  have closed : Closed answered ((s.work.lane n).ctx.seq + 1) (t.work.lane n) := by
    rw [y.lane n]
    rcases purpose with h | ⟨e, he, h⟩ | ⟨b, h, live⟩
    · rw [closeFresh h]
      exact closed_closeFreshDone over_ s.env
    · rw [closeEnd e h]
      exact closed_closeEndDone ending he on over_ s.env
    · rw [closeAction b h]
      exact closed_closeActionDone ending (by rw [← live]; exact same.isLive n) over_ s.env
  refine ⟨t, runs.trans e, fun m hm => by rw [y.lane m]; exact others.pins hm, by rw [closed.link]; rfl, by rw [closed.link]; rfl,
    closed.tdat, closed.trst, closed.session, closed.desc, closed.rate, closed.answered, closed.seq,
    fun e h idle slot => ?_, fun b h action => ?_, fun h live un ride => ?_⟩
  · exact closeEnd_leads ending state slot (closeEnd e h ▸ y)
  · have live : s.work.isLive n = true := by
      rcases purpose with h' | ⟨e, -, h'⟩ | ⟨b', -, live⟩
      · rw [h] at h'; cases h'
      · rw [h] at h'; cases h'
      · exact live
    exact closeAction_leads ending live action (closeAction b h ▸ y)
  · exact closeFresh_leads live un ride (closeFresh h ▸ y)

end Sys2Proof.Proofs
end

section
/-! QUERY, PACE and the end of linking: O39. -/

namespace Sys2Proof.Proofs

-- One theorem at a time: a thread for each would ask for more stack than the check allows.
set_option Elab.async false

open Sys2Proof.Machine Sys2Proof.Laws

variable {s t u : State} {v w w' : Work} {env : Env} {n m : LaneId} {i : SlotId} {j : JobSlot} {l : Lane} {r : LaneResult}
  {q : Request} {d : TargetDesc} {p : List Byte}

/-! ## The descriptor in the payload (R66, R67, R68) -/

theorem fieldAt_lt (p : List Byte) (i k : Nat) : fieldAt p i k < 256 ^ k := by
  induction k generalizing i with
  | zero => simp [fieldAt]
  | succ k ih =>
    have tail := ih (i + 1)
    have byte := (byteAt p i).isLt
    rw [fieldAt, pow_succ]
    omega

theorem wordAt_toNat (p : List Byte) (i : Nat) : (wordAt p i).toNat = fieldAt p i 4 :=
  Nat.mod_eq_of_lt (fieldAt_lt p i 4)

theorem leBytes_fieldAt {p : List Byte} {i k : Nat} (h : i + k ≤ p.length) : leBytes k (fieldAt p i k) = slice p i k := by
  induction k generalizing i with
  | zero => simp [leBytes, slice]
  | succ k ih =>
    have inside : i < p.length := by omega
    have head : BitVec.ofNat 8 (fieldAt p i (k + 1)) = byteAt p i := by
      apply BitVec.eq_of_toNat_eq
      have := (byteAt p i).isLt
      rw [fieldAt, BitVec.toNat_ofNat]
      omega
    have tail : fieldAt p i (k + 1) / 256 = fieldAt p (i + 1) k := by
      have := (byteAt p i).isLt
      rw [fieldAt]
      omega
    have split : slice p i (k + 1) = p[i] :: slice p (i + 1) k := by
      rw [slice, List.drop_eq_getElem_cons inside, List.take_succ_cons]
      rfl
    rw [leBytes, head, tail, ih (by omega), split]
    simp [byteAt, List.getD_eq_getElem?_getD, inside]

/-- A payload of 17 bytes is the bytes of the descriptor that it is read as. -/
theorem targetDescBytes_of (h : p.length = 17) : targetDescBytes (targetDescOf p) = p := by
  have word : ∀ i, i + 4 ≤ 17 → leBytes 4 (wordAt p i).toNat = slice p i 4 := fun i hi => by
    rw [wordAt_toNat, leBytes_fieldAt (by omega)]
  have tail : [byteAt p 12, byteAt p 13, byteAt p 14, byteAt p 15, byteAt p 16] = p.drop 12 := by
    apply List.ext_getElem (by simp [h])
    intro k hk hk'
    simp only [List.length_cons, List.length_nil] at hk
    have at_ : ∀ m, m < 17 → byteAt p m = p[m]! := fun m hm => by simp [byteAt, h, hm]
    interval_cases k <;> simp [byteAt, h]
  show leBytes 4 (wordAt p 0).toNat ++ leBytes 4 (wordAt p 4).toNat ++ leBytes 4 (wordAt p 8).toNat
    ++ [byteAt p 12, byteAt p 13, byteAt p 14, byteAt p 15, byteAt p 16] = p
  rw [word 0 (by omega), word 4 (by omega), word 8 (by omega), tail]
  simp only [slice, List.drop_zero]
  have four : p.take 4 ++ (p.drop 4).take 4 = p.take 8 := by
    rw [← List.take_add]
  have eight : p.take 8 ++ (p.drop 8).take 4 = p.take 12 := by
    rw [← List.take_add]
  rw [four, eight, List.take_append_drop]

/-- The nine conditions of R67 in the payload's own numbers. -/
theorem valid_iff (p : List Byte) {base size unit : Nat} (hbase : base = fieldAt p 4 4) (hsize : size = fieldAt p 8 4)
    (hunit : unit = 1024 * 2 ^ fieldAt p 13 1) : (targetDescOf p).valid = false ↔
      (2 < fieldAt p 12 1 ∨ 3 < fieldAt p 13 1 ∨ 5 < fieldAt p 14 1 ∨ 3 < fieldAt p 15 1 ∨ 1 < fieldAt p 16 1
        ∨ size = 0 ∨ size % unit ≠ 0 ∨ base % unit ≠ 0 ∨ 2 ^ 32 < base + size ∨ 65536 < size / unit) := by
  have zero : (wordAt p 8 = 0) ↔ size = 0 := by
    rw [hsize, ← wordAt_toNat]
    exact ⟨fun h => by rw [h]; rfl, fun h => BitVec.eq_of_toNat_eq h⟩
  have hb : (wordAt p 4).toNat = base := by rw [wordAt_toNat, hbase]
  have hs : (wordAt p 8).toNat = size := by rw [wordAt_toNat, hsize]
  have hu : unitSize (byteAt p 13) = unit := by rw [hunit, fieldAt_one]; rfl
  unfold TargetDesc.valid targetDescOf unitCount
  simp only [fieldAt_one, hb, hs, hu, Bool.and_eq_false_iff, decide_eq_false_iff_not, Nat.not_le, beq_eq_false_iff_ne,
    Classical.not_not, zero, or_assoc, ne_eq]

/-- The four fields of R68 in the payload's own numbers. -/
theorem geometry_iff (p : List Byte) (old : Option TargetDesc) :
    old.elim true (sameGeometry (targetDescOf p)) = false ↔ ∃ o, old = some o ∧ (o.base.toNat ≠ fieldAt p 4 4
      ∨ o.size.toNat ≠ fieldAt p 8 4 ∨ o.pageCode.toNat ≠ fieldAt p 12 1 ∨ o.clearCode.toNat ≠ fieldAt p 13 1) := by
  cases old with
  | none => simp
  | some o =>
    have word : ∀ (x : Word) i, wordAt p i = x ↔ x.toNat = fieldAt p i 4 := fun x i => by
      rw [← wordAt_toNat]
      exact ⟨fun h => by rw [h], fun h => BitVec.eq_of_toNat_eq h.symm⟩
    have byte : ∀ (x : Byte) i, byteAt p i = x ↔ x.toNat = fieldAt p i 1 := fun x i => by
      rw [fieldAt_one]
      exact ⟨fun h => by rw [h], fun h => BitVec.eq_of_toNat_eq h.symm⟩
    simp only [sameGeometry, targetDescOf, Option.elim_some, Bool.and_eq_false_iff, decide_eq_false_iff_not, word, byte,
      or_assoc, Option.some.injEq, exists_eq_left', ne_eq]

/-! ## The parts of an EXCHANGE entry (R124) -/

theorem not_riding (h : l.supply.state ≠ .riding) : ¬ l.riding = true := by
  simpa [Lane.riding] using h

/-- The section of entry 0 begins with the block. -/
theorem section_first (block : HostAddr) : exchangeSection block 0 = block := by
  unfold exchangeSection addrPlus
  simp

/-- An entry without a payload is next to be sent. -/
def emptied (l : Lane) : Lane := { l with eng := { l.eng with exPart := .request, xbuf := [] } }

theorem payload_entry (w : Work) (n : LaneId) (e : ExchangeEntry) :
    w.payload n (entryRequest e) = (w.lane n).eng.xbuf.take e.len := rfl

theorem exchangeGo_payload {block : HostAddr} {es : List ExchangeEntry} {i : Nat} {x : ExchangeEntry} (un : (w.lane n).Unstopped)
    (idx : (w.lane n).eng.entryIdx = i) (entry : es[i]? = some x) (part : (w.lane n).eng.exPart = .payload) (len : x.len ≠ 0)
    (ride : (w.lane n).supply.state ≠ .riding) : w.exchangeGo env n block es = w.modLane n (fun l =>
      { l with eng := { l.eng with xfer := some (.payloadRead (exchangeSection block i) x.len), held := none } }) := by
  unfold Work.exchangeGo
  rw [goOn_unstopped un]
  simp only [idx, entry, part, if_neg len, transfer_begins ride]

theorem exchangeGo_empty {block : HostAddr} {es : List ExchangeEntry} {i : Nat} {x : ExchangeEntry} (un : (w.lane n).Unstopped)
    (idx : (w.lane n).eng.entryIdx = i) (entry : es[i]? = some x) (part : (w.lane n).eng.exPart = .payload) (len : x.len = 0) :
    w.exchangeGo env n block es = (w.modLane n emptied).request n (entryRequest x) := by
  unfold Work.exchangeGo
  rw [goOn_unstopped un]
  simp only [idx, entry, part, if_pos len]
  rfl

/-- The EXCHANGE step with its first entry due. -/
def exchangeEntered (w : Work) (n : LaneId) : Work :=
  (w.enterStep n .exchange none).modLane n (fun l => { l with eng := { l.eng with entryIdx := 0, exPart := .payload } })

/-! ## The end of linking (R31, R32) -/

/-- READY at the end of linking. -/
def linkedLane (l : Lane) : Lane := { l with ctx := { l.ctx with state := .ready, fallbackCopy := none } }

/-- The lane in the step in which its request failed before the fallback. -/
def resumed (q : Resume) (l : Lane) : Lane :=
  { l with ctx := { l.ctx with step := q.step, stepPos := q.pos }, eng := { l.eng with resume := none } }

/-- The request that failed before the fallback is sent again, in its step (R32). -/
theorem resumeStep_begins {q : Resume} (un : (w.lane n).Unstopped) (ride : (w.lane n).supply.state ≠ .riding)
    (resume : (w.lane n).eng.resume = some q) (env : Env) : ∃ p, SameJobs w (w.resumeStep env n)
      ∧ (w.resumeStep env n).lane n = (resumed q (w.lane n)).beginRequest p q.req := by
  obtain ⟨v, hv⟩ : ∃ v, v = (w.enterStep n q.step q.pos).modLane n (fun l => { l with eng := { l.eng with resume := none } }) :=
    ⟨_, rfl⟩
  have begun : w.resumeStep env n = v.request n q.req := by
    unfold Work.resumeStep
    rw [resume]
    dsimp only
    rw [goOn_unstopped un, if_neg (not_riding ride), hv]
  have at_v : v.lane n = resumed q (w.lane n) := by
    rw [hv, lane_modLane, if_pos rfl, lane_enterStep, if_pos rfl]
    rfl
  have same : SameJobs w v := by
    rw [hv]
    exact (sameJobs_enterStep ..).trans (sameJobs_modLane rfl)
  refine ⟨v.payload n q.req, ?_, ?_⟩
  · rw [begun]
    exact same.trans (sameJobs_request ..)
  · rw [begun, request_begins (by rw [at_v]; exact ride), lane_setLane, if_pos rfl, at_v]

/-- What the end of linking leads to, from the lane as linking leaves it: `l`. -/
theorem linking_leads (same : SameJobs s.work w) (live : s.work.isLive n = true) (job : s.work.jobOf n = some j)
    (hl : w.lane n = l) (un : l.Unstopped) (desc : l.ctx.desc = some d)
    (y : Yields (w.finishLink env n) t) :
    (∀ q, l.eng.resume = some q → l.supply.state ≠ .riding →
      t.work.isLive n = true ∧ (t.work.lane n).link.state = .sending ∧ (t.work.lane n).link.req = some q.req
      ∧ (t.work.lane n).link.rate = l.ctx.rate ∧ (t.work.lane n).ctx.step = q.step ∧ (t.work.lane n).ctx.stepPos = q.pos
      ∧ (t.work.lane n).ctx.fallbackCopy = none ∧ (t.work.lane n).eng.resume = none
      ∧ (t.work.lane n).ctx.desc = some d ∧ (t.work.lane n).ctx.rate = l.ctx.rate ∧ (t.work.lane n).ctx.trial = l.ctx.trial)
    ∧ (∀ fresh e key, l.eng.resume = none → j.args = .identify fresh e key →
      t.work.isLive n = false ∧ s.work.ResultCopied t.work n .done (fun o => o.desc = some d ∧ o.rate = l.ctx.rate)
      ∧ (e = .keep → (t.work.lane n).ctx.state = .ready ∧ (t.work.lane n).ctx.slot = none
          ∧ (t.work.lane n).ctx.desc = some d ∧ (t.work.lane n).ctx.rate = l.ctx.rate ∧ (t.work.lane n).ctx.trial = l.ctx.trial))
    ∧ ∀ fresh e block key x es, l.eng.resume = none → j.args = .exchange fresh e block key (x :: es) →
      l.supply.state ≠ .riding →
      t.work.isLive n = true ∧ (t.work.lane n).ctx.step = .exchange ∧ (t.work.lane n).ctx.desc = some d
      ∧ (t.work.lane n).ctx.rate = l.ctx.rate ∧ (t.work.lane n).ctx.trial = l.ctx.trial
      ∧ (x.len ≠ 0 → (t.work.lane n).ctx.state = .ready
          ∧ (t.work.lane n).eng.xfer = some (.payloadRead block x.len))
      ∧ (x.len = 0 → (t.work.lane n).ctx.state = .active ∧ (t.work.lane n).link.rate = l.ctx.rate
          ∧ t.work.frameOut n = some (requestFrame x.kind l.ctx.seq [])) := by
  subst hl
  have ready : SameJobs w (w.modLane n linkedLane) := sameJobs_modLane rfl
  have at_n : (w.modLane n linkedLane).lane n = linkedLane (w.lane n) := by rw [lane_modLane, if_pos rfl]
  have finish : w.finishLink env n = if ((w.modLane n linkedLane).lane n).eng.resume.isSome
      then (w.modLane n linkedLane).resumeStep env n else (w.modLane n linkedLane).firstStep env n := rfl
  have same' := same.trans ready
  obtain ⟨j', job', args', -⟩ := job_after same' job
  have un' : ((w.modLane n linkedLane).lane n).Unstopped := by rw [at_n]; exact un
  rw [finish] at y
  refine ⟨fun q resume ride => ?_, fun fresh e key resume args => ?_, fun fresh e block key x es resume args ride => ?_⟩
  · have resume' : ((w.modLane n linkedLane).lane n).eng.resume = some q := by rw [at_n]; exact resume
    rw [if_pos (by rw [resume']; rfl)] at y
    obtain ⟨p, sent, at_⟩ := resumeStep_begins un' (by rw [at_n]; exact ride) resume' env
    have alive : t.work.isLive n = true := by rw [y.isLive n, sent.isLive n, same'.isLive n, live]
    rw [alive, y.lane n, at_, at_n]
    exact ⟨rfl, rfl, rfl, rfl, rfl, rfl, rfl, rfl, desc, rfl, rfl⟩
  · have none_ : ((w.modLane n linkedLane).lane n).eng.resume = none := by rw [at_n]; exact resume
    rw [if_neg (by rw [none_]; simp)] at y
    have done : (w.modLane n linkedLane).firstStep env n
        = ((w.modLane n linkedLane).enterStep n .describe none).finalize env n .done none := by
      unfold Work.firstStep
      rw [job', Option.map_some, args', args]
      exact goOn_unstopped un' env _
    rw [done] at y
    have described := sameJobs_enterStep (w.modLane n linkedLane) n .describe none
    have there : ((w.modLane n linkedLane).enterStep n .describe none).lane n
        = { linkedLane (w.lane n) with ctx := { (linkedLane (w.lane n)).ctx with step := .describe, stepPos := none } } := by
      rw [lane_enterStep, if_pos rfl, at_n]
    refine ⟨by rw [y.isLive n, finalize_notLive], y.copied ((same'.trans described).copied
      (finalize_copied env .done none fun _ _ _ _ => by rw [takenCopy, there]; exact ⟨desc, rfl⟩)), fun he => ?_⟩
    subst he
    obtain ⟨j2, job2, args2, -⟩ := job_after described job'
    obtain ⟨v, final, -, ended⟩ := finalize_ends (r := .done) (e := .keep)
      (by rw [described.isLive n, same'.isLive n, live]) (by rw [job2, Option.bind_some, args2, args', args]; rfl) env none
    have kept := final.body
    rw [there] at kept
    have left := leave_left (w := v) (n := n) (by rw [final.slot, there]; exact (by
      have := slot_of_live live
      rw [← same.lane n] at this
      exact this)) env
    rw [← startEnd_keep (by
      have : (v.lane n).ctx.state = .ready := congrArg (·.ctx.state) kept
      simp [this]), ← ended] at left
    have kept' := left.body.trans kept
    rw [← y.lane n] at kept'
    exact ⟨congrArg (·.ctx.state) kept', by rw [y.lane n, left.slot], (congrArg (·.ctx.desc) kept').trans desc,
      congrArg (·.ctx.rate) kept', congrArg (·.ctx.trial) kept'⟩
  · have none_ : ((w.modLane n linkedLane).lane n).eng.resume = none := by rw [at_n]; exact resume
    rw [if_neg (by rw [none_]; simp)] at y
    obtain ⟨v, hv⟩ : ∃ v, v = exchangeEntered (w.modLane n linkedLane) n := ⟨_, rfl⟩
    have begun : (w.modLane n linkedLane).firstStep env n = v.exchangeGo env n block (x :: es) := by
      subst hv
      unfold Work.firstStep
      rw [job', Option.map_some, args', args]
      exact (goOn_unstopped un' env _).trans (beginOrHold_begins (by rw [at_n]; exact ride) _ _)
    have there : v.lane n = { linkedLane (w.lane n) with
        ctx := { (linkedLane (w.lane n)).ctx with step := .exchange, stepPos := none }
        eng := { (linkedLane (w.lane n)).eng with entryIdx := 0, exPart := .payload } } := by
      rw [hv, exchangeEntered, lane_modLane, if_pos rfl, lane_enterStep, if_pos rfl, at_n]
    have entered : SameJobs s.work v := by
      rw [hv]
      exact (same'.trans (sameJobs_enterStep _ _ _ _)).trans (sameJobs_modLane rfl)
    rw [begun] at y
    by_cases len : x.len = 0
    · rw [exchangeGo_empty (by rw [there]; exact un) (i := 0) (by rw [there]) rfl (by rw [there]) len] at y
      have ride' : ((v.modLane n emptied).lane n).supply.state ≠ .riding := by
        rw [lane_modLane, if_pos rfl, there]
        exact ride
      have frame := frameOut_request ride' (entryRequest x)
      rw [← y.frameOut n] at frame
      have alive : t.work.isLive n = true := by
        rw [y.isLive n, (sameJobs_request _ _ _).isLive n, (sameJobs_modLane (by rfl)).isLive n, entered.isLive n, live]
      rw [alive, y.lane n, request_begins ride', lane_setLane, if_pos rfl, lane_modLane, if_pos rfl, there]
      refine ⟨rfl, rfl, desc, rfl, rfl, fun h => absurd len h, fun _ => ⟨rfl, rfl, frame.trans ?_⟩⟩
      rw [payload_entry, len, lane_modLane, if_pos rfl, there]
      rfl
    · rw [exchangeGo_payload (by rw [there]; exact un) (i := 0) (by rw [there]) rfl (by rw [there]) len (by rw [there]; exact ride)]
        at y
      have alive : t.work.isLive n = true := by
        rw [y.isLive n, (sameJobs_modLane (by rfl)).isLive n, entered.isLive n, live]
      rw [alive, y.lane n, lane_modLane, if_pos rfl, there]
      exact ⟨rfl, rfl, desc, rfl, rfl, fun _ => ⟨rfl, congrArg (fun a => some (Xfer.payloadRead a x.len)) (section_first block)⟩,
        fun h => absurd h len⟩

/-! ## The statement -/

/-- The lane caches the descriptor (R67). -/
def cached (d : TargetDesc) (l : Lane) : Lane := { l with ctx := { l.ctx with desc := some d } }

/-- The rate is the one that PACE asked for, on trial (R31). -/
def paced (code : Nat) (l : Lane) : Lane := { l with ctx := { l.ctx with rate := code, trial := true } }

theorem queryReply_valid (valid : (targetDescOf p).valid = true)
    (same : (w.lane n).ctx.fallbackCopy.elim true (sameGeometry (targetDescOf p)) = true) :
    w.queryReply env n q p = (w.modLane n (cached (targetDescOf p))).afterQuery env n := by
  unfold Work.queryReply
  simp only [valid, same, Bool.not_true, Bool.false_eq_true, if_false, reduceCtorEq]
  rfl

theorem queryReply_invalid (h : (targetDescOf p).valid = false) :
    w.queryReply env n q p = w.failRefused env n statusOk q.kind .descriptor := by
  unfold Work.queryReply
  simp only [h, Bool.not_false, if_true]

theorem queryReply_changed (valid : (targetDescOf p).valid = true)
    (h : (w.lane n).ctx.fallbackCopy.elim true (sameGeometry (targetDescOf p)) = false) :
    w.queryReply env n q p = w.failRefused env n statusOk q.kind .changed := by
  unfold Work.queryReply
  simp only [valid, h, Bool.not_true, Bool.false_eq_true, if_false, if_true]

theorem afterQuery_pace (due : 0 < (w.lane n).paceCode) (first : (w.lane n).ctx.fallback = false)
    (un : (w.lane n).Unstopped) : w.afterQuery env n = w.request n ((w.lane n).paceRequest (w.lane n).paceCode) :=
  (if_pos ⟨due, first⟩).trans (goOn_unstopped un env _)

/-- Settles O39: the descriptor is checked and cached, PACE follows where it is due, and linking ends. -/
theorem queryReplyIsJudged : Obligations.QueryReplyIsJudged := by
  intro s n l q j p aw hl part live job session state step listens req free un linked hlinked
  subst hl
  have same := sameJobs_closedWork s.work n true
  have at_n := at_closedWork (w := s.work) (n := n) true
  have plain : Plain j ((closedWork s.work n true).lane n) :=
    ⟨session, fun _ _ _ _ _ _ => by rw [at_n]; simp [closedLane, step]⟩
  have free' : ((closedWork s.work n true).lane n).eng.xfer = none := by rw [at_n]; exact free
  refine ⟨fun purpose kind len base size unit hbase hsize hunit invalid changed hinvalid hchanged => ?_,
    fun code d purpose kind desc => ?_⟩
  · obtain ⟨t, exec_t, y, exact_⟩ := reply_yields (status := 0) (p := p) aw part listens req (by rw [purpose]; rfl)
      (by omega) (by decide) (frame := replyFrame 0x83#8 (s.work.lane n).link.seq 0 p) (by rw [kind]; rfl)
    have taken : (closedWork s.work n true).replyTaken s.env n q (replyFrame 0x83#8 (s.work.lane n).link.seq 0 p) 0 p
        = (closedWork s.work n true).queryReply s.env n q p := by
      rw [replyTaken_ok _ (by simp [purpose]) (by simp [purpose]) (by simp [Request.replyLength, purpose, len]),
        Work.replySuccess, purpose]
    rw [taken] at y exact_
    rw [← valid_iff p hbase hsize hunit] at hinvalid
    have hchanged : changed ↔ (s.work.lane n).ctx.fallbackCopy.elim true (sameGeometry (targetDescOf p)) = false := by
      rw [hchanged, geometry_iff, hbase, hsize]
    have bytes := targetDescBytes_of len
    have there : ((closedWork s.work n true).modLane n (cached (targetDescOf p))).lane n
        = cached (targetDescOf p) (closedLane true (s.work.lane n)) := by rw [lane_modLane, if_pos rfl, at_n]
    have caches := same.trans (sameJobs_modLane (w := closedWork s.work n true) (n := n) (f := cached (targetDescOf p)) rfl)
    have good : ¬ invalid → ¬ changed → (closedWork s.work n true).queryReply s.env n q p
        = ((closedWork s.work n true).modLane n (cached (targetDescOf p))).afterQuery s.env n := fun hi hc =>
      queryReply_valid (by simpa [hinvalid] using hi) (by rw [at_n]; exact Bool.eq_true_of_not_eq_false fun h => hc (hchanged.mpr h))
    have pace : (cached (targetDescOf p) (closedLane true (s.work.lane n))).paceCode
        = min (s.work.lane n).settings.rateCode (fieldAt p 14 1) := by
      rw [fieldAt_one]
      rfl
    refine ⟨fun rate hrate hi hc due first ride => ⟨t, exec_t, ?_⟩, fun hi hc over_ => ⟨t, targetDescOf p, exec_t, bytes, ?_⟩,
      fun hi => ⟨t, exec_t, ?_⟩, fun hi hc => ⟨t, exec_t, ?_⟩⟩
    · have sent : (closedWork s.work n true).queryReply s.env n q p
          = ((closedWork s.work n true).modLane n (cached (targetDescOf p))).request n ((s.work.lane n).paceRequest rate) := by
        rw [good hi hc]
        rw [afterQuery_pace (by rw [there, pace, ← hrate]; exact due) (by rw [there]; exact first) (by rw [there]; exact un),
          there, pace, ← hrate]
        rfl
      have ride' : (((closedWork s.work n true).modLane n (cached (targetDescOf p))).lane n).supply.state ≠ .riding := by
        rw [there]
        exact ride
      rw [sent] at y exact_
      have frame := frameOut_request ride' ((s.work.lane n).paceRequest rate)
      rw [← y.frameOut n, there] at frame
      have begun : t = (s.withLane n ((cached (targetDescOf p) (closedLane true (s.work.lane n))).beginRequest
          (leBytes 1 rate) ((s.work.lane n).paceRequest rate))).refreshIrq := by
        rw [exact_ (caches.trans (sameJobs_request _ _ _)), request_begins ride', there, Work.modLane, setLane_setLane,
          closedWork, setLane_setLane]
        rfl
      have lane : t.work.lane n = (cached (targetDescOf p) (closedLane true (s.work.lane n))).beginRequest
          (leBytes 1 rate) ((s.work.lane n).paceRequest rate) := by
        rw [begun, refreshIrq_work, State.withLane, lane_setLane, if_pos rfl]
      refine ⟨begun.trans ?_, ⟨targetDescOf p, by rw [lane]; rfl, bytes⟩, frame⟩
      rw [lane]
      unfold cached Lane.beginRequest closedLane
      simp only [state]
      rfl
    · have ended : (closedWork s.work n true).queryReply s.env n q p
          = ((closedWork s.work n true).modLane n (cached (targetDescOf p))).finishLink s.env n := by
        rw [good hi hc]
        refine if_neg fun ⟨due, first⟩ => ?_
        rw [there, pace] at due
        rw [there] at first
        rcases over_ with h | h
        · omega
        · exact absurd (h.symm.trans first) (by decide)
      rw [ended] at y
      exact (hlinked ..).mpr (linking_leads caches live job there un rfl y)
    · rw [queryReply_invalid (hinvalid.mp hi), Work.failRefused, kind] at y
      exact failed_at same job plain free' (by simp) y
    · rw [queryReply_changed (by simpa [hinvalid] using hi) (by rw [at_n]; exact hchanged.mp hc), Work.failRefused, kind] at y
      exact failed_at same job plain free' (by simp) y
  · obtain ⟨t, exec_t, y, -⟩ := reply_yields (status := 0) (p := []) aw part listens req (by rw [purpose]; rfl)
      (by simp) (by decide) (frame := replyFrame 0x82#8 (s.work.lane n).link.seq 0 []) (by rw [kind]; rfl)
    have taken : (closedWork s.work n true).replyTaken s.env n q (replyFrame 0x82#8 (s.work.lane n).link.seq 0 []) 0 []
        = ((closedWork s.work n true).modLane n (paced code)).finishLink s.env n := by
      rw [replyTaken_ok _ (by simp [purpose]) (by simp [purpose]) (by simp [Request.replyLength, purpose]),
        Work.replySuccess, purpose]
      rfl
    rw [taken] at y
    exact ⟨t, exec_t, (hlinked ..).mpr (linking_leads (same.trans (sameJobs_modLane rfl)) live job
      (by rw [lane_modLane, if_pos rfl, at_n]) (l := paced code (closedLane true (s.work.lane n))) un desc y)⟩

end Sys2Proof.Proofs
end

section
/-! The ends of a lane's host transfers, the key read and EXCHANGE: O44, O50. -/

namespace Sys2Proof.Proofs

-- One theorem at a time: a thread for each would ask for more stack than the check allows.
set_option Elab.async false

open Sys2Proof.Machine Sys2Proof.Laws

variable {s t u : State} {v w w' : Work} {env : Env} {n m : LaneId} {i : SlotId} {j : JobSlot} {l : Lane} {r : LaneResult}
  {q : Request} {fa : Option Word}

/-! ## The end of a transfer (R121) -/

/-- The lane without a host transfer. -/
def freeLane (l : Lane) : Lane := { l with eng := { l.eng with xfer := none } }

/-- The tables in which the lane's transfer is over. -/
def freeWork (w : Work) (n : LaneId) : Work := w.setLane n (freeLane (w.lane n))

theorem at_freeWork : (freeWork w n).lane n = freeLane (w.lane n) := (lane_setLane ..).trans (if_pos rfl)

theorem sameJobs_freeWork (w : Work) (n : LaneId) : SameJobs w (freeWork w n) := sameJobs_setLane rfl

theorem xferEnd_yields (aw : s.Awake) (part : s.part.state ∈ [.loading, .running, .quiescing, .quiesced])
    (k : Env → Work → Work) : ∃ t, s.answer (s.xferEnd n k) = .next t ∧ Yields (k s.env (freeWork s.work n)) t ∧ t.port = none
      ∧ (SameJobs s.work (k s.env (freeWork s.work n)) →
          t = State.refreshIrq { s with port := none, work := k s.env (freeWork s.work n) }) := by
  obtain ⟨acts, hd⟩ := acting_of_mem part
  have over_ : s.xferEnd n k = { s with port := none, work := k s.env (freeWork s.work n) } := by
    unfold State.xferEnd
    rw [laneEvent_plain (s := s.xferOver n) (.inl hd)]
    simp only [show (s.xferOver n).env = s.env from rfl, acts, if_true]
    rfl
  obtain ⟨t, e, y, -, port⟩ := answer_yields aw (s.xferEnd n k)
  rw [over_] at e y port ⊢
  refine ⟨t, e, y, port, fun same => ?_⟩
  exact Host.Outcome.next.inj (e.symm.trans (answer_sameJobs aw same))

theorem exec_keyReadEnd {a : HostAddr} {e : ReadEnd} (port : s.port = some (.lane n))
    (xfer : (s.work.lane n).eng.xfer = some (.keyRead a)) (fits : ReadEnd.fits 16 e = true) :
    exec (.keyReadEnd n e) s = s.answer (s.xferEnd n (fun env w => w.keyReadEnd env n e)) := by
  show s.answer _ = _
  rw [port, xfer]
  exact congrArg s.answer (if_pos ⟨rfl, fits⟩)

theorem exec_payloadReadEnd {a : HostAddr} {len : Nat} {e : ReadEnd} (port : s.port = some (.lane n))
    (xfer : (s.work.lane n).eng.xfer = some (.payloadRead a len)) (fits : ReadEnd.fits len e = true) :
    exec (.exchangePayloadReadEnd n e) s = s.answer (s.xferEnd n (fun env w => w.payloadReadEnd env n e)) := by
  show s.answer _ = _
  rw [port, xfer]
  exact congrArg s.answer (if_pos ⟨rfl, fits⟩)

theorem exec_replyWriteEnd {a : HostAddr} {data : List Byte} (port : s.port = some (.lane n))
    (xfer : (s.work.lane n).eng.xfer = some (.replyWrite a data)) (e : WriteEnd) :
    exec (.exchangeReplyWriteEnd n e) s = s.answer (s.xferEnd n (fun env w => w.replyWriteEnd env n e)) := by
  show s.answer _ = _
  rw [port, xfer]
  exact congrArg s.answer (if_pos rfl)

theorem exec_pageWriteEnd {b : BufId} {page : Nat} {a : HostAddr} {data : List Byte} (port : s.port = some (.lane n))
    (xfer : (s.work.lane n).eng.xfer = some (.pageWrite b page a data)) (e : WriteEnd) :
    exec (.readoutPageWriteEnd n e) s = s.answer (s.xferEnd n (fun env w => w.pageWriteEnd env n b page e)) := by
  show s.answer _ = _
  rw [port, xfer]
  exact congrArg s.answer (if_pos rfl)

/-- A transfer that fails where nothing else ends the lane. -/
theorem xferFailed_final (due : (w.lane n).eng.due = none) (idle : (w.lane n).link.state = .idle) (env : Env) (r : LaneResult)
    (fa : Option Word) : w.xferFailed env n r fa = w.finalize env n r fa := by
  unfold Work.xferFailed
  rw [if_neg (by simp [due]), if_pos (by simp [Lane.linkIdle, idle])]

theorem settled_xfer (x : Option Xfer) : Settled (fun l => l.eng.xfer = x) where
  body b h := (congrArg (·.eng.xfer) b).trans h
  closed h := .inr fun _ _ => h
  fault h _ := h
  hold h := h
  off h := h
  pulse h _ := h

/-! ## The key read (R30, R65) -/

/-- Settles O44: OPEN with the key, IMAGE_READ_ERROR, or rest in a halted part. -/
theorem keyReadLeadsToOpen : Obligations.KeyReadLeadsToOpen := by
  intro s n l a aw hl port xfer idle state
  subst hl
  have at_n := at_freeWork (w := s.work) (n := n)
  refine ⟨fun part un ride key len => ?_, fun part live due => ?_, fun halted e fits => ?_⟩
  · obtain ⟨t, run, y, -, exact_⟩ := xferEnd_yields (n := n) aw part (fun env w => w.keyReadEnd env n (.ok key))
    have opens : (freeWork s.work n).keyReadEnd s.env n (.ok key)
        = (freeWork s.work n).request n ((s.work.lane n).openRequest key) := by
      unfold Work.keyReadEnd
      dsimp only
      rw [goOn_unstopped (by rw [at_n]; exact un), at_n]
      rfl
    rw [opens] at y exact_
    have ride' : ((freeWork s.work n).lane n).supply.state ≠ .riding := by rw [at_n]; exact ride
    have frame := frameOut_request ride' ((s.work.lane n).openRequest key)
    rw [← y.frameOut n] at frame
    have begun : t = (State.withLane { s with port := none } n ((freeLane (s.work.lane n)).beginRequest (1 :: key)
        ((s.work.lane n).openRequest key))).refreshIrq := by
      rw [exact_ ((sameJobs_freeWork s.work n).trans (sameJobs_request _ _ _)), request_begins ride', at_n, freeWork,
        setLane_setLane]
      rfl
    have lane : t.work.lane n
        = (freeLane (s.work.lane n)).beginRequest (1 :: key) ((s.work.lane n).openRequest key) := by
      rw [begun, refreshIrq_work, State.withLane, lane_setLane, if_pos rfl]
    refine ⟨t, (exec_keyReadEnd port xfer (by simpa [ReadEnd.fits] using len)).trans run, begun.trans ?_, by rw [lane]; rfl,
      by rw [lane]; rfl, by rw [lane]; rfl, frame.trans rfl⟩
    rw [lane]
    rfl
  · obtain ⟨t, run, y, free, -⟩ := xferEnd_yields (n := n) aw part (fun env w => w.keyReadEnd env n .error)
    have fails : (freeWork s.work n).keyReadEnd s.env n .error = (freeWork s.work n).finalize s.env n .imageReadError none :=
      xferFailed_final (by rw [at_n]; exact due) (by rw [at_n]; exact idle) _ _ _
    rw [fails] at y
    refine ⟨t, (exec_keyReadEnd port xfer rfl).trans run, free, ?_, by rw [y.isLive n, finalize_notLive],
      y.taken (taken_via (sameJobs_freeWork s.work n) _ _ _)⟩
    rw [y.lane n]
    exact (settled_xfer none).finalize (by rw [at_n]; rfl) _ _ _
  · have rests : s.xferEnd n (fun env w => w.keyReadEnd env n e)
        = State.withLane { s with port := none } n (freeLane (s.work.lane n)).rest := by
      unfold State.xferEnd
      rw [laneEvent_plain (s := s.xferOver n) (.inl (by simp [State.xferOver, halted]))]
      have still : (s.xferOver n).env.acting = false := by simp [State.env, Env.acting, State.xferOver, halted, PartState.acts]
      simp only [still, Bool.false_eq_true, if_false]
      have there : (s.xferOver n).work = freeWork s.work n := rfl
      rw [there]
      unfold Work.restIfQuiet
      rw [at_n, if_pos (by simp [Lane.atBoundary, Lane.linkIdle, freeLane, idle]), Work.modLane, at_n, freeWork, setLane_setLane]
      rfl
    have lane : (freeLane (s.work.lane n)).rest = { (freeLane (s.work.lane n)).toHold with
        ctx := { (freeLane (s.work.lane n)).toHold.ctx with fallbackCopy := none } } := by
      unfold Lane.rest
      rw [show (freeLane (s.work.lane n)).ctx.state = .linking from state]
    have run : exec (.keyReadEnd n e) s
        = .next (State.withLane { s with port := none } n (freeLane (s.work.lane n)).rest).refreshIrq := by
      rw [exec_keyReadEnd port xfer (by cases e with
        | ok key => simpa [ReadEnd.fits] using fits key rfl
        | error => rfl), rests]
      exact answer_sameJobs aw (sameJobs_setLane (by rw [lane]; rfl))
    refine ⟨_, run, rfl, ?_, ?_, ?_, ?_, ?_⟩ <;>
      simp only [refreshIrq_work, State.withLane, lane_setLane, if_true, lane] <;> rfl

/-! ## EXCHANGE, part by part (R123, R124) -/

section
variable {block : HostAddr} {es : List ExchangeEntry} {k : Nat} {x : ExchangeEntry}

theorem exchangeGo_request (un : (w.lane n).Unstopped) (idx : (w.lane n).eng.entryIdx = k) (entry : es[k]? = some x)
    (part : (w.lane n).eng.exPart = .request) : w.exchangeGo env n block es = w.request n (entryRequest x) := by
  unfold Work.exchangeGo
  rw [goOn_unstopped un]
  simp only [idx, entry, part]

theorem exchangeGo_reply (un : (w.lane n).Unstopped) (idx : (w.lane n).eng.entryIdx = k) (entry : es[k]? = some x)
    (part : (w.lane n).eng.exPart = .reply) (ride : (w.lane n).supply.state ≠ .riding) {f : List Byte}
    (frame : (w.lane n).eng.xbuf = f) : w.exchangeGo env n block es = w.modLane n (fun l => { l with eng := { l.eng with
      xfer := some (.replyWrite (exchangeReplyArea block k)
        ([byteAt f 1, byteAt f 2, byteAt f 3, 0] ++ slice f 4 2 ++ [0, 0] ++ slice f 6 (replyLen f)))
      held := none } }) := by
  unfold Work.exchangeGo
  rw [goOn_unstopped un]
  simp only [idx, entry, part, transfer_begins ride, frame]

theorem stepGo_exchange {fresh : Bool} {e : EndAction} {key : HostAddr}
    (args : (w.jobOf n).map JobSlot.args = some (.exchange fresh e block key es)) (step : (w.lane n).ctx.step = .exchange)
    (env : Env) : w.stepGo env n = w.exchangeGo env n block es := by
  unfold Work.stepGo
  rw [args]
  exact if_pos step

/-- The code word of a result that is final in the EXCHANGE step (R124). -/
theorem finalize_coded {fresh : Bool} {e : EndAction} {key : HostAddr} {code : Word} (job : w.jobOf n = some j)
    (args : j.args = .exchange fresh e block key es) (step : (w.lane n).ctx.step = .exchange)
    (idx : (w.lane n).eng.entryIdx = k) (entry : es[k]? = some x) (hcode : code = BitVec.ofNat 32 (k + 256 * x.kind.toNat))
    (hr : r ∉ [.laneFaulted, .cancelled]) (env : Env) (fa : Option Word) :
    w.ResultTakenAt (w.finalize env n r fa) n r (some code) := by
  refine finalize_copied env r fa fun i j' a b => ?_
  have : j' = j := Option.some.inj ((jobOf_slot a b).symm.trans job)
  subst this
  simp only [List.mem_cons, List.not_mem_nil, or_false, not_or] at hr
  show j'.faultAddrFor (w.lane n) r fa = _
  unfold JobSlot.faultAddrFor
  rw [args]
  simp only [hr, if_false, step, ne_eq, not_false_eq_true, and_self, if_true, idx]
  rw [exchangeWord, entry, hcode]
  rfl

/-- The bytes of a reply frame, as the reply record takes them (Table 12-6). -/
theorem replyRecord_eq {kind seq status : Byte} {p : List Byte} (short : p.length ≤ 264) {f : List Byte}
    (hf : f = replyFrame kind seq status p) : [byteAt f 1, byteAt f 2, byteAt f 3, 0] ++ slice f 4 2 ++ [0, 0] ++ slice f 6 (replyLen f)
      = [kind, seq, status, 0] ++ leBytes 2 p.length ++ [0, 0] ++ p := by
  subst hf
  have len : replyLen (replyFrame kind seq status p) = p.length := by
    unfold replyLen replyFrame replyWith
    rw [List.append_assoc, List.append_assoc, fieldAt_append_right (le_refl 4), fieldAt_append_left (le_refl 2)]
    exact fieldAt_leBytes (by omega)
  rw [len]
  congr 1
  show (p ++ leBytes 2 _).take p.length = p
  exact List.take_left

end

/-- The payload is in the exchange buffer, and the request is next. -/
def loaded (data : List Byte) (l : Lane) : Lane := { l with eng := { l.eng with xbuf := data, exPart := .request } }

/-- The reply's frame is in the exchange buffer, and its record is next. -/
def answered (frame : List Byte) (l : Lane) : Lane := { l with eng := { l.eng with xbuf := frame, exPart := .reply } }

/-- The next entry is due. -/
def nextEntry (l : Lane) : Lane := { l with eng := { l.eng with entryIdx := l.eng.entryIdx + 1, exPart := .payload } }

/-- Settles O50: payload, request and reply record, entry by entry. -/
theorem exchangeEntriesInOrder : Obligations.ExchangeEntriesInOrder := by
  intro s n l j fresh e block key es k x code aw hl part live job args un ride step idx entry hcode
  subst hl
  have at_f := at_freeWork (w := s.work) (n := n)
  have same := sameJobs_freeWork s.work n
  obtain ⟨jf, jobf, argsf, -⟩ := job_after same job
  have inside : k < es.length := by
    by_contra h
    rw [List.getElem?_eq_none (by omega)] at entry
    cases entry
  -- a transfer that fails gives the code word of the entry
  have fails : ∀ {r : LaneResult} {t : State}, r ∉ [.laneFaulted, .cancelled] → (s.work.lane n).link.state = .idle →
      Yields ((freeWork s.work n).xferFailed s.env n r none) t →
      t.work.isLive n = false ∧ s.work.ResultTakenAt t.work n r (some code) := fun hr idle y => by
    rw [xferFailed_final (by rw [at_f]; exact un.2) (by rw [at_f]; exact idle)] at y
    exact ⟨by rw [y.isLive n, finalize_notLive], y.copied (same.copied (finalize_coded jobf (argsf.trans args)
      (by rw [at_f]; exact step) (by rw [at_f]; exact idx) entry hcode hr _ _))⟩
  refine ⟨fun a port xfer idle => ⟨fun data len => ?_, ?_⟩, fun q status p free state listens req purpose kind good short => ?_,
    fun a data port xfer idle => ?_⟩
  · obtain ⟨t, run, y, port', -⟩ := xferEnd_yields (n := n) aw part (fun env w => w.payloadReadEnd env n (.ok data))
    have at_v : ((freeWork s.work n).modLane n (loaded data)).lane n = loaded data (freeLane (s.work.lane n)) := by
      rw [lane_modLane, if_pos rfl, at_f]
    have sends : (freeWork s.work n).payloadReadEnd s.env n (.ok data)
        = ((freeWork s.work n).modLane n (loaded data)).request n (entryRequest x) := by
      obtain ⟨j', job', args', -⟩ := job_after (sameJobs_modLane (w := freeWork s.work n) (n := n) (f := loaded data) rfl) jobf
      refine (stepGo_exchange (w := (freeWork s.work n).modLane n (loaded data))
        (by rw [job', Option.map_some, args', argsf, args]) (by rw [at_v]; exact step) s.env).trans ?_
      exact exchangeGo_request (by rw [at_v]; exact un) (by rw [at_v]; exact idx) entry (by rw [at_v]; rfl)
    rw [sends] at y
    have ride' : (((freeWork s.work n).modLane n (loaded data)).lane n).supply.state ≠ .riding := by rw [at_v]; exact ride
    have frame := frameOut_request ride' (entryRequest x)
    rw [← y.frameOut n, payload_entry, at_v] at frame
    rw [request_begins ride', at_v] at y
    have lane := y.lane n
    rw [lane_setLane, if_pos rfl] at lane
    refine ⟨t, (exec_payloadReadEnd port xfer (by simpa [ReadEnd.fits] using len)).trans run, port', by rw [lane]; rfl,
      by rw [lane]; rfl, by rw [lane]; rfl, by rw [lane]; rfl, by rw [lane]; rfl, frame.trans ?_, fun m hm => ?_⟩
    · rw [show (loaded data (freeLane (s.work.lane n))).eng.xbuf = data from rfl, ← len, List.take_length]
      rfl
    · rw [y.lane m, lane_setLane, if_neg hm, lane_modLane, if_neg hm, freeWork, lane_setLane, if_neg hm]
  · obtain ⟨t, run, y, port', -⟩ := xferEnd_yields (n := n) aw part (fun env w => w.payloadReadEnd env n .error)
    exact ⟨t, (exec_payloadReadEnd port xfer rfl).trans run, port', fails (by simp) idle y⟩
  · obtain ⟨t, run, y, -⟩ := reply_yields (p := p) aw part listens req (by rw [purpose]; rfl) short good
      (frame := replyFrame (x.kind + 0x80#8) (s.work.lane n).link.seq status p) (by rw [kind])
    have at_n := at_closedWork (w := s.work) (n := n) true
    generalize hf : replyFrame (x.kind + 0x80#8) (s.work.lane n).link.seq status p = f at y run
    have at_v : ((closedWork s.work n true).modLane n (answered f)).lane n = answered f (closedLane true (s.work.lane n)) := by
      rw [lane_modLane, if_pos rfl, at_n]
    have writes : (closedWork s.work n true).replyTaken s.env n q f status p
        = ((closedWork s.work n true).modLane n (answered f)).modLane n (fun l => { l with eng := { l.eng with
          xfer := some (.replyWrite (exchangeReplyArea block k)
            ([byteAt f 1, byteAt f 2, byteAt f 3, 0] ++ slice f 4 2 ++ [0, 0] ++ slice f 6 (replyLen f)))
          held := none } }) := by
      obtain ⟨j', job', args', -⟩ := job_after ((sameJobs_closedWork s.work n true).trans
        (sameJobs_modLane (w := closedWork s.work n true) (n := n) (f := answered f) rfl)) job
      unfold Work.replyTaken
      rw [if_pos purpose]
      refine (goOn_unstopped (w := (closedWork s.work n true).modLane n (answered f)) (by rw [at_v]; exact un) _ _).trans ?_
      rw [stepGo_exchange (by rw [job', Option.map_some, args', args]) (by rw [at_v]; exact step)]
      exact exchangeGo_reply (by rw [at_v]; exact un) (by rw [at_v]; exact idx) entry (by rw [at_v]; rfl)
        (by rw [at_v]; exact ride) (by rw [at_v]; rfl)
    rw [writes, replyRecord_eq short hf.symm] at y
    have lane := y.lane n
    rw [lane_modLane, if_pos rfl, at_v] at lane
    refine ⟨t, run, ?_, by rw [lane]; rfl, by rw [lane]; rfl⟩
    rw [lane]
    exact if_pos state
  · obtain ⟨t, run, y, port', -⟩ := xferEnd_yields (n := n) aw part (fun env w => w.replyWriteEnd env n .ok)
    obtain ⟨u, run_u, y_u, port_u, -⟩ := xferEnd_yields (n := n) aw part (fun env w => w.replyWriteEnd env n .error)
    have written : (freeWork s.work n).replyWriteEnd s.env n .ok
        = if es.length ≤ k + 1 then (freeWork s.work n).finalize s.env n .done none
          else ((freeWork s.work n).modLane n nextEntry).exchangeGo s.env n block es := by
      show (freeWork s.work n).replyWritten s.env n = _
      unfold Work.replyWritten
      rw [jobf, Option.map_some, argsf, args]
      dsimp only
      rw [goOn_unstopped (by rw [at_f]; exact un)]
      have due : (freeLane (s.work.lane n)).eng.due.isNone = true := by
        rw [show (freeLane (s.work.lane n)).eng.due = none from un.2]
        rfl
      simp only [at_f, due, true_and, show (freeLane (s.work.lane n)).eng.entryIdx = k from idx]
      rfl
    refine ⟨t, u, (exec_replyWriteEnd port xfer _).trans run, (exec_replyWriteEnd port xfer _).trans run_u, port', port_u,
      fun last => ?_, fun z next => ?_, fails (by simp) idle y_u⟩
    · rw [written, if_pos (by omega)] at y
      exact ⟨by rw [y.isLive n, finalize_notLive], y.copied (same.copied (finalize_coded jobf (argsf.trans args)
        (by rw [at_f]; exact step) (by rw [at_f]; exact idx) entry hcode (by simp) _ _))⟩
    · have more : k + 1 < es.length := by
        by_contra h
        rw [List.getElem?_eq_none (by omega)] at next
        cases next
      rw [written, if_neg (by omega)] at y
      have at_v : ((freeWork s.work n).modLane n nextEntry).lane n = nextEntry (freeLane (s.work.lane n)) := by
        rw [lane_modLane, if_pos rfl, at_f]
      have un' : (((freeWork s.work n).modLane n nextEntry).lane n).Unstopped := by rw [at_v]; exact un
      have idx' : (((freeWork s.work n).modLane n nextEntry).lane n).eng.entryIdx = k + 1 := by
        rw [at_v]
        exact congrArg (· + 1) idx
      have part' : (((freeWork s.work n).modLane n nextEntry).lane n).eng.exPart = .payload := by rw [at_v]; rfl
      have ride' : (((freeWork s.work n).modLane n nextEntry).lane n).supply.state ≠ .riding := by rw [at_v]; exact ride
      by_cases len : z.len = 0
      · rw [exchangeGo_empty un' idx' next part' len] at y
        have at_e : (((freeWork s.work n).modLane n nextEntry).modLane n emptied).lane n
            = emptied (nextEntry (freeLane (s.work.lane n))) := by rw [lane_modLane, if_pos rfl, at_v]
        have ride2 : ((((freeWork s.work n).modLane n nextEntry).modLane n emptied).lane n).supply.state ≠ .riding := by
          rw [at_e]
          exact ride
        have frame := frameOut_request ride2 (entryRequest z)
        rw [← y.frameOut n, payload_entry, at_e] at frame
        rw [request_begins ride2, at_e] at y
        have lane := y.lane n
        rw [lane_setLane, if_pos rfl] at lane
        refine ⟨by rw [lane]; exact congrArg (· + 1) idx, fun h => absurd len h, fun _ => frame.trans ?_⟩
        rw [len]
        rfl
      · rw [exchangeGo_payload un' idx' next part' len ride'] at y
        have lane := y.lane n
        rw [lane_modLane, if_pos rfl, at_v] at lane
        exact ⟨by rw [lane]; exact congrArg (· + 1) idx, fun _ => by rw [lane]; rfl, fun h => absurd h len⟩

end Sys2Proof.Proofs
end

section
/-! READOUT: O49. -/

namespace Sys2Proof.Proofs

-- One theorem at a time: a thread for each would ask for more stack than the check allows.
set_option Elab.async false

open Sys2Proof.Machine Sys2Proof.Laws

variable {s t u : State} {v w w' : Work} {env : Env} {n m : LaneId} {i : SlotId} {j : JobSlot} {l : Lane} {r : LaneResult}
  {q : Request} {b b' : BufId} {c : CtxId} {size : Nat}

/-! ## A buffer that is free stays so while its lane ends (R86, R119) -/

theorem buf_leave (env : Env) : (w.leave env n).buf b = w.buf b := by
  rcases leave_cases w env n with e | ⟨i, -, v, hv, e | ⟨j, -, -, e⟩ | ⟨-, e⟩⟩
  · rw [e]
  · rw [e, hv]
    rfl
  · rw [e, hv]
    rfl
  · rw [e, completeAs_buf, hv]
    rfl

theorem buf_finishEnd (env : Env) (e : EndAction) : (w.finishEnd env n e).buf b = w.buf b := by
  unfold Work.finishEnd
  split
  · exact buf_leave env
  · split
    · exact buf_leave env
    · exact buf_leave env
    · exact buf_leave env
    · rfl

theorem buf_request (q : Request) : (w.request n q).buf b = w.buf b := by
  unfold Work.request Work.holdBack
  split <;> rfl

theorem buf_startEnd (env : Env) (e : EndAction) : (w.startEnd env n e).buf b = w.buf b := by
  have rest : ∀ v : Work, v.buf b = w.buf b → (if e = .keep then v.finishEnd env n .keep
      else if (v.lane n).ctx.session ∧ (v.lane n).ctx.answered then v.request n ((v.lane n).closeRequest (.closeEnd e))
      else v.finishEnd env n e).buf b = w.buf b := fun v hv => by
    split
    · rw [buf_finishEnd, hv]
    · split
      · rw [buf_request, hv]
      · rw [buf_finishEnd, hv]
  unfold Work.startEnd
  dsimp only
  refine rest _ ?_
  split <;> rfl

theorem buf_destination (env : Env) (args : JobArgs) (r : LaneResult) : (destination w env n args r).buf b = w.buf b := by
  unfold destination
  split
  iterate 3 exact buf_leave env
  iterate 4 exact buf_leave env
  all_goals
    split
    · exact buf_startEnd env _
    · exact buf_leave env

theorem buf_record (r : LaneResult) (fa : Option Word) : (w.record n r fa).buf b = w.buf b := by
  unfold Work.record
  split
  · rfl
  · split
    · rfl
    · split <;> rfl

/-- The end of a READOUT frees both floor buffers of its context (R119). -/
theorem buf_finalize_readout {fresh : Bool} {e : EndAction} {host key : HostAddr} {start len : Word} (live : w.isLive n = true)
    (job : w.jobOf n = some j) (args : j.args = .readout fresh e host key start len) (ctx : j.ctx = some c) (env : Env)
    (r : LaneResult) (fa : Option Word) : (w.finalize env n r fa).buf b
      = if b = floorA c ∨ b = floorB c then .free else w.buf b := by
  obtain ⟨j', job', args', ctx'⟩ := jobOf_record job r fa
  have frees : unbound (w.record n r fa) n j' = (w.record n r fa).freeFloors c := by
    unfold unbound
    rw [ctx', ctx, args', args]
  rw [Work.finalize, if_pos live, settle_eq job' r, buf_destination, frees, Work.freeFloors, buf_freeBuf, buf_freeBuf, buf_record]
  by_cases hb : b = floorB c
  · simp [hb]
  · by_cases ha : b = floorA c <;> simp [ha, hb]

/-! ## The two floor buffers of a READOUT (R87, R119, R120) -/

/-- `b` and `other` are the two floor buffers of context `c`. -/
def Floors (c : CtxId) (b other : BufId) : Prop :=
  (b = floorA c ∧ other = floorB c) ∨ (b = floorB c ∧ other = floorA c)

theorem floors_of {other : BufId} (h : (b.val = 2 * c.val ∧ other.val = 2 * c.val + 1) ∨ (b.val = 2 * c.val + 1 ∧ other.val = 2 * c.val)) :
    Floors c b other := by
  have a : (floorA c).val = 2 * c.val := rfl
  have b' : (floorB c).val = 2 * c.val + 1 := rfl
  rcases h with ⟨h, g⟩ | ⟨h, g⟩
  · exact .inl ⟨Fin.ext (h.trans a.symm), Fin.ext (g.trans b'.symm)⟩
  · exact .inr ⟨Fin.ext (h.trans b'.symm), Fin.ext (g.trans a.symm)⟩

theorem floors_ne : floorA c ≠ floorB c := by
  revert c
  decide

/-- The page that is written next is the one that is HELD alone. -/
theorem writeNext_held {other : BufId} (floors : Floors c b other) (held : (w.buf b).state = .held)
    (alone : (w.buf other).state ≠ .held) : w.writeNext c = some b := by
  unfold Work.writeNext
  rcases floors with ⟨rfl, rfl⟩ | ⟨rfl, rfl⟩
  · simp [held, alone]
  · simp [held, alone]

theorem writeNext_none {other : BufId} (floors : Floors c b other) (free : (w.buf b).state ≠ .held)
    (alone : (w.buf other).state ≠ .held) : w.writeNext c = none := by
  unfold Work.writeNext
  rcases floors with ⟨rfl, rfl⟩ | ⟨rfl, rfl⟩
  · simp [free, alone]
  · simp [free, alone]

section
variable {start len : Nat} {host : HostAddr}

theorem stepGo_readout {fresh : Bool} {e : EndAction} {key : HostAddr} {first count : Word}
    (args : (w.jobOf n).map JobSlot.args = some (.readout fresh e host key first count)) (ctx : w.laneCtx n = some c)
    (env : Env) : w.stepGo env n
      = (w.hostWriteGo n c first.toNat count.toNat host).readGo n c first.toNat count.toNat := by
  unfold Work.stepGo
  rw [args, ctx]

theorem hostWriteGo_begins (next : w.writeNext c = some b) (free : (w.lane n).eng.xfer = none) (un : (w.lane n).Unstopped)
    (ride : (w.lane n).supply.state ≠ .riding) : w.hostWriteGo n c start len host = w.modLane n (fun l => { l with eng :=
      { l.eng with
        xfer := some (.pageWrite b (w.buf b).page (addrPlus host (max (w.buf b).page start - start))
          (slice (w.buf b).data (max (w.buf b).page start - (w.buf b).page)
            (min ((w.buf b).page + (w.buf b).data.length) (start + len) - max (w.buf b).page start)))
        held := none } }) := by
  unfold Work.hostWriteGo
  simp only [next, free, stopResult_unstopped un, transfer_begins ride, Option.isNone_none, and_self, if_true]

theorem hostWriteGo_none (next : w.writeNext c = none) : w.hostWriteGo n c start len host = w := by
  unfold Work.hostWriteGo
  rw [next]

theorem readGo_none (h : (w.lane n).eng.readPage = none) : w.readGo n c start len = w := by
  unfold Work.readGo
  simp only [h]

/-- The lane with its READ of one page begun: what it reads next. -/
def reading (next : Option Nat) (l : Lane) : Lane := { l with eng := { l.eng with readPage := next } }

/-- A READ begins in the floor buffer `other` (R119). -/
theorem readGo_into {other : BufId} {page : Nat}
    (floor : (if w.bufFree (floorA c) then some (floorA c) else if w.bufFree (floorB c) then some (floorB c) else none) = some other)
    (due : (w.lane n).eng.readPage = some page) (state : (w.lane n).ctx.state = .ready)
    (step : (w.lane n).ctx.step = .read) (idle : (w.lane n).link.state = .idle) (un : (w.lane n).Unstopped)
    (ride : (w.lane n).supply.state ≠ .riding) : ∃ next, w.readGo n c start len =
      ((w.setBuf other { state := .filling, owner := some c, pass := .write, page := page, count := 1, data := [] }).modLane n
        (reading next)).request n ((w.lane n).readRequest (.readout page other) page (w.lane n).targetPage) := by
  unfold Work.readGo
  dsimp only
  rw [due, floor]
  dsimp only
  rw [if_pos ⟨state, step, by simp [Lane.linkIdle, idle], by rw [stopResult_unstopped un]; rfl⟩, if_neg (not_riding ride)]
  exact ⟨_, rfl⟩

/-- A READ begins in the floor buffer that is FREE (R119). -/
theorem readGo_begins {other : BufId} {page : Nat} (floors : Floors c b other) (busy : (w.buf b).state ≠ .free)
    (free : (w.buf other).state = .free) (due : (w.lane n).eng.readPage = some page) (state : (w.lane n).ctx.state = .ready)
    (step : (w.lane n).ctx.step = .read) (idle : (w.lane n).link.state = .idle) (un : (w.lane n).Unstopped)
    (ride : (w.lane n).supply.state ≠ .riding) : ∃ next, w.readGo n c start len =
      ((w.setBuf other { state := .filling, owner := some c, pass := .write, page := page, count := 1, data := [] }).modLane n
        (reading next)).request n ((w.lane n).readRequest (.readout page other) page (w.lane n).targetPage) := by
  have floor : (if w.bufFree (floorA c) then some (floorA c) else if w.bufFree (floorB c) then some (floorB c) else none)
      = some other := by
    unfold Work.bufFree
    rcases floors with ⟨rfl, rfl⟩ | ⟨rfl, rfl⟩
    · simp [busy, free]
    · simp [free]
  exact readGo_into floor due state step idle un ride

theorem xfer_request (q : Request) : ((w.request n q).lane n).eng.xfer = (w.lane n).eng.xfer := by
  unfold Work.request Work.holdBack
  split
  · rw [lane_modLane, if_pos rfl]
  · rw [lane_modLane, if_pos rfl]
    rfl

/-- A READ leaves a buffer that is not FREE, and the lane's host transfer, as they are. -/
theorem readGo_keeps (busy : (w.buf b).state ≠ .free) : (w.readGo n c start len).buf b = w.buf b
    ∧ ((w.readGo n c start len).lane n).eng.xfer = (w.lane n).eng.xfer := by
  unfold Work.readGo
  dsimp only
  split
  · next page f _ floor =>
    have other : b ≠ f := by
      rintro rfl
      revert floor
      unfold Work.bufFree
      split
      · next h =>
        intro e
        cases e
        exact busy (by simpa using h)
      · split
        · next h =>
          intro e
          cases e
          exact busy (by simpa using h)
        · intro e
          cases e
    split
    · split
      · exact ⟨rfl, by rw [Work.holdBack, lane_modLane, if_pos rfl]⟩
      · refine ⟨?_, ?_⟩
        · rw [buf_request, buf_modLane, buf_setBuf, if_neg other]
        · rw [xfer_request, lane_modLane, if_pos rfl]
          rfl
    · exact ⟨rfl, rfl⟩
  · exact ⟨rfl, rfl⟩

end

/-! ## The statement -/

/-- A reply does not touch the memory port. -/
theorem reply_port (aw : s.Awake) (listens : (s.work.lane n).Listens) {frame : List Byte}
    (run : exec (.replyFrameComplete n frame) s = .next t) : t.port = s.port := by
  obtain ⟨t', e, -, -, port⟩ := answer_yields aw (s.linkEvent n (fun env l => l.judge env frame))
  rw [exec_replyFrame listens, e] at run
  cases run
  exact port

/-- The page of a reply stands in its buffer. -/
theorem modBuf_filling {p : List Byte} (filling : (w.buf b).state = .filling) :
    w.modBuf b (fun x => if x.state = .filling then { x with state := .held, data := p } else x)
      = w.setBuf b { w.buf b with state := .held, data := p } := by
  rw [Work.modBuf, if_pos filling]

/-- The reply to a READ of a READOUT. -/
theorem readout_reply (s : State) (n : LaneId) (l : Lane) (j : JobSlot) (c : CtxId) (fresh : Bool) (e : EndAction)
    (host key : HostAddr) (start len : Word) (d : TargetDesc) (size : Nat) (b other : BufId) (page : Nat) (aw : s.Awake)
    (hl : l = s.work.lane n) (part : s.part.state ∈ [.loading, .running, .quiescing, .quiesced])
    (job : s.work.jobOf n = some j) (ctx : j.ctx = some c)
    (args : j.args = .readout fresh e host key start len) (un : l.Unstopped) (ride : l.supply.state ≠ .riding)
    (step : l.ctx.step = .read) (desc : l.ctx.desc = some d) (hsize : size = 64 * 2 ^ d.pageCode.toNat) (small : size < 65536)
    (floors : Floors c b other) (q : Request) (p : List Byte) (free : l.eng.xfer = none) (state : l.ctx.state = .active)
    (listens : l.Listens) (req : l.link.req = some q) (purpose : q.purpose = .readout page b) (kind : q.kind = 0x06#8)
    (source : q.source = .engine (leBytes 4 page ++ leBytes 2 size)) (full : p.length = size) (short : size ≤ 264)
    (filling : (s.work.buf b).state = .filling) (at_page : (s.work.buf b).page = page)
    (alone : (s.work.buf other).state ≠ .held) :
    ∃ t, exec (.replyFrameComplete n (replyFrame 0x86#8 l.link.seq 0 p)) s = .next t
      ∧ (t.work.buf b).state = .held ∧ (t.work.buf b).data = p ∧ t.port = s.port
      ∧ (∀ lo hi, lo = max page start.toNat → hi = min (page + size) (start.toNat + len.toNat) →
          (t.work.lane n).eng.xfer = some (.pageWrite b page (host + BitVec.ofNat 64 (lo - start.toNat))
            ((p.drop (lo - page)).take (hi - lo))))
      ∧ ∀ next, l.eng.readPage = some next → (s.work.buf other).state = .free →
          (t.work.buf other).state = .filling ∧ (t.work.lane n).ctx.state = .active
            ∧ t.work.frameOut n = some (requestFrame 0x06#8 (l.ctx.seq + 1) (leBytes 4 next ++ leBytes 2 size)) := by
  subst hl
  obtain ⟨t, run, y, -⟩ := reply_yields (status := 0) (p := p) aw part listens req (by rw [purpose]; rfl) (by omega) (by decide)
    (frame := replyFrame 0x86#8 (s.work.lane n).link.seq 0 p) (by rw [kind]; rfl)
  have at_n := at_closedWork (w := s.work) (n := n) true
  have distinct : other ≠ b := by
    rcases floors with ⟨rfl, rfl⟩ | ⟨rfl, rfl⟩
    · exact floors_ne.symm
    · exact floors_ne
  -- the tables with the page in its buffer
  obtain ⟨v, hv⟩ : ∃ v, v = (closedWork s.work n true).setBuf b { s.work.buf b with state := .held, data := p } := ⟨_, rfl⟩
  have at_v : v.lane n = closedLane true (s.work.lane n) := by rw [hv]; exact at_n
  have same_v : SameJobs s.work v := by
    rw [hv]
    exact (sameJobs_closedWork s.work n true).trans (sameJobs_setBuf ..)
  have page_v : v.buf b = { s.work.buf b with state := .held, data := p } := by rw [hv, buf_setBuf, if_pos rfl]
  have other_v : v.buf other = s.work.buf other := by rw [hv, buf_setBuf, if_neg distinct]; rfl
  obtain ⟨j', job', args', ctx', -⟩ := job_after same_v job
  have un_v : (v.lane n).Unstopped := by rw [at_v]; exact un
  have taken : (closedWork s.work n true).replyTaken s.env n q (replyFrame 0x86#8 (s.work.lane n).link.seq 0 p) 0 p
      = (v.hostWriteGo n c start.toNat len.toNat host).readGo n c start.toNat len.toNat := by
    rw [replyTaken_ok _ (by simp [purpose]) (by simp [purpose]) (by
      simp only [Request.replyLength, purpose, source, full]
      exact (readLength page small).symm)]
    unfold Work.replySuccess Work.readoutReply
    rw [purpose]
    dsimp only
    rw [modBuf_filling (w := closedWork s.work n true) filling]
    rw [← show v = (closedWork s.work n true).setBuf b { (closedWork s.work n true).buf b with state := .held, data := p } from hv,
      goOn_unstopped un_v]
    exact stepGo_readout (by rw [job', Option.map_some, args', args]) (laneCtx_of_job job' (ctx'.trans ctx)) _
  have ride_v : (v.lane n).supply.state ≠ .riding := by rw [at_v]; exact ride
  have writes := hostWriteGo_begins (start := start.toNat) (len := len.toNat) (host := host)
    (writeNext_held (w := v) floors (by rw [page_v]) (by rw [other_v]; exact alone)) (by rw [at_v]; exact free) un_v ride_v
  rw [taken] at y
  obtain ⟨x, hx⟩ : ∃ x, x = v.hostWriteGo n c start.toNat len.toNat host := ⟨_, rfl⟩
  rw [← hx] at y
  have buf_x : ∀ b', x.buf b' = v.buf b' := fun b' => by rw [hx, writes]; rfl
  have busy : (x.buf b).state ≠ .free := by rw [buf_x, page_v]; simp
  obtain ⟨keeps, xfer⟩ := readGo_keeps (w := x) (n := n) (c := c) (start := start.toNat) (len := len.toNat) busy
  refine ⟨t, run, by rw [y.buf b, keeps, buf_x, page_v], by rw [y.buf b, keeps, buf_x, page_v], ?_, fun lo hi hlo hhi => ?_,
    fun next due free_other => ?_⟩
  · exact reply_port aw listens run
  · rw [y.lane n, xfer, hx, writes, lane_modLane, if_pos rfl, page_v]
    simp only [at_page, full]
    rw [← hlo, ← hhi]
    rfl
  · have lane_x : x.lane n = { closedLane true (s.work.lane n) with eng := (x.lane n).eng } := by
      rw [hx, writes, lane_modLane, if_pos rfl, at_v]
    have eng_x : (x.lane n).eng.readPage = some next ∧ (x.lane n).Unstopped := by
      rw [hx, writes, lane_modLane, if_pos rfl, at_v]
      exact ⟨due, un⟩
    have target : (x.lane n).targetPage = size := by
      rw [lane_x, Lane.targetPage, show (closedLane true (s.work.lane n)).ctx.desc = some d from desc, hsize]
      rfl
    have ride_x : (x.lane n).supply.state ≠ .riding := by rw [lane_x]; exact ride
    obtain ⟨after, begins⟩ := readGo_begins (start := start.toNat) (len := len.toNat) floors busy
      (by rw [buf_x, other_v]; exact free_other) eng_x.1 (by rw [lane_x]; exact if_pos state) (by rw [lane_x]; exact step)
      (by rw [lane_x]; rfl) eng_x.2 ride_x
    rw [begins, target] at y
    have at_r : ∀ z : PageBuf, ((x.setBuf other z).modLane n (reading after)).lane n = reading after (x.lane n) := fun z => by
      rw [lane_modLane, if_pos rfl]
      rfl
    have frame := frameOut_request (n := n) (w := (x.setBuf other
        { state := .filling, owner := some c, pass := .write, page := next, count := 1, data := [] }).modLane n (reading after))
      (by rw [at_r]; exact ride_x)
      ((x.lane n).readRequest (.readout next other) next size)
    rw [← y.frameOut n, at_r] at frame
    refine ⟨by rw [y.buf other, buf_request, buf_modLane, buf_setBuf, if_pos rfl], ?_, frame.trans ?_⟩
    · rw [y.lane n, request_begins (by rw [at_r]; exact ride_x), lane_setLane, if_pos rfl]
      rfl
    · rw [lane_x]
      rfl

/-- Settles O49: a page goes to its buffer, to the host, and the last one ends the job. -/
theorem readoutPagesReachTheHost : Obligations.ReadoutPagesReachTheHost := by
  intro s n l j c fresh e host key start len d size b other page aw hl part live job ctx args un ride step desc hsize small hfloors
  have floors := floors_of hfloors
  refine ⟨fun q p free state listens req purpose kind source full short filling at_page alone =>
    readout_reply s n l j c fresh e host key start len d size b other page aw hl part job ctx args un ride step desc hsize
      small floors q p free state listens req purpose kind source full short filling at_page alone,
    fun a data port xfer idle => ?_⟩
  subst hl
  obtain ⟨t, run, y, port', -⟩ := xferEnd_yields (n := n) aw part (fun env w => w.pageWriteEnd env n b page .ok)
  obtain ⟨u, run_u, y_u, port_u, -⟩ := xferEnd_yields (n := n) aw part (fun env w => w.pageWriteEnd env n b page .error)
  have at_f := at_freeWork (w := s.work) (n := n)
  have same := sameJobs_freeWork s.work n
  have freed := same.trans (sameJobs_freeBuf (freeWork s.work n) b)
  have at_v : ((freeWork s.work n).freeBuf b).lane n = freeLane (s.work.lane n) := by rw [lane_freeBuf, at_f]
  obtain ⟨j', job', args', ctx', -⟩ := job_after freed job
  have free_b : ((freeWork s.work n).freeBuf b).buf b = PageBuf.free := by rw [buf_freeBuf, if_pos rfl]
  have live' : ((freeWork s.work n).freeBuf b).isLive n = true := by rw [freed.isLive n, live]
  have written : (freeWork s.work n).pageWriteEnd s.env n b page .ok
      = if page = (start.toNat + len.toNat - 1) / size * size then ((freeWork s.work n).freeBuf b).finalize s.env n .done none
        else ((freeWork s.work n).freeBuf b).stepGo s.env n := by
    show (freeWork s.work n).pageWritten s.env n b page = _
    unfold Work.pageWritten
    dsimp only
    rw [job', Option.map_some, args', args]
    dsimp only
    rw [goOn_unstopped (by rw [at_v]; exact un), at_v, show (freeLane (s.work.lane n)).eng.due = none from un.2]
    have target : (freeLane (s.work.lane n)).targetPage = size := by
      rw [Lane.targetPage, show (freeLane (s.work.lane n)).ctx.desc = some d from desc, hsize]
      rfl
    rw [target]
    simp only [Option.isNone_none, true_and]
    rfl
  obtain ⟨jf, jobf, argsf, -⟩ := job_after same job
  refine ⟨t, u, (exec_pageWriteEnd port xfer _).trans run, (exec_pageWriteEnd port xfer _).trans run_u, port', port_u,
    fun last => ?_, fun more due alone => ?_, ?_⟩
  · rw [written, if_pos last] at y
    refine ⟨?_, by rw [y.isLive n, finalize_notLive], y.taken (taken_via freed _ _ _)⟩
    rw [y.buf b, buf_finalize_readout live' job' (args'.trans args) (ctx'.trans ctx), free_b, ite_self]
    rfl
  · have distinct : other ≠ b := by
      rcases floors with ⟨rfl, rfl⟩ | ⟨rfl, rfl⟩
      · exact floors_ne.symm
      · exact floors_ne
    rw [written, if_neg more, stepGo_readout (by rw [job', Option.map_some, args', args]) (laneCtx_of_job job' (ctx'.trans ctx)),
      hostWriteGo_none (writeNext_none floors (by rw [free_b]; simp [PageBuf.free])
        (by rw [buf_freeBuf, if_neg distinct]; exact alone)), readGo_none (by rw [at_v]; exact due)] at y
    exact ⟨by rw [y.buf b, free_b]; rfl, by rw [y.isLive n, live'], by rw [y.lane n, at_v]; rfl⟩
  · have plain : Plain jf ((freeWork s.work n).lane n) :=
      ⟨by rw [argsf, args]; rfl, fun _ _ _ _ _ h => by rw [argsf, args] at h; cases h⟩
    have fails : (freeWork s.work n).pageWriteEnd s.env n b page .error
        = (freeWork s.work n).finalize s.env n .hostWriteError (some (BitVec.ofNat 32 page)) :=
      xferFailed_final (by rw [at_f]; exact un.2) (by rw [at_f]; exact idle) _ _ _
    rw [fails] at y_u
    exact ⟨by rw [y_u.isLive n, finalize_notLive], y_u.copied (same.copied (finalize_at jobf plain (by simp) _ _))⟩

end Sys2Proof.Proofs
end

section
/-! The passes of an image, and the pages that a lane leaves: O48. -/

namespace Sys2Proof.Proofs

-- One theorem at a time: a thread for each would ask for more stack than the check allows.
set_option Elab.async false

open Sys2Proof.Machine Sys2Proof.Laws

variable {s t u : State} {v w w' : Work} {env : Env} {n m : LaneId} {i : SlotId} {j : JobSlot} {l : Lane} {b : BufId}
  {c d : CtxId} {x : ImageCtx}

/-! ## Operations on several lanes -/

/-- What changes each lane of a list by itself. -/
theorem lane_forLanes {f : Work → LaneId → Work} {g : Lane → Lane}
    (h : ∀ w n m, (f w n).lane m = if m = n then g (w.lane n) else w.lane m) {ns : List LaneId} (once : ns.Nodup) (w : Work) :
    (w.forLanes ns f).lane m = if m ∈ ns then g (w.lane m) else w.lane m := by
  induction ns generalizing w with
  | nil => rfl
  | cons k ns ih =>
    obtain ⟨first, rest⟩ := List.nodup_cons.mp once
    refine (ih rest (f w k)).trans ?_
    rw [h]
    by_cases mk : m = k
    · subst mk
      simp [first]
    · simp [mk]

/-- What none of the single operations changes. -/
theorem forLanes_keeps {α : Type} {P : Work → α} {f : Work → LaneId → Work} (h : ∀ w n, P (f w n) = P w) (ns : List LaneId)
    (w : Work) : P (w.forLanes ns f) = P w := by
  induction ns generalizing w with
  | nil => rfl
  | cons k ns ih => exact (ih (f w k)).trans (h w k)

theorem lanesIn_nodup (k : LaneMask) : (lanesIn k).Nodup :=
  (allLanes_sorted.imp fun h => ne_of_lt h).filter _

theorem mem_lanesIn {k : LaneMask} : n ∈ lanesIn k ↔ hasLane k n = true := by
  unfold lanesIn
  rw [List.mem_filter]
  simp [mem_allLanes]

theorem ctx_setStep (n : LaneId) (st : Step) : (w.setStep n st).ctx c = w.ctx c := by
  unfold Work.setStep
  dsimp only
  split <;> rfl

theorem buf_setStep (n : LaneId) (st : Step) : (w.setStep n st).buf b = w.buf b := by
  unfold Work.setStep
  dsimp only
  split <;> rfl

/-! ## The mask of a pass -/

theorem hasLane_dropLane (k : LaneMask) (n m : LaneId) : hasLane (dropLane k n) m = (hasLane k m && decide (m ≠ n)) := by
  by_cases h : m = n
  · subst h
    simp [hasLane_dropLane_self]
  · have : hasLane (~~~(1#8 <<< n.val)) m = true := by
      revert h
      revert n m
      decide
    unfold hasLane at this ⊢
    rw [dropLane, BitVec.getLsbD_and, this]
    simp [h]

theorem dropLane_empty {k : LaneMask} : dropLane k n = 0 ↔ ∀ m, m ≠ n → hasLane k m = false := by
  constructor
  · intro h m hm
    have := hasLane_dropLane k n m
    rw [h] at this
    rw [show hasLane 0 m = false from hasLane_zero m] at this
    simpa [hm] using this.symm
  · intro h
    refine mask_ext fun m => ?_
    rw [hasLane_dropLane, show hasLane 0 m = false from hasLane_zero m]
    by_cases hm : m = n
    · simp [hm]
    · simp [h m hm]

/-! ## The end of a pass (R91 to R93) -/

theorem ctxLive_of (slot : (w.ctx c).slot = some i) (job : w.slot i = some j) : w.ctxLive c = j.live := by
  unfold Work.ctxLive
  rw [slot, Option.bind_some, job]

theorem ctxLive_same (same : SameJobs w w') (slot : (w'.ctx c).slot = (w.ctx c).slot) : w'.ctxLive c = w.ctxLive c := by
  unfold Work.ctxLive
  rw [slot]
  obtain ⟨steps, h⟩ := same.job
  cases (w.ctx c).slot with
  | none => rfl
  | some i =>
    rw [Option.bind_some, Option.bind_some, h i]
    cases w.slot i <;> rfl

/-- A context in its CHECK pass (R91, R92). -/
def checking (live : LaneMask) (x : ImageCtx) : ImageCtx :=
  { x with state := .checkPass, passLanes := live, nextPage := firstPage x.segs x.size, checkDue := false }

/-- A lane that begins its part in the CHECK pass (R91, R92). -/
def checks (l : Lane) : Lane := { l with ctx := { l.ctx with cursor := .start, step := .check, stepPos := none } }

theorem endPass_check (state : (w.ctx c).state = .writePass) (due : (w.ctx c).checkDue = true) (live : w.ctxLive c ≠ 0) :
    (∀ d, (w.endPass c).ctx d = if d = c then checking (w.ctxLive c) (w.ctx c) else w.ctx d)
    ∧ (∀ m, (w.endPass c).lane m = if hasLane (w.ctxLive c) m = true then checks (w.lane m) else w.lane m)
    ∧ ∀ b, (w.endPass c).buf b = w.buf b := by
  have begun : (∀ d, (w.beginPass c .check).ctx d = if d = c then checking (w.ctxLive c) (w.ctx c) else w.ctx d)
      ∧ ∀ b, (w.beginPass c .check).buf b = w.buf b := by
    unfold Work.beginPass
    dsimp only
    refine ⟨fun d => ?_, fun b => ?_⟩
    · rw [forLanes_keeps (P := fun w => w.ctx d) (fun _ _ => ctx_modLane ..)]
      exact ctx_modCtx ..
    · rw [forLanes_keeps (P := fun w => w.buf b) (fun _ _ => buf_modLane ..)]
      exact buf_modCtx ..
  have cursors : ∀ m, (w.beginPass c .check).lane m = if hasLane (w.ctxLive c) m = true then
      { w.lane m with ctx := { (w.lane m).ctx with cursor := .start } } else w.lane m := fun m => by
    unfold Work.beginPass
    refine (lane_forLanes (g := fun l => { l with ctx := { l.ctx with cursor := .start } })
      (fun _ _ _ => lane_modLane ..) (lanesIn_nodup _) _).trans ?_
    simp only [mem_lanesIn]
    rfl
  have live' : (w.beginPass c .check).ctxLive c = w.ctxLive c :=
    ctxLive_same (sameJobs_beginPass w c .check) (by rw [begun.1, if_pos rfl]; rfl)
  have ended : w.endPass c = (w.beginPass c .check).forLanes (lanesIn (w.ctxLive c)) (fun w n => w.setStep n .check) := by
    unfold Work.endPass
    rw [state]
    dsimp only
    rw [if_pos ⟨due, live⟩, live']
  rw [ended]
  refine ⟨fun d => ?_, fun m => ?_, fun b => ?_⟩
  · exact (forLanes_keeps (P := fun w => w.ctx d) (fun _ _ => ctx_setStep ..) _ _).trans (begun.1 d)
  · refine (lane_forLanes (g := fun l => { l with ctx := { l.ctx with step := .check, stepPos := none } })
      (fun _ _ _ => lane_setStep ..) (lanesIn_nodup _) _).trans ?_
    simp only [mem_lanesIn]
    rw [cursors m]
    split <;> rfl
  · exact (forLanes_keeps (P := fun w => w.buf b) (fun _ _ => buf_setStep ..) _ _).trans (begun.2 b)

theorem endPass_over (h : (w.ctx c).state = .checkPass
    ∨ ((w.ctx c).state = .writePass ∧ ((w.ctx c).checkDue = false ∨ w.ctxLive c = 0))) :
    w.endPass c = w.modCtx c ImageCtx.passesOver := by
  unfold Work.endPass
  rcases h with state | ⟨state, none_⟩
  · rw [state]
  · rw [state]
    refine if_neg ?_
    rintro ⟨due, live⟩
    rcases none_ with h | h
    · rw [due] at h
      cases h
    · exact live h

theorem endPass_stopped (h : (w.ctx c).state = .stopped) : w.endPass c = w := by
  unfold Work.endPass
  rw [h]

/-- The three ways in which a pass can end. -/
theorem endPass_cases (w : Work) (c : CtxId) :
    ((∀ d, (w.endPass c).ctx d = if d = c then checking (w.ctxLive c) (w.ctx c) else w.ctx d)
      ∧ (∀ m, (w.endPass c).lane m = if hasLane (w.ctxLive c) m = true then checks (w.lane m) else w.lane m)
      ∧ ∀ b, (w.endPass c).buf b = w.buf b)
    ∨ w.endPass c = w.modCtx c ImageCtx.passesOver ∨ w.endPass c = w := by
  cases state : (w.ctx c).state with
  | writePass =>
    by_cases due : (w.ctx c).checkDue = true ∧ w.ctxLive c ≠ 0
    · exact .inl (endPass_check state due.1 due.2)
    · exact .inr (.inl (endPass_over (.inr ⟨state, by
        rw [← Bool.not_eq_true]
        tauto⟩)))
  | checkPass => exact .inr (.inl (endPass_over (.inl state)))
  | _ =>
    refine .inr (.inr ?_)
    unfold Work.endPass
    rw [state]

/-- A lane that is not the last of the pass leaves it. -/
theorem dropFromPass_others (inside : hasLane (w.ctx c).passLanes n = true)
    (more : ∃ m, m ≠ n ∧ hasLane (w.ctx c).passLanes m = true) :
    w.dropFromPass c n = w.modCtx c (fun x => { x with passLanes := dropLane x.passLanes n }) := by
  unfold Work.dropFromPass
  rw [if_pos inside]
  refine if_neg ?_
  rw [ctx_modCtx, if_pos rfl]
  intro h
  obtain ⟨m, hm, hm'⟩ := more
  rw [dropLane_empty.mp h m hm] at hm'
  cases hm'

/-- The last lane leaves the pass, which ends. -/
theorem dropFromPass_last (inside : hasLane (w.ctx c).passLanes n = true)
    (last : ∀ m, m ≠ n → hasLane (w.ctx c).passLanes m = false) :
    w.dropFromPass c n = (w.modCtx c (fun x => { x with passLanes := 0 })).endPass c := by
  have empty := dropLane_empty.mpr last
  unfold Work.dropFromPass
  rw [if_pos inside]
  dsimp only
  rw [if_pos (by rw [ctx_modCtx, if_pos rfl]; exact empty)]
  unfold Work.modCtx
  dsimp only
  rw [empty]

/-! ## The buffers that a lane gives up (R86, R87, R90) -/

/-- A claim on a buffer ends. -/
def released (p : PageBuf) : PageBuf := if p.count ≤ 1 then .free else { p with count := p.count - 1 }

/-- The fetch in flight is voided when its buffer is freed. -/
theorem fetch_releaseBuf (owner : (w.buf b).owner = some c) : ((w.releaseBuf b).ctx c).fetch
    = (w.ctx c).fetch.filter (fun f => !(f.buf = b && (w.buf f.buf).count ≤ 1)) := by
  unfold Work.releaseBuf
  dsimp only
  by_cases last : (w.buf b).count ≤ 1
  · rw [if_pos last]
    unfold Work.freeBuf
    dsimp only
    rw [owner]
    cases h : (w.ctx c).fetch with
    | none => simp [h]
    | some f =>
      by_cases same : f.buf = b
      · simp [Option.filter, h, same, last]
      · simp [Option.filter, h, same]
  · rw [if_neg last]
    show (w.ctx c).fetch = _
    cases h : (w.ctx c).fetch with
    | none => rfl
    | some f =>
      by_cases same : f.buf = b
      · simp [Option.filter, same, last]
      · simp [Option.filter, same]

/-- The buffers of a list, all of one context, lose one claim each. -/
theorem releaseBufs_spec {bs : List BufId} (once : bs.Nodup) (owned : ∀ b ∈ bs, (w.buf b).owner = some c) :
    (∀ b, (bs.foldl Work.releaseBuf w).buf b = if b ∈ bs then released (w.buf b) else w.buf b)
    ∧ (∃ k f, (bs.foldl Work.releaseBuf w).ctx c = { w.ctx c with sharedHeld := k, fetch := f })
    ∧ ((bs.foldl Work.releaseBuf w).ctx c).fetch
        = (w.ctx c).fetch.filter (fun f => !(f.buf ∈ bs && (w.buf f.buf).count ≤ 1)) := by
  induction bs generalizing w with
  | nil =>
    refine ⟨fun _ => rfl, ⟨_, _, rfl⟩, ?_⟩
    show (w.ctx c).fetch = _
    cases h : (w.ctx c).fetch <;> simp [Option.filter]
  | cons a bs ih =>
    obtain ⟨first, rest⟩ := List.nodup_cons.mp once
    have buf_a : ∀ b, (w.releaseBuf a).buf b = if b = a then released (w.buf a) else w.buf b := fun b => buf_releaseBuf a b
    obtain ⟨bufs, ⟨k, f, ctx⟩, fetch⟩ := ih (w := w.releaseBuf a) rest fun b hb => by
      rw [buf_a, if_neg (by rintro rfl; exact first hb)]
      exact owned b (List.mem_cons_of_mem _ hb)
    obtain ⟨k', f', ctx'⟩ := ctx_releaseBuf (w := w) a c
    refine ⟨fun b => ?_, ⟨k, f, by rw [List.foldl_cons, ctx, ctx']⟩, ?_⟩
    · rw [List.foldl_cons, bufs, buf_a]
      by_cases hb : b = a
      · subst hb
        simp [first]
      · simp [hb]
    · rw [List.foldl_cons, fetch, fetch_releaseBuf (owned a (List.mem_cons_self ..)), Option.filter_filter]
      congr 1
      funext g
      by_cases ga : g.buf = a
      · subst ga
        simp [first]
      · simp [buf_a, ga]

/-! ## The lane leaves its pass -/

/-- A page at or above a cursor. -/
theorem reaches_iff (cur : Cursor) (page : Nat) : cur.reaches page = true ↔ cur = .start ∨ ∃ q, cur = .at q ∧ q ≤ page := by
  cases cur <;> simp [Cursor.reaches]

/-- The buffers whose claim a leaving lane gives up. -/
theorem leaving_spec (sound : w.PoolSound) (inside : hasLane (w.ctx c).passLanes n = true) :
    ∃ v : Work, w.passLeave c n = v.dropFromPass c n ∧ SameJobs w v ∧ (∀ m, v.lane m = w.lane m)
      ∧ (∀ b, v.buf b = if (w.buf b).owner = some c ∧ (w.lane n).ctx.cursor.reaches (w.buf b).page = true
          then released (w.buf b) else w.buf b)
      ∧ (∃ k f, v.ctx c = { w.ctx c with sharedHeld := k, fetch := f })
      ∧ ∀ f, (w.ctx c).fetch = some f → (w.buf f.buf).state = .filling →
          (v.ctx c).fetch = if (v.buf f.buf).state = .free then none else some f := by
  have once : ((w.bufsOf c).filter (fun b => (w.lane n).ctx.cursor.reaches (w.buf b).page)).Nodup := by
    unfold Work.bufsOf
    exact ((allBufs_sorted.imp fun h => ne_of_lt h).filter _).filter _
  have mem : ∀ b, b ∈ (w.bufsOf c).filter (fun b => (w.lane n).ctx.cursor.reaches (w.buf b).page)
      ↔ (w.buf b).owner = some c ∧ (w.lane n).ctx.cursor.reaches (w.buf b).page = true := fun b => by
    rw [List.mem_filter, mem_bufsOf]
    refine ⟨fun ⟨⟨owner, _⟩, reach⟩ => ⟨owner, reach⟩, fun ⟨owner, reach⟩ => ⟨⟨owner, fun free => ?_⟩, reach⟩⟩
    have := (sound.buffers b).1.mp free
    rw [owner] at this
    cases this
  obtain ⟨bufs, ctx, fetch⟩ := releaseBufs_spec once (c := c) fun b hb => ((mem b).mp hb).1
  refine ⟨_, if_pos inside, sameJobs_releaseBufs _ w, fun m => lane_releaseBufs _, fun b => ?_, ctx, fun f hf filling => ?_⟩
  · rw [bufs]
    simp only [mem]
  · rw [fetch, bufs, hf]
    by_cases out : f.buf ∈ (w.bufsOf c).filter (fun b => (w.lane n).ctx.cursor.reaches (w.buf b).page)
    · by_cases last : (w.buf f.buf).count ≤ 1
      · simp [Option.filter, out, last, released, PageBuf.free]
      · simp [Option.filter, out, last, released, filling]
    · simp [Option.filter, out, filling]

/-- Settles O48: the claims end, and the pass with its last lane. -/
theorem leavingAPassReleasesItsPages : Obligations.LeavingAPassReleasesItsPages := by
  intro w w' c n x sound hx held inside hw'
  subst hx hw'
  obtain ⟨v, drop, same, lanes, bufs, ⟨k, f, ctx⟩, fetch⟩ := leaving_spec sound inside
  have inside_v : hasLane (v.ctx c).passLanes n = true := by rw [ctx]; exact inside
  -- whatever becomes of the pass, no buffer and no fetch changes with it
  have kept : (∀ b, (w.passLeave c n).buf b = v.buf b) ∧ ((w.passLeave c n).ctx c).fetch = (v.ctx c).fetch := by
    rw [drop]
    unfold Work.dropFromPass
    rw [if_pos inside_v]
    dsimp only
    split
    · rcases endPass_cases ((v.modCtx c fun x => { x with passLanes := dropLane x.passLanes n })) c with h | h | h
      · obtain ⟨ctxs, -, pool⟩ := h
        refine ⟨fun b => by rw [pool, buf_modCtx], ?_⟩
        rw [ctxs, if_pos rfl, ctx_modCtx, if_pos rfl]
        rfl
      · rw [h]
        exact ⟨fun b => rfl, by simp [ImageCtx.passesOver]⟩
      · rw [h]
        exact ⟨fun b => rfl, by simp⟩
    · exact ⟨fun b => rfl, by simp⟩
  refine ⟨fun b => ⟨fun ⟨owner, reach⟩ => ⟨fun last => ?_, fun more => ?_⟩, fun out => ?_⟩, fun f hf filling => ?_, fun more => ?_,
    fun last i j slot job => ?_⟩
  · rw [kept.1, bufs, if_pos ⟨owner, (reaches_iff _ _).mpr reach⟩, released, if_pos last]
  · rw [kept.1, bufs, if_pos ⟨owner, (reaches_iff _ _).mpr reach⟩, released, if_neg (by omega)]
  · rw [kept.1, bufs, if_neg (by rw [reaches_iff]; exact out)]
  · rw [kept.2, kept.1, fetch f hf filling]
  · rw [drop, dropFromPass_others inside_v (by rw [ctx]; exact more), ctx_modCtx, if_pos rfl, ctx]
    exact ⟨rfl, rfl, rfl, lanes⟩
  · obtain ⟨z, hz⟩ : ∃ z, z = v.modCtx c (fun x => { x with passLanes := 0 }) := ⟨_, rfl⟩
    have ended : w.passLeave c n = z.endPass c := by
      rw [drop, dropFromPass_last inside_v (by rw [ctx]; exact last), hz]
    have ctx_z : z.ctx c = { w.ctx c with sharedHeld := k, fetch := f, passLanes := 0 } := by
      rw [hz, ctx_modCtx, if_pos rfl, ctx]
    have lanes_z : ∀ m, z.lane m = w.lane m := fun m => by rw [hz]; exact lanes m
    have live_z : z.ctxLive c = j.live := by
      rw [← ctxLive_of slot job]
      refine ctxLive_same (same.trans ?_) (by rw [ctx_z])
      rw [hz]
      exact sameJobs_modCtx c _
    rw [ended]
    refine ⟨fun state due live => ?_, fun over_ => ?_, fun stopped => ?_⟩
    · obtain ⟨ctxs, lane, -⟩ := endPass_check (w := z) (c := c) (by rw [ctx_z]; exact state) (by rw [ctx_z]; exact due)
        (by rw [live_z]; exact live)
      rw [live_z] at ctxs lane
      rw [ctxs, if_pos rfl, ctx_z]
      refine ⟨rfl, rfl, rfl, rfl, fun m hm => ?_⟩
      rw [lane, if_pos hm]
      exact ⟨rfl, rfl⟩
    · rw [endPass_over (by rw [ctx_z, live_z]; exact over_), ctx_modCtx, if_pos rfl]
      exact ⟨rfl, rfl, rfl, rfl, lanes_z⟩
    · rw [endPass_stopped (by rw [ctx_z]; exact stopped), ctx_z]
      exact ⟨stopped, lanes_z⟩

end Sys2Proof.Proofs
end

section
/-! The steps of a PROGRAM lane, one after another. -/

namespace Sys2Proof.Proofs

-- One theorem at a time: a thread for each would ask for more stack than the check allows.
set_option Elab.async false

open Sys2Proof.Machine Sys2Proof.Laws

variable {s t u : State} {v w w' x : Work} {env : Env} {n m : LaneId} {i : SlotId} {j : JobSlot} {l l' : Lane} {r : LaneResult}
  {q : Request} {b : BufId} {c : CtxId} {steps : StepSet} {clearAll : Bool} {level : Nat} {o : Option CtxId}

/-! ## What changes one lane only -/

/-- `v` is `w`, but that lane `n` is `l` and that last steps may differ. -/
structure Moved (w : Work) (n : LaneId) (l : Lane) (v : Work) : Prop where
  jobs : SameJobs w v
  lane : v.lane n = l
  others : ∀ m, m ≠ n → v.lane m = w.lane m
  buf : ∀ b, v.buf b = w.buf b
  ctx : ∀ c, v.ctx c = w.ctx c

namespace Moved

theorem refl (h : w.lane n = l) : Moved w n l w := ⟨.refl, h, fun _ _ => rfl, fun _ => rfl, fun _ => rfl⟩

theorem trans (h : Moved w n l v) (g : Moved v n l' x) : Moved w n l' x :=
  ⟨h.jobs.trans g.jobs, g.lane, fun m hm => (g.others m hm).trans (h.others m hm), fun b => (g.buf b).trans (h.buf b),
    fun c => (g.ctx c).trans (h.ctx c)⟩

theorem modLane (h : Moved w n l v) {f : Lane → Lane} (slot : (f l).ctx.slot = l.ctx.slot) :
    Moved w n (f l) (v.modLane n f) := by
  refine ⟨h.jobs.trans (sameJobs_modLane (by rw [h.lane, slot])), by rw [lane_modLane, if_pos rfl, h.lane], fun m hm => ?_,
    h.buf, h.ctx⟩
  rw [lane_modLane, if_neg hm]
  exact h.others m hm

theorem setPos (h : Moved w n l v) (p : Option Nat) :
    Moved w n { l with ctx := { l.ctx with stepPos := p } } (v.setPos n p) :=
  h.modLane (f := fun l => { l with ctx := { l.ctx with stepPos := p } }) rfl

theorem enterStep (h : Moved w n l v) (st : Step) (p : Option Nat) :
    Moved w n { l with ctx := { l.ctx with step := st, stepPos := p } } (v.enterStep n st p) := by
  refine ⟨h.jobs.trans (sameJobs_enterStep v n st p), by rw [lane_enterStep, if_pos rfl, h.lane], fun m hm => ?_, fun b => ?_,
    fun c => ?_⟩
  · rw [lane_enterStep, if_neg hm]
    exact h.others m hm
  · exact ((buf_setStep n st).trans (h.buf b))
  · exact ((ctx_setStep n st).trans (h.ctx c))

theorem request (h : Moved w n l v) (ride : l.supply.state ≠ .riding) (q : Request) :
    Moved w n (l.beginRequest (v.payload n q) q) (v.request n q) := by
  have ride' : (v.lane n).supply.state ≠ .riding := by rw [h.lane]; exact ride
  have begun : v.request n q = v.modLane n (Lane.beginRequest (v.payload n q) q) := by
    rw [request_begins ride']
    rfl
  rw [begun]
  exact h.modLane rfl

theorem laneSegs (h : Moved w n l v) : v.laneSegs n = w.laneSegs n := by
  unfold Work.laneSegs
  rw [h.jobs.laneCtx n]
  split
  · rw [h.ctx]
  · rfl

end Moved

/-- The frame of a request with a payload of the Lane Engine's own. -/
theorem frameOut_engine {p bytes : List Byte} (h : v.lane n = l.beginRequest p q) (source : q.source = .engine bytes)
    (linked : q.purpose ≠ .openSession) : v.frameOut n = some (requestFrame q.kind l.ctx.seq bytes) := by
  have payload : v.payload n q = bytes := by unfold Work.payload; rw [source]
  rw [Work.frameOut, h]
  show some (requestFrame q.kind (if q.purpose = .openSession then 0 else l.ctx.seq) (v.payload n q)) = _
  rw [if_neg linked, payload]

/-- A lane of a PROGRAM job, between two requests, with nothing that stops it or holds it back. -/
structure InProgram (w : Work) (n : LaneId) (l : Lane) (steps : StepSet) (clearAll : Bool) (level : Nat)
    (o : Option CtxId) : Prop where
  lane : w.lane n = l
  args : ∃ fresh e ptr key, (w.jobOf n).map JobSlot.args = some (.program steps fresh clearAll e level ptr key)
  ctx : w.laneCtx n = o
  live : w.isLive n = true
  un : l.Unstopped
  ride : l.supply.state ≠ .riding

namespace InProgram

theorem jobs (h : InProgram w n l steps clearAll level o) (g : SameJobs w v) (lane : v.lane n = l') (un : l'.Unstopped)
    (ride : l'.supply.state ≠ .riding) : InProgram v n l' steps clearAll level o := by
  obtain ⟨fresh, e, ptr, key, args⟩ := h.args
  exact ⟨lane, ⟨fresh, e, ptr, key, by rw [g.args n, args]⟩, by rw [g.laneCtx n, h.ctx], by rw [g.isLive n, h.live], un, ride⟩

theorem move (h : InProgram w n l steps clearAll level o) (g : Moved w n l' v) (un : l'.Unstopped)
    (ride : l'.supply.state ≠ .riding) : InProgram v n l' steps clearAll level o := h.jobs g.jobs g.lane un ride

theorem unstopped (h : InProgram w n l steps clearAll level o) : (w.lane n).Unstopped := by rw [h.lane]; exact h.un

theorem unheld (h : InProgram w n l steps clearAll level o) : (w.lane n).supply.state ≠ .riding := by rw [h.lane]; exact h.ride

end InProgram

/-- The lane in step `st` at position `p`. -/
def stepped (st : Step) (p : Option Nat) (l : Lane) : Lane := { l with ctx := { l.ctx with step := st, stepPos := p } }

/-! ## The GUARD step (R113) -/

theorem enterGuard_begins (un : (w.lane n).Unstopped) (ride : (w.lane n).supply.state ≠ .riding) (guard : steps.guard = true)
    (env : Env) : w.enterGuard env n steps level = (w.enterStep n .guard none).request n ((w.lane n).guardRequest level) := by
  unfold Work.enterGuard
  rw [if_pos guard, goOn_unstopped un, beginOrHold_begins ride]

theorem enterGuard_sends (h : InProgram w n l steps clearAll level o) (guard : steps.guard = true) (env : Env) :
    ∃ p, Moved w n ((stepped .guard none l).beginRequest p (l.guardRequest level)) (w.enterGuard env n steps level) := by
  rw [enterGuard_begins h.unstopped h.unheld guard, h.lane]
  exact ⟨_, ((Moved.refl h.lane).enterStep .guard none).request h.ride (l.guardRequest level)⟩

theorem enterGuard_done (guard : steps.guard = false) (env : Env) :
    w.enterGuard env n steps level = w.finalize env n .done none := by
  unfold Work.enterGuard
  rw [if_neg (by simp [guard])]

/-! ## The SUM step (R111, R112) -/

/-- The reference of a segment: the one supplied, or the one computed. -/
def refAt (computed : List (Option Word)) (segs : List Segment) (m : Nat) : Option Word :=
  segs[m]?.bind fun g => match g.crc with
    | some v => some v
    | none => (computed[m]?).join

theorem drop_cons {segs : List Segment} {pos : Nat} {g : Segment} (h : segs[pos]? = some g) :
    segs.drop pos = g :: segs.drop (pos + 1) := by
  obtain ⟨inside, rfl⟩ := List.getElem?_eq_some_iff.mp h
  exact List.drop_eq_getElem_cons inside

theorem nextSum_cons {computed : List (Option Word)} {segs : List Segment} {pos : Nat} {g : Segment} (h : segs[pos]? = some g)
    (gs : List Segment) : nextSum computed pos (g :: gs) = match refAt computed segs pos with
      | some v => (0, some (pos, g, v))
      | none => ((nextSum computed (pos + 1) gs).1 + 1, (nextSum computed (pos + 1) gs).2) := by
  have ref : refAt computed segs pos = (match g.crc with | some v => some v | none => (computed[pos]?).join) := by
    unfold refAt
    rewrite [h]
    rfl
  rewrite [ref]
  rfl

theorem nextSum_some {computed : List (Option Word)} {segs : List Segment} {pos m : Nat} {g : Segment} {v : Word} (le : pos ≤ m)
    (seg : segs[m]? = some g) (ref : refAt computed segs m = some v)
    (before : ∀ k, pos ≤ k → k < m → refAt computed segs k = none) :
    nextSum computed pos (segs.drop pos) = (m - pos, some (m, g, v)) := by
  obtain ⟨d, rfl⟩ := Nat.le.dest le
  induction d generalizing pos with
  | zero =>
    rw [Nat.add_zero] at seg ref ⊢
    rw [drop_cons seg, nextSum_cons seg, ref]
    simp
  | succ d ih =>
    have inside : pos < segs.length := by
      have := (List.getElem?_eq_some_iff.mp seg).1
      omega
    have here : segs[pos]? = some segs[pos] := List.getElem?_eq_getElem inside
    have step := ih (pos := pos + 1) (by omega) (by rwa [Nat.add_right_comm]) (by rwa [Nat.add_right_comm])
      (fun k a b => before k (by omega) (by omega))
    rw [drop_cons here, nextSum_cons here, before pos le_rfl (by omega), step]
    simp only [Prod.mk.injEq, Option.some.injEq, and_true]
    omega

theorem nextSum_none {computed : List (Option Word)} {segs : List Segment} {pos : Nat}
    (all : ∀ k, pos ≤ k → refAt computed segs k = none) :
    nextSum computed pos (segs.drop pos) = (segs.length - pos, none) := by
  obtain ⟨d, hd⟩ : ∃ d, segs.length - pos = d := ⟨_, rfl⟩
  induction d generalizing pos with
  | zero =>
    rw [List.drop_of_length_le (by omega), hd]
    rfl
  | succ d ih =>
    have inside : pos < segs.length := by omega
    have here : segs[pos]? = some segs[pos] := List.getElem?_eq_getElem inside
    rw [drop_cons here, nextSum_cons here, all pos le_rfl, ih (fun k a => all k (by omega)) (by omega)]
    simp only [Prod.mk.injEq, and_true]
    omega

/-- What SUM has computed for the lane's image. -/
def laneComputed (w : Work) (n : LaneId) : List (Option Word) :=
  match w.laneCtx n with
  | some c => (w.ctx c).computed
  | none => []

/-- The lane at position `p` of SUM, with `k` segments more skipped. -/
def summed (p k : Nat) (l : Lane) : Lane :=
  { l with ctx := { l.ctx with stepPos := some p, sumsSkipped := l.ctx.sumsSkipped + k } }

/-- The position of SUM moves past `k` segments, which are skipped. -/
def skipTo (w : Work) (n : LaneId) (pos k : Nat) : Work :=
  (w.setPos n (some (pos + k))).modLane n (fun l => { l with ctx := { l.ctx with sumsSkipped := l.ctx.sumsSkipped + k } })

/-- SUM at position `pos` with the segments skipped and the one found. -/
def sumFrom (w : Work) (env : Env) (n : LaneId) (s : StepSet) (level pos : Nat)
    (r : Nat × Option (Nat × Segment × Word)) : Work :=
  match r.2 with
  | some (i, g, v) => (skipTo w n pos r.1).goOn env n (fun w => w.request n ((w.lane n).sumRequest i g v))
  | none => (skipTo w n pos r.1).enterGuard env n s level

theorem sumGo_from (w : Work) (env : Env) (n : LaneId) (s : StepSet) (level pos : Nat) : w.sumGo env n s level pos
    = sumFrom w env n s level pos (nextSum (laneComputed w n) pos ((w.laneSegs n).drop pos)) := rfl

theorem moved_skipTo (h : w.lane n = l) (pos k : Nat) : Moved w n (summed (pos + k) k l) (skipTo w n pos k) :=
  ((Moved.refl h).setPos (some (pos + k))).modLane (f := fun l =>
    { l with ctx := { l.ctx with sumsSkipped := l.ctx.sumsSkipped + k } }) rfl

/-- SUM goes on with the next segment that has a reference. -/
theorem sumGo_sends (h : InProgram w n l steps clearAll level o) {pos m : Nat} {g : Segment} {v : Word} (le : pos ≤ m)
    (seg : (w.laneSegs n)[m]? = some g) (ref : refAt (laneComputed w n) (w.laneSegs n) m = some v)
    (before : ∀ k, pos ≤ k → k < m → refAt (laneComputed w n) (w.laneSegs n) k = none) (env : Env) :
    ∃ p, Moved w n ((summed m (m - pos) l).beginRequest p (l.sumRequest m g v)) (w.sumGo env n steps level pos) := by
  have moved := moved_skipTo h.lane pos (m - pos)
  rw [show pos + (m - pos) = m by omega] at moved
  have sends : w.sumGo env n steps level pos = (skipTo w n pos (m - pos)).request n (l.sumRequest m g v) := by
    rw [sumGo_from, nextSum_some le seg ref before, sumFrom]
    dsimp only
    rw [goOn_unstopped (by rw [moved.lane]; exact h.un), moved.lane]
    rfl
  rw [sends]
  exact ⟨_, moved.request h.ride (l.sumRequest m g v)⟩

/-- No segment is left that has a reference. -/
theorem sumGo_over (h : InProgram w n l steps clearAll level o) {pos : Nat}
    (all : ∀ k, pos ≤ k → refAt (laneComputed w n) (w.laneSegs n) k = none) (env : Env) :
    ∃ x, Moved w n (summed (pos + ((w.laneSegs n).length - pos)) ((w.laneSegs n).length - pos) l) x
      ∧ w.sumGo env n steps level pos = x.enterGuard env n steps level := by
  refine ⟨_, moved_skipTo h.lane pos _, ?_⟩
  rw [sumGo_from, nextSum_none all]
  rfl

theorem enterSum_begins (h : InProgram w n l steps clearAll level o) (sum : steps.sum = true) (env : Env) :
    w.enterSum env n steps level = (w.enterStep n .sum (some 0)).sumGo env n steps level 0 := by
  unfold Work.enterSum
  rw [if_pos sum, goOn_unstopped h.unstopped]
  dsimp only
  rw [beginOrHold_begins h.unheld, ite_self]

theorem enterSum_skips (sum : steps.sum = false) (env : Env) : w.enterSum env n steps level = w.enterGuard env n steps level := by
  unfold Work.enterSum
  rw [if_neg (by simp [sum])]

/-! ## The WRITE and CHECK steps (R108, R110) -/

/-- At its page, the lane sends its request or waits for the page, in either case in its step. -/
inductive AtPage (l : Lane) : Lane → Prop where
  | waits : AtPage l l
  | sends (p : List Byte) (q : Request) : AtPage l (l.beginRequest p q)

theorem writeGo_moves (h : InProgram w n l steps clearAll level o) (env : Env) (c : CtxId) :
    (w.pageReady c n = none → w.writeGo env n c = w)
    ∧ (∀ page b, w.pageReady c n = some (page, b) → Moved w n
        (l.beginRequest (leBytes 4 page ++ (w.buf b).data.take (w.ctx c).size) (l.writeRequest page b (w.ctx c).size))
        (w.writeGo env n c))
    ∧ ∃ l', AtPage l l' ∧ Moved w n l' (w.writeGo env n c) := by
  have sends : ∀ page b, w.pageReady c n = some (page, b) → Moved w n
      (l.beginRequest (leBytes 4 page ++ (w.buf b).data.take (w.ctx c).size) (l.writeRequest page b (w.ctx c).size))
      (w.writeGo env n c) := fun page b ready => by
    unfold Work.writeGo
    rw [goOn_unstopped h.unstopped, ready]
    dsimp only
    rw [h.lane]
    exact (Moved.refl h.lane).request h.ride (l.writeRequest page b (w.ctx c).size)
  have waits : w.pageReady c n = none → w.writeGo env n c = w := fun ready => by
    unfold Work.writeGo
    rw [goOn_unstopped h.unstopped, ready]
  refine ⟨waits, sends, ?_⟩
  cases ready : w.pageReady c n with
  | none => exact ⟨l, .waits, by rw [waits ready]; exact .refl h.lane⟩
  | some pb => exact ⟨_, .sends _ _, sends pb.1 pb.2 ready⟩

theorem checkGo_moves (h : InProgram w n l steps clearAll level o) (env : Env) (c : CtxId) :
    (w.pageReady c n = none → w.checkGo env n c = w)
    ∧ (∀ page b, w.pageReady c n = some (page, b) → Moved w n
        (l.beginRequest (leBytes 4 page ++ leBytes 2 (w.ctx c).size) (l.readRequest (.checkRead page) page (w.ctx c).size))
        (w.checkGo env n c))
    ∧ ∃ l', AtPage l l' ∧ Moved w n l' (w.checkGo env n c) := by
  have sends : ∀ page b, w.pageReady c n = some (page, b) → Moved w n
      (l.beginRequest (leBytes 4 page ++ leBytes 2 (w.ctx c).size) (l.readRequest (.checkRead page) page (w.ctx c).size))
      (w.checkGo env n c) := fun page b ready => by
    unfold Work.checkGo
    rw [goOn_unstopped h.unstopped, ready]
    dsimp only
    rw [h.lane]
    exact (Moved.refl h.lane).request h.ride (l.readRequest (.checkRead page) page (w.ctx c).size)
  have waits : w.pageReady c n = none → w.checkGo env n c = w := fun ready => by
    unfold Work.checkGo
    rw [goOn_unstopped h.unstopped, ready]
  refine ⟨waits, sends, ?_⟩
  cases ready : w.pageReady c n with
  | none => exact ⟨l, .waits, by rw [waits ready]; exact .refl h.lane⟩
  | some pb => exact ⟨_, .sends _ _, sends pb.1 pb.2 ready⟩

theorem enterWrite_write (h : InProgram w n l steps clearAll level (some c)) (write : steps.write = true) (env : Env) :
    w.enterWrite env n steps level = (w.enterStep n .write none).writeGo env n c := by
  unfold Work.enterWrite
  rw [write, h.ctx]
  dsimp only
  rw [goOn_unstopped h.unstopped, beginOrHold_begins h.unheld]

theorem enterCheck_check (h : InProgram w n l steps clearAll level (some c)) (check : steps.check = true) (env : Env) :
    w.enterCheck env n steps level = (w.enterStep n .check none).checkGo env n c := by
  unfold Work.enterCheck
  rw [check, h.ctx]
  dsimp only
  rw [goOn_unstopped h.unstopped, beginOrHold_begins h.unheld]

theorem enterWrite_skips (write : steps.write = false) (env : Env) :
    w.enterWrite env n steps level = w.enterCheck env n steps level := by
  unfold Work.enterWrite
  rw [write]

theorem enterCheck_skips (check : steps.check = false) (env : Env) :
    w.enterCheck env n steps level = w.enterSum env n steps level := by
  unfold Work.enterCheck
  rw [check]

/-! ## The CLEAR step (R105, R107) -/

theorem clearGo_sends (h : InProgram w n l steps clearAll level o) {d : TargetDesc} (desc : l.ctx.desc = some d) {pos : Nat}
    {first count : Nat} (next : (clearPlan d clearAll (w.laneSegs n))[pos]? = some (first, count)) (env : Env) :
    ∃ p, Moved w n ({ l with ctx := { l.ctx with stepPos := some pos } }.beginRequest p (l.clearRequest first count))
      (w.clearGo env n steps clearAll level pos) := by
  have moved := (Moved.refl h.lane).setPos (some pos)
  have sends : w.clearGo env n steps clearAll level pos = (w.setPos n (some pos)).request n (l.clearRequest first count) := by
    unfold Work.clearGo
    dsimp only
    rw [h.lane, desc]
    dsimp only
    rw [next]
    dsimp only
    rw [goOn_unstopped (by rw [moved.lane]; exact h.un), moved.lane]
    rfl
  rw [sends]
  exact ⟨_, moved.request h.ride (l.clearRequest first count)⟩

theorem clearGo_over (h : InProgram w n l steps clearAll level o) {d : TargetDesc} (desc : l.ctx.desc = some d) {pos : Nat}
    (last : (clearPlan d clearAll (w.laneSegs n))[pos]? = none) (env : Env) :
    w.clearGo env n steps clearAll level pos = (w.setPos n (some pos)).enterWrite env n steps level := by
  unfold Work.clearGo
  dsimp only
  rw [h.lane, desc]
  dsimp only
  rw [last]

end Sys2Proof.Proofs
end

section
/-! The replies after which a PROGRAM lane goes on: O41. -/

namespace Sys2Proof.Proofs

-- One theorem at a time: a thread for each would ask for more stack than the check allows.
set_option Elab.async false

open Sys2Proof.Machine Sys2Proof.Laws

variable {s t u : State} {v w w' x : Work} {env : Env} {n m : LaneId} {i : SlotId} {j : JobSlot} {l l' : Lane} {r : LaneResult}
  {q : Request} {b : BufId} {c : CtxId} {steps : StepSet} {clearAll : Bool} {level : Nat} {o : Option CtxId} {p : List Byte}

/-! ## What each reply of a step comes to (R62) -/

theorem replySuccess_clear (h : InProgram w n l steps clearAll level o) (purpose : q.purpose = .clear) (env : Env) (p : List Byte) :
    w.replySuccess env n q p = w.clearGo env n steps clearAll level (w.posOf n + 1) := by
  obtain ⟨fresh, e, ptr, key, args⟩ := h.args
  unfold Work.replySuccess
  rw [purpose, args]

theorem replySuccess_write {page : Nat} (h : InProgram w n l steps clearAll level (some c)) (purpose : q.purpose = .write page)
    (env : Env) (p : List Byte) : w.replySuccess env n q p = w.writeReply env n c steps level := by
  obtain ⟨fresh, e, ptr, key, args⟩ := h.args
  unfold Work.replySuccess
  rw [purpose, args]
  dsimp only
  rw [h.ctx]

theorem replySuccess_check {page : Nat} (h : InProgram w n l steps clearAll level (some c)) (purpose : q.purpose = .checkRead page)
    (env : Env) (p : List Byte) : w.replySuccess env n q p = w.checkReply env n c steps level page p := by
  obtain ⟨fresh, e, ptr, key, args⟩ := h.args
  unfold Work.replySuccess
  rw [purpose, args]
  dsimp only
  rw [h.ctx]

theorem replySuccess_sum {k : Nat} {v : Word} (h : InProgram w n l steps clearAll level o) (purpose : q.purpose = .sum k v)
    (env : Env) (p : List Byte) (equal : wordAt p 0 = v) : w.replySuccess env n q p = w.sumGo env n steps level (k + 1) := by
  obtain ⟨fresh, e, ptr, key, args⟩ := h.args
  unfold Work.replySuccess
  rw [purpose, args]
  exact if_pos equal

/-! ## The state that the event answers -/

/-- A lane that has begun a request, as the event answers it. -/
theorem sent_leads (h : InProgram w n l steps clearAll level o) (g : Moved w n (l'.beginRequest p q) v) (y : Yields v t) :
    t.work.isLive n = true ∧ t.work.lane n = l'.beginRequest p q := by
  rw [y.isLive n, g.jobs.isLive n, h.live, y.lane n, g.lane]
  exact ⟨rfl, rfl⟩

theorem sent_frame {bytes : List Byte} (g : Moved w n (l'.beginRequest p q) v) (y : Yields v t)
    (source : q.source = .engine bytes) (step : q.purpose ≠ .openSession) :
    t.work.frameOut n = some (requestFrame q.kind l'.ctx.seq bytes) := by
  rw [y.frameOut n, frameOut_engine g.lane source step]

/-! ## CLEAR's replies (R105, R107) -/

theorem posOf_eq (h : w.lane n = l) {k : Nat} (pos : l.ctx.stepPos = some k) : w.posOf n = k := by
  rw [Work.posOf, h, pos]
  rfl

/-- The request after the one that was answered. -/
theorem clear_next {k : Nat} {d : TargetDesc} {first count : Nat} (h : InProgram w n l steps clearAll level o)
    (purpose : q.purpose = .clear) (pos : l.ctx.stepPos = some k) (desc : l.ctx.desc = some d)
    (next : (clearPlan d clearAll (w.laneSegs n))[k + 1]? = some (first, count)) (y : Yields (w.replySuccess env n q p) t) :
    t.work.isLive n = true ∧ (t.work.lane n).ctx.state = .active ∧ (t.work.lane n).ctx.stepPos = some (k + 1)
    ∧ (t.work.lane n).link.busyLimit = l.settings.clearLimit * count
    ∧ t.work.frameOut n = some (requestFrame 0x04#8 l.ctx.seq (leBytes 2 first ++ leBytes 2 count)) := by
  rw [replySuccess_clear h purpose, posOf_eq h.lane pos] at y
  obtain ⟨bytes, sent⟩ := clearGo_sends h desc next env
  obtain ⟨live, lane⟩ := sent_leads h sent y
  exact ⟨live, by rw [lane]; rfl, by rw [lane]; rfl, by rw [lane]; rfl, sent_frame sent y rfl (by simp [Lane.clearRequest, engineRequest])⟩

/-! ## The GUARD step, or DONE -/

/-- What follows the SUM step, from the lane as it stands there. -/
theorem guard_leads (same : SameJobs s.work w) (h : InProgram w n l steps clearAll level o)
    (y : Yields (w.enterGuard env n steps level) t) :
    (steps.guard = true → t.work.isLive n = true ∧ (t.work.lane n).ctx.step = .guard
      ∧ (t.work.lane n).ctx.stepPos = none ∧ (t.work.lane n).ctx.sumsSkipped = l.ctx.sumsSkipped
      ∧ t.work.frameOut n = some (requestFrame 0x08#8 l.ctx.seq [BitVec.ofNat 8 level]))
    ∧ (steps.guard = false → t.work.isLive n = false
      ∧ s.work.ResultCopied t.work n .done (fun o => o.sumsSkipped = l.ctx.sumsSkipped)) := by
  refine ⟨fun guard => ?_, fun guard => ?_⟩
  · obtain ⟨bytes, sent⟩ := enterGuard_sends h guard env
    obtain ⟨live, lane⟩ := sent_leads h sent y
    exact ⟨live, by rw [lane]; rfl, by rw [lane]; rfl, by rw [lane]; rfl,
      sent_frame sent y rfl (by simp [Lane.guardRequest, engineRequest])⟩
  · rw [enterGuard_done guard] at y
    refine ⟨by rw [y.isLive n, finalize_notLive], y.copied (same.copied (finalize_copied env .done none fun _ _ _ _ => ?_))⟩
    rw [takenCopy, h.lane]
    rfl

/-- A step that has no request of its own: what it leaves of the lane. -/
def passed (st : Step) (pos : Option Nat) (k : Nat) (l : Lane) : Lane :=
  { l with ctx := { l.ctx with step := st, stepPos := pos, sumsSkipped := l.ctx.sumsSkipped + k } }

/-- The SUM step with no reference to send: all its segments are skipped. -/
theorem enterSum_over (h : InProgram w n l steps clearAll level o)
    (all : steps.sum = true → ∀ k, refAt (laneComputed w n) (w.laneSegs n) k = none) (env : Env) :
    ∃ x st pos, Moved w n (passed st pos (if steps.sum = true then (w.laneSegs n).length else 0) l) x
      ∧ w.enterSum env n steps level = x.enterGuard env n steps level := by
  cases sum : steps.sum with
  | false => exact ⟨w, l.ctx.step, l.ctx.stepPos, Moved.refl h.lane, enterSum_skips sum env⟩
  | true =>
    have entered := (Moved.refl h.lane).enterStep .sum (some 0)
    have h' := h.move (l' := stepped .sum (some 0) l) entered h.un h.ride
    have computed : laneComputed (w.enterStep n .sum (some 0)) n = laneComputed w n := by
      unfold laneComputed
      rw [entered.jobs.laneCtx n]
      split
      · rw [entered.ctx]
      · rfl
    obtain ⟨x, moved, e⟩ := sumGo_over h' (pos := 0) (fun k _ => by
      rw [computed, entered.laneSegs]
      exact all sum k) env
    rw [entered.laneSegs] at moved
    exact ⟨x, .sum, _, entered.trans moved, (enterSum_begins h sum env).trans e⟩

/-! ## After the last CLEAR (R100) -/

theorem computed_of (h : w.laneCtx n = some c) : laneComputed w n = (w.ctx c).computed := by
  rw [laneComputed, h]

theorem segs_of (h : w.laneCtx n = some c) : w.laneSegs n = (w.ctx c).segs := by
  rw [Work.laneSegs, h]

theorem computed_moved (g : Moved w n l v) : laneComputed v n = laneComputed w n := by
  unfold laneComputed
  rw [g.jobs.laneCtx n]
  split
  · rw [g.ctx]
  · rfl

/-- A lane that waits for its page, or has sent its request. -/
theorem atPage_keeps (h : AtPage l l') : l'.ctx.step = l.ctx.step ∧ l'.ctx.stepPos = l.ctx.stepPos
    ∧ l'.ctx.cursor = l.ctx.cursor := by
  cases h <;> exact ⟨rfl, rfl, rfl⟩

/-- WRITE, or CHECK without it, begins: in its step, at the cursor where it was. -/
theorem page_step_leads (h : InProgram w n l steps clearAll level (some c)) (any : steps.write = true ∨ steps.check = true)
    (y : Yields (w.enterWrite env n steps level) t) :
    t.work.isLive n = true ∧ (t.work.lane n).ctx.step = (if steps.write = true then .write else .check)
    ∧ (t.work.lane n).ctx.stepPos = none ∧ (t.work.lane n).ctx.cursor = l.ctx.cursor
    ∧ ((∀ page b, (w.buf b).state = .held → (w.buf b).owner = some c →
          (w.ctx c).pageAt l.ctx.cursor = some page → (w.buf b).page ≠ page) →
        (t.work.lane n).ctx.state = l.ctx.state ∧ (t.work.lane n).link = l.link) := by
  have unready : ∀ (st : Step), (∀ page b, (w.buf b).state = .held → (w.buf b).owner = some c →
      (w.ctx c).pageAt l.ctx.cursor = some page → (w.buf b).page ≠ page) → (w.enterStep n st none).pageReady c n = none := by
    intro st no
    have entered := (Moved.refl h.lane).enterStep st none
    unfold Work.pageReady
    rw [entered.lane, entered.ctx]
    dsimp only
    cases there : (w.ctx c).pageAt l.ctx.cursor with
    | none => rfl
    | some page =>
      dsimp only
      rw [heldPage_none (page := page) (fun b held owner => by
        rw [entered.buf] at held owner ⊢
        exact no page b held owner there)]
      rfl
  -- both steps in one: `go` is the piece of the step that sends or waits
  have leads : ∀ st (v : Work), Yields v t → (∃ l', AtPage (stepped st none l) l' ∧ Moved (w.enterStep n st none) n l' v) →
      ((w.enterStep n st none).pageReady c n = none → v = w.enterStep n st none) →
      t.work.isLive n = true ∧ (t.work.lane n).ctx.step = st ∧ (t.work.lane n).ctx.stepPos = none
      ∧ (t.work.lane n).ctx.cursor = l.ctx.cursor
      ∧ ((∀ page b, (w.buf b).state = .held → (w.buf b).owner = some c →
            (w.ctx c).pageAt l.ctx.cursor = some page → (w.buf b).page ≠ page) →
          (t.work.lane n).ctx.state = l.ctx.state ∧ (t.work.lane n).link = l.link) := by
    rintro st v y ⟨l', at_, moved⟩ waits
    obtain ⟨step, pos, cursor⟩ := atPage_keeps at_
    have entered := (Moved.refl h.lane).enterStep st none
    refine ⟨by rw [y.isLive n, moved.jobs.isLive n, entered.jobs.isLive n, h.live], by rw [y.lane n, moved.lane, step]; rfl,
      by rw [y.lane n, moved.lane, pos]; rfl, by rw [y.lane n, moved.lane, cursor]; rfl, fun no => ?_⟩
    rw [y.lane n, waits (unready st no), entered.lane]
    exact ⟨rfl, rfl⟩
  have inside : ∀ st, InProgram (w.enterStep n st none) n (stepped st none l) steps clearAll level (some c) := fun st =>
    h.move ((Moved.refl h.lane).enterStep st none) h.un h.ride
  by_cases write : steps.write = true
  · rw [enterWrite_write h write] at y
    obtain ⟨waits, -, moved⟩ := writeGo_moves (inside .write) env c
    rw [if_pos write]
    exact leads .write _ y moved waits
  · have check : steps.check = true := any.resolve_left write
    rw [enterWrite_skips (by simpa using write), enterCheck_check h check] at y
    obtain ⟨waits, -, moved⟩ := checkGo_moves (inside .check) env c
    rw [if_neg write]
    exact leads .check _ y moved waits

/-! ## Where a lane's end leaves the contexts (R17, R82) -/

/-- Lane `n` works for a job in which no other lane is live. -/
def Alone (w : Work) (n : LaneId) : Prop :=
  ∀ i j, (w.lane n).ctx.slot = some i → w.slot i = some j → j.live = 0

theorem ctx_leave (w : Work) (env : Env) (n : LaneId) (c : CtxId) :
    (w.leave env n).ctx c = w.ctx c ∨ ((w.leave env n).ctx c = .free ∧ Alone w n) := by
  unfold Work.leave
  cases hi : (w.lane n).ctx.slot with
  | none => exact .inl rfl
  | some i =>
    dsimp only
    unfold Work.settleJob
    cases hj : ((w.modLane n Lane.release).setOwner n none).slot i with
    | none => exact .inl rfl
    | some j =>
      dsimp only
      by_cases live : j.live ≠ 0
      · rw [if_pos live]
        exact .inl rfl
      · rw [if_neg live]
        have alone : Alone w n := fun i' j' a b => by
          rw [hi] at a
          cases a
          rw [show w.slot i = some j from hj] at b
          cases b
          exact Classical.not_not.mp live
        split
        · exact .inl rfl
        · rw [Work.complete, completeAs_ctx _ _ _ _ _ hj]
          split
          · exact .inr ⟨rfl, alone⟩
          · exact .inl rfl

theorem ctx_finishEnd (w : Work) (env : Env) (n : LaneId) (e : EndAction) (c : CtxId) :
    (w.finishEnd env n e).ctx c = w.ctx c ∨ ((w.finishEnd env n e).ctx c = .free ∧ Alone w n) := by
  have through : ∀ f : Lane → Lane, (∀ l, (f l).ctx.slot = l.ctx.slot) → ((w.modLane n f).leave env n).ctx c = w.ctx c
      ∨ (((w.modLane n f).leave env n).ctx c = .free ∧ Alone w n) := fun f hf =>
    (ctx_leave (w.modLane n f) env n c).imp id fun ⟨free, alone⟩ => ⟨free, fun i j a b =>
      alone i j (by rw [lane_modLane, if_pos rfl, hf, a]) b⟩
  unfold Work.finishEnd
  split
  · exact ctx_leave w env n c
  · split
    · exact ctx_leave w env n c
    · exact through _ fun _ => rfl
    · exact through _ fun _ => rfl
    · exact .inl rfl

theorem ctx_request (w : Work) (n : LaneId) (q : Request) (c : CtxId) : (w.request n q).ctx c = w.ctx c := by
  unfold Work.request Work.holdBack
  split <;> rfl

theorem ctx_startEnd (w : Work) (env : Env) (n : LaneId) (e : EndAction) (c : CtxId) :
    (w.startEnd env n e).ctx c = w.ctx c ∨ ((w.startEnd env n e).ctx c = .free ∧ Alone w n) := by
  by_cases entry : (w.lane n).ctx.state = .entry
  · rw [startEnd_entry entry]
    exact (ctx_finishEnd (w.modLane n Lane.toHold) env n e c).imp id fun ⟨free, alone⟩ => ⟨free, fun i j a b =>
      alone i j (by rw [lane_modLane, if_pos rfl]; exact a) b⟩
  · by_cases keep : e = .keep
    · rw [keep, startEnd_keep entry]
      exact ctx_leave w env n c
    · by_cases closes : (w.lane n).ctx.session = true ∧ (w.lane n).ctx.answered = true
      · rw [startEnd_close entry keep closes.1 closes.2]
        exact .inl (ctx_request ..)
      · rw [startEnd_finish entry (by simpa [Classical.or_iff_not_imp_left] using closes)]
        exact ctx_finishEnd w env n e c

/-- A lane of a PROGRAM job that is DONE outside its pass leaves the pool and its context as they are, but that the context is
returned when the job completes. -/
theorem done_keeps (h : InProgram w n l steps clearAll level (some c)) (out : hasLane (w.ctx c).passLanes n = false) (env : Env) :
    (∀ b, (w.finalize env n .done none).buf b = w.buf b)
    ∧ ((w.finalize env n .done none).ctx c = w.ctx c
      ∨ ((w.finalize env n .done none).ctx c = .free ∧ ∀ j, w.jobOf n = some j → ∀ m, m ≠ n → hasLane j.live m = false)) := by
  obtain ⟨fresh, e, ptr, key, args⟩ := h.args
  obtain ⟨i, j, slot, at_i, live⟩ := isLive_iff.mp h.live
  have job : w.jobOf n = some j := jobOf_slot slot at_i
  have args : j.args = .program steps fresh clearAll e level ptr key := by
    rw [job] at args
    exact Option.some.inj args
  have ctx : j.ctx = some c := by
    have := h.ctx
    rw [Work.laneCtx, job] at this
    exact this
  obtain ⟨j', job', args', ctx'⟩ := jobOf_record job (.done) none
  have kept : ∀ d, (w.record n .done none).ctx d = w.ctx d := fun d => by
    unfold Work.record
    rw [slot]
    dsimp only
    rw [at_i]
    dsimp only
    rw [if_pos live]
    rfl
  have unbound' : unbound (w.record n .done none) n j' = w.record n .done none := by
    unfold unbound
    rw [ctx', ctx, args', args]
    dsimp only
    unfold Work.passLeave
    rw [kept c, if_neg (by simp [out])]
  have ends : w.finalize env n .done none = (w.record n .done none).startEnd env n e := by
    rw [Work.finalize, if_pos h.live, settle_eq job', unbound', args', args]
    rfl
  rw [ends]
  refine ⟨fun b => by rw [buf_startEnd, buf_record], (ctx_startEnd _ env n e c).imp (fun h => h.trans (kept c)) ?_⟩
  rintro ⟨free, alone⟩
  refine ⟨free, fun k hk m hm => ?_⟩
  rw [job] at hk
  cases hk
  have empty : dropLane j.live n = 0 := by
    have slots : ((w.record n .done none).lane n).ctx.slot = some i := by
      obtain ⟨_, e⟩ := lane_record h.live .done none
      rw [e]
      exact slot
    have there : ∃ k, (w.record n .done none).slot i = some k ∧ k.live = dropLane j.live n := by
      unfold Work.record
      rw [slot]
      dsimp only
      rw [at_i]
      dsimp only
      rw [if_pos live]
      exact ⟨_, (slot_setSlot ..).trans (if_pos rfl), rfl⟩
    obtain ⟨k, at_k, hk⟩ := there
    rw [← hk]
    exact alone i k slots at_k
  exact dropLane_empty.mp empty m hm

/-- What follows the last page of a lane without CHECK to come: a request, or DONE. -/
theorem enterSum_ends (h : InProgram w n l steps clearAll level o) (env : Env) :
    (∃ l', Moved w n l' (w.enterSum env n steps level))
    ∨ ∃ x l', Moved w n l' x ∧ InProgram x n l' steps clearAll level o
        ∧ w.enterSum env n steps level = x.finalize env n .done none := by
  have guard : ∀ (x : Work) l', Moved w n l' x → InProgram x n l' steps clearAll level o →
      (∃ l', Moved w n l' (x.enterGuard env n steps level))
      ∨ ∃ x' l', Moved w n l' x' ∧ InProgram x' n l' steps clearAll level o
          ∧ x.enterGuard env n steps level = x'.finalize env n .done none := fun x l' moved inside => by
    cases g : steps.guard with
    | true =>
      obtain ⟨bytes, sent⟩ := enterGuard_sends inside g env
      exact .inl ⟨_, moved.trans sent⟩
    | false => exact .inr ⟨x, l', moved, inside, enterGuard_done g env⟩
  cases sum : steps.sum with
  | false =>
    rw [enterSum_skips sum]
    exact guard w l (.refl h.lane) h
  | true =>
    rw [enterSum_begins h sum]
    have entered := (Moved.refl h.lane).enterStep .sum (some 0)
    rw [sumGo_from]
    generalize nextSum (laneComputed (w.enterStep n .sum (some 0)) n) 0
      (((w.enterStep n .sum (some 0)).laneSegs n).drop 0) = found
    obtain ⟨k, found⟩ := found
    have moved := entered.trans (moved_skipTo entered.lane 0 k)
    cases found with
    | none => exact guard _ _ moved (h.move moved h.un h.ride)
    | some f =>
      obtain ⟨a, g, v⟩ := f
      refine .inl ?_
      unfold sumFrom
      dsimp only
      rw [goOn_unstopped (by rw [moved.lane]; exact h.un)]
      exact ⟨_, moved.request h.ride _⟩

/-- The same, as it leaves the pool and the context. -/
theorem enterSum_keeps (h : InProgram w n l steps clearAll level (some c)) (out : hasLane (w.ctx c).passLanes n = false)
    (env : Env) : (∀ b, (w.enterSum env n steps level).buf b = w.buf b)
    ∧ ((w.enterSum env n steps level).ctx c = w.ctx c
      ∨ ((w.enterSum env n steps level).ctx c = .free ∧ ∀ j, w.jobOf n = some j → ∀ m, m ≠ n → hasLane j.live m = false)) := by
  rcases enterSum_ends h env with ⟨l', moved⟩ | ⟨x, l', moved, inside, e⟩
  · exact ⟨moved.buf, .inl (moved.ctx c)⟩
  · obtain ⟨bufs, ctx⟩ := done_keeps inside (by rw [moved.ctx]; exact out) env
    rw [e]
    refine ⟨fun b => (bufs b).trans (moved.buf b), ctx.imp (fun h => h.trans (moved.ctx c)) ?_⟩
    rintro ⟨free, alone⟩
    refine ⟨free, fun j job m hm => ?_⟩
    obtain ⟨j', job', -, -, live, -⟩ := job_after moved.jobs job
    rw [← live]
    exact alone j' job' m hm

/-! ## A page is consumed (R89) -/

theorem pageAfter_gt {segs : List Segment} {size page q : Nat} (pos : 0 < size) (h : pageAfter segs size page = some q) :
    page < q := by
  obtain ⟨g, -, rfl⟩ := Option.map_eq_some_iff.mp h
  omega

/-- The cursor moved on from page `page`. -/
def advanced (cur : Cursor) (l : Lane) : Lane := { l with ctx := { l.ctx with cursor := cur } }

/-- The tables once lane `n` has consumed the page in buffer `b`. -/
structure Consumed (w : Work) (n : LaneId) (c : CtxId) (b : BufId) (l : Lane) (v : Work) : Prop where
  jobs : SameJobs w v
  lane : v.lane n = advanced ((w.ctx c).advance l.ctx.cursor) l
  others : ∀ m, m ≠ n → v.lane m = w.lane m
  buf : ∀ b', v.buf b' = if b' = b then released (w.buf b) else w.buf b'
  ctx : ∃ k f, v.ctx c = { w.ctx c with sharedHeld := k, fetch := f }

theorem consumePage_spec {page : Nat} (h : w.lane n = l) (cursor : l.ctx.cursor = .at page)
    (found : w.heldPage c page = some b) : Consumed w n c b l (w.consumePage c n) := by
  have release : w.consumePage c n = (w.releaseBuf b).modLane n (fun l => { l with ctx :=
      { l.ctx with cursor := (w.ctx c).advance (w.lane n).ctx.cursor } }) := by
    unfold Work.consumePage
    rw [h, cursor]
    simp only [show (w.ctx c).pageAt (.at page) = some page from rfl, Option.bind_some, found]
  refine ⟨sameJobs_consumePage w c n, by rw [lane_consumePage, if_pos rfl, h]; rfl,
    fun m hm => by rw [lane_consumePage, if_neg hm], fun b' => ?_, ?_⟩
  · rw [release, buf_modLane]
    exact buf_releaseBuf b b'
  · rw [release]
    exact ctx_releaseBuf b c

theorem released_owner (pb : PageBuf) (h : (released pb).owner ≠ none) : (released pb).page = pb.page := by
  unfold released at h ⊢
  split
  · next last =>
    rw [if_pos last] at h
    exact absurd rfl h
  · rfl

/-- The buffers of a context after a page of it has been consumed. -/
theorem page_consumed {page : Nat} (done : Consumed w n c b l v) (at_ : (w.buf b).page = page) {q : Nat} (ne : page ≠ q) {b' : BufId}
    (owner : (v.buf b').owner = some c) (there : (v.buf b').page = q) : b' ≠ b ∧ v.buf b' = w.buf b' := by
  by_cases same : b' = b
  · subst same
    rw [done.buf, if_pos rfl] at owner there
    rw [released_owner _ (by rw [owner]; simp)] at there
    exact absurd (at_.symm.trans there) ne
  · exact ⟨same, by rw [done.buf, if_neg same]⟩

/-! ## The end of the page list (R92, R93, R109, R110) -/

theorem buf_dropFromPass (w : Work) (c : CtxId) (n : LaneId) (b : BufId) : (w.dropFromPass c n).buf b = w.buf b := by
  unfold Work.dropFromPass
  split
  · dsimp only
    split
    · rcases endPass_cases (w.modCtx c fun x => { x with passLanes := dropLane x.passLanes n }) c with ⟨-, -, pool⟩ | h | h
      · exact pool b
      · rw [h]
        rfl
      · rw [h]
        rfl
    · rfl
  · rfl

/-- A lane leaves a pass that no CHECK pass follows. -/
theorem dropFromPass_out (inside : hasLane (w.ctx c).passLanes n = true) (pass : (w.ctx c).state = .checkPass
    ∨ ((w.ctx c).state = .writePass ∧ (w.ctx c).checkDue = false)) :
    hasLane ((w.dropFromPass c n).ctx c).passLanes n = false ∧ ∀ m, (w.dropFromPass c n).lane m = w.lane m := by
  by_cases more : ∃ m, m ≠ n ∧ hasLane (w.ctx c).passLanes m = true
  · rw [dropFromPass_others inside more]
    refine ⟨?_, fun _ => rfl⟩
    rw [ctx_modCtx, if_pos rfl]
    exact hasLane_dropLane_self _ _
  · have last : ∀ m, m ≠ n → hasLane (w.ctx c).passLanes m = false := fun m hm => by
      by_contra h
      exact more ⟨m, hm, by simpa using h⟩
    rw [dropFromPass_last inside last, endPass_over (by
      rw [ctx_modCtx, if_pos rfl]
      exact pass.imp id fun ⟨a, b⟩ => ⟨a, .inl b⟩)]
    refine ⟨?_, fun _ => rfl⟩
    rw [ctx_modCtx, if_pos rfl, ctx_modCtx, if_pos rfl]
    exact hasLane_zero n

theorem finishWrite_check (un : (w.lane n).Unstopped) (check : steps.check = true) (env : Env) :
    w.finishWrite env n c steps level = if ((w.dropFromPass c n).ctx c).state = .checkPass then w.dropFromPass c n
      else (w.dropFromPass c n).enterStep n .checkWait none := by
  unfold Work.finishWrite
  rw [if_neg (by rw [stopResult_unstopped un]; simp)]
  dsimp only
  rw [if_pos check]

theorem finishWrite_sum (un : (w.lane n).Unstopped) (check : steps.check = false) (env : Env) :
    w.finishWrite env n c steps level = (w.dropFromPass c n).enterSum env n steps level := by
  unfold Work.finishWrite
  rw [if_neg (by rw [stopResult_unstopped un]; simp)]
  dsimp only
  rw [if_neg (by simp [check])]

theorem finishCheck_sum (un : (w.lane n).Unstopped) (env : Env) :
    w.finishCheck env n c steps level = (w.dropFromPass c n).enterSum env n steps level := by
  unfold Work.finishCheck
  rw [if_neg (by rw [stopResult_unstopped un]; simp)]

theorem firstDiff_self (xs : List Byte) : firstDiff xs xs = none := by
  induction xs with
  | nil => rfl
  | cons x xs ih => simp [firstDiff, ih]

/-- What a page's reply leads to: the page is consumed, and the lane goes on at its cursor, in its pass. -/
theorem page_reply {page size : Nat} {x : ImageCtx} (h : InProgram w n l steps clearAll level (some c)) (hx : x = w.ctx c)
    (hsize : size = 64 * 2 ^ x.pageCode.toNat) (small : size < 2 ^ 16) (cursor : l.ctx.cursor = .at page)
    (ready : w.heldPage c page = some b) (cause : (x.state = .writePass ∧ q.purpose = .write page ∧ p = [])
      ∨ (x.state = .checkPass ∧ q.purpose = .checkRead page
        ∧ q.source = .engine (leBytes 4 page ++ leBytes 2 size) ∧ p.length = size ∧ (w.buf b).data = p)) (env : Env)
    (frame : List Byte) :
    ∃ v : Work, Consumed w n c b l v ∧ w.replyTaken env n q frame 0 p = if pageAfter x.segs size page = none
      then (if x.state = .writePass then v.finishWrite env n c steps level else v.finishCheck env n c steps level)
      else (if x.state = .writePass then v.writeGo env n c else v.checkGo env n c) := by
  have done := consumePage_spec h.lane cursor ready
  have past : (w.consumePage c n).pastLast n = true ↔ pageAfter x.segs size page = none := by
    unfold Work.pastLast
    rw [done.lane, decide_eq_true_iff]
    show (w.ctx c).advance l.ctx.cursor = .past ↔ _
    rw [cursor, hsize, hx]
    show (match pageAfter (w.ctx c).segs (w.ctx c).size page with
      | some q => Cursor.at q
      | none => .past) = .past ↔ pageAfter (w.ctx c).segs (w.ctx c).size page = none
    cases pageAfter (w.ctx c).segs (w.ctx c).size page <;> simp
  refine ⟨w.consumePage c n, done, ?_⟩
  rcases cause with ⟨state, purpose, rfl⟩ | ⟨state, purpose, source, len, data⟩
  · rw [replyTaken_ok _ (by simp [purpose]) (by simp [purpose]) (by simp [Request.replyLength, purpose]),
      replySuccess_write h purpose, Work.writeReply, if_pos state, if_pos state]
    simp only [past]
  · rw [replyTaken_ok _ (by simp [purpose]) (by simp [purpose]) (by
      simp only [Request.replyLength, purpose, source, len]
      exact (readLength page small).symm), replySuccess_check h purpose]
    have check : x.state ≠ .writePass := by simp [state]
    rw [if_neg check, if_neg check]
    have equal : w.compare n c p = none := by
      unfold Work.compare
      rw [pageReady_at (page := page) (by rw [h.lane, cursor]; rfl), ready]
      show firstDiff ((w.buf b).data.take (w.ctx c).size) p = none
      have : (w.ctx c).size = p.length := by rw [len, hsize, hx]; rfl
      rw [data, this, List.take_length]
      exact firstDiff_self p
    unfold Work.checkReply
    simp only [equal, past]

/-! ## The page after, and the end of the list -/

section
variable {size page : Nat} {x : ImageCtx}

/-- The tables that have consumed a page are still in the job. -/
theorem InProgram.consumed (h : InProgram w n l steps clearAll level (some c)) (done : Consumed w n c b l v) :
    InProgram v n (advanced ((w.ctx c).advance l.ctx.cursor) l) steps clearAll level (some c) :=
  h.jobs done.jobs done.lane h.un h.ride

theorem advance_at (hx : x = w.ctx c) (hsize : size = 64 * 2 ^ x.pageCode.toNat) (cursor : l.ctx.cursor = .at page) :
    (w.ctx c).advance l.ctx.cursor = match pageAfter x.segs size page with
      | some q => .at q
      | none => .past := by
  rw [cursor, hsize, hx]
  rfl

/-- The frame of a WRITE, from the buffer of its page. -/
theorem frameOut_write {q : Nat} (g : Moved w n (l.beginRequest p (l.writeRequest q b size)) v) (y : Yields v t) :
    t.work.frameOut n = some (requestFrame 0x05#8 l.ctx.seq (leBytes 4 q ++ (w.buf b).data.take size)) := by
  rw [y.frameOut n, Work.frameOut, g.lane]
  show some (requestFrame 0x05#8 l.ctx.seq (leBytes 4 q ++ (v.buf b).data.take size)) = _
  rw [g.buf]

/-- The next page of the list: its request, or the wait for it. -/
theorem next_page (h : InProgram w n l steps clearAll level (some c)) (hx : x = w.ctx c)
    (hsize : size = 64 * 2 ^ x.pageCode.toNat) (cursor : l.ctx.cursor = .at page) (at_ : (w.buf b).page = page)
    (done : Consumed w n c b l v) {q : Nat} (after : pageAfter x.segs size page = some q) (state : x.state = .writePass ∨ x.state = .checkPass)
    (y : Yields (if x.state = .writePass then v.writeGo env n c else v.checkGo env n c) t)
    (held : (w.buf b).state = .held) (owner : (w.buf b).owner = some c) :
    (∀ b', t.work.buf b' = v.buf b') ∧ t.work.ctx c = v.ctx c ∧ t.work.isLive n = true
    ∧ (t.work.lane n).ctx.cursor = .at q ∧ (t.work.lane n).ctx.step = l.ctx.step
    ∧ ((∀ b', (w.buf b').owner = some c → (w.buf b').state = .held → (w.buf b').page ≠ q) →
        (t.work.lane n).ctx.state = l.ctx.state ∧ (t.work.lane n).link = l.link)
    ∧ ∀ next, (w.buf next).state = .held → (w.buf next).owner = some c → (w.buf next).page = q →
        (∀ b', b' ≠ next → (w.buf b').owner = some c → (w.buf b').page ≠ q) →
        (t.work.lane n).ctx.state = .active
        ∧ (x.state = .writePass → t.work.frameOut n = some (requestFrame 0x05#8 l.ctx.seq
            (leBytes 4 q ++ (w.buf next).data.take size)))
        ∧ (x.state = .checkPass → t.work.frameOut n = some (requestFrame 0x06#8 l.ctx.seq
            (leBytes 4 q ++ leBytes 2 size))) := by
  have ne : page ≠ q := (pageAfter_gt (by rw [hsize]; positivity) after).ne
  have inside := h.consumed done
  obtain ⟨k, f, ctx⟩ := done.ctx
  have size_v : (v.ctx c).size = size := by rw [ctx, hsize, hx]; rfl
  have adv : (w.ctx c).advance l.ctx.cursor = .at q := by rw [advance_at hx hsize cursor, after]
  rw [adv] at inside
  have page_v : v.pageReady c n = (v.heldPage c q).map (fun b => (q, b)) := pageReady_at (by rw [inside.lane]; rfl)
  obtain ⟨waitsW, sendsW, l₁, at₁, movedW⟩ := writeGo_moves inside env c
  obtain ⟨waitsC, sendsC, l₂, at₂, movedC⟩ := checkGo_moves inside env c
  -- both passes in one: `go` is the piece of the step that sends or waits
  obtain ⟨go, hgo⟩ : ∃ go, go = if x.state = .writePass then v.writeGo env n c else v.checkGo env n c := ⟨_, rfl⟩
  rw [← hgo] at y
  have moved : ∃ l', AtPage (advanced (.at q) l) l' ∧ Moved v n l' go := by
    rw [hgo]
    split
    · exact ⟨l₁, at₁, movedW⟩
    · exact ⟨l₂, at₂, movedC⟩
  obtain ⟨l', at_page, moved⟩ := moved
  obtain ⟨step, -, cur⟩ := atPage_keeps at_page
  refine ⟨fun b' => by rw [y.buf, moved.buf], by rw [y.ctx, moved.ctx], by rw [y.isLive n, moved.jobs.isLive n, inside.live],
    by rw [y.lane n, moved.lane, cur]; rfl, by rw [y.lane n, moved.lane, step]; rfl, fun no => ?_, fun next heldN ownerN pageN only => ?_⟩
  · have waits : v.pageReady c n = none := by
      rw [page_v, heldPage_none]
      · rfl
      · intro b' held' owner' there
        obtain ⟨-, same⟩ := page_consumed done at_ ne owner' there
        rw [same] at held' owner' there
        exact no b' owner' held' there
    have same : go = v := by
      rw [hgo]
      split
      · exact waitsW waits
      · exact waitsC waits
    rw [y.lane n, same, inside.lane]
    exact ⟨rfl, rfl⟩
  · have other : next ≠ b := by
      rintro rfl
      exact ne (at_.symm.trans pageN)
    have next_v : v.buf next = w.buf next := by rw [done.buf, if_neg other]
    have ready : v.pageReady c n = some (q, next) := by
      rw [page_v, heldPage_some (b := next) (by rw [next_v, heldN]) (by rw [next_v, ownerN]) (by rw [next_v, pageN])]
      · rfl
      · intro b' hb' owner' there
        obtain ⟨-, same⟩ := page_consumed done at_ ne owner' there
        rw [same] at owner' there
        exact only b' hb' owner' there
    have write : x.state = .writePass → Moved v n ((advanced (.at q) l).beginRequest
        (leBytes 4 q ++ (v.buf next).data.take size) ((advanced (.at q) l).writeRequest q next size)) go := fun hw => by
      have := sendsW q next ready
      rw [size_v] at this
      rw [hgo, if_pos hw]
      exact this
    have check : x.state = .checkPass → Moved v n ((advanced (.at q) l).beginRequest
        (leBytes 4 q ++ leBytes 2 size) ((advanced (.at q) l).readRequest (.checkRead q) q size)) go := fun hc => by
      have := sendsC q next ready
      rw [size_v] at this
      rw [hgo, if_neg (by simp [hc])]
      exact this
    refine ⟨?_, fun hw => ?_, fun hc => ?_⟩
    · rw [y.lane n]
      rcases state with hw | hc
      · rw [(write hw).lane]
        rfl
      · rw [(check hc).lane]
        rfl
    · rw [frameOut_write (write hw) y, next_v]
      rfl
    · exact (sent_frame (check hc) y rfl (by simp [Lane.readRequest, engineRequest])).trans rfl

/-- The last page of the WRITE pass, with CHECK to come (R92, R109). -/
theorem last_write (h : InProgram w n l steps clearAll level (some c)) (hx : x = w.ctx c) (done : Consumed w n c b l v)
    (inside : hasLane x.passLanes n = true) (write : x.state = .writePass) (check : steps.check = true)
    (past : (w.ctx c).advance l.ctx.cursor = .past) (job : w.jobOf n = some j) (y : Yields (v.finishWrite env n c steps level) t) :
    (∀ b', t.work.buf b' = v.buf b') ∧ t.work.isLive n = true
    ∧ ((∃ m, m ≠ n ∧ hasLane x.passLanes m = true) →
        (t.work.lane n).ctx.step = .checkWait ∧ (t.work.lane n).ctx.cursor = .past
        ∧ (t.work.lane n).ctx.state = l.ctx.state ∧ (t.work.lane n).link = l.link
        ∧ (t.work.ctx c).state = .writePass ∧ (t.work.ctx c).passLanes = dropLane x.passLanes n)
    ∧ ((∀ m, m ≠ n → hasLane x.passLanes m = false) → x.checkDue = true → x.slot = l.ctx.slot →
        (t.work.ctx c).state = .checkPass ∧ (t.work.ctx c).passLanes = j.live
        ∧ (t.work.ctx c).checkDue = false ∧ (t.work.ctx c).nextPage = firstPage x.segs x.size
        ∧ ∀ m, hasLane j.live m = true → (t.work.lane m).ctx.step = .check ∧ (t.work.lane m).ctx.cursor = .start
          ∧ (t.work.lane m).link = (w.lane m).link) := by
  have prog := h.consumed done
  obtain ⟨k, f, ctx⟩ := done.ctx
  rw [← hx] at ctx
  rw [past] at prog
  have inside_v : hasLane (v.ctx c).passLanes n = true := by rw [ctx]; exact inside
  rw [finishWrite_check prog.unstopped check] at y
  have same := sameJobs_dropFromPass v c n
  have live : t.work.isLive n = true := by
    rw [y.isLive n]
    split
    · rw [same.isLive n, prog.live]
    · rw [(sameJobs_enterStep ..).isLive n, same.isLive n, prog.live]
  refine ⟨fun b' => ?_, live, fun more => ?_, fun last due slot => ?_⟩
  · rw [y.buf, ← buf_dropFromPass v c n b']
    split
    · rfl
    · exact buf_setStep ..
  · rw [dropFromPass_others inside_v (by rw [ctx]; exact more)] at y
    rw [if_neg (by rw [ctx_modCtx, if_pos rfl, ctx]; simp [write])] at y
    have lane_t : t.work.lane n = stepped .checkWait none (advanced .past l) := by
      rw [y.lane n, lane_enterStep, if_pos rfl, lane_modCtx, prog.lane]
      rfl
    have ctx_t : t.work.ctx c = { v.ctx c with passLanes := dropLane (v.ctx c).passLanes n } := by
      rw [y.ctx]
      exact (ctx_setStep ..).trans ((ctx_modCtx ..).trans (if_pos rfl))
    rw [lane_t, ctx_t, ctx]
    exact ⟨rfl, rfl, rfl, rfl, write, rfl⟩
  · obtain ⟨z, hz⟩ : ∃ z, z = v.modCtx c (fun x => { x with passLanes := 0 }) := ⟨_, rfl⟩
    have ctx_z : z.ctx c = { x with sharedHeld := k, fetch := f, passLanes := 0 } := by
      rw [hz, ctx_modCtx, if_pos rfl, ctx]
    obtain ⟨i, j', slot_n, at_i, live_n⟩ := isLive_iff.mp h.live
    have same_j : j' = j := Option.some.inj ((jobOf_slot slot_n at_i).symm.trans job)
    subst same_j
    have live_z : z.ctxLive c = j'.live := by
      have here : w.ctxLive c = j'.live := ctxLive_of (by rw [← hx, slot, ← h.lane]; exact slot_n) at_i
      rw [← here]
      refine ctxLive_same (done.jobs.trans ?_) (by rw [ctx_z, hx])
      rw [hz]
      exact sameJobs_modCtx c _
    have some_live : j'.live ≠ 0 := fun none_ => by
      rw [none_] at live_n
      exact Bool.false_ne_true ((hasLane_zero n).symm.trans live_n)
    obtain ⟨ctxs, lanes, -⟩ := endPass_check (w := z) (c := c) (by rw [ctx_z]; exact write) (by rw [ctx_z]; exact due)
      (live_z ▸ some_live)
    rw [live_z] at ctxs lanes
    have ended : (z.endPass c).ctx c = checking j'.live { x with sharedHeld := k, fetch := f, passLanes := 0 } := by
      rw [ctxs, if_pos rfl, ctx_z]
    rw [dropFromPass_last inside_v (by rw [ctx]; exact last), ← hz, if_pos (by rw [ended]; rfl)] at y
    rw [y.ctx, ended]
    refine ⟨rfl, rfl, rfl, rfl, fun m hm => ?_⟩
    have link : (v.lane m).link = (w.lane m).link := by
      by_cases mn : m = n
      · subst mn
        rw [done.lane, h.lane]
        rfl
      · rw [done.others m mn]
    rw [y.lane m, lanes m, if_pos hm, hz, lane_modCtx]
    exact ⟨rfl, rfl, link⟩

/-- The last page of the last pass (R93, R110). -/
theorem last_pass (h : InProgram w n l steps clearAll level (some c)) (hx : x = w.ctx c) (done : Consumed w n c b l v)
    (inside : hasLane x.passLanes n = true) (pass : x.state = .checkPass ∨ (x.state = .writePass ∧ x.checkDue = false))
    (job : w.jobOf n = some j) (y : Yields ((v.dropFromPass c n).enterSum env n steps level) t) :
    (∀ b', t.work.buf b' = v.buf b')
    ∧ ((∃ m, m ≠ n ∧ hasLane x.passLanes m = true) → (∀ m, hasLane x.passLanes m = true → hasLane j.live m = true) →
        (t.work.ctx c).state = x.state ∧ (t.work.ctx c).passLanes = dropLane x.passLanes n)
    ∧ ((∀ m, m ≠ n → hasLane x.passLanes m = false) → (t.work.ctx c).state ∈ [.idle, .free]) := by
  have prog := h.consumed done
  obtain ⟨k, f, ctx⟩ := done.ctx
  rw [← hx] at ctx
  have inside_v : hasLane (v.ctx c).passLanes n = true := by rw [ctx]; exact inside
  have pass_v : (v.ctx c).state = .checkPass ∨ ((v.ctx c).state = .writePass ∧ (v.ctx c).checkDue = false) := by
    rw [ctx]
    exact pass
  obtain ⟨out, lanes⟩ := dropFromPass_out inside_v pass_v
  have same := sameJobs_dropFromPass v c n
  have prog' := prog.jobs (l' := advanced ((w.ctx c).advance l.ctx.cursor) l) same (by rw [lanes, prog.lane]) h.un h.ride
  obtain ⟨bufs, kept⟩ := enterSum_keeps prog' out env
  refine ⟨fun b' => by rw [y.buf, bufs, buf_dropFromPass], fun more live => ?_, fun last => ?_⟩
  · rcases kept with kept | ⟨-, alone⟩
    · rw [y.ctx, kept, dropFromPass_others inside_v (by rw [ctx]; exact more), ctx_modCtx, if_pos rfl, ctx]
      exact ⟨rfl, rfl⟩
    · obtain ⟨m, hm, inside_m⟩ := more
      obtain ⟨j', job', -, -, live', -⟩ := job_after (done.jobs.trans same) job
      have := alone j' job' m hm
      rw [live', live m inside_m] at this
      cases this
  · rw [y.ctx]
    rcases kept with kept | ⟨free, -⟩
    · rw [kept, dropFromPass_last inside_v (by rw [ctx]; exact last), endPass_over (by
        rw [ctx_modCtx, if_pos rfl]
        exact pass_v.imp id fun ⟨a, b⟩ => ⟨a, .inl b⟩), ctx_modCtx, if_pos rfl]
      exact List.mem_cons_self ..
    · rw [free]
      simp [ImageCtx.free]

end

/-! ## The SUM step goes on, or is over (R111, R112) -/

theorem sum_next (h : InProgram w n l steps clearAll level o) {pos m : Nat} {g : Segment} {v : Word} (le : pos ≤ m)
    (seg : (w.laneSegs n)[m]? = some g) (ref : refAt (laneComputed w n) (w.laneSegs n) m = some v)
    (before : ∀ k, pos ≤ k → k < m → refAt (laneComputed w n) (w.laneSegs n) k = none)
    (y : Yields (w.sumGo env n steps level pos) t) :
    t.work.isLive n = true ∧ (t.work.lane n).ctx.step = l.ctx.step ∧ (t.work.lane n).ctx.stepPos = some m
    ∧ (t.work.lane n).ctx.sumsSkipped = l.ctx.sumsSkipped + (m - pos)
    ∧ (t.work.lane n).link.busyLimit = l.settings.sumLimit * ceilDiv g.len.toNat 1024
    ∧ t.work.frameOut n = some (requestFrame 0x07#8 l.ctx.seq (leBytes 4 g.addr.toNat ++ leBytes 4 g.len.toNat)) := by
  obtain ⟨bytes, sent⟩ := sumGo_sends h le seg ref before env (level := level)
  obtain ⟨live, lane⟩ := sent_leads h sent y
  exact ⟨live, by rw [lane]; rfl, by rw [lane]; rfl, by rw [lane]; rfl, by rw [lane]; rfl,
    sent_frame sent y rfl (by simp [Lane.sumRequest, engineRequest])⟩

theorem sum_over (same : SameJobs s.work w) (h : InProgram w n l steps clearAll level o) {pos : Nat}
    (all : ∀ k, pos ≤ k → refAt (laneComputed w n) (w.laneSegs n) k = none) (y : Yields (w.sumGo env n steps level pos) t) :
    (steps.guard = true → t.work.isLive n = true ∧ (t.work.lane n).ctx.step = .guard
      ∧ (t.work.lane n).ctx.stepPos = none
      ∧ (t.work.lane n).ctx.sumsSkipped = l.ctx.sumsSkipped + ((w.laneSegs n).length - pos)
      ∧ t.work.frameOut n = some (requestFrame 0x08#8 l.ctx.seq [BitVec.ofNat 8 level]))
    ∧ (steps.guard = false → t.work.isLive n = false ∧ s.work.ResultCopied t.work n .done
        (fun o => o.sumsSkipped = l.ctx.sumsSkipped + ((w.laneSegs n).length - pos))) := by
  obtain ⟨x, moved, e⟩ := sumGo_over h all env (level := level)
  rw [e] at y
  exact guard_leads (same.trans moved.jobs) (h.move moved h.un h.ride) y

/-- SUM as the first step that the job has left. -/
theorem sum_first (h : InProgram w n l steps clearAll level o) (sum : steps.sum = true) {m : Nat} {g : Segment} {v : Word}
    (seg : (w.laneSegs n)[m]? = some g) (ref : refAt (laneComputed w n) (w.laneSegs n) m = some v)
    (before : ∀ k, k < m → refAt (laneComputed w n) (w.laneSegs n) k = none) (y : Yields (w.enterSum env n steps level) t) :
    t.work.isLive n = true ∧ (t.work.lane n).ctx.step = .sum ∧ (t.work.lane n).ctx.stepPos = some m
    ∧ (t.work.lane n).ctx.sumsSkipped = l.ctx.sumsSkipped + m
    ∧ t.work.frameOut n = some (requestFrame 0x07#8 l.ctx.seq (leBytes 4 g.addr.toNat ++ leBytes 4 g.len.toNat)) := by
  have entered := (Moved.refl h.lane).enterStep .sum (some 0)
  rw [enterSum_begins h sum] at y
  have inside := h.move (l' := stepped .sum (some 0) l) entered h.un h.ride
  have computed := computed_moved entered
  have segs := entered.laneSegs
  obtain ⟨live, step, pos, skipped, -, frame⟩ := sum_next inside (Nat.zero_le m) (by rw [segs, seg]) (by rw [computed, segs, ref])
    (fun k _ hk => by rw [computed, segs]; exact before k hk) y
  exact ⟨live, step, pos, skipped, frame⟩

end Sys2Proof.Proofs
end

section
/-! The replies after which a PROGRAM lane goes on, together: O41. -/

namespace Sys2Proof.Proofs

-- One theorem at a time: a thread for each would ask for more stack than the check allows.
set_option Elab.async false

open Sys2Proof.Machine Sys2Proof.Laws

variable {s t : State} {w : Work} {n : LaneId} {j : JobSlot} {q : Request} {c : CtxId} {p : List Byte}

theorem refAt_at {computed : List (Option Word)} {segs : List Segment} {m : Nat} {g : Segment} (seg : segs[m]? = some g) :
    refAt computed segs m = match g.crc with
      | some v => some v
      | none => (computed[m]?).join := by
  rw [refAt, seg]
  rfl

theorem refAt_none {computed : List (Option Word)} {segs : List Segment} {m : Nat}
    (h : ∀ g, segs[m]? = some g → g.crc = none ∧ (computed[m]?).join = none) : refAt computed segs m = none := by
  cases seg : segs[m]? with
  | none => rw [refAt, seg]; rfl
  | some g =>
    obtain ⟨crc, computed⟩ := h g seg
    rw [refAt_at seg, crc]
    exact computed

/-- The segments of a lane's image, as the statements name them. -/
theorem laneSegs_of {segs : List Segment} (job : w.jobOf n = some j) (some_ : ∀ c, j.ctx = some c → segs = (w.ctx c).segs)
    (none_ : j.ctx = none → segs = []) : w.laneSegs n = segs := by
  have ctx : w.laneCtx n = j.ctx := by rw [Work.laneCtx, job]; rfl
  unfold Work.laneSegs
  rw [ctx]
  cases h : j.ctx with
  | none => exact (none_ h).symm
  | some c => exact (some_ c h).symm

/-- Settles O41: reply by reply, what each leads to. -/
theorem programRepliesGoOn : Obligations.ProgramRepliesGoOn := by
  intro s n l q j steps fresh clearAll e level ptr key p aw hl part live job args state listens un ride req free short
  subst hl
  obtain ⟨t, exec_t, -⟩ := exec_next s (.replyFrameComplete n (replyFrame (q.kind + 0x80#8) (s.work.lane n).link.seq 0 p))
  have same := sameJobs_closedWork s.work n true
  have at_n := at_closedWork (w := s.work) (n := n) true
  obtain ⟨j', job', args', ctx', live', -⟩ := job_after same job
  have prog : InProgram (closedWork s.work n true) n (closedLane true (s.work.lane n)) steps clearAll level j.ctx :=
    ⟨at_n, ⟨fresh, e, ptr, key, by rw [job', Option.map_some, args', args]⟩, by rw [Work.laneCtx, job']; exact ctx',
      by rw [same.isLive n, live], un, ride⟩
  have ready : (closedLane true (s.work.lane n)).ctx.state = .ready := if_pos state
  -- every reply here is taken in the tables in which the exchange is over
  have replied : q.purpose.isClose = false → Yields ((closedWork s.work n true).replyTaken s.env n q
      (replyFrame (q.kind + 0x80#8) (s.work.lane n).link.seq 0 p) 0 p) t := fun open_ => by
    obtain ⟨t', e', y, -⟩ := reply_yields (status := 0) aw part listens req open_ short (by decide) rfl
    rw [exec_t] at e'
    cases e'
    exact y
  have success : q.purpose ≠ .entry → q.purpose ≠ .openSession → q.purpose.isClose = false → p.length = q.replyLength →
      Yields ((closedWork s.work n true).replySuccess s.env n q p) t := fun step linking open_ len => by
    have y := replied open_
    rwa [replyTaken_ok _ step linking len] at y
  have cleared : q.purpose = .clear → p = [] → Yields ((closedWork s.work n true).replySuccess s.env n q p) t :=
    fun purpose empty => success (by simp [purpose]) (by simp [purpose]) (by rw [purpose]; rfl)
      (by rw [empty]; simp [Request.replyLength, purpose])
  refine ⟨t, exec_t, ?_, ?_, ?_, ?_⟩
  · intro k d segs first count purpose empty pos desc hs hn next
    exact clear_next prog purpose pos desc (by rwa [laneSegs_of (w := closedWork s.work n true) job' (fun c h => hs c (ctx' ▸ h)) (fun h => hn (ctx' ▸ h))])
      (cleared purpose empty)
  · intro k d segs purpose empty pos desc hs hn length
    have segs_n : (closedWork s.work n true).laneSegs n = segs :=
      laneSegs_of (w := closedWork s.work n true) job' (fun c h => hs c (ctx' ▸ h)) (fun h => hn (ctx' ▸ h))
    have y := cleared purpose empty
    rw [replySuccess_clear prog purpose, posOf_eq prog.lane pos,
      clearGo_over prog desc (by rw [segs_n, ← length]; exact List.getElem?_eq_none le_rfl)] at y
    have moved := (Moved.refl at_n).setPos (some (k + 1))
    have prog' := prog.move moved un ride
    have segs_v := moved.laneSegs.trans segs_n
    have computed_v := computed_moved moved
    refine ⟨fun c ctx any => ?_, fun write check => ?_⟩
    · rw [ctx] at prog'
      obtain ⟨live_t, step, stepPos, cursor, waits⟩ := page_step_leads prog' any y
      exact ⟨live_t, step, stepPos, cursor, fun no =>
        (waits no).imp (·.trans ready) (fun h => congrArg LinkUnit.state h)⟩
    · rw [enterWrite_skips write, enterCheck_skips check] at y
      refine ⟨fun c m g v ctx sum seg crc before => ?_, fun all => ?_⟩
      · rw [ctx] at prog
        have computed := computed_v.trans (computed_of prog.ctx)
        refine sum_first prog' sum (by rw [segs_v]; exact seg) (v := v) (by rw [segs_v, refAt_at seg, crc])
          (fun i hi => ?_) y
        rw [segs_v, computed]
        exact refAt_none fun h => before i h hi
      · obtain ⟨x, st, pos', moved', over_⟩ := enterSum_over prog' (fun sum i => by
          rw [segs_v, computed_v]
          refine refAt_none fun g seg => ?_
          cases ctx : j.ctx with
          | none =>
            rw [hn ctx] at seg
            cases seg
          | some c =>
            rw [ctx] at prog
            rw [computed_of prog.ctx]
            exact all sum c i g ctx seg) s.env (level := level)
        rw [over_] at y
        obtain ⟨goes, ends⟩ := guard_leads (same.trans (moved.jobs.trans moved'.jobs)) (prog'.move moved' un ride) y
        refine ⟨fun guard => ?_, fun guard => ?_⟩
        · obtain ⟨live_t, step, stepPos, -, frame⟩ := goes guard
          exact ⟨live_t, step, stepPos, frame⟩
        · rw [segs_v] at ends
          exact ends guard
  · intro c x size page b old ctx hx hsize small cursor hold held owner at_ only inside passes due cause
    subst hold
    rw [ctx] at prog
    have found : (closedWork s.work n true).heldPage c page = some b :=
      heldPage_some (w := closedWork s.work n true) held owner at_ only
    obtain ⟨v, done, leads⟩ := page_reply prog hx hsize small cursor found cause s.env
      (replyFrame (q.kind + 0x80#8) (s.work.lane n).link.seq 0 p)
    have y := replied (by rcases cause with ⟨-, purpose, -⟩ | ⟨-, purpose, -⟩ <;> rw [purpose] <;> rfl)
    rw [leads] at y
    have pass : x.state = .writePass ∨ x.state = .checkPass := cause.imp And.left And.left
    have size_x : x.size = size := hsize.symm
    have past : pageAfter x.segs size page = none →
        ((closedWork s.work n true).ctx c).advance (closedLane true (s.work.lane n)).ctx.cursor = .past := fun after => by
      refine (advance_at (l := closedLane true (s.work.lane n)) hx hsize cursor).trans ?_
      rw [after]
    -- the three ways in which the lane goes on
    have next : ∀ q, pageAfter x.segs size page = some q → _ := fun q after =>
      next_page prog hx hsize cursor at_ done after pass (by rwa [if_neg (by simp [after])] at y) held owner
    have write : pageAfter x.segs size page = none → x.state = .writePass → steps.check = true → _ := fun after state check =>
      last_write prog hx done inside state check (past after) job' (by rwa [if_pos after, if_pos state] at y)
    have check : pageAfter x.segs size page = none → x.state = .checkPass → _ := fun after state =>
      last_pass prog hx done inside (.inl state) job'
        (by rwa [if_pos after, if_neg (by simp [state]), finishCheck_sum (prog.consumed done).unstopped] at y)
    have bufs : ∀ b', t.work.buf b' = v.buf b' := by
      cases after : pageAfter x.segs size page with
      | some q => exact (next q after).1
      | none =>
        rcases pass with state | state
        · cases checks : steps.check with
          | true => exact (write after state checks).1
          | false =>
            have undue : x.checkDue = false := by
              by_contra h
              rw [due (by simpa using h)] at checks
              cases checks
            exact (last_pass prog hx done inside (.inr ⟨state, undue⟩) job'
              (by rwa [if_pos after, if_pos state, finishWrite_sum (prog.consumed done).unstopped checks] at y)).1
        · exact (check after state).1
    refine ⟨fun more => ?_, fun last => ?_, fun b' hb => ?_, fun q after => ?_, fun after state checks => ?_, fun after state => ?_⟩
    · rw [bufs, done.buf, if_pos rfl]
      exact if_neg (by show ¬ (s.work.buf b).count ≤ 1; omega)
    · rw [bufs, done.buf, if_pos rfl]
      exact if_pos last
    · rw [bufs, done.buf, if_neg hb]
      rfl
    · obtain ⟨-, ctx_t, live_t, cur, step, waits, sends⟩ := next q after
      obtain ⟨k, f, ctx_v⟩ := done.ctx
      rw [ctx_t, ctx_v]
      exact ⟨live_t, cur, step, (congrArg ImageCtx.passLanes hx).symm, (congrArg ImageCtx.state hx).symm,
        fun no => (waits no).imp (·.trans ready) (fun h => congrArg LinkUnit.state h), sends⟩
    · obtain ⟨-, live_t, more, last⟩ := write after state checks
      refine ⟨live_t, fun others => ?_, fun others hdue slot => ?_⟩
      · obtain ⟨step, cur, st, link, rest⟩ := more others
        exact ⟨step, cur, st.trans ready, congrArg (·.state) link, rest⟩
      · obtain ⟨st, lanes, undue, first, each⟩ := last others hdue slot
        rw [size_x] at first
        rw [live'] at lanes each
        refine ⟨st, lanes, undue, first, fun m hm _ => ?_⟩
        obtain ⟨step, cur, link⟩ := each m hm
        refine ⟨step, cur, fun idle => ?_⟩
        rw [link, lane_closedWork]
        split
        · rfl
        · next other => exact idle.resolve_left other
    · obtain ⟨-, more, last⟩ := check after state
      refine ⟨fun others => ?_, fun others _ => last others⟩
      have := more others fun m hm => by rw [live']; exact passes m hm
      rwa [state] at this
  · intro c i v segs reference ctx hsegs href purpose len equal
    rw [ctx] at prog
    have y := success (by simp [purpose]) (by simp [purpose]) (by rw [purpose]; rfl) (by simp [Request.replyLength, purpose, len])
    rw [replySuccess_sum prog purpose _ _ equal] at y
    have segs_n : (closedWork s.work n true).laneSegs n = segs := (segs_of prog.ctx).trans hsegs.symm
    have ref : ∀ m g, segs[m]? = some g → refAt (laneComputed (closedWork s.work n true) n) segs m = reference m :=
      fun m g seg => by
        rw [computed_of prog.ctx, refAt_at seg, href m g seg]
        rfl
    have unreferenced : ∀ k, reference k = none → refAt (laneComputed (closedWork s.work n true) n) segs k = none :=
      fun k none_ => by
        cases seg : segs[k]? with
        | none => rw [refAt, seg]; rfl
        | some g => rw [ref k g seg, none_]
    refine ⟨fun m g v' lt seg ref_m before => ?_, fun all => ?_⟩
    · have next := sum_next prog (Nat.succ_le_of_lt lt) (by rw [segs_n, seg]) (by rw [segs_n, ref m g seg, ref_m])
        (fun k a b => by rw [segs_n]; exact unreferenced k (before k a b)) y
      rwa [Nat.succ_eq_add_one, Nat.sub_add_eq] at next
    · have over_ := sum_over same prog (pos := i + 1) (fun k a => by
        rw [segs_n]
        by_cases inside : k < segs.length
        · exact unreferenced k (all k a inside)
        · rw [refAt, List.getElem?_eq_none (by omega)]
          rfl) y
      rwa [segs_n, Nat.sub_add_eq] at over_

end Sys2Proof.Proofs
end

section
/-! What an event at one lane leaves of the others, and of their jobs. -/

namespace Sys2Proof.Proofs

-- One theorem at a time: a thread for each would ask for more stack than the check allows.
set_option Elab.async false

open Sys2Proof.Machine Sys2Proof.Laws

variable {s t u : State} {v w w' x : Work} {env : Env} {n m : LaneId} {i : SlotId} {j : JobSlot} {c : CtxId} {r : LaneResult}

/-! ## An event at one lane -/

/-- The job as it is later, while lane `m` is live in it. -/
structure Stays (m : LaneId) (j j' : JobSlot) : Prop where
  same : SlotSame j j'
  live : hasLane j.live m = true → hasLane j'.live m = true ∧ j'.results.get m = j.results.get m

/-- The job takes part in no pass over an image (R82). -/
def Passless (j : JobSlot) : Prop :=
  ∀ c, j.ctx = some c → ∃ fresh e host key start len, j.args = .readout fresh e host key start len

/-- `w'` comes from `w` by what happens at lane `n`: no other lane changes, but that the pass that `n` leaves may move it on
to the next one, and a live lane stays live in its job. -/
structure Local (n : LaneId) (w w' : Work) : Prop where
  others : Others n w w'
  owner : ∀ m, m ≠ n → w'.ownerOf m = w.ownerOf m
  job : ∀ m i j, m ≠ n → (w.lane m).ctx.slot = some i → w.slot i = some j → hasLane j.live m = true ∨ w.ownerOf m = some i →
    ∃ j', w'.slot i = some j' ∧ Stays m j j'
  alone : (∀ j, w.jobOf n = some j → Passless j) →
    (∀ j, w'.jobOf n = some j → Passless j) ∧ ∀ m, m ≠ n → w'.lane m = w.lane m

theorem slot_others (h : Others n w w') (hm : m ≠ n) : (w'.lane m).ctx.slot = (w.lane m).ctx.slot := by
  obtain ⟨cur, st, pos, e⟩ := h m hm
  rw [e]

theorem refl_stays (m : LaneId) (j : JobSlot) : Stays m j j := ⟨slotSame_rfl j, fun h => ⟨h, rfl⟩⟩

theorem slotSame_trans {a b c : JobSlot} (h : SlotSame a b) (g : SlotSame b c) : SlotSame a c := by
  obtain ⟨h1, h2, h3, h4, h5, h6, h7⟩ := h
  obtain ⟨g1, g2, g3, g4, g5, g6, g7⟩ := g
  exact ⟨g1.trans h1, g2.trans h2, g3.trans h3, g4.trans h4, g5.trans h5, g6.trans h6, g7.trans h7⟩

theorem Stays.trans {a b c : JobSlot} (h : Stays m a b) (g : Stays m b c) : Stays m a c :=
  ⟨slotSame_trans h.same g.same, fun live => by
    obtain ⟨live, result⟩ := h.live live
    obtain ⟨live, result'⟩ := g.live live
    exact ⟨live, result'.trans result⟩⟩

namespace Local

theorem refl : Local n w w :=
  ⟨.refl, fun _ _ => rfl, fun m _ j _ _ b _ => ⟨j, b, refl_stays m j⟩, fun h => ⟨h, fun _ _ => rfl⟩⟩

theorem trans (h : Local n w v) (g : Local n v x) : Local n w x := by
  refine ⟨h.others.trans g.others, fun m hm => (g.owner m hm).trans (h.owner m hm), fun m i j hm a b c => ?_, fun none_ => ?_⟩
  · obtain ⟨j', b', stays⟩ := h.job m i j hm a b c
    obtain ⟨j'', b'', stays'⟩ := g.job m i j' hm ((slot_others h.others hm).trans a) b'
      (c.imp (fun live => (stays.live live).1) (h.owner m hm).trans)
    exact ⟨j'', b'', stays.trans stays'⟩
  · obtain ⟨ctx, lanes⟩ := h.alone none_
    obtain ⟨ctx', lanes'⟩ := g.alone ctx
    exact ⟨ctx', fun m hm => (lanes' m hm).trans (lanes m hm)⟩

/-- What leaves every job as it is, but for last steps, and changes lane `n` only. -/
theorem of_same (same : SameJobs w w') (lanes : ∀ m, m ≠ n → w'.lane m = w.lane m) : Local n w w' := by
  refine ⟨.of_eq lanes, fun m _ => same.ownerOf m, fun m i j _ _ b _ => ?_, fun h => ⟨fun j job => ?_, lanes⟩⟩
  · obtain ⟨steps, e⟩ := same.slot b
    exact ⟨_, e, ⟨rfl, rfl, rfl, rfl, rfl, rfl, rfl⟩, fun live => ⟨live, rfl⟩⟩
  · obtain ⟨steps, e⟩ := same.jobOf n
    rw [e] at job
    obtain ⟨j', job', rfl⟩ := Option.map_eq_some_iff.mp job
    exact h j' job'

theorem modLane {f : Lane → Lane} (slot : (f (w.lane n)).ctx.slot = (w.lane n).ctx.slot := by rfl) : Local n w (w.modLane n f) :=
  of_same (sameJobs_modLane slot) fun m hm => by rw [lane_modLane, if_neg hm]

theorem setLane {l : Lane} (slot : l.ctx.slot = (w.lane n).ctx.slot := by rfl) : Local n w (w.setLane n l) :=
  modLane (f := fun _ => l) slot

theorem setStep (w : Work) (n : LaneId) (st : Step) : Local n w (w.setStep n st) :=
  of_same (sameJobs_setStep w n st) fun m hm => by rw [lane_setStep, if_neg hm]

theorem enterStep (w : Work) (n : LaneId) (st : Step) (p : Option Nat) : Local n w (w.enterStep n st p) :=
  of_same (sameJobs_enterStep w n st p) fun m hm => by rw [lane_enterStep, if_neg hm]

theorem setPos (w : Work) (n : LaneId) (p : Option Nat) : Local n w (w.setPos n p) := modLane

theorem holdBack (w : Work) (n : LaneId) (h : Held) : Local n w (w.holdBack n h) := modLane

theorem request (w : Work) (n : LaneId) (q : Request) : Local n w (w.request n q) := by
  unfold Work.request
  split
  · exact modLane
  · exact modLane

theorem transfer (w : Work) (n : LaneId) (x : Xfer) (h : Held) : Local n w (w.transfer n x h) := by
  unfold Work.transfer
  split
  · exact modLane
  · exact modLane

theorem passLeave (job : w.jobOf n = some j) (h : ¬ Passless j) : Local n w (w.passLeave c n) := by
  have same := sameJobs_passLeave w c n
  refine ⟨others_passLeave c n, fun m _ => same.ownerOf m, fun m i j _ _ b _ => ?_, fun none_ => ?_⟩
  · obtain ⟨steps, e⟩ := same.slot b
    exact ⟨_, e, ⟨rfl, rfl, rfl, rfl, rfl, rfl, rfl⟩, fun live => ⟨live, rfl⟩⟩
  · exact absurd (none_ j job) h

/-! ### The end of a lane's work -/

theorem record (w : Work) (n : LaneId) (r : LaneResult) (fa : Option Word) : Local n w (w.record n r fa) := by
  unfold Work.record
  split
  · exact .refl
  next i hi =>
  split
  · exact .refl
  next j hj =>
  split
  · next live =>
    refine ⟨.of_eq fun m hm => by simp [hm], fun _ _ => rfl, fun m k j' hm a b c => ?_, fun none_ => ⟨?_, fun m hm => by simp [hm]⟩⟩
    · rw [slot_setSlot]
      by_cases hk : k = i
      · subst hk
        cases hj.symm.trans b
        rw [if_pos rfl]
        refine ⟨_, rfl, ⟨rfl, rfl, rfl, rfl, rfl, rfl, rfl⟩, fun live => ⟨?_, ?_⟩⟩
        · exact (hasLane_dropLane ..).trans (by simp [hm, live])
        · simp [hm]
      · rw [if_neg hk]
        exact ⟨j', b, refl_stays m j'⟩
    · intro j' job'
      unfold Work.jobOf at job'
      simp [hi] at job'
      rw [← job']
      exact none_ j (jobOf_slot hi hj)
  · exact .refl

theorem leave (w : Work) (env : Env) (n : LaneId) : Local n w (w.leave env n) := by
  refine ⟨others_leave env, fun m hm => ?_, fun m i j hm a b c => ?_, fun none_ => ⟨?_, fun m hm => by rw [lane_leave, if_neg hm]⟩⟩
  · rw [owner_leave, if_neg (by simp [hm])]
  · unfold Work.leave
    cases hi : (w.lane n).ctx.slot with
    | none => exact ⟨j, b, refl_stays m j⟩
    | some k =>
      dsimp only
      unfold Work.settleJob
      split
      · exact ⟨j, b, refl_stays m j⟩
      next jk hk =>
      have hk : w.slot k = some jk := hk
      split
      · exact ⟨j, b, refl_stays m j⟩
      next empty =>
      have held : i = k → ((w.modLane n Lane.release).setOwner n none).anyHeld k = true := by
        rintro rfl
        cases hk.symm.trans b
        rcases c with c | c
        · rw [Classical.not_not.mp empty] at c
          exact absurd ((hasLane_zero m).symm.trans c) Bool.false_ne_true
        · refine List.any_eq_true.mpr ⟨m, mem_allLanes m, ?_⟩
          rw [ownerOf_setOwner, if_neg hm]
          exact decide_eq_true c
      split
      · by_cases same : i = k
        · subst same
          cases hk.symm.trans b
          exact ⟨_, (slot_setSlot ..).trans (if_pos rfl), ⟨slotSame_rfl j, fun live => ⟨live, rfl⟩⟩⟩
        · exact ⟨j, by rw [slot_setSlot, if_neg same]; exact b, refl_stays m j⟩
      · next free =>
        exact ⟨j, by rw [Work.complete, completeAs_slot, if_neg fun same => free (held same)]; exact b, refl_stays m j⟩
  · intro j job
    unfold Work.jobOf at job
    rw [lane_leave, if_pos rfl] at job
    cases hi : (w.lane n).ctx.slot with
    | none => simp [hi] at job
    | some k => simp [hi, Lane.release] at job

theorem finishEnd (w : Work) (env : Env) (n : LaneId) (e : EndAction) : Local n w (w.finishEnd env n e) := by
  unfold Work.finishEnd
  split
  · exact leave w env n
  · split
    · exact leave w env n
    · exact Local.trans modLane (leave _ env n)
    · exact Local.trans modLane (leave _ env n)
    · exact modLane

theorem startEnd (w : Work) (env : Env) (n : LaneId) (e : EndAction) : Local n w (w.startEnd env n e) := by
  unfold Work.startEnd
  extract_lets w1 l
  have h : Local n w w1 := by
    unfold w1
    split
    · exact modLane
    · exact .refl
  refine h.trans ?_
  split
  · exact finishEnd _ env n _
  · split
    · exact request _ n _
    · exact finishEnd _ env n _

theorem destination (w : Work) (env : Env) (n : LaneId) (args : JobArgs) (r : LaneResult) :
    Local n w (destination w env n args r) := by
  unfold Proofs.destination
  split
  all_goals first
    | exact Local.trans modLane (leave _ env n)
    | exact leave w env n
    | (split
       · exact startEnd w env n _
       · exact leave w env n)

theorem settle (w : Work) (env : Env) (n : LaneId) (r : LaneResult) : Local n w (w.settle env n r) := by
  cases job : w.jobOf n with
  | none =>
    unfold Work.settle
    rw [job]
    exact .refl
  | some j =>
    rw [settle_eq job]
    refine Local.trans ?_ (destination _ env n j.args r)
    unfold unbound
    split
    · exact .of_same (sameJobs_freeFloors w _) fun m _ => lane_freeFloors _
    · next c ctx other =>
      refine passLeave job fun h => ?_
      obtain ⟨fresh, e, host, key, start, len, args⟩ := h c ctx
      exact other _ _ _ _ _ _ args
    · exact .refl

theorem finalize (w : Work) (env : Env) (n : LaneId) (r : LaneResult) (fa : Option Word) : Local n w (w.finalize env n r fa) := by
  unfold Work.finalize
  split
  · exact (record w n r fa).trans (settle _ env n r)
  · exact .refl

theorem goOn {k : Work → Work} (h : ∀ w, Local n w (k w)) : Local n w (w.goOn env n k) := by
  unfold Work.goOn
  split
  · exact h w
  · split
    · exact finalize w env n _ _
    · exact .refl

theorem beginOrHold {st : Step} {k : Work → Work} (h : ∀ w, Local n w (k w)) : Local n w (w.beginOrHold n st k) := by
  unfold Work.beginOrHold
  split
  · exact holdBack w n _
  · exact h w

/-! ### The steps of a job -/

section
variable (w : Work) (env : Env) (n : LaneId) (c : CtxId) (s : StepSet) (level : Nat)

theorem enterGuard : Local n w (w.enterGuard env n s level) := by
  unfold Work.enterGuard
  split
  · exact goOn fun w => beginOrHold fun w => (enterStep w n _ _).trans (request _ n _)
  · exact finalize w env n _ _

theorem sumGo (pos : Nat) : Local n w (w.sumGo env n s level pos) := by
  unfold Work.sumGo
  extract_lets computed r w1
  have h : Local n w w1 := (setPos w n _).trans modLane
  refine h.trans ?_
  split
  · exact goOn fun w => request w n _
  · exact enterGuard _ env n s level

theorem enterSum : Local n w (w.enterSum env n s level) := by
  unfold Work.enterSum
  split
  · refine goOn fun w => ?_
    dsimp only
    split
    · exact beginOrHold fun w => (enterStep w n _ _).trans (sumGo _ env n s level 0)
    · exact (enterStep w n _ _).trans (sumGo _ env n s level 0)
  · exact enterGuard w env n s level

theorem checkGo : Local n w (w.checkGo env n c) := by
  unfold Work.checkGo
  refine goOn fun w => ?_
  split
  · exact request w n _
  · exact .refl

theorem enterCheck : Local n w (w.enterCheck env n s level) := by
  unfold Work.enterCheck
  split
  · exact goOn fun w => beginOrHold fun w => (enterStep w n _ _).trans (checkGo _ env n _)
  · exact enterSum w env n s level

theorem writeGo : Local n w (w.writeGo env n c) := by
  unfold Work.writeGo
  refine goOn fun w => ?_
  split
  · exact request w n _
  · exact .refl

theorem enterWrite : Local n w (w.enterWrite env n s level) := by
  unfold Work.enterWrite
  split
  · exact goOn fun w => beginOrHold fun w => (enterStep w n _ _).trans (writeGo _ env n _)
  · exact enterCheck w env n s level

theorem clearGo (clearAll : Bool) (pos : Nat) : Local n w (w.clearGo env n s clearAll level pos) := by
  unfold Work.clearGo
  refine (setPos w n (some pos)).trans ?_
  dsimp only
  split
  · exact goOn fun w => request w n _
  · exact enterWrite _ env n s level

theorem enterClear (clearAll : Bool) : Local n w (w.enterClear env n s clearAll level) := by
  unfold Work.enterClear
  split
  · exact goOn fun w => beginOrHold fun w => (enterStep w n _ _).trans (clearGo _ env n s level clearAll 0)
  · exact enterWrite w env n s level

theorem rangeCheck (clearAll : Bool) : Local n w (w.rangeCheck env n s clearAll level) := by
  unfold Work.rangeCheck
  refine goOn fun w => ?_
  dsimp only
  refine (enterStep w n .rangeCheck none).trans ?_
  split
  · exact .refl
  · split
    · exact finalize _ env n _ _
    · exact enterClear _ env n s level clearAll

theorem readGo (start len : Nat) : Local n w (w.readGo n c start len) := by
  unfold Work.readGo
  extract_lets l floor
  split
  · split
    · split
      · exact holdBack w n _
      · exact ((Local.of_same (sameJobs_setBuf _ _) fun _ _ => rfl).trans modLane).trans (request _ n _)
    · exact .refl
  · exact .refl

theorem hostWriteGo (start len : Nat) (a : HostAddr) : Local n w (w.hostWriteGo n c start len a) := by
  unfold Work.hostWriteGo
  dsimp only
  split
  · split
    · exact transfer w n _ _
    · exact .refl
  · exact .refl

theorem enterRead (start len : Nat) : Local n w (w.enterRead env n c start len) := by
  unfold Work.enterRead
  exact goOn fun w => beginOrHold fun w => ((enterStep w n _ _).trans modLane).trans (readGo _ n c start len)

theorem readoutStart (start len : Nat) : Local n w (w.readoutStart env n start len) := by
  unfold Work.readoutStart
  refine goOn fun w => ?_
  dsimp only
  refine (enterStep w n .rangeCheck none).trans ?_
  split
  · split
    · exact finalize _ env n _ _
    · split
      · exact finalize _ env n _ _
      · exact enterRead _ env n _ start len
  · exact .refl

theorem describe : Local n w (w.describe env n) := by
  unfold Work.describe
  exact goOn fun w => (enterStep w n _ _).trans (finalize _ env n _ _)

theorem exchangeGo (block : HostAddr) (es : List ExchangeEntry) : Local n w (w.exchangeGo env n block es) := by
  unfold Work.exchangeGo
  refine goOn fun w => ?_
  dsimp only
  split
  · exact .refl
  · split
    · split
      · exact Local.trans modLane (request _ n _)
      · exact transfer w n _ _
    · exact request w n _
    · exact transfer w n _ _

theorem exchangeStart (block : HostAddr) (es : List ExchangeEntry) : Local n w (w.exchangeStart env n block es) := by
  unfold Work.exchangeStart
  exact goOn fun w => beginOrHold fun w => ((enterStep w n _ _).trans modLane).trans (exchangeGo _ env n block es)

theorem firstStep : Local n w (w.firstStep env n) := by
  unfold Work.firstStep
  split
  · exact rangeCheck w env n _ _ _
  · exact readoutStart w env n _ _
  · exact describe w env n
  · exact exchangeStart w env n _ _
  · exact .refl

theorem stepGo : Local n w (w.stepGo env n) := by
  unfold Work.stepGo
  dsimp only
  split
  · split
    · exact writeGo w env n _
    · split
      · exact checkGo w env n _
      · exact .refl
  · exact (hostWriteGo w n _ _ _ _).trans (readGo _ n _ _ _)
  · split
    · exact exchangeGo w env n _ _
    · exact .refl
  · exact .refl

/-! ### The start of a lane at its grant -/

theorem beginPowerUp : Local n w (w.beginPowerUp env n) := (setStep w n _).trans modLane

theorem beginEntry : Local n w (w.beginEntry env n) := by
  unfold Work.beginEntry
  split
  · exact Local.trans modLane (holdBack _ n _)
  · exact (setStep w n _).trans modLane

theorem actionDone {f : Lane → Lane} (h : ∀ l, (f l).ctx.slot = l.ctx.slot) : Local n w (w.actionDone env n f) :=
  ((setStep w n _).trans (modLane (h _))).trans (finalize _ env n _ _)

theorem actionStart (a : ActionCode) : Local n w (w.actionStart env n a) := by
  unfold Work.actionStart
  refine (setStep w n .action).trans ?_
  dsimp only
  split
  all_goals first
    | exact beginPowerUp _ env n
    | exact modLane
    | exact request _ n _
    | exact actionDone _ env n fun _ => rfl
    | exact actionDone _ env n fun l => (move_clearFault l).2.2.1

theorem sessionStart : Local n w (w.sessionStart env n) := by
  unfold Work.sessionStart
  split
  · exact beginPowerUp w env n
  · exact beginEntry w env n
  · exact beginEntry w env n
  · split
    · exact request w n _
    · exact firstStep w env n
  all_goals exact .refl

theorem startLane : Local n w (w.startLane env n) := by
  unfold Work.startLane
  split
  · split
    · exact ((setStep w n _).trans modLane).trans (finalize _ env n _ _)
    · exact actionStart w env n _
    · exact sessionStart w env n
    · exact .refl
  · exact .refl

/-! ### A cancel and an image read error -/

theorem closeFreshDone : Local n w (w.closeFreshDone env n) := Local.trans modLane (goOn fun w => beginEntry w env n)

theorem closeEndDone (e : EndAction) : Local n w (w.closeEndDone env n e .stopped) := by
  unfold Work.closeEndDone
  split
  · exact finishEnd w env n _
  · exact Local.trans modLane (leave _ env n)
  · exact Local.trans modLane (leave _ env n)
  · exact finishEnd w env n _

theorem closeActionDone (a : ActionCode) : Local n w (w.closeActionDone env n a .stopped) := by
  unfold Work.closeActionDone
  split
  · exact actionDone w env n fun _ => rfl
  · exact finalize w env n _ _
  · exact finalize w env n _ _
  · split
    · exact Local.trans modLane (finalize _ env n _ _)
    · exact modLane
  · exact actionDone w env n fun _ => rfl

theorem stopMark : Local n w (w.linkStep env n (w.lane n).setStopMark) := by
  unfold Lane.setStopMark
  split
  · refine Local.trans (setLane (l := w.lane n) rfl) ?_
    show Local n _ ((w.setLane n (w.lane n)).exchangeEnd env n .stopped)
    unfold Work.exchangeEnd
    split
    · exact .refl
    · next q _ =>
      dsimp only
      refine Local.trans (modLane (f := Lane.exchangeOver q.purpose .stopped) (move_exchangeOver _ _ _).2.2.1) ?_
      split
      · unfold Work.restIfQuiet
        split
        · exact modLane (move_rest _).2.2.1
        · exact .refl
      · split
        · exact closeFreshDone _ env n
        · exact closeEndDone _ env n _
        · exact closeActionDone _ env n _
        · exact goOn fun _ => .refl
  · exact setLane rfl

theorem markLane (cause : StopCause) : Local n w (w.markLane env cause n) := by
  unfold Work.markLane
  refine Local.trans (modLane (move_markStop cause _).2.2.1) ?_
  dsimp only
  split
  · exact stopMark _ env n
  · exact .refl

theorem cancelAction (a : ActionCode) : Local n w (w.cancelAction env n a) := by
  have held : Local n w (w.actionCancelHeld env n a) := by
    unfold Work.actionCancelHeld
    split
    · exact actionDone w env n fun _ => rfl
    · exact actionDone w env n fun _ => rfl
    · exact Local.trans modLane (finalize _ env n _ _)
  unfold Work.cancelAction
  dsimp only
  split
  · exact markLane w env n _
  · split
    · exact modLane (move_markStop _ _).2.2.1
    · exact modLane (move_markStop _ _).2.2.1
    · exact held
    · exact Local.trans modLane (finalize _ env n _ _)

end

end Local

/-! ## What the events at other lanes leave of one lane -/

/-- The lane and its job as events at other lanes leave them. -/
structure Beside (n : LaneId) (w w' : Work) : Prop where
  lane : ∃ cur st pos, w'.lane n = { w.lane n with ctx := { (w.lane n).ctx with cursor := cur, step := st, stepPos := pos } }
  owner : w'.ownerOf n = w.ownerOf n
  job : ∀ i j, (w.lane n).ctx.slot = some i → w.slot i = some j → hasLane j.live n = true ∨ w.ownerOf n = some i →
    ∃ j', w'.slot i = some j' ∧ Stays n j j'

namespace Beside

theorem refl : Beside n w w :=
  ⟨⟨(w.lane n).ctx.cursor, (w.lane n).ctx.step, (w.lane n).ctx.stepPos, rfl⟩, rfl, fun _ j _ b _ => ⟨j, b, refl_stays n j⟩⟩

theorem slot (h : Beside n w v) : (v.lane n).ctx.slot = (w.lane n).ctx.slot := by
  obtain ⟨cur, st, pos, e⟩ := h.lane
  rw [e]

theorem trans (h : Beside n w v) (g : Beside n v x) : Beside n w x := by
  refine ⟨?_, g.owner.trans h.owner, fun i j a b c => ?_⟩
  · obtain ⟨cur, st, pos, e⟩ := h.lane
    obtain ⟨cur', st', pos', e'⟩ := g.lane
    exact ⟨cur', st', pos', by rw [e', e]⟩
  · obtain ⟨j', b', stays⟩ := h.job i j a b c
    obtain ⟨j'', b'', stays'⟩ := g.job i j' (h.slot.trans a) b' (c.imp (fun live => (stays.live live).1) h.owner.trans)
    exact ⟨j'', b'', stays.trans stays'⟩

theorem of_local (h : Local m w v) (hn : n ≠ m) : Beside n w v := ⟨h.others n hn, h.owner n hn, fun i j => h.job n i j hn⟩

theorem isLive (h : Beside n w v) (live : w.isLive n = true) : v.isLive n = true := by
  obtain ⟨i, j, a, b, c⟩ := isLive_iff.mp live
  obtain ⟨j', b', stays⟩ := h.job i j a b (.inl c)
  exact isLive_iff.mpr ⟨i, j', h.slot.trans a, b', (stays.live c).1⟩

theorem jobOf (h : Beside n w v) (live : w.isLive n = true) (job : w.jobOf n = some j) :
    ∃ j', v.jobOf n = some j' ∧ SlotSame j j' ∧ hasLane j'.live n = true := by
  obtain ⟨i, k, a, b, c⟩ := isLive_iff.mp live
  cases (jobOf_slot a b).symm.trans job
  obtain ⟨j', b', stays⟩ := h.job i j a b (.inl c)
  exact ⟨j', jobOf_slot (h.slot.trans a) b', stays.same, (stays.live c).1⟩

end Beside

/-- What is fixed as a job is placed stays so in its slot, which may come free. -/
theorem slot_of_reach {P : JobSlot → Prop} (fixed : ∀ j j', SlotSame j j' → P j → P j') (p : Reach w w')
    (h : ∀ j, w.slot i = some j → P j) : ∀ j, w'.slot i = some j → P j := by
  have changed : ∀ {a : Work} {k : SlotId} {j j' : JobSlot}, (∀ j, a.slot i = some j → P j) → a.slot k = some j → SlotSame j j' →
      ∀ j'', (a.setSlot k (some j')).slot i = some j'' → P j'' := fun {a k j j'} h hk same j'' g => by
    rw [slot_setSlot] at g
    split at g
    · next at_k =>
      subst at_k
      cases g
      exact fixed j j' same (h j hk)
    · exact h j'' g
  induction p with
  | refl => exact h
  | lane _ _ _ _ ih | settings _ _ _ _ _ _ _ ih | served _ _ ih => exact ih
  | drain _ _ f => exact f.elim
  | handOver _ _ f => exact f.elim
  | pool v _ m ih => exact fun j g => ih j ((congrArg (fun v => Vector.get v i) (poolMove_rest m).1).symm.trans g)
  | slot k j j' _ hk _ mv ih => exact changed ih hk mv.1
  | leave env n _ ih =>
    rcases leave_cases _ env n with e | ⟨k, -, v, rfl, e | ⟨jk, hk, -, e⟩ | ⟨-, e⟩⟩ <;> rw [e]
    · exact ih
    · exact ih
    · exact changed ih hk (slotSame_rfl jk)
    · intro j g
      rw [completeAs_slot] at g
      split at g
      · cases g
      · exact ih j g

/-- The job in slot `i` takes part in no pass over an image. -/
def PasslessIn (w : Work) (i : SlotId) : Prop := ∀ j, w.slot i = some j → Passless j

theorem passless_of_reach (p : Reach w w') (h : PasslessIn w i) : PasslessIn w' i :=
  slot_of_reach (fun _ _ ⟨_, _, _, _, args, _, ctx⟩ h => by
    unfold Passless
    rw [ctx, args]
    exact h) p h

theorem beside_forLanes {f : Work → LaneId → Work} (loc : ∀ w m, Local m w (f w m)) {ns : List LaneId} (out : n ∉ ns)
    (w : Work) : Beside n w (w.forLanes ns f) := by
  induction ns generalizing w with
  | nil => exact .refl
  | cons m ns ih =>
    obtain ⟨hm, rest⟩ := not_or.mp (List.mem_cons.not.mp out)
    exact (Beside.of_local (loc w m) hm).trans (ih rest (f w m))

/-- Where no pass is over, the lane is as it was in all. -/
theorem exact_forLanes {f : Work → LaneId → Work} (loc : ∀ w m, Local m w (f w m)) (reach : ∀ w m, Reach w (f w m))
    {ns : List LaneId} (once : ns.Nodup) (out : n ∉ ns) (slot : ∀ m ∈ ns, (w.lane m).ctx.slot = some i) (free : PasslessIn w i) :
    (w.forLanes ns f).lane n = w.lane n := by
  induction ns generalizing w with
  | nil => rfl
  | cons m ns ih =>
    obtain ⟨hm, rest⟩ := not_or.mp (List.mem_cons.not.mp out)
    obtain ⟨first, once⟩ := List.nodup_cons.mp once
    have none_ : ∀ j, w.jobOf m = some j → Passless j := fun j job => by
      rw [Work.jobOf, slot m (List.mem_cons_self ..), Option.bind_some] at job
      exact free j job
    have step : (f w m).lane n = w.lane n := ((loc w m).alone none_).2 n hm
    rw [← step]
    refine ih once rest (fun k hk => ?_) (passless_of_reach (reach w m) free)
    rw [slot_others (loc w m).others (by rintro rfl; exact first hk)]
    exact slot k (List.mem_cons_of_mem _ hk)

/-- The event at lane `n` among those at the lanes of a list. -/
theorem forLanes_at {f : Work → LaneId → Work} (loc : ∀ w m, Local m w (f w m)) (reach : ∀ w m, Reach w (f w m))
    {ns : List LaneId} (once : ns.Nodup) (mem : n ∈ ns) (w : Work) :
    ∃ u, Beside n w u ∧ Reach w u ∧ Beside n (f u n) (w.forLanes ns f) ∧ Reach (f u n) (w.forLanes ns f)
      ∧ ∀ i, (∀ m ∈ ns, (w.lane m).ctx.slot = some i) → PasslessIn w i →
        PasslessIn u i ∧ u.lane n = w.lane n ∧ (w.forLanes ns f).lane n = (f u n).lane n := by
  obtain ⟨pre, post, rfl⟩ := List.append_of_mem mem
  have split : w.forLanes (pre ++ n :: post) f = (f (w.forLanes pre f) n).forLanes post f := by
    simp [Work.forLanes]
  obtain ⟨once_pre, once_rest, apart⟩ := List.nodup_append.mp once
  obtain ⟨out_post, once_post⟩ := List.nodup_cons.mp once_rest
  have out_pre : n ∉ pre := fun h => apart n h n (List.mem_cons_self ..) rfl
  rw [split]
  refine ⟨w.forLanes pre f, beside_forLanes loc out_pre w, reach_forLanes reach pre w, beside_forLanes loc out_post _,
    reach_forLanes reach post _, fun i slot free => ?_⟩
  have free_u := passless_of_reach (reach_forLanes reach pre w) free
  refine ⟨free_u, exact_forLanes loc reach once_pre out_pre (fun m hm => slot m (List.mem_append_left _ hm)) free,
    exact_forLanes loc reach once_post out_post (fun m hm => ?_) (passless_of_reach (reach _ n) free_u)⟩
  have hn : m ≠ n := by
    rintro rfl
    exact out_post hm
  have out : m ∉ pre := fun h => apart m h m (List.mem_cons_of_mem _ hm) rfl
  rw [slot_others (loc _ n).others hn, (beside_forLanes loc out w).slot]
  exact slot m (List.mem_append_right _ (List.mem_cons_of_mem _ hm))

end Sys2Proof.Proofs
end

section
/-! The start of a job's lanes at its grant: O23, O24. -/

namespace Sys2Proof.Proofs

-- One theorem at a time: a thread for each would ask for more stack than the check allows.
set_option Elab.async false

open Sys2Proof.Machine Sys2Proof.Laws

variable {s t u : State} {v w w' x : Work} {env : Env} {n m : LaneId} {i : SlotId} {j : JobSlot} {c : CtxId} {r : LaneResult}
  {l : Lane} {ns : List LaneId}

/-! ## Several lanes end with one result -/

theorem slot_record (w : Work) (n : LaneId) (r : LaneResult) (fa : Option Word) (m : LaneId) :
    ((w.record n r fa).lane m).ctx.slot = (w.lane m).ctx.slot := by
  by_cases h : m = n
  · subst h
    unfold Work.record
    split
    · rfl
    · split
      · rfl
      · split
        · simp
        · rfl
  · exact slot_others (others_record r fa) h

theorem slot_records (ns : List LaneId) (w : Work) (m : LaneId) :
    ((w.forLanes ns (fun w n => w.record n r none)).lane m).ctx.slot = (w.lane m).ctx.slot := by
  induction ns generalizing w with
  | nil => rfl
  | cons k ks ih => exact (ih (w.record k r none)).trans (slot_record w k r none m)

theorem finalizeAll_beside (out : n ∉ ns) (env : Env) (r : LaneResult) : Beside n w (w.finalizeAll env ns r) := by
  have out' : n ∉ ns.filter w.isLive := fun h => out (List.mem_of_mem_filter h)
  exact (beside_forLanes (fun w m => Local.record w m r none) out' w).trans
    (beside_forLanes (fun w m => Local.settle w env m r) out' _)

theorem finalizeAll_exact (once : ns.Nodup) (out : n ∉ ns) (slot : ∀ m ∈ ns, (w.lane m).ctx.slot = some i)
    (free : PasslessIn w i) (env : Env) (r : LaneResult) : (w.finalizeAll env ns r).lane n = w.lane n := by
  have out' : n ∉ ns.filter w.isLive := fun h => out (List.mem_of_mem_filter h)
  have slot' : ∀ m ∈ ns.filter w.isLive, (w.lane m).ctx.slot = some i := fun m hm => slot m (List.mem_of_mem_filter hm)
  refine (exact_forLanes (i := i) (fun w m => Local.settle w env m r) (fun w m => reach_settle w env m r) (once.filter _) out'
    (fun m hm => (slot_records _ w m).trans (slot' m hm)) ?_).trans
    (exact_forLanes (fun w m => Local.record w m r none) (fun w m => reach_record w m r none) (once.filter _) out' slot' free)
  exact passless_of_reach (reach_forLanes (fun w m => reach_record w m r none) _ w) free

/-- A lane among several whose result has it leave its job where it is. -/
theorem finalizeAll_leaves (once : ns.Nodup) (mem : n ∈ ns) (slot : ∀ m ∈ ns, (w.lane m).ctx.slot = some i)
    (free : PasslessIn w i) (job : w.slot i = some j) (live : hasLane j.live n = true) (mask : hasLane j.mask n = true)
    (owner : w.ownerOf n = some i) (h : leaves j.args r) (env : Env) :
    Left w (w.finalizeAll env ns r) n ∧ (w.finalizeAll env ns r).isLive n = false
      ∧ ∃ o, o.faultAddr = j.faultAddrFor (w.lane n) r none ∧ Kept (w.finalizeAll env ns r) n i j.tag j.adm r o := by
  have live_n : w.isLive n = true := isLive_iff.mpr ⟨i, j, slot n mem, job, live⟩
  have mem' : n ∈ ns.filter w.isLive := List.mem_filter.mpr ⟨mem, live_n⟩
  have slot' : ∀ m ∈ ns.filter w.isLive, (w.lane m).ctx.slot = some i := fun m hm => slot m (List.mem_of_mem_filter hm)
  have once' := once.filter w.isLive
  -- first every result is recorded
  obtain ⟨u, beside, -, beside₁, reach₁, exact₁⟩ := forLanes_at (fun w m => Local.record w m r none)
    (fun w m => reach_record w m r none) once' mem' w
  obtain ⟨free_u, lane_u, lane_v⟩ := exact₁ i slot' free
  obtain ⟨v, hv⟩ : ∃ v, v = w.forLanes (ns.filter w.isLive) (fun w n => w.record n r none) := ⟨_, rfl⟩
  have whole : w.finalizeAll env ns r = v.forLanes (ns.filter w.isLive) (fun w n => w.settle env n r) := by rw [hv]; rfl
  rw [← hv] at beside₁ reach₁ lane_v
  have free_v : PasslessIn v i := passless_of_reach reach₁ (passless_of_reach (reach_record u n r none) free_u)
  -- then every lane leaves
  obtain ⟨x, beside₂, reach₂, beside₃, reach₃, exact₂⟩ := forLanes_at (fun w m => Local.settle w env m r)
    (fun w m => reach_settle w env m r) once' mem' v
  obtain ⟨-, lane_x, lane_t⟩ := exact₂ i (fun m hm => by rw [hv, slot_records]; exact slot' m hm) free_v
  rw [← whole] at beside₃ reach₃ lane_t
  obtain ⟨j₁, job₁, stays₁⟩ := beside.job i j (slot n mem) job (.inl live)
  obtain ⟨live₁, -⟩ := stays₁.live live
  obtain ⟨tag, mask₁, adm, -, args, -, ctx⟩ := stays₁.same
  have slot_u : (u.lane n).ctx.slot = some i := lane_u ▸ slot n mem
  have kept_u := record_kept slot_u job₁ live₁ (mask₁ ▸ mask) r none
  rw [tag, adm] at kept_u
  have live_u : u.isLive n = true := isLive_iff.mpr ⟨i, j₁, slot_u, job₁, live₁⟩
  obtain ⟨fa, recorded⟩ := lane_record live_u r none
  -- the job is still there as the lane leaves it
  obtain ⟨j₂, job₂, args₂, -⟩ := jobOf_record (jobOf_slot slot_u job₁) r none
  rw [Work.jobOf, slot_record, slot_u, Option.bind_some] at job₂
  obtain ⟨j₃, job₃, stays₃⟩ := (beside₁.trans beside₂).job i j₂ (by rw [slot_record, slot_u]) job₂
    (.inr (by rw [owner_record, beside.owner, owner]))
  have slot_x : (x.lane n).ctx.slot = some i := by rw [(beside₁.trans beside₂).slot, slot_record, slot_u]
  obtain ⟨-, -, -, -, args₃, -, -⟩ := stays₃.same
  have settled : x.settle env n r = (unbound x n j₃).leave env n := by
    rw [settle_eq (jobOf_slot slot_x job₃), args₃, args₂, args, destination_leaves h]
  have left := leave_left (w := unbound x n j₃) (n := n) (by rw [(sameJobs_unbound x n j₃).lane n, slot_x]; rfl) env
  rw [← settled] at left
  obtain ⟨cur, st, pos, lane_unbound⟩ := lane_unbound x n j₃ n
  refine ⟨⟨?_, ?_, by rw [beside₃.owner, left.owner]⟩, ?_, takenCopy u n j₁ r none, ?_, ?_⟩
  · rw [lane_t, left.body, lane_unbound, lane_x, lane_v, recorded, lane_u]
    rfl
  · rw [beside₃.slot, left.slot]
  · exact notLive_of_reach (reach₁.trans (reach₂.trans ((reach_settle x env n r).trans reach₃))) (record_notLive r none)
  · show j₁.faultAddrFor (u.lane n) r none = _
    rw [lane_u]
    unfold JobSlot.faultAddrFor
    rw [args]
  · exact kept_of_reach (reach₁.trans (reach₂.trans ((reach_settle x env n r).trans reach₃))) kept_u

/-! ## One grant (R8) -/

/-- A scan with one job on the Grant List, all of whose lanes are free. -/
theorem grantScan_single (list : w.grantList = [i]) (slot : w.slot i = some j)
    (free : ∀ n, hasLane j.mask n = true → w.ownerOf n = none) (env : Env) : w.grantScan env = w.grantJob env i := by
  have apart : j.mask &&& w.ownedMask = 0 := disjoint_of_not_both fun n a b => by
    rw [hasLane_ownedMask, free n a] at b
    cases b
  unfold Work.grantScan Work.grantable
  rw [list]
  unfold Work.grantableFrom
  rw [slot]
  dsimp only
  rw [if_pos apart]
  rfl

/-- The slot of a job that has been handed its lanes. -/
theorem handOver_job (w : Work) (i : SlotId) (j : JobSlot) : ∃ o, (w.handOver i j).slot i = some { j.granted with ctx := o }
    ∧ (j.args.needsContext = false → o = j.ctx) := by
  obtain ⟨v, e, -, -, -, slots, -⟩ := handOver_lanes w i j
  have there : v.slot i = some j.granted := by rw [slots, if_pos rfl]
  rw [e]
  unfold Work.takeCtx
  by_cases needs : j.granted.args.needsContext = true
  · rw [if_pos needs]
    cases v.freeCtx with
    | none => exact ⟨j.ctx, there, fun _ => rfl⟩
    | some c => exact ⟨some c, (slot_setSlot ..).trans (if_pos rfl), fun h => absurd needs (by rw [show j.granted.args = j.args from rfl, h]; simp)⟩
  · rw [if_neg needs]
    exact ⟨j.ctx, there, fun _ => rfl⟩

/-- A job with no image and no pass. -/
theorem passless_handOver (ctx : j.ctx = none) (h : j.args.needsContext = true →
    ∃ fresh e host key start len, j.args = .readout fresh e host key start len) : PasslessIn (w.handOver i j) i := by
  obtain ⟨o, there, same⟩ := handOver_job w i j
  intro j' e c hc
  rw [there] at e
  cases e
  cases needs : j.args.needsContext with
  | true => exact h needs
  | false =>
    have hc : o = some c := hc
    rw [same needs, ctx] at hc
    cases hc

/-- The lanes that a grant finds in FAULT and that cannot take part (R8, R39). -/
def faultedAt (w : Work) (j : JobSlot) : List LaneId :=
  if j.args.isLaneAction then [] else (lanesIn j.mask).filter (fun n => (w.lane n).ctx.state = .fault)

/-- The lanes that a grant starts. -/
def startedAt (w : Work) (j : JobSlot) : List LaneId := (lanesIn j.mask).filter (fun n => !(faultedAt w j).contains n)

theorem mem_faultedAt : n ∈ faultedAt w j
    ↔ hasLane j.mask n = true ∧ j.args.isLaneAction = false ∧ (w.lane n).ctx.state = .fault := by
  unfold faultedAt
  cases action : j.args.isLaneAction with
  | true => simp
  | false =>
    rw [if_neg (by simp), List.mem_filter, mem_lanesIn]
    simp

theorem mem_startedAt : n ∈ startedAt w j ↔ hasLane j.mask n = true ∧ n ∉ faultedAt w j := by
  unfold startedAt
  rw [List.mem_filter, mem_lanesIn]
  simp

theorem nodup_faultedAt (w : Work) (j : JobSlot) : (faultedAt w j).Nodup := by
  unfold faultedAt
  split
  · exact List.nodup_nil
  · exact (lanesIn_nodup _).filter _

theorem nodup_startedAt (w : Work) (j : JobSlot) : (startedAt w j).Nodup := (lanesIn_nodup _).filter _

/-- The tables handed over, and the lanes in FAULT gone. -/
def grantOver (w : Work) (env : Env) (i : SlotId) (j : JobSlot) : Work :=
  (w.handOver i j).finalizeAll env (faultedAt (w.handOver i j) j) .laneFaulted

theorem grantJob_eq (slot : w.slot i = some j) (image : j.args.waitsForImage = false) (env : Env) : w.grantJob env i
    = (grantOver w env i j).forLanes (startedAt (w.handOver i j) j) (fun w n => w.startLane env n) := by
  unfold Work.grantJob
  rw [slot]
  dsimp only
  rw [if_neg (by simp [image])]
  rfl

/-- A lane of the job as it is handed over. -/
theorem handOver_lane (mask : hasLane j.mask n = true) : (w.handOver i j).lane n = (w.lane n).granted i := by
  rw [(handOver_fields w i j).1, if_pos mask]

theorem handOver_owner (mask : hasLane j.mask n = true) : (w.handOver i j).ownerOf n = some i := by
  rw [(handOver_fields w i j).2.1, if_pos mask]

theorem faulted_iff (mask : hasLane j.mask n = true) : n ∈ faultedAt (w.handOver i j) j
    ↔ j.args.isLaneAction = false ∧ (w.lane n).ctx.state = .fault := by
  rw [mem_faultedAt, handOver_lane mask, and_iff_right mask]
  rfl

theorem slots_faulted : ∀ m ∈ faultedAt (w.handOver i j) j, ((w.handOver i j).lane m).ctx.slot = some i := fun m hm => by
  rw [handOver_lane (mem_faultedAt.mp hm).1]
  rfl

theorem slots_started (env : Env) :
    ∀ m ∈ startedAt (w.handOver i j) j, ((grantOver w env i j).lane m).ctx.slot = some i := fun m hm => by
  obtain ⟨mask, out⟩ := mem_startedAt.mp hm
  rw [grantOver, (finalizeAll_beside out env .laneFaulted).slot, handOver_lane mask]
  rfl

theorem reach_grantOver (w : Work) (env : Env) (i : SlotId) (j : JobSlot) : Reach (w.handOver i j) (grantOver w env i j) :=
  reach_finalizeAll ..

/-- A lane that takes part in the grant of job `j`: `u` is what its start finds. -/
structure Started (w : Work) (env : Env) (i : SlotId) (j : JobSlot) (n : LaneId) (u : Work) (ju : JobSlot) : Prop where
  lane : u.lane n = (w.lane n).granted i
  owner : u.ownerOf n = some i
  slot : u.slot i = some ju
  live : hasLane ju.live n = true
  mask : hasLane ju.mask n = true
  tag : ju.tag = j.tag
  adm : ju.adm = j.adm
  args : ju.args = j.args
  after : (w.grantJob env i).lane n = (u.startLane env n).lane n
  beside : Beside n (u.startLane env n) (w.grantJob env i)
  reach : Reach (u.startLane env n) (w.grantJob env i)

namespace Started

variable {u : Work} {ju : JobSlot}

theorem lane_slot (h : Started w env i j n u ju) : (u.lane n).ctx.slot = some i := by rw [h.lane]; rfl

theorem job (h : Started w env i j n u ju) : u.jobOf n = some ju := jobOf_slot h.lane_slot h.slot

theorem isLive (h : Started w env i j n u ju) : u.isLive n = true := isLive_iff.mpr ⟨i, ju, h.lane_slot, h.slot, h.live⟩

/-- The lane goes on in its job. -/
theorem goesOn (h : Started w env i j n u ju) (same : SameJobs u (u.startLane env n)) :
    (w.grantJob env i).isLive n = true ∧ (w.grantJob env i).ownerOf n = some i :=
  ⟨h.beside.isLive ((same.isLive n).trans h.isLive), by rw [h.beside.owner, same.ownerOf, h.owner]⟩

/-- The lane ends at once. -/
theorem ends (h : Started w env i j n u ju) {fa : Option Word} (same : SameJobs u v)
    (e : u.startLane env n = v.finalize env n r fa) : (w.grantJob env i).isLive n = false
    ∧ ∃ steps, Kept (w.grantJob env i) n i j.tag j.adm r (takenCopy v n { ju with lastSteps := steps } r fa) := by
  have reach := h.reach
  rw [e] at reach
  obtain ⟨steps, slot⟩ := same.slot h.slot
  refine ⟨notLive_of_reach reach (finalize_notLive env r fa), steps, kept_of_reach reach ?_⟩
  rw [← h.tag, ← h.adm]
  exact finalize_kept ((same.lane n).trans h.lane_slot) slot h.live h.mask env r fa

end Started

section
variable (slot : w.slot i = some j) (image : j.args.waitsForImage = false) (free : PasslessIn (w.handOver i j) i) (env : Env)
include slot image free

/-- A lane that the job does not ask for. -/
theorem grantJob_apart (mask : hasLane j.mask n = false) :
    (w.grantJob env i).ownerOf n = w.ownerOf n ∧ (w.grantJob env i).lane n = w.lane n := by
  have out : n ∉ faultedAt (w.handOver i j) j := fun h => by
    rw [mem_faultedAt, mask] at h
    exact Bool.false_ne_true h.1
  have out' : n ∉ startedAt (w.handOver i j) j := fun h => by
    rw [mem_startedAt, mask] at h
    exact Bool.false_ne_true h.1
  rw [grantJob_eq slot image]
  obtain ⟨lanes, owners, -⟩ := handOver_fields w i j
  constructor
  · rw [(beside_forLanes (fun w m => Local.startLane w env m) out' _).owner, grantOver,
      (finalizeAll_beside out env .laneFaulted).owner, owners, if_neg (by simp [mask])]
  · rw [exact_forLanes (fun w m => Local.startLane w env m) (fun w m => reach_startLane w env m) (nodup_startedAt _ _) out'
      (slots_started env) (passless_of_reach (reach_grantOver ..) free), grantOver,
      finalizeAll_exact (nodup_faultedAt _ _) out slots_faulted free, lanes, if_neg (by simp [mask])]

variable (mask : hasLane j.mask n = true)
include mask

/-- A lane that takes part, as the grant starts it: alone among the lanes of its job. -/
theorem grantJob_starts (part : j.args.isLaneAction = true ∨ (w.lane n).ctx.state ≠ .fault) :
    ∃ u ju, Started w env i j n u ju := by
  obtain ⟨o, job, -⟩ := handOver_job w i j
  have out : n ∉ faultedAt (w.handOver i j) j := by
    rw [faulted_iff mask]
    rintro ⟨session, fault⟩
    rcases part with action | other
    · rw [session] at action
      cases action
    · exact other fault
  have mem : n ∈ startedAt (w.handOver i j) j := mem_startedAt.mpr ⟨mask, out⟩
  have beside_v : Beside n (w.handOver i j) (grantOver w env i j) := finalizeAll_beside out env .laneFaulted
  obtain ⟨u, beside, reach, beside', reach', exact_⟩ := forLanes_at (fun w m => Local.startLane w env m)
    (fun w m => reach_startLane w env m) (nodup_startedAt _ _) mem (grantOver w env i j)
  obtain ⟨-, lane_u, lane_t⟩ := exact_ i (slots_started env) (passless_of_reach (reach_grantOver ..) free)
  rw [← grantJob_eq slot image] at beside' reach' lane_t
  obtain ⟨ju, job_u, stays⟩ := (beside_v.trans beside).job i _ (by rw [handOver_lane mask]; rfl) job (.inl mask)
  obtain ⟨tag, mask_u, adm, -, args, -⟩ := stays.same
  refine ⟨u, ju, ⟨?_, ?_, job_u, (stays.live mask).1, mask_u ▸ mask, tag, adm, args, lane_t, beside', reach'⟩⟩
  · rw [lane_u, grantOver, finalizeAll_exact (nodup_faultedAt _ _) out slots_faulted free, handOver_lane mask]
  · rw [beside.owner, beside_v.owner, handOver_owner mask]

/-- A lane in FAULT leaves the job at its grant. -/
theorem grantJob_faulted (session : j.args.isLaneAction = false) (fault : (w.lane n).ctx.state = .fault) :
    body ((w.grantJob env i).lane n) = body ((w.lane n).granted i) ∧ (w.grantJob env i).ownerOf n = none
      ∧ (w.grantJob env i).isLive n = false
      ∧ ∃ o, o.faultAddr = j.faultAddrFor ((w.lane n).granted i) .laneFaulted none
        ∧ Kept (w.grantJob env i) n i j.tag j.adm .laneFaulted o := by
  obtain ⟨o, job, -⟩ := handOver_job w i j
  have mem : n ∈ faultedAt (w.handOver i j) j := (faulted_iff mask).mpr ⟨session, fault⟩
  obtain ⟨left, idle, o', addr, kept⟩ := finalizeAll_leaves (nodup_faultedAt _ _) mem slots_faulted free job mask mask
    (handOver_owner mask) (.inl (by simp)) env (r := .laneFaulted)
  have out : n ∉ startedAt (w.handOver i j) j := fun h => (mem_startedAt.mp h).2 mem
  have beside : Beside n (grantOver w env i j) (w.grantJob env i) := by
    rw [grantJob_eq slot image]
    exact beside_forLanes (fun w m => Local.startLane w env m) out _
  have reach : Reach (grantOver w env i j) (w.grantJob env i) := by
    rw [grantJob_eq slot image]
    exact reach_forLanes (fun w m => reach_startLane w env m) _ _
  obtain ⟨cur, st, pos, e⟩ := beside.lane
  rw [handOver_lane mask] at addr
  refine ⟨?_, by rw [beside.owner, grantOver, left.owner], notLive_of_reach reach idle, o', addr, kept_of_reach reach kept⟩
  rw [e]
  exact Eq.trans rfl (left.body.trans (by rw [handOver_lane mask]))

end

/-! ## A session job (Tables 2-4, 2-5) -/

theorem recorded_of_kept {o : OutcomeCopy} (h : Kept w n i j.tag j.adm r o) : w.Recorded i j n r := by
  rcases h with ⟨j', job, tag, -, -, live, result, -⟩ | ⟨-, e, he, tag, adm, x, hx, lane, result, -⟩
  · exact .inl ⟨j', job, tag, result, live⟩
  · exact .inr ⟨e, he, tag, adm, x, hx, lane, result⟩

theorem startLane_session (live : w.isLive n = true) (job : w.jobOf n = some j) {e : EndAction} (session : j.args.endAction? = some e)
    (env : Env) : w.startLane env n = w.sessionStart env n := by
  unfold Work.startLane
  rw [if_pos live, job]
  rw [Option.map_some]
  cases args : j.args with
  | laneSet v =>
    rw [args] at session
    cases session
  | laneAction a =>
    rw [args] at session
    cases session
  | _ => rfl

theorem sessionStart_state (w : Work) (env : Env) (n : LaneId) :
    ((w.lane n).ctx.state = .off → w.sessionStart env n = w.beginPowerUp env n)
    ∧ ((w.lane n).ctx.state ∈ [.hold, .run] → w.sessionStart env n = w.beginEntry env n)
    ∧ ((w.lane n).ctx.state = .ready → w.sessionStart env n
        = if w.wantsFresh n = true then w.request n ((w.lane n).closeRequest .closeFresh) else w.firstStep env n) := by
  unfold Work.sessionStart
  refine ⟨fun h => by rw [h], fun h => ?_, fun h => by rw [h]⟩
  simp only [List.mem_cons, List.not_mem_nil, or_false] at h
  rcases h with h | h <;> rw [h]

theorem lane_beginPowerUp (w : Work) (env : Env) (n : LaneId) : (w.beginPowerUp env n).lane n
    = Lane.powerUp env { w.lane n with ctx := { (w.lane n).ctx with step := .powerUp, stepPos := none } } := by
  rw [Work.beginPowerUp, lane_modLane, if_pos rfl, lane_setStep, if_pos rfl]

/-- IDENTIFY in a session that is reused is DONE at once (R122). -/
theorem describe_done {key : HostAddr} {e : EndAction} {fresh : Bool} (un : (w.lane n).Unstopped) (job : w.jobOf n = some j)
    (args : j.args = .identify fresh e key) (env : Env) :
    w.firstStep env n = (w.enterStep n .describe none).finalize env n .done none := by
  unfold Work.firstStep
  rw [job, Option.map_some, args]
  exact goOn_unstopped un env _

/-- The scan that grants one job. -/
theorem exec_grant (aw : s.Awake) (waits : s.NoneWaits) (part : s.part.state ∈ [.loading, .running, .quiescing, .quiesced])
    (list : s.work.grantList = [i]) (slot : s.work.slot i = some j) (free : ∀ n, hasLane j.mask n = true → s.work.ownerOf n = none) :
    ∃ t, exec .grantScan s = .next t ∧ t.work = s.work.grantJob s.env i ∧ t.work.grantList = [] := by
  have scan : s.work.grantScan s.env = s.work.grantJob s.env i := grantScan_single list slot free s.env
  refine ⟨_, exec_grantScan aw waits part, scan, ?_⟩
  show (s.work.grantScan s.env).grantList = []
  rw [scan, grantList_reach (grantJob_reach s.env slot), (handOver_fields s.work i j).2.2.1, list]
  simp

/-- A session job without an image waits for none, and takes part in no pass. -/
theorem session_args {e : EndAction} (session : j.args.endAction? = some e)
    (noImage : ∀ st f ca lv ptr key, j.args = .program st f ca e lv ptr key → ptr = 0) :
    j.args.waitsForImage = false ∧ j.args.isLaneAction = false
    ∧ (j.args.needsContext = true → ∃ fresh e host key start len, j.args = .readout fresh e host key start len) := by
  cases args : j.args with
  | program st f ca e' lv ptr key =>
    rw [args] at session
    cases session
    simp [JobArgs.waitsForImage, JobArgs.isLaneAction, JobArgs.needsContext, noImage st f ca lv ptr key args]
  | readout fresh e host key start len => exact ⟨rfl, rfl, fun _ => ⟨fresh, e, host, key, start, len, rfl⟩⟩
  | identify => exact ⟨rfl, rfl, nofun⟩
  | exchange => exact ⟨rfl, rfl, nofun⟩
  | _ =>
    rw [args] at session
    cases session

/-- Settles O23: each lane as the grant starts it. -/
theorem sessionJobStartsAtItsGrant : Obligations.SessionJobStartsAtItsGrant := by
  intro s i j e aw waits part list slot session noImage ctx noOwner free
  obtain ⟨image, noAction, needs⟩ := session_args session noImage
  have passless : PasslessIn (s.work.handOver i j) i := passless_handOver ctx needs
  obtain ⟨t, exec_t, work, empty⟩ := exec_grant aw waits part list slot free
  refine ⟨t, exec_t, empty, ?_, ?_⟩
  all_goals rw [work]
  · exact fun n => grantJob_apart slot image passless s.env
  intro n l mask hl
  subst hl
  -- a lane that is not in FAULT, as its start finds it and leaves it
  have starts : (s.work.lane n).ctx.state ≠ .fault → ∃ u ju, Started s.work s.env i j n u ju
      ∧ u.startLane s.env n = u.sessionStart s.env n ∧ (u.lane n).ctx.state = (s.work.lane n).ctx.state := fun h => by
    obtain ⟨u, ju, started⟩ := grantJob_starts slot image passless s.env mask (.inr h)
    exact ⟨u, ju, started, startLane_session started.isLive started.job (started.args ▸ session) s.env, by rw [started.lane]; rfl⟩
  refine ⟨fun fault => ?_, fun off => ?_, fun rest => ?_, fun ready fresh ride => ?_, fun ready un key args => ?_⟩
  · obtain ⟨body_t, owner, idle, o, -, kept⟩ := grantJob_faulted slot image passless s.env mask noAction fault
    exact ⟨recorded_of_kept kept, idle, owner, (congrArg (·.ctx.state) body_t).trans fault, congrArg (·.settings) body_t,
      congrArg (·.link) body_t, congrArg (·.supply) body_t, congrArg (·.lines) body_t⟩
  · obtain ⟨u, ju, started, e, st⟩ := starts (by simp [off])
    rw [(sessionStart_state u s.env n).1 (st.trans off)] at e
    obtain ⟨live, owner⟩ := started.goesOn (by
      rw [e]
      exact (sameJobs_setStep u n .powerUp).trans (sameJobs_modLane rfl))
    have lane := started.after
    rw [e, lane_beginPowerUp, started.lane] at lane
    rw [lane, Nat.mul_comm 48000]
    exact ⟨live, owner, rfl, rfl, rfl, rfl⟩
  · obtain ⟨u, ju, started, e, st⟩ := starts (by rintro h; rw [h] at rest; simp at rest)
    rw [(sessionStart_state u s.env n).2.1 (by rw [st]; exact rest)] at e
    obtain ⟨live, owner⟩ := started.goesOn (by
      rw [e]
      exact sameJobs_beginEntry u s.env n)
    have lane := started.after
    rw [e, beginEntry_lane, if_pos rfl, started.lane] at lane
    rw [lane]
    refine ⟨live, owner, ?_, ?_, ?_, fun ride => ?_, fun ride => ?_⟩
    · split <;> rfl
    · split <;> rfl
    · split <;> rfl
    · rw [if_neg (show ¬ ((s.work.lane n).granted i).supply.state = .riding from ride)]
      exact ⟨rfl, rfl, rfl, rfl, rfl, rfl⟩
    · rw [if_pos (show ((s.work.lane n).granted i).supply.state = .riding from ride)]
      exact ⟨rfl, rfl, rfl⟩
  · obtain ⟨u, ju, started, e, st⟩ := starts (by simp [ready])
    have wants : u.wantsFresh n = true := by
      rw [Work.wantsFresh, started.job]
      exact (congrArg JobArgs.isFresh started.args).trans fresh
    rw [(sessionStart_state u s.env n).2.2 (st.trans ready), if_pos wants] at e
    obtain ⟨live, owner⟩ := started.goesOn (by
      rw [e]
      exact sameJobs_request u n _)
    have lane := started.after
    rw [e, request_begins (by rw [started.lane]; exact ride), lane_setLane, if_pos rfl, started.lane] at lane
    have frame := frameOut_engine lane rfl (by simp [Lane.closeRequest, engineRequest])
    rw [lane, frame]
    exact ⟨live, owner, rfl, rfl, rfl, rfl, rfl, rfl⟩
  · obtain ⟨u, ju, started, es, st⟩ := starts (by simp [ready])
    have wants : ¬ u.wantsFresh n = true := by
      rw [Work.wantsFresh, started.job, Option.elim_some, started.args, args]
      simp [JobArgs.isFresh]
    have kind : ju.args = .identify false e key := started.args.trans args
    rw [(sessionStart_state u s.env n).2.2 (st.trans ready), if_neg wants,
      describe_done (by rw [started.lane]; exact un) started.job kind] at es
    have same := sameJobs_enterStep u n .describe none
    obtain ⟨idle, steps, kept⟩ := started.ends same es
    refine ⟨recorded_of_kept kept, idle, fun keep => ?_⟩
    subst keep
    obtain ⟨x, final, -, eq⟩ := finalize_ends (r := .done) (e := .keep) (by rw [same.isLive n, started.isLive]) (by
      obtain ⟨steps', job'⟩ := same.jobOf n
      rw [job', started.job]
      show ju.args.endAction? = some .keep
      rw [kind]
      rfl) s.env none
    have body_x : body (x.lane n) = body ((s.work.lane n).granted i) := by
      rw [final.body, lane_enterStep, if_pos rfl, started.lane]
      rfl
    have state_x : (x.lane n).ctx.state = .ready := (congrArg (·.ctx.state) body_x).trans ready
    rw [eq, startEnd_keep (by rw [state_x]; simp)] at es
    have left := leave_left (w := x) (n := n) (by rw [final.slot, same.lane n, started.lane_slot]; rfl) s.env
    have body_t : body ((s.work.grantJob s.env i).lane n) = body ((s.work.lane n).granted i) := by
      rw [started.after, es, left.body, body_x]
    exact ⟨(congrArg (·.ctx.state) body_t).trans ready, congrArg (·.ctx.session) body_t, congrArg (·.ctx.desc) body_t,
      congrArg (·.ctx.seq) body_t, congrArg (·.ctx.rate) body_t, by rw [started.beside.owner, es, left.owner],
      congrArg (·.settings) body_t, congrArg (·.link) body_t, congrArg (·.supply) body_t, congrArg (·.lines) body_t⟩

end Sys2Proof.Proofs
end

section
/-! The start of a LANE-ACTION's lanes at its grant: O24. -/

namespace Sys2Proof.Proofs

-- One theorem at a time: a thread for each would ask for more stack than the check allows.
set_option Elab.async false

open Sys2Proof.Machine Sys2Proof.Laws

variable {s t u : State} {v w w' x : Work} {env : Env} {n m : LaneId} {i : SlotId} {j : JobSlot} {r : LaneResult} {l : Lane}
  {a : ActionCode}

theorem startLane_action (live : w.isLive n = true) (job : w.jobOf n = some j) (args : j.args = .laneAction a) (env : Env) :
    w.startLane env n = w.actionStart env n a := by
  unfold Work.startLane
  rw [if_pos live, job, Option.map_some, args]

/-- Table 2-7, by action and state: the cases in which the lane is DONE at once, in the final state that a function gives. -/
def doneAt : ActionCode → LaneState → Option (Lane → Lane)
  | .powerOn, .hold | .powerOn, .ready | .powerOn, .run | .powerOn, .fault => some id
  | .powerOff, .off => some id
  | .powerOff, .hold | .powerOff, .run | .powerOff, .fault => some Lane.toOff
  | .hold, .hold | .hold, .fault => some id
  | .hold, .run => some Lane.toHold
  | .run, .fault => some id
  | .clearFault, .off | .clearFault, .hold | .clearFault, .ready | .clearFault, .run => some id
  | .clearFault, .fault => some Lane.clearFault
  | _, _ => none

theorem actionStart_done {f : Lane → Lane} (h : doneAt a (w.lane n).ctx.state = some f) (env : Env) :
    w.actionStart env n a = (w.setStep n .action).actionDone env n f := by
  unfold Work.actionStart
  dsimp only
  rw [lane_setStep, if_pos rfl]
  dsimp only
  generalize (w.lane n).ctx.state = st at h ⊢
  unfold doneAt at h
  split at h <;> first | (cases h; rfl) | cases h

theorem actionStart_goes (w : Work) (env : Env) (n : LaneId) (a : ActionCode) :
    ((a, (w.lane n).ctx.state) ∈ [(.powerOn, .off), (.hold, .off), (.run, .off)] →
      w.actionStart env n a = (w.setStep n .action).beginPowerUp env n)
    ∧ ((a, (w.lane n).ctx.state) ∈ [(.run, .hold), (.run, .run)] →
      w.actionStart env n a = (w.setStep n .action).modLane n (Lane.startPulse env))
    ∧ ((a, (w.lane n).ctx.state) ∈ [(.powerOff, .ready), (.hold, .ready), (.run, .ready)] →
      w.actionStart env n a
        = (w.setStep n .action).request n (((w.setStep n .action).lane n).closeRequest (.closeAction a))) := by
  have stands : ((w.setStep n .action).lane n).ctx.state = (w.lane n).ctx.state := by rw [lane_setStep, if_pos rfl]
  simp only [List.mem_cons, List.not_mem_nil, or_false, Prod.mk.injEq]
  unfold Work.actionStart
  dsimp only
  rw [stands]
  refine ⟨?_, ?_, ?_⟩
  · rintro (⟨rfl, st⟩ | ⟨rfl, st⟩ | ⟨rfl, st⟩) <;> rw [st]
  · rintro (⟨rfl, st⟩ | ⟨rfl, st⟩) <;> rw [st]
  · rintro (⟨rfl, st⟩ | ⟨rfl, st⟩ | ⟨rfl, st⟩) <;> rw [st]

theorem body_clearFault {l l' : Lane} (h : body l = body l') : body l.clearFault = body l'.clearFault := by
  have lines : l.lines = l'.lines := congrArg (·.lines) h
  have supply : l.supply = l'.supply := congrArg (·.supply) h
  unfold Lane.clearFault
  rw [lines, supply]
  split
  · exact congrArg (fun l : Lane => { l with ctx := { l.ctx with faultCause := none } }) (body_toHold h)
  · exact body_toOff h

theorem clearFault_addr (l : Lane) : l.clearFault.ctx.faultAddr = l.ctx.faultAddr := by
  unfold Lane.clearFault
  split <;> rfl

theorem doneAt_keeps {st : LaneState} {f : Lane → Lane} (h : doneAt a st = some f) :
    (∀ l, (f l).ctx.slot = l.ctx.slot) ∧ (∀ l l', body l = body l' → body (f l) = body (f l'))
    ∧ ∀ l, (f l).ctx.faultAddr = l.ctx.faultAddr := by
  have cases_ : f = id ∨ f = Lane.toOff ∨ f = Lane.toHold ∨ f = Lane.clearFault := by
    unfold doneAt at h
    split at h <;> cases h <;> simp
  rcases cases_ with rfl | rfl | rfl | rfl
  · exact ⟨fun _ => rfl, fun _ _ h => h, fun _ => rfl⟩
  · exact ⟨fun _ => rfl, fun _ _ => body_toOff, fun _ => rfl⟩
  · exact ⟨fun _ => rfl, fun _ _ => body_toHold, fun _ => rfl⟩
  · exact ⟨fun l => (move_clearFault l).2.2.1, fun _ _ => body_clearFault, clearFault_addr⟩

/-- A lane that its grant ends at once. -/
theorem action_ends {u : Work} {ju : JobSlot} (h : Started w env i j n u ju) (args : j.args = .laneAction a) {f : Lane → Lane}
    (done : doneAt a (w.lane n).ctx.state = some f) :
    (w.grantJob env i).Recorded i j n .done ∧ (w.grantJob env i).ownerOf n = none
    ∧ body ((w.grantJob env i).lane n) = body (f ((w.lane n).granted i))
    ∧ ∃ o, o.faultAddr = (w.lane n).causeAddr ∧ Kept (w.grantJob env i) n i j.tag j.adm .done o := by
  obtain ⟨slot, body_f, addr⟩ := doneAt_keeps done
  have kind : ju.args = .laneAction a := h.args.trans args
  have e := startLane_action h.isLive h.job kind env
  rw [actionStart_done (f := f) (by rw [h.lane]; exact done)] at e
  have same := sameJobs_setStep u n .action
  have lane_v : (u.setStep n .action).lane n
      = { (w.lane n).granted i with ctx := { ((w.lane n).granted i).ctx with step := .action, stepPos := none } } := by
    rw [lane_setStep, if_pos rfl, h.lane]
  obtain ⟨body_t, -, owner⟩ := actionDone_left (w := u.setStep n .action) (a := a) (by rw [same.isLive n, h.isLive])
    (by rw [same.actionOf n, actionOf_eq, h.job, Option.map_some, kind]) slot body_f env
  obtain ⟨-, steps, kept⟩ := h.ends (same.trans (sameJobs_action _ n slot)) e
  refine ⟨recorded_of_kept kept, by rw [h.beside.owner, e, owner], ?_, _, ?_, kept⟩
  · rw [h.after, e, body_t, lane_v]
    exact body_f _ _ rfl
  · show JobSlot.faultAddrFor _ _ _ _ = _
    unfold JobSlot.faultAddrFor
    dsimp only
    rw [kind]
    dsimp only
    rw [lane_modLane, if_pos rfl, addr, lane_setStep, if_pos rfl, lane_v]
    rfl

/-- Settles O24: action by action and state by state (Table 2-7). -/
theorem laneActionStartsAtItsGrant : Obligations.LaneActionStartsAtItsGrant := by
  intro s i j a aw waits part list slot args ctx noOwner free
  have image : j.args.waitsForImage = false := by rw [args]; rfl
  have passless : PasslessIn (s.work.handOver i j) i := passless_handOver ctx (by rw [args]; nofun)
  obtain ⟨t, exec_t, work, empty⟩ := exec_grant aw waits part list slot free
  refine ⟨t, exec_t, empty, ?_, ?_⟩
  all_goals rw [work]
  · exact fun n => grantJob_apart slot image passless s.env
  intro n l mask hl
  subst hl
  obtain ⟨u, ju, started⟩ := grantJob_starts slot image passless s.env mask (.inl (by rw [args]; rfl))
  have e := startLane_action started.isLive started.job (started.args.trans args) s.env
  have state_u : (u.lane n).ctx.state = (s.work.lane n).ctx.state := by rw [started.lane]; rfl
  obtain ⟨powers, pulses, closes⟩ := actionStart_goes u s.env n a
  rw [state_u] at powers pulses closes
  have lane_v : (u.setStep n .action).lane n = { (s.work.lane n).granted i with
      ctx := { ((s.work.lane n).granted i).ctx with step := .action, stepPos := none } } := by
    rw [lane_setStep, if_pos rfl, started.lane]
  have same := sameJobs_setStep u n .action
  refine ⟨fun h => ?_, fun h => ?_, fun h => ?_, fun h => ?_, fun h => ?_, fun h ride => ?_, fun h => ?_, fun fault cause hc => ?_⟩
  · have done : doneAt a (s.work.lane n).ctx.state = some id := by
      simp only [List.mem_cons, List.not_mem_nil, or_false, Prod.mk.injEq] at h
      rcases h with ⟨rfl, st⟩ | ⟨rfl, st⟩ | ⟨rfl, st⟩ | ⟨rfl, st⟩ | ⟨rfl, st⟩ | ⟨rfl, st⟩ | ⟨rfl, st⟩ | ⟨rfl, st⟩ | ⟨rfl, st⟩
        | ⟨rfl, st⟩ | ⟨rfl, st⟩ | ⟨rfl, st⟩ <;> rw [st] <;> rfl
    obtain ⟨recorded, owner, body_t, -⟩ := action_ends started args done
    exact ⟨recorded, owner, congrArg (·.ctx.state) body_t, congrArg (·.ctx.session) body_t, congrArg (·.ctx.desc) body_t,
      congrArg (·.ctx.faultCause) body_t, congrArg (·.settings) body_t, congrArg (·.link) body_t, congrArg (·.supply) body_t,
      congrArg (·.lines) body_t⟩
  · have e := e.trans (powers h)
    obtain ⟨live, owner⟩ := started.goesOn (by
      rw [e]
      exact (same.trans (sameJobs_setStep _ n .powerUp)).trans (sameJobs_modLane rfl))
    have lane := started.after
    rw [e, lane_beginPowerUp, lane_v] at lane
    rw [lane, Nat.mul_comm 48000]
    exact ⟨live, owner, rfl, rfl, rfl, rfl⟩
  · have done : doneAt a (s.work.lane n).ctx.state = some Lane.toOff := by
      simp only [List.mem_cons, List.not_mem_nil, or_false, Prod.mk.injEq] at h
      rcases h with ⟨rfl, st⟩ | ⟨rfl, st⟩ | ⟨rfl, st⟩ <;> rw [st] <;> rfl
    obtain ⟨recorded, owner, body_t, -⟩ := action_ends started args done
    exact ⟨recorded, owner, congrArg (·.ctx.state) body_t, congrArg (·.ctx.faultCause) body_t, congrArg (·.lines) body_t,
      congrArg (·.supply) body_t⟩
  · obtain ⟨rfl, st⟩ := Prod.mk.inj h
    obtain ⟨recorded, owner, body_t, -⟩ := action_ends (f := Lane.toHold) started args (by rw [st]; rfl)
    exact ⟨recorded, owner, congrArg (·.ctx.state) body_t, congrArg (·.lines) body_t, congrArg (·.supply) body_t⟩
  · have e := e.trans (pulses h)
    obtain ⟨live, owner⟩ := started.goesOn (by
      rw [e]
      exact same.trans (sameJobs_modLane rfl))
    have lane := started.after
    rw [e, lane_modLane, if_pos rfl, lane_v] at lane
    rw [lane]
    exact ⟨live, owner, rfl, rfl, rfl, rfl, rfl⟩
  · have e := e.trans (closes h)
    obtain ⟨live, owner⟩ := started.goesOn (by
      rw [e]
      exact same.trans (sameJobs_request _ n _))
    have lane := started.after
    rw [e, request_begins (by rw [lane_v]; exact ride), lane_setLane, if_pos rfl, lane_v] at lane
    have frame := frameOut_engine lane rfl (by simp [Lane.closeRequest, engineRequest])
    rw [lane, frame]
    exact ⟨live, owner, rfl, rfl, rfl, rfl⟩
  · obtain ⟨rfl, st⟩ := Prod.mk.inj h
    obtain ⟨recorded, owner, body_t, -⟩ := action_ends (f := Lane.clearFault) started args (by rw [st]; rfl)
    have lines : ((s.work.grantJob s.env i).lane n).lines = ((s.work.lane n).granted i).clearFault.lines := congrArg (·.lines) body_t
    have supply : ((s.work.grantJob s.env i).lane n).supply = ((s.work.lane n).granted i).clearFault.supply :=
      congrArg (·.supply) body_t
    have state : ((s.work.grantJob s.env i).lane n).ctx.state = ((s.work.lane n).granted i).clearFault.ctx.state :=
      congrArg (·.ctx.state) body_t
    have cause : ((s.work.grantJob s.env i).lane n).ctx.faultCause = ((s.work.lane n).granted i).clearFault.ctx.faultCause :=
      congrArg (·.ctx.faultCause) body_t
    rw [lines, supply, state, cause]
    by_cases good : (s.work.lane n).lines.tpwrOn = true ∧ (s.work.lane n).supply.state = .good
    · rw [show ((s.work.lane n).granted i).clearFault = _ from if_pos good]
      exact ⟨recorded, owner, rfl, rfl, rfl, fun on _ => ⟨rfl, on, rfl⟩, fun bad => absurd good (by
        rcases bad with off | bad
        · simp [off]
        · simp [bad])⟩
    · rw [show ((s.work.lane n).granted i).clearFault = _ from if_neg good]
      exact ⟨recorded, owner, rfl, rfl, rfl, fun on gd => absurd ⟨on, gd⟩ good, fun _ => ⟨rfl, rfl, rfl⟩⟩
  · obtain ⟨f, done⟩ : ∃ f, doneAt a (s.work.lane n).ctx.state = some f := by
      rw [fault]
      cases a <;> exact ⟨_, rfl⟩
    obtain ⟨-, -, -, o, addr, kept⟩ := action_ends started args done
    have addr : o.faultAddr = some ((resultCode cause).setWidth 32) := by
      rw [addr, Lane.causeAddr, if_pos fault, hc]
      rfl
    rcases kept with ⟨j', job', -, -, -, -, -, copy⟩ | ⟨-, e, he, tag, adm, x, hx, lane, -, copy⟩
    · exact .inl ⟨j', o, job', copy, addr⟩
    · exact .inr ⟨e, he, tag, adm, x, hx, lane, o, copy, addr⟩

end Sys2Proof.Proofs
end

section
/-! A CANCEL of a RUNNING job with end actions: O42. -/

namespace Sys2Proof.Proofs

-- One theorem at a time: a thread for each would ask for more stack than the check allows.
set_option Elab.async false

open Sys2Proof.Machine Sys2Proof.Laws

variable {s t u : State} {v w w' x : Work} {env : Env} {n m : LaneId} {i : SlotId} {j : JobSlot} {r : LaneResult}
  {l : Lane} {ns : List LaneId} {cause : StopCause} {q : Request} {k : CancelLink}

/-! ## Several lanes stop in one event (R94, R134) -/

/-- The result of one of the lanes that end together. -/
theorem finalizeAll_result (once : ns.Nodup) (mem : n ∈ ns) (slot : (w.lane n).ctx.slot = some i) (job : w.slot i = some j)
    (live : hasLane j.live n = true) (env : Env) (r : LaneResult) :
    (w.finalizeAll env ns r).isLive n = false ∧ (hasLane j.mask n = true →
      ∃ l' o, o.faultAddr = j.faultAddrFor l' r none ∧ Kept (w.finalizeAll env ns r) n i j.tag j.adm r o) := by
  have mem' : n ∈ ns.filter w.isLive := List.mem_filter.mpr ⟨mem, isLive_iff.mpr ⟨i, j, slot, job, live⟩⟩
  obtain ⟨u, beside, -, -, reach, -⟩ := forLanes_at (fun w m => Local.record w m r none)
    (fun w m => reach_record w m r none) (once.filter w.isLive) mem' w
  have reach : Reach (u.record n r none) (w.finalizeAll env ns r) :=
    reach.trans (reach_forLanes (fun w m => reach_settle w env m r) _ _)
  obtain ⟨j', job', stays⟩ := beside.job i j slot job (.inl live)
  obtain ⟨tag, mask', adm, -, args, -⟩ := stays.same
  refine ⟨notLive_of_reach reach (record_notLive r none), fun mask => ?_⟩
  have kept := record_kept (beside.slot.trans slot) job' (stays.live live).1 (mask' ▸ mask) r none
  rw [tag, adm] at kept
  refine ⟨u.lane n, _, ?_, kept_of_reach reach kept⟩
  show j'.faultAddrFor (u.lane n) r none = _
  unfold JobSlot.faultAddrFor
  rw [args]

/-- A lane with a request outstanding does not stop yet. -/
theorem stopsNow_busy (busy : l.link.state ≠ .idle) : l.stopsNow = false := by
  simp [Lane.stopsNow, Lane.atBoundary, Lane.linkIdle, busy]

theorem faultAddr_cancelled (session : j.args.endAction?.isSome = true) (l : Lane) : j.faultAddrFor l .cancelled none = none := by
  unfold JobSlot.faultAddrFor
  cases args : j.args <;> simp_all [JobArgs.endAction?]

/-- A live lane is marked to stop. -/
def marked (env : Env) (cause : StopCause) (w : Work) (n : LaneId) : Work := if w.isLive n then w.markLane env cause n else w

theorem local_marked (env : Env) (cause : StopCause) (w : Work) (n : LaneId) : Local n w (marked env cause w n) := by
  unfold marked
  split
  · exact Local.markLane w env n cause
  · exact .refl

theorem reach_marked (env : Env) (cause : StopCause) (w : Work) (n : LaneId) : Reach w (marked env cause w n) := by
  unfold marked
  split
  · exact reach_markLane w env n cause
  · exact .refl

section
variable (once : ns.Nodup) (mem : n ∈ ns) (env : Env) (cause : StopCause) (r : LaneResult)
include once mem

/-- A lane that stops in the event. -/
theorem stopLanes_now (stops : (w.lane n).stopsNow = true) (slot : (w.lane n).ctx.slot = some i) (job : w.slot i = some j)
    (live : hasLane j.live n = true) : (w.stopLanes env ns cause r).isLive n = false ∧ (hasLane j.mask n = true →
      ∃ l' o, o.faultAddr = j.faultAddrFor l' r none ∧ Kept (w.stopLanes env ns cause r) n i j.tag j.adm r o) := by
  obtain ⟨idle, result⟩ := finalizeAll_result (once.filter fun n => (w.lane n).stopsNow)
    (List.mem_filter.mpr ⟨mem, stops⟩) slot job live env r
  have reach : Reach (w.finalizeAll env (ns.filter fun n => (w.lane n).stopsNow) r) (w.stopLanes env ns cause r) :=
    reach_forLanes (fun w m => reach_marked env cause w m) _ _
  refine ⟨notLive_of_reach reach idle, fun mask => ?_⟩
  obtain ⟨l', o, addr, kept⟩ := result mask
  exact ⟨l', o, addr, kept_of_reach reach kept⟩

/-- A lane that cannot stop yet. -/
theorem stopLanes_later (stops : (w.lane n).stopsNow = false) (live : w.isLive n = true) :
    ∃ u, Beside n w u ∧ Beside n (u.markLane env cause n) (w.stopLanes env ns cause r)
      ∧ Reach (u.markLane env cause n) (w.stopLanes env ns cause r) := by
  have out : n ∉ ns.filter (fun n => (w.lane n).stopsNow) := fun h => by
    rw [List.mem_filter, stops] at h
    exact Bool.false_ne_true h.2
  obtain ⟨u, beside, -, beside', reach', -⟩ := forLanes_at (local_marked env cause) (reach_marked env cause)
    (once.filter fun n => !(w.lane n).stopsNow) (List.mem_filter.mpr ⟨mem, by simp [stops]⟩)
    (w.finalizeAll env (ns.filter fun n => (w.lane n).stopsNow) r)
  have beside_u := (finalizeAll_beside out env r).trans beside
  have here : marked env cause u n = u.markLane env cause n := if_pos (beside_u.isLive live)
  rw [here] at beside' reach'
  exact ⟨u, beside_u, beside', reach'⟩

end

/-! ## The mark, and the stop mark on an exchange (R59) -/

theorem markStop_unstopped (un : l.Unstopped) (cause : StopCause) :
    l.markStop cause = { l with eng := { l.eng with stop := some cause } } := by
  rw [Lane.markStop, un.1]

/-- A lane without an exchange is marked, and nothing else. -/
theorem markLane_idle (idle : (w.lane n).link.state = .idle) (un : (w.lane n).Unstopped) (env : Env) :
    w.markLane env cause n = w.modLane n (Lane.markStop cause) := by
  unfold Work.markLane
  refine if_neg fun h => ?_
  rw [lane_modLane, if_pos rfl, markStop_unstopped un] at h
  simp [Lane.linkIdle, idle] at h

/-- An image read error sets no stop mark on the exchange. -/
theorem markLane_image (w : Work) (env : Env) (n : LaneId) :
    w.markLane env .imageError n = w.modLane n (Lane.markStop .imageError) := by
  unfold Work.markLane
  exact if_neg fun h => nomatch h.1

/-- An exchange runs on with its stop mark. -/
theorem markLane_runsOn (runs : (w.lane n).link.state ∈ [.sending, .awaiting, .busyHold] ∨ (w.lane n).Listens)
    (un : (w.lane n).Unstopped) (env : Env) : (w.markLane env .cancel n).lane n
      = { w.lane n with link := { (w.lane n).link with stopMark := true }, eng := { (w.lane n).eng with stop := some .cancel } }
    ∧ SameJobs w (w.markLane env .cancel n) := by
  have busy : (w.lane n).link.state ≠ .idle := by
    rintro h
    rw [Lane.Listens, h] at runs
    simp at runs
  have on : ¬ ((w.lane n).link.state = .receiving ∧ (w.lane n).link.discarding = true) := by
    rintro ⟨h, discarding⟩
    rw [Lane.Listens, h, discarding] at runs
    simp at runs
  have goes : w.markLane env .cancel n = (w.modLane n (Lane.markStop .cancel)).setLane n { w.lane n with
      link := { (w.lane n).link with stopMark := true }, eng := { (w.lane n).eng with stop := some .cancel } } := by
    unfold Work.markLane
    dsimp only
    rw [lane_modLane, if_pos rfl, markStop_unstopped un, if_pos ⟨rfl, by simp [Lane.linkIdle, busy]⟩, Lane.setStopMark, if_neg on]
    rfl
  rw [goes]
  exact ⟨(lane_setLane ..).trans (if_pos rfl), (sameJobs_modLane (move_markStop _ _).2.2.1).trans
    (sameJobs_setLane (by rw [lane_modLane, if_pos rfl, markStop_unstopped un]))⟩

/-- A wait for a quiet line ends at once as STOPPED, and so does the lane. -/
theorem markLane_stopped (acts : env.acting = true) (receiving : (w.lane n).link.state = .receiving)
    (discarding : (w.lane n).link.discarding = true) (req : (w.lane n).link.req = some q) (free : (w.lane n).eng.xfer = none)
    (notEnd : ∀ e, q.purpose ≠ .closeEnd e) (notAction : ∀ b, q.purpose ≠ .closeAction b) (un : (w.lane n).Unstopped) :
    ∃ v : Work, w.markLane env .cancel n = v.finalize env n .cancelled none ∧ SameJobs w v
      ∧ Unanswered ((w.lane n).ctx.seq + 1) (v.lane n) := by
  obtain ⟨l, hl⟩ : ∃ l, l = { w.lane n with eng := { (w.lane n).eng with stop := some StopCause.cancel } } := ⟨_, rfl⟩
  obtain ⟨x, hx⟩ : ∃ x, x = (w.modLane n (Lane.markStop .cancel)).setLane n l := ⟨_, rfl⟩
  have lane_x : x.lane n = l := by rw [hx, lane_setLane, if_pos rfl]
  have ends : w.markLane env .cancel n = x.exchangeEnd env n .stopped := by
    unfold Work.markLane
    dsimp only
    rw [lane_modLane, if_pos rfl, markStop_unstopped un, ← hl, if_pos ⟨rfl, by rw [hl]; simp [Lane.linkIdle, receiving]⟩,
      Lane.setStopMark, if_pos (by rw [hl]; exact ⟨receiving, discarding⟩), hx]
    rfl
  have same : SameJobs w x := by
    rw [hx]
    exact (sameJobs_modLane (move_markStop _ _).2.2.1).trans
      (sameJobs_setLane (by rw [lane_modLane, if_pos rfl, markStop_unstopped un, hl]))
  have req_x : (x.lane n).link.req = some q := by rw [lane_x, hl]; exact req
  have stop_x : (x.lane n).stopResult = some (.cancelled, none) := by
    rw [lane_x, hl, Lane.stopResult]
    dsimp only
    rw [un.2]
  have at_x : ∀ a, (x.setLane n (closedLane a (x.lane n))).lane n = closedLane a (x.lane n) := fun a => by
    rw [lane_setLane, if_pos rfl]
  have seq_x : (closedLane false (x.lane n)).ctx.seq = (w.lane n).ctx.seq + 1 := by rw [lane_x, hl]; rfl
  have stops : ∀ (v : Work) (f : Work → Work), (v.lane n).stopResult = (x.lane n).stopResult → (v.lane n).link.state = .idle →
      (v.lane n).eng.xfer = none → v.goOn env n f = v.finalize env n .cancelled none := fun v f stop idle free => by
    unfold Work.goOn
    rw [stop, stop_x]
    exact if_pos (by simp [Lane.atBoundary, Lane.linkIdle, idle, free])
  have free_x : (x.lane n).eng.xfer = none := by rw [lane_x, hl]; exact free
  rw [ends]
  by_cases fresh : q.purpose = .closeFresh
  · rw [(exchangeEnd_close acts req_x).2.2 fresh]
    refine ⟨((x.setLane n (closedLane false (x.lane n)).endSession)).modLane n Lane.toHold, stops _ _ ?_ ?_ ?_,
      same.trans ((sameJobs_setLane (l := (closedLane false (x.lane n)).endSession) rfl).trans (sameJobs_modLane rfl)), ?_⟩
    all_goals rw [lane_modLane, if_pos rfl, lane_setLane, if_pos rfl]
    · rfl
    · rfl
    · exact free_x
    · exact ⟨seq_x, rfl, rfl, rfl⟩
  · have open_ : q.purpose.isClose = false := by
      cases purpose : q.purpose with
      | closeFresh => exact absurd purpose fresh
      | closeEnd e => exact absurd purpose (notEnd e)
      | closeAction b => exact absurd purpose (notAction b)
      | _ => rfl
    rw [exchangeEnd_request acts req_x open_]
    refine ⟨x.setLane n (closedLane false (x.lane n)), stops _ _ ?_ ?_ ?_, same.trans (sameJobs_setLane rfl), ?_⟩
    all_goals rw [at_x]
    · rfl
    · rfl
    · exact free_x
    · exact ⟨seq_x, rfl, rfl, rfl⟩

/-! ## The CANCEL of a RUNNING job at its taking (Table 8-1, row 6) -/

theorem resolve_running {counter tag adm named a : Word} (f : w.findNamed counter named = some (.slot i a)) (hj : w.slot i = some j)
    (hc : j.cancelLink = none) (hs : j.state = .running) :
    w.resolveCancel env counter tag adm named = w.cancelRunning env i { tag := tag, adm := adm } := by
  unfold Work.resolveCancel
  rw [f]
  simp [hj, hc, hs]

/-- A CANCEL that names a RUNNING job is taken. -/
theorem cancel_taken {g : Geometry} {rec : List Byte} {a : Word} (aw : s.Awake) (running : s.part.state = .running)
    (held : s.intake.held = some rec) (kind : byteAt rec 4 = 7)
    (found : s.work.findNamed (s.intake.counter + 1) (wordAt rec 16) = some (.slot i a)) (slot : s.work.slot i = some j)
    (fresh : j.cancelLink = none) (state : j.state = .running) (geom : s.rings.geom = some g) :
    ∃ (env : Env) (t : State), env.part = .running ∧ env.jobHead = (s.rings.jobHead + 1) % 2 ^ g.jobCode ∧ env.clock = s.clock
      ∧ exec .jobTake s = .next t ∧ t.work = Work.cancelRunning { s.work with reserved := s.work.reserved + 1 } env i
        { tag := wordAt rec 0, adm := s.intake.counter } := by
  have hr := judge_cancel kind
  refine ⟨State.env { s with rings := { s.rings with jobHead := (s.rings.jobHead + 1) % s.rings.jobSize } }, _, running, ?_, rfl,
    exec_jobTake aw held (canTake_cancel running hr), ?_⟩
  rotate_left
  · show (s.take rec).work = _
    unfold State.take State.onWork Work.admitRecord
    dsimp only
    rw [hr]
    exact resolve_running (w := { s.work with reserved := s.work.reserved + 1 }) found slot fresh state
  · show (s.rings.jobHead + 1) % s.rings.jobSize = _
    rw [jobSize_some geom]

/-- The CANCEL of a job with end actions reaches its live lanes. -/
theorem cancelRunning_session (slot : w.slot i = some j) (session : j.args.endAction?.isSome = true) :
    w.cancelRunning env i k = (w.setSlot i (some { j with cancelLink := some k })).stopLanes env
      ((lanesIn j.live).filter (w.setSlot i (some { j with cancelLink := some k })).isLive) .cancel .cancelled := by
  unfold Work.cancelRunning
  rw [slot]
  dsimp only
  cases args : j.args
  case laneAction => rw [args] at session; exact nomatch session
  all_goals rfl

/-- Settles O42. -/
theorem cancelOfARunningJob : Obligations.CancelOfARunningJob := by
  intro s g rec i a j aw running geom held kind found slot fresh state session lanes
  obtain ⟨env, t, part, -, -, run, work⟩ := cancel_taken aw running held kind found slot fresh state geom
  have acts : env.acting = true := by rw [Env.acting, part]; rfl
  refine ⟨t, run, ?_⟩
  obtain ⟨k, hk⟩ : ∃ k, k = CancelLink.mk (wordAt rec 0) s.intake.counter := ⟨_, rfl⟩
  obtain ⟨w, hw⟩ : ∃ w, w = Work.setSlot { s.work with reserved := s.work.reserved + 1 } i (some { j with cancelLink := some k }) :=
    ⟨_, rfl⟩
  obtain ⟨ns, hns⟩ : ∃ ns, ns = (lanesIn j.live).filter w.isLive := ⟨_, rfl⟩
  have slot_w : w.slot i = some { j with cancelLink := some k } := by
    rw [hw, slot_setSlot, if_pos rfl]
  have lane_w : ∀ n, w.lane n = s.work.lane n := fun n => by rw [hw]; rfl
  replace work : t.work = w.stopLanes env ns .cancel .cancelled := by
    rw [work, cancelRunning_session (w := { s.work with reserved := s.work.reserved + 1 }) slot session, ← hk, ← hw, ← hns]
  rw [work, ← hk]
  refine ⟨slot_of_reach (P := fun j => j.cancelLink = some k) ?_ (reach_stopLanes w env ns .cancel .cancelled) ?_, ?_⟩
  · rintro j j' ⟨-, -, -, -, -, link, -⟩ h
    exact link.trans h
  · intro j' h
    cases slot_w.symm.trans h
    rfl
  rintro n l live rfl
  obtain ⟨mask, bound, un⟩ := lanes n live
  have bound_w : (w.lane n).ctx.slot = some i := (congrArg (·.ctx.slot) (lane_w n)).trans bound
  have live_w : w.isLive n = true := isLive_iff.mpr ⟨i, _, bound_w, slot_w, live⟩
  have mem : n ∈ ns := by rw [hns, List.mem_filter]; exact ⟨mem_lanesIn.mpr live, live_w⟩
  have once : ns.Nodup := by rw [hns]; exact (lanesIn_nodup _).filter _
  have taken : ∀ {v : Work} {o : OutcomeCopy}, Kept v n i j.tag j.adm .cancelled o → o.faultAddr = none →
      s.work.ResultTakenAt v n .cancelled none := fun {v o} kept addr => takenAt_of_kept fun i' j' a b _ _ => by
    cases bound.symm.trans a
    cases slot.symm.trans b
    exact ⟨o, kept, addr⟩
  obtain ⟨v, hv⟩ : ∃ v, v = w.stopLanes env ns .cancel .cancelled := ⟨_, rfl⟩
  have later : (s.work.lane n).stopsNow = false → ∃ u cur st pos, u.isLive n = true ∧ Beside n w u
      ∧ u.lane n = { s.work.lane n with ctx := { (s.work.lane n).ctx with cursor := cur, step := st, stepPos := pos } }
      ∧ Beside n (u.markLane env .cancel n) v ∧ Reach (u.markLane env .cancel n) v := fun h => by
    obtain ⟨u, before, after, reach⟩ := stopLanes_later (w := w) once mem env .cancel .cancelled ((lane_w n).symm ▸ h) live_w
    obtain ⟨cur, st, pos, e⟩ := before.lane
    rw [lane_w] at e
    exact ⟨u, cur, st, pos, before.isLive live_w, before, e, hv ▸ after, hv ▸ reach⟩
  rw [← hv]
  refine ⟨fun idle free no no' => ?_, fun idle busy => ?_, fun runs => ?_, fun q receiving discarding req free notEnd notAction => ?_⟩
  · obtain ⟨idle', result⟩ := stopLanes_now (w := w) once mem env .cancel .cancelled
      (by rw [lane_w]; simp [Lane.stopsNow, Lane.atBoundary, Lane.linkIdle, idle, free, no, no']) bound_w slot_w live
    obtain ⟨l', o, addr, kept⟩ := result mask
    rw [hv]
    exact ⟨idle', taken kept (addr.trans (faultAddr_cancelled session l'))⟩
  · obtain ⟨u, cur, st, pos, live_u, -, lane_u, after, -⟩ := later (by
      rcases busy with h | h
      · simp only [List.mem_cons, List.not_mem_nil, or_false] at h
        rcases h with h | h <;> simp [Lane.stopsNow, h]
      · simp [Lane.stopsNow, Lane.atBoundary, Option.isSome_iff_ne_none.mp h])
    rw [markLane_idle (by rw [lane_u]; exact idle) (by rw [lane_u]; exact un)] at after
    have same : SameJobs u (u.modLane n (Lane.markStop .cancel)) := sameJobs_modLane (move_markStop _ _).2.2.1
    refine ⟨after.isLive ((same.isLive n).trans live_u), ?_⟩
    obtain ⟨cur', st', pos', lane_v⟩ := after.lane
    rw [lane_v, lane_modLane, if_pos rfl, markStop_unstopped (by rw [lane_u]; exact un), lane_u]
    exact ⟨rfl, rfl, rfl, rfl, rfl, rfl⟩
  · obtain ⟨u, cur, st, pos, live_u, -, lane_u, after, -⟩ := later (stopsNow_busy (by
      rintro h
      rw [Lane.Listens, h] at runs
      simp at runs))
    obtain ⟨lane_m, same⟩ := markLane_runsOn (w := u) (by rw [lane_u]; exact runs) (by rw [lane_u]; exact un) env
    refine ⟨after.isLive ((same.isLive n).trans live_u), ?_⟩
    obtain ⟨cur', st', pos', lane_v⟩ := after.lane
    rw [lane_v, lane_m, lane_u]
    exact ⟨rfl, rfl, rfl, rfl, rfl⟩
  · obtain ⟨u, cur, st, pos, live_u, before, lane_u, after, reach⟩ := later (stopsNow_busy (by rw [receiving]; nofun))
    obtain ⟨x, ends, same, quiet⟩ := markLane_stopped (w := u) acts (by rw [lane_u]; exact receiving)
      (by rw [lane_u]; exact discarding) (by rw [lane_u]; exact req) (by rw [lane_u]; exact free) notEnd notAction
      (by rw [lane_u]; exact un)
    rw [ends] at after reach
    obtain ⟨ju, slot_u, stays⟩ := before.job i _ bound_w slot_w (.inl live)
    obtain ⟨steps, slot_x⟩ := same.slot slot_u
    obtain ⟨tag, mask', adm, -, args, -⟩ := stays.same
    have bound_x : (x.lane n).ctx.slot = some i := (same.lane n).trans (before.slot.trans bound_w)
    have kept := finalize_kept bound_x slot_x (stays.live live).1 (mask' ▸ mask) env .cancelled none
    dsimp only at tag adm kept
    rw [tag, adm] at kept
    refine ⟨notLive_of_reach reach (finalize_notLive ..), taken (kept_of_reach reach kept) ?_, ?_⟩
    · exact faultAddr_cancelled (j := { ju with lastSteps := steps }) (by rw [args]; exact session) _
    · obtain ⟨seq, answered, link, tdat⟩ := (settled_unanswered ((u.lane n).ctx.seq + 1)).finalize (w := x) quiet env .cancelled none
      obtain ⟨cur', st', pos', lane_v⟩ := after.lane
      rw [lane_v]
      exact ⟨answered, seq.trans (by rw [lane_u]), by rw [link]; rfl, tdat⟩

end Sys2Proof.Proofs
end

section
/-! The lanes of a job that end together, and the job's completion with the last of them. -/

namespace Sys2Proof.Proofs

-- One theorem at a time: a thread for each would ask for more stack than the check allows.
set_option Elab.async false

open Sys2Proof.Machine Sys2Proof.Laws

variable {s t u : State} {v w w' x : Work} {env : Env} {n m : LaneId} {i : SlotId} {j : JobSlot} {c : CtxId} {r : LaneResult}
  {l : Lane} {ns : List LaneId}

/-! ## The results are recorded (R11) -/

/-- The lane whose result `r` is recorded. -/
def recordedLane (j : JobSlot) (r : LaneResult) (l : Lane) : Lane :=
  { l with
    ctx := { l.ctx with faultAddr := j.faultAddrFor l r none, fallbackCopy := none }
    eng := { l.eng with stop := none, due := none, resume := none, held := none } }

/-- The job that takes the result `r` of its lane `n`, which stands as `l`. -/
def recordedJob (j : JobSlot) (r : LaneResult) (n : LaneId) (l : Lane) : JobSlot :=
  { j with
    state := if dropLane j.live n = 0 then .ending else j.state
    results := vset j.results n (some r)
    lastSteps := vset j.lastSteps n l.ctx.step
    copies := vset j.copies n (some (recordedLane j r l).outcome)
    live := dropLane j.live n }

theorem record_eq (bound : (w.lane n).ctx.slot = some i) (slot : w.slot i = some j) (live : hasLane j.live n = true) :
    w.record n r none = (w.setLane n (recordedLane j r (w.lane n))).setSlot i (some (recordedJob j r n (w.lane n))) := by
  unfold Work.record
  rw [bound]
  dsimp only
  rw [slot]
  exact if_pos live

/-- The job `j` of `w` as it is once the result `r` of each lane of `ns` is recorded. -/
structure Ended (w : Work) (r : LaneResult) (ns : List LaneId) (j j' : JobSlot) : Prop where
  same : j' = { j with state := j'.state, results := j'.results, lastSteps := j'.lastSteps, copies := j'.copies, live := j'.live }
  live : ∀ n, hasLane j'.live n = true ↔ hasLane j.live n = true ∧ n ∉ ns
  state : j'.state = if ns ≠ [] ∧ j'.live = 0 then .ending else j.state
  results : ∀ n, j'.results.get n = if n ∈ ns then some r else j.results.get n
  lastSteps : ∀ n, j'.lastSteps.get n = if n ∈ ns then (w.lane n).ctx.step else j.lastSteps.get n
  copies : ∀ n, j'.copies.get n = if n ∈ ns then some (recordedLane j r (w.lane n)).outcome else j.copies.get n

theorem live_zero_iff {a : LaneMask} : a = 0 ↔ ∀ n, ¬ hasLane a n = true :=
  ⟨fun h n => by rw [h, show hasLane 0 n = false from hasLane_zero n]; exact Bool.false_ne_true,
    fun h => mask_ext fun n => (Bool.eq_false_iff.mpr (h n)).trans (hasLane_zero n).symm⟩

theorem hasLane_dropLane_iff (a : LaneMask) (n m : LaneId) : hasLane (dropLane a n) m = true ↔ hasLane a m = true ∧ m ≠ n := by
  by_cases h : m = n
  · subst h
    simp [hasLane_dropLane_self]
  · simp [hasLane_dropLane, h]

/-- Every result is recorded before any lane goes on. -/
theorem records_spec (once : ns.Nodup) (slot : w.slot i = some j) (bound : ∀ n ∈ ns, (w.lane n).ctx.slot = some i)
    (live : ∀ n ∈ ns, hasLane j.live n = true) : ∃ v j', v = w.forLanes ns (fun w n => w.record n r none) ∧ Ended w r ns j j'
      ∧ v = { w with slots := v.slots, lanes := v.lanes } ∧ v.slot i = some j' ∧ (∀ k, k ≠ i → v.slot k = w.slot k)
      ∧ ∀ n, v.lane n = if n ∈ ns then recordedLane j r (w.lane n) else w.lane n := by
  induction ns generalizing w j with
  | nil =>
    exact ⟨w, j, rfl, ⟨rfl, fun n => by simp, by simp, fun n => by simp, fun n => by simp, fun n => by simp⟩,
      rfl, slot, fun _ _ => rfl, fun n => by simp⟩
  | cons n ns ih =>
    obtain ⟨first, once⟩ := List.nodup_cons.mp once
    have other : ∀ m ∈ ns, m ≠ n := fun m hm => by
      rintro rfl
      exact first hm
    obtain ⟨x, hx⟩ : ∃ x, x = w.record n r none := ⟨_, rfl⟩
    have eq := hx.trans (record_eq (bound n (List.mem_cons_self ..)) slot (live n (List.mem_cons_self ..)))
    have lane_x : ∀ m, x.lane m = if m = n then recordedLane j r (w.lane n) else w.lane m := fun m => by
      rw [eq]
      exact (lane_setLane ..)
    have slot_x : ∀ k, x.slot k = if k = i then some (recordedJob j r n (w.lane n)) else w.slot k := fun k => by
      rw [eq, slot_setSlot]
      rfl
    obtain ⟨v, j', ev, ended, frame, slot_v, others, lane_v⟩ := ih (w := x) (j := recordedJob j r n (w.lane n)) once
      ((slot_x i).trans (if_pos rfl)) (fun m hm => by
        rw [lane_x, if_neg (other m hm)]
        exact bound m (List.mem_cons_of_mem _ hm)) (fun m hm => (hasLane_dropLane_iff ..).mpr
        ⟨live m (List.mem_cons_of_mem _ hm), other m hm⟩)
    have at_ns : ∀ {α : Type} (a b c : α) (m : LaneId) (q : m ∈ ns → a = b) (q' : m = n → c = b) (d : α) (q'' : m ≠ n → c = d),
        (if m ∈ ns then a else c) = if m ∈ n :: ns then b else d := fun a b c m q q' d q'' => by
      by_cases h : m ∈ ns
      · rw [if_pos h, if_pos (List.mem_cons_of_mem _ h), q h]
      by_cases h' : m = n
      · rw [if_neg h, if_pos (by simp [h']), q' h']
      · rw [if_neg h, if_neg (by simp [h, h']), q'' h']
    have live_j : ∀ m, hasLane j'.live m = true ↔ hasLane (dropLane j.live n) m = true ∧ m ∉ ns := ended.live
    refine ⟨v, j', ev.trans (by rw [hx]; rfl), ⟨ended.same, fun m => ?_, ?_, fun m => ?_, fun m => ?_, fun m => ?_⟩,
      ?_, slot_v, fun k hk => (others k hk).trans ((slot_x k).trans (if_neg hk)), fun m => ?_⟩
    · rw [live_j, hasLane_dropLane_iff, List.mem_cons, not_or, and_assoc]
    · rw [ended.state]
      by_cases zero : j'.live = 0
      · refine Eq.trans ?_ (if_pos ⟨List.cons_ne_nil n ns, zero⟩).symm
        rcases ns with _ | ⟨m, ms⟩
        · have e : dropLane j.live n = j'.live := mask_ext fun m => Bool.eq_iff_iff.mpr (by simpa using (live_j m).symm)
          exact (if_neg (by simp)).trans (if_pos (e.trans zero))
        · exact if_pos ⟨List.cons_ne_nil _ _, zero⟩
      · rw [if_neg fun h => zero h.2, if_neg fun h => zero h.2]
        exact if_neg fun gone => zero (live_zero_iff.mpr fun m hm => live_zero_iff.mp gone m ((live_j m).mp hm).1)
    · rw [ended.results]
      exact at_ns _ _ _ m (fun _ => rfl) (fun h => by rw [h]; exact (vset_get ..).trans (if_pos rfl)) _
        fun h => (vset_get ..).trans (if_neg h)
    · rw [ended.lastSteps]
      exact at_ns _ _ _ m (fun h => by rw [lane_x, if_neg (other m h)]) (fun h => by rw [h]; exact (vset_get ..).trans (if_pos rfl)) _
        fun h => (vset_get ..).trans (if_neg h)
    · rw [ended.copies]
      exact at_ns _ _ _ m (fun h => by rw [lane_x, if_neg (other m h)]; rfl)
        (fun h => by rw [h]; exact (vset_get ..).trans (if_pos rfl)) _ fun h => (vset_get ..).trans (if_neg h)
    · rw [frame, eq]
      rfl
    · rw [lane_v]
      exact at_ns _ _ _ m (fun h => by rw [lane_x, if_neg (other m h)]; rfl) (fun h => by rw [lane_x, if_pos h, h]) _
        fun h => by rw [lane_x, if_neg h]

/-! ## A lane leaves its job (R13, R14) -/

/-- Lane `n` has left its job. -/
def letGo (w : Work) (n : LaneId) : Work := (w.modLane n Lane.release).setOwner n none

theorem lane_letGo (m : LaneId) : (letGo w n).lane m = if m = n then (w.lane n).release else w.lane m := by
  unfold letGo
  exact lane_modLane ..

theorem owner_letGo (m : LaneId) : (letGo w n).ownerOf m = if m = n then none else w.ownerOf m := ownerOf_setOwner ..

theorem leave_eq (bound : (w.lane n).ctx.slot = some i) (env : Env) : w.leave env n = (letGo w n).settleJob env i := by
  unfold Work.leave
  rw [bound]
  rfl

/-- With a live lane left, the job stays as it is. -/
theorem leave_live (bound : (w.lane n).ctx.slot = some i) (slot : w.slot i = some j) (live : j.live ≠ 0) (env : Env) :
    w.leave env n = letGo w n := by
  rw [leave_eq bound]
  unfold Work.settleJob
  rw [show (letGo w n).slot i = some j from slot]
  exact if_pos live

theorem setSlot_self (slot : w.slot i = some j) : w.setSlot i (some j) = w := by
  unfold Work.setSlot
  rw [← slot, Work.slot, vset_self]

/-- While another lane is held, an ENDING job stays so. -/
theorem leave_held (bound : (w.lane n).ctx.slot = some i) (slot : w.slot i = some j) (live : j.live = 0) (state : j.state = .ending)
    (held : ∃ m, m ≠ n ∧ w.ownerOf m = some i) (env : Env) : w.leave env n = letGo w n := by
  obtain ⟨m, hm, owner⟩ := held
  have slot' : (letGo w n).slot i = some j := slot
  have any : (letGo w n).anyHeld i = true := List.any_eq_true.mpr ⟨m, mem_allLanes m, by simp [owner_letGo, hm, owner]⟩
  rw [leave_eq bound]
  unfold Work.settleJob
  rw [slot']
  dsimp only
  rw [if_neg (not_not.mpr live), if_pos any, ← state]
  exact setSlot_self slot'

/-- The job completes with its last lane. -/
theorem leave_last (bound : (w.lane n).ctx.slot = some i) (slot : w.slot i = some j) (live : j.live = 0)
    (last : ∀ m, m ≠ n → w.ownerOf m ≠ some i) (env : Env) : w.leave env n = (letGo w n).completeAs env i 2 := by
  have none_ : ¬ (letGo w n).anyHeld i = true := fun h => by
    obtain ⟨m, -, hm⟩ := List.any_eq_true.mp h
    rw [owner_letGo] at hm
    by_cases e : m = n
    · simp [e] at hm
    · exact last m e (by simpa [e] using hm)
  rw [leave_eq bound]
  unfold Work.settleJob
  rw [show (letGo w n).slot i = some j from slot]
  dsimp only
  rw [if_neg (not_not.mpr live), if_neg none_]
  rfl

/-- The lanes of an ENDING job all leave it, and it completes with the last; `T` is what the work of each leaves standing. -/
theorem leave_together {f : Work → LaneId → Work} {T : Work → Prop} (loc : ∀ v n, Local n v (f v n))
    (goes : ∀ v, ∀ n ∈ ns, Beside n w v → T v → ∃ u, SameJobs v u ∧ T (letGo u n) ∧ f v n = u.leave env n) (once : ns.Nodup) (some_ : ns ≠ []) (slot : w.slot i = some j) (live : j.live = 0)
    (state : j.state = .ending) (bound : ∀ n ∈ ns, (w.lane n).ctx.slot = some i)
    (owners : ∀ n, w.ownerOf n = some i ↔ n ∈ ns) (start : T w) :
    ∃ v steps, T v ∧ w.forLanes ns f = v.completeAs env i 2 ∧ v.slot i = some { j with lastSteps := steps } ∧ v.queue = w.queue
      ∧ ∀ m, v.ownerOf m = if m ∈ ns then none else w.ownerOf m := by
  induction ns generalizing w j with
  | nil => exact absurd rfl some_
  | cons n ns ih =>
    obtain ⟨first, once⟩ := List.nodup_cons.mp once
    have other : ∀ m ∈ ns, m ≠ n := fun m hm => by
      rintro rfl
      exact first hm
    obtain ⟨u, same, Tu, eq⟩ := goes w n (List.mem_cons_self ..) .refl start
    obtain ⟨steps, slot_u⟩ := same.slot slot
    have bound_u : (u.lane n).ctx.slot = some i := (same.lane n).trans (bound n (List.mem_cons_self ..))
    rcases ns with _ | ⟨m, ms⟩
    · refine ⟨letGo u n, steps, Tu, ?_, slot_u, same.queue, fun m => ?_⟩
      · show f w n = _
        rw [eq]
        refine leave_last bound_u slot_u live (fun m hm => ?_) env
        rw [same.ownerOf, ne_eq, owners]
        simpa using hm
      · rw [owner_letGo, same.ownerOf]
        simp
    · have goes_on : f w n = letGo u n := eq.trans (leave_held bound_u slot_u live state
        ⟨m, other m (List.mem_cons_self ..), by rw [same.ownerOf, owners]; simp⟩ env)
      obtain ⟨v, steps', Tv, eq_v, slot_v, queue, owner⟩ := ih (w := f w n) (j := { j with lastSteps := steps })
        (fun v k hk beside => goes v k (List.mem_cons_of_mem _ hk) ((Beside.of_local (loc w n) (other k hk)).trans beside))
        once (List.cons_ne_nil _ _) (by rw [goes_on]; exact slot_u) live state (fun k hk => by
          rw [goes_on, lane_letGo, if_neg (other k hk), same.lane]
          exact bound k (List.mem_cons_of_mem _ hk)) (fun k => by
          rw [goes_on, owner_letGo]
          by_cases hk : k = n
          · rw [if_pos hk, hk]
            exact ⟨nofun, fun h => absurd h first⟩
          · rw [if_neg hk, same.ownerOf, owners, List.mem_cons, or_iff_right hk]) (by rw [goes_on]; exact Tu)
      refine ⟨v, steps', Tv, eq_v, slot_v, queue.trans (by rw [goes_on]; exact same.queue), fun k => ?_⟩
      rw [owner, goes_on, owner_letGo, same.ownerOf]
      by_cases hk : k = n
      · simp [hk]
      · simp [hk]

/-- The live lanes of a job all end with one result and leave it, and the job completes. -/
theorem end_together {T : Work → Prop} (once : ns.Nodup) (some_ : ns ≠ []) (slot : w.slot i = some j)
    (bound : ∀ n ∈ ns, (w.lane n).ctx.slot = some i) (live : ∀ n, hasLane j.live n = true ↔ n ∈ ns)
    (owners : ∀ n, w.ownerOf n = some i ↔ n ∈ ns)
    (start : ∀ v, v = { w with slots := v.slots, lanes := v.lanes } → (∀ k, k ≠ i → v.slot k = w.slot k) →
      (∀ n, v.lane n = if n ∈ ns then recordedLane j r (w.lane n) else w.lane n) → T v)
    (goes : ∀ (v : Work) (jv : JobSlot), ∀ n ∈ ns, (∃ cur st pos, v.lane n = { recordedLane j r (w.lane n) with
        ctx := { (recordedLane j r (w.lane n)).ctx with cursor := cur, step := st, stepPos := pos } }) →
      v.jobOf n = some jv → jv.args = j.args → jv.ctx = j.ctx → T v →
      ∃ u, SameJobs v u ∧ T (letGo u n) ∧ v.settle env n r = u.leave env n) :
    ∃ v jr steps, Ended w r ns j jr ∧ jr.live = 0 ∧ T v ∧ w.finalizeAll env ns r = v.completeAs env i 2
      ∧ v.slot i = some { jr with lastSteps := steps } ∧ v.queue = w.queue ∧ ∀ m, v.ownerOf m = if m ∈ ns then none else w.ownerOf m := by
  obtain ⟨y, jr, eq, ended, frame, slot_y, others, lane_y⟩ := records_spec (r := r) once slot bound fun n hn => (live n).mpr hn
  have all : ns.filter w.isLive = ns := List.filter_eq_self.mpr fun n hn =>
    isLive_iff.mpr ⟨i, j, bound n hn, slot, (live n).mpr hn⟩
  have zero : jr.live = 0 := live_zero_iff.mpr fun n hn => by
    obtain ⟨a, b⟩ := (ended.live n).mp hn
    exact b ((live n).mp a)
  obtain ⟨v, steps, Tv, eq_v, slot_v, queue, owner⟩ := leave_together (w := y) (f := fun w n => w.settle env n r) (T := T) (env := env)
    (fun v n => Local.settle v env n r) (fun v n hn beside => by
      have bound_y : (y.lane n).ctx.slot = some i := by rw [lane_y, if_pos hn]; exact bound n hn
      obtain ⟨jv, slot_v, stays⟩ := beside.job i jr bound_y slot_y (.inr (by rw [frame]; exact (owners n).mpr hn))
      obtain ⟨-, -, -, -, args, -, ctx⟩ := stays.same
      refine goes v jv n hn ?_ (jobOf_slot (beside.slot.trans bound_y) slot_v) (args.trans (by rw [ended.same]))
        (ctx.trans (by rw [ended.same]))
      rw [← if_pos (c := n ∈ ns) (t := recordedLane j r (w.lane n)) (e := w.lane n) hn, ← lane_y]
      exact beside.lane) once some_ slot_y zero
    (ended.state.trans (if_pos ⟨some_, zero⟩)) (fun n hn => by rw [lane_y, if_pos hn]; exact bound n hn)
    (fun n => by rw [frame]; exact owners n) (start y frame others lane_y)
  refine ⟨v, jr, steps, ended, zero, Tv, ?_, slot_v, queue.trans (by rw [frame]), fun m => (owner m).trans (by rw [frame]; rfl)⟩
  rw [← eq_v, eq]
  unfold Work.finalizeAll
  dsimp only
  rw [all]

end Sys2Proof.Proofs
end

section
/-! The end of a cancelled job, and the CANCEL of a LANE-ACTION job: O43. -/

namespace Sys2Proof.Proofs

-- One theorem at a time: a thread for each would ask for more stack than the check allows.
set_option Elab.async false

open Sys2Proof.Machine Sys2Proof.Laws

variable {s t u : State} {v w w' x : Work} {env : Env} {n m : LaneId} {i : SlotId} {j : JobSlot} {c : CtxId} {r : LaneResult}
  {l : Lane} {ns : List LaneId} {e : EndAction} {a : ActionCode} {k : CancelLink}

/-! ## A cancelled lane without a CLOSE to send -/

/-- Where the end action of a cancelled lane leaves it (Table 2-5). -/
def cancelledTo : EndAction → Lane → Lane
  | .off => Lane.toOff
  | .keep | .hold | .run => Lane.toHold

theorem body_cancelledTo {l l' : Lane} (h : body l = body l') (e : EndAction) :
    body (cancelledTo e l) = body (cancelledTo e l') := by
  cases e
  case off => exact body_toOff h
  all_goals exact body_toHold h

theorem finishEnd_cancelled (on : (w.lane n).ctx.state ≠ .off) (env : Env) (e : EndAction) :
    w.finishEnd env n e.afterFailure = (w.modLane n (cancelledTo e)).leave env n := by
  obtain ⟨hold, off, -⟩ := finishEnd_on on env
  cases e
  case off => exact off
  all_goals exact hold

theorem cancelledTo_slot (e : EndAction) (l : Lane) : (cancelledTo e l).ctx.slot = l.ctx.slot := by
  cases e <;> rfl

theorem cancelledTo_toHold (e : EndAction) (l : Lane) : cancelledTo e l.toHold = cancelledTo e l := by
  cases e <;> rfl

/-- A lane where its end action leaves it after a CANCEL. -/
theorem cancelled_rests {l' : Lane} (h : body l' = body (cancelledTo e l)) : l'.lines.trstLow = true ∧ l'.lines.tselLow = false
    ∧ (e = .off → l'.ctx.state = .off ∧ l'.lines.tpwrOn = false) ∧ (e ≠ .off → l'.ctx.state = .hold ∧ l'.supply = l.supply) := by
  have lines : l'.lines = (cancelledTo e l).lines := congrArg (·.lines) h
  have state : l'.ctx.state = (cancelledTo e l).ctx.state := congrArg (·.ctx.state) h
  have supply : l'.supply = (cancelledTo e l).supply := congrArg (·.supply) h
  rw [lines, state, supply]
  cases e
  case off => exact ⟨rfl, rfl, fun _ => ⟨rfl, rfl⟩, fun h => absurd rfl h⟩
  all_goals exact ⟨rfl, rfl, nofun, fun _ => ⟨rfl, rfl⟩⟩

/-- The settling of a cancelled lane that has no CLOSE to send. -/
theorem settle_cancelled (job : v.jobOf n = some j) (action : j.args.endAction? = some e)
    (state : (v.lane n).ctx.state ∈ [.hold, .entry, .linking, .ready])
    (closed : (v.lane n).ctx.session = false ∨ (v.lane n).ctx.answered = false) (env : Env) :
    ∃ u, SameJobs v u ∧ v.settle env n .cancelled = u.leave env n ∧ body (u.lane n) = body (cancelledTo e (v.lane n))
      ∧ ∀ m, m ≠ n → body (u.lane m) = body (v.lane m) := by
  obtain ⟨x, hx⟩ : ∃ x, x = unbound v n j := ⟨_, rfl⟩
  have same : SameJobs v x := hx ▸ sameJobs_unbound v n j
  have stepped : ∀ m, ∃ cur st pos, x.lane m = { v.lane m with ctx := { (v.lane m).ctx with cursor := cur, step := st, stepPos := pos } } :=
    fun m => hx ▸ lane_unbound v n j m
  have settled : v.settle env n .cancelled = x.startEnd env n e.afterFailure := by
    rw [settle_eq job, ← hx]
    unfold destination
    dsimp only
    rw [action]
  have bodies : ∀ m, body (x.lane m) = body (v.lane m) := fun m => by
    obtain ⟨cur, st, pos, h⟩ := stepped m
    rw [h]
    rfl
  obtain ⟨cur, st, pos, lane_x⟩ := stepped n
  rw [settled]
  by_cases entry : (x.lane n).ctx.state = .entry
  · refine ⟨(x.modLane n Lane.toHold).modLane n (cancelledTo e), (same.trans (sameJobs_modLane rfl)).trans
      (sameJobs_modLane (cancelledTo_slot e _)), ?_, ?_, fun m hm => ?_⟩
    · rw [startEnd_entry entry, finishEnd_cancelled]
      rw [lane_modLane, if_pos rfl]
      nofun
    · rw [lane_modLane, if_pos rfl, lane_modLane, if_pos rfl, cancelledTo_toHold]
      exact body_cancelledTo (bodies n) e
    · rw [lane_modLane, if_neg hm, lane_modLane, if_neg hm]
      exact bodies m
  · refine ⟨x.modLane n (cancelledTo e), same.trans (sameJobs_modLane (cancelledTo_slot e _)), ?_, ?_, fun m hm => ?_⟩
    · rw [startEnd_finish entry (by rw [lane_x]; exact closed), finishEnd_cancelled]
      intro off
      rw [lane_x] at off
      simp [show (v.lane n).ctx.state = .off from off] at state
    · rw [lane_modLane, if_pos rfl]
      exact body_cancelledTo (bodies n) e
    · rw [lane_modLane, if_neg hm]
      exact bodies m

/-- The live lanes of a job that a CANCEL reaches all stop, and none has a CLOSE to send: the job completes. -/
theorem cancelled_completes (once : ns.Nodup) (some_ : ns ≠ []) (slot : w.slot i = some j) (action : j.args.endAction? = some e)
    (bound : ∀ n ∈ ns, (w.lane n).ctx.slot = some i) (live : ∀ n, hasLane j.live n = true ↔ n ∈ ns)
    (owners : ∀ n, w.ownerOf n = some i ↔ n ∈ ns)
    (lanes : ∀ n ∈ ns, (w.lane n).ctx.state ∈ [.hold, .entry, .linking, .ready]
      ∧ ((w.lane n).ctx.session = false ∨ (w.lane n).ctx.answered = false)) (env : Env) :
    ∃ (v : Work) (jr : JobSlot) (steps : Vector Step 8), Ended w .cancelled ns j jr ∧ w.finalizeAll env ns .cancelled = v.completeAs env i 2
      ∧ v.slot i = some { jr with lastSteps := steps } ∧ v.queue = w.queue
      ∧ ∀ n ∈ ns, v.ownerOf n = none ∧ (v.lane n).ctx.slot = none ∧ body (v.lane n) = body (cancelledTo e (w.lane n)) := by
  obtain ⟨v, jr, steps, ended, -, gone, eq, slot_v, queue, owner⟩ := end_together (r := .cancelled) (env := env)
    (T := fun v => ∀ n ∈ ns, (v.ownerOf n = none → (v.lane n).ctx.slot = none ∧ body (v.lane n) = body (cancelledTo e (w.lane n))))
    once some_ slot bound live owners
    (fun v frame _ _ n hn free => by
      rw [frame] at free
      exact nomatch ((owners n).mpr hn).symm.trans free)
    (fun v jv n hn ⟨cur, st, pos, lane_v⟩ job args _ gone => by
      obtain ⟨state, closed⟩ := lanes n hn
      obtain ⟨u, same, eq, here, others⟩ := settle_cancelled (e := e) job (args ▸ action) (by rw [lane_v]; exact state)
        (by rw [lane_v]; exact closed) env
      refine ⟨u, same, fun m hm free => ?_, eq⟩
      rw [lane_letGo]
      by_cases at_n : m = n
      · rw [if_pos at_n, at_n, body_release, here, lane_v]
        exact ⟨rfl, body_cancelledTo (by rfl) e⟩
      · rw [owner_letGo, if_neg at_n, same.ownerOf] at free
        rw [if_neg at_n, same.lane, others m at_n]
        exact gone m hm free)
  exact ⟨v, jr, steps, ended, eq, slot_v, queue, fun n hn =>
    have free := (owner n).trans (if_pos hn)
    ⟨free, gone n hn free⟩⟩

theorem stopLanes_all (h : ∀ n ∈ ns, (w.lane n).stopsNow = true) (cause : StopCause) (r : LaneResult) :
    w.stopLanes env ns cause r = w.finalizeAll env ns r := by
  unfold Work.stopLanes
  dsimp only
  rw [List.filter_eq_self.mpr h, List.filter_eq_nil_iff.mpr fun n hn => by simp [h n hn]]
  rfl

theorem mem_report {head : Nat} {o : OutcomeCopy} (mask : hasLane j.mask n = true) (result : j.results.get n = some r)
    (copy : j.copies.get n = some o) : ∃ x ∈ (j.entry head).lanes, x.lane = n ∧ x.result = r ∧ x.copy = some o :=
  ⟨j.report n, List.mem_map_of_mem (mem_lanesIn.mpr mask), rfl, by simp [JobSlot.report, result], copy⟩

/-! ## A LANE-ACTION lane that a CANCEL reaches (Table 7-5) -/

theorem cancelRunning_action (slot : w.slot i = some j) (args : j.args = .laneAction a) :
    w.cancelRunning env i k = (w.setSlot i (some { j with cancelLink := some k })).forLanes
      ((lanesIn j.live).filter (w.setSlot i (some { j with cancelLink := some k })).isLive) (fun w n => w.cancelAction env n a) := by
  unfold Work.cancelRunning
  rw [slot]
  dsimp only
  rw [args]

/-- A cancel waits for the end of a power-up. -/
theorem cancelAction_powering (idle : (w.lane n).link.state = .idle) (powering : (w.lane n).ctx.state ∈ [.powering, .settling])
    (env : Env) (a : ActionCode) : w.cancelAction env n a = w.modLane n (Lane.markStop .cancel) := by
  unfold Work.cancelAction
  dsimp only
  rw [if_neg (by simp [Lane.linkIdle, idle])]
  simp only [List.mem_cons, List.not_mem_nil, or_false] at powering
  rcases powering with h | h <;> rw [h]

/-- A cancel ends the reset pulse. -/
theorem cancelAction_hold (idle : (w.lane n).link.state = .idle) (hold : (w.lane n).ctx.state = .hold) (env : Env) (a : ActionCode) :
    w.cancelAction env n a = (w.modLane n Lane.toHold).finalize env n .cancelled none := by
  unfold Work.cancelAction
  dsimp only
  rw [if_neg (by simp [Lane.linkIdle, idle]), hold]

/-- A power-up that was cancelled stops in HOLD, where the actions POWER_ON and HOLD are done. -/
theorem settleEnd_cancelled (acts : env.acting = true) (live : w.isLive n = true) (action : w.actionOf n = some a)
    (stop : (w.lane n).eng.stop = some .cancel) : body ((w.settleEnd env n).lane n) = body (w.lane n).settled
      ∧ (w.settleEnd env n).ownerOf n = none ∧ (w.settleEnd env n).isLive n = false
      ∧ w.ResultTaken (w.settleEnd env n) n (if a = .run then .cancelled else .done) := by
  obtain ⟨x, hx⟩ : ∃ x, x = w.modLane n Lane.settled := ⟨_, rfl⟩
  have same : SameJobs w x := hx ▸ sameJobs_modLane rfl
  have lane_x : x.lane n = (w.lane n).settled := by rw [hx, lane_settled]
  have live_x : x.isLive n = true := (same.isLive n).trans live
  have action_x : x.actionOf n = some a := (same.actionOf n).trans action
  have goes : w.settleEnd env n = x.actionAtHold env n a := by
    unfold Work.settleEnd Work.atHold
    rw [← hx, if_pos ⟨acts, live_x⟩, action_x]
  rw [goes, ← lane_x]
  by_cases is_run : a = .run
  · subst is_run
    have stops : (x.lane n).eng.stop = some .cancel := by rw [lane_x]; exact stop
    have ends : x.actionAtHold env n .run = x.finalize env n .cancelled none := if_pos (by rw [stops]; rfl)
    have left := finalize_action (r := .cancelled) live_x action_x (by simp) env none
    rw [ends]
    exact ⟨left.body, left.owner, finalize_notLive .., taken_via same env .cancelled none⟩
  · have ends : x.actionAtHold env n a = x.actionDone env n id := by
      cases a
      case run => exact absurd rfl is_run
      all_goals rfl
    obtain ⟨lane, -, owner⟩ := actionDone_left (f := id) live_x action_x (fun _ => rfl) (fun _ _ h => h) env
    rw [ends, if_neg is_run]
    exact ⟨lane, owner, finalize_notLive .., taken_via (same.trans (sameJobs_action x n (f := id) fun _ => rfl)) env .done none⟩

/-- Settles O43. -/
theorem cancelledJobsComplete : Obligations.CancelledJobsComplete := by
  refine ⟨fun s g rec i adm j aw running geom held kind found slot fresh state lanes => ⟨?_, ?_⟩, ?_⟩
  · intro e action some_ owners rest
    obtain ⟨env, t, part, head, -, run, work⟩ := cancel_taken aw running held kind found slot fresh state geom
    obtain ⟨k, hk⟩ : ∃ k, k = CancelLink.mk (wordAt rec 0) s.intake.counter := ⟨_, rfl⟩
    obtain ⟨w, hw⟩ : ∃ w, w = Work.setSlot { s.work with reserved := s.work.reserved + 1 } i (some { j with cancelLink := some k }) :=
      ⟨_, rfl⟩
    have slot_w : w.slot i = some { j with cancelLink := some k } := by rw [hw, slot_setSlot, if_pos rfl]
    have lane_w : ∀ n, w.lane n = s.work.lane n := fun n => by rw [hw]; rfl
    have owner_w : ∀ n, w.ownerOf n = s.work.ownerOf n := fun n => by rw [hw]; rfl
    have bound_w : ∀ n, hasLane j.live n = true → (w.lane n).ctx.slot = some i := fun n hn => by rw [lane_w]; exact (lanes n hn).2
    have all : (lanesIn j.live).filter w.isLive = lanesIn j.live := List.filter_eq_self.mpr fun n hn =>
      isLive_iff.mpr ⟨i, _, bound_w n (mem_lanesIn.mp hn), slot_w, mem_lanesIn.mp hn⟩
    have stops : ∀ n ∈ lanesIn j.live, (w.lane n).stopsNow = true := fun n hn => by
      obtain ⟨idle, free, state, -⟩ := rest n (mem_lanesIn.mp hn)
      rw [lane_w, Lane.stopsNow, Lane.atBoundary, Lane.linkIdle]
      simp only [List.mem_cons, List.not_mem_nil, or_false] at state
      rcases state with h | h | h | h <;> simp [idle, free, h]
    rw [cancelRunning_session (w := { s.work with reserved := s.work.reserved + 1 }) slot (by rw [action]; rfl), ← hk, ← hw, all,
      stopLanes_all stops] at work
    obtain ⟨v, jr, steps, ended, eq, slot_v, queue_v, gone⟩ := cancelled_completes (w := w) (lanesIn_nodup _) (fun h => some_
      (live_zero_iff.mpr fun n hn => by rw [← mem_lanesIn, h] at hn; exact nomatch hn)) slot_w action
      (fun n hn => bound_w n (mem_lanesIn.mp hn)) (fun n => mem_lanesIn.symm)
      (fun n => (by rw [owner_w]; exact (owners n).trans mem_lanesIn.symm)) (fun n hn => by
        rw [lane_w]
        obtain ⟨-, -, state, closed⟩ := rest n (mem_lanesIn.mp hn)
        exact ⟨by revert state; simp only [List.mem_cons]; tauto, closed⟩) env
    rw [eq] at work
    obtain ⟨jl, hjl⟩ : ∃ jl, jl = { jr with lastSteps := steps } := ⟨_, rfl⟩
    rw [← hjl] at slot_v
    have same : jl = { j with cancelLink := some k, state := jl.state, results := jl.results, lastSteps := jl.lastSteps
                              copies := jl.copies, live := jl.live } := by
      rw [hjl, ended.same]
    have status : jl.status = .cancelled := by
      rw [JobSlot.status, same]
      rfl
    refine ⟨t, jl.entry env.jobHead, cancelEntry k.tag k.adm jl.tag .cancelDone 2 env.jobHead, run, ?_, ?_, ?_, status, ?_, ?_,
      fun n hn => ⟨?_, ?_⟩, ?_, rfl, ?_, rfl, rfl, rfl, ?_, ?_, fun c ctx => ?_, fun n hn => ?_⟩
    · rw [work, completeAs_queue v env i 2 jl slot_v, queue_v, show jl.cancelLink = some k from by rw [same], hw]
      rfl
    · show jl.tag = j.tag
      rw [same]
    · show jl.adm = j.adm
      rw [same]
    · show jl.detail = 0
      rw [JobSlot.detail, status]
    · show jl.mask = j.mask
      rw [same]
    · refine mem_failed.mpr ⟨by rw [same]; exact (lanes n hn).1, .cancelled, ?_, nofun, nofun⟩
      rw [hjl]
      exact (ended.results n).trans (if_pos (mem_lanesIn.mpr hn))
    · obtain ⟨y, mem, lane, result, copy⟩ := mem_report (j := jl) (n := n) (head := env.jobHead) (by rw [same]; exact (lanes n hn).1)
        (by rw [hjl]; exact (ended.results n).trans (if_pos (mem_lanesIn.mpr hn)))
        (by rw [hjl]; exact (ended.copies n).trans (if_pos (mem_lanesIn.mpr hn)))
      refine ⟨y, mem, lane, result, _, copy, ?_⟩
      exact faultAddr_cancelled (j := { j with cancelLink := some k }) (by rw [action]; rfl) (w.lane n)
    · rw [hk]
      rfl
    · rw [hk]
      rfl
    · show jl.tag = j.tag
      rw [same]
    · rw [work, completeAs_slot, if_pos rfl]
    · rw [work, completeAs_ctx v env i 2 c slot_v, if_pos (by rw [same]; exact ctx)]
    · obtain ⟨free, left, lane⟩ := gone n (mem_lanesIn.mpr hn)
      obtain ⟨-, -, state, -⟩ := rest n hn
      rw [lane_w] at lane
      rw [work, completeAs_owner, completeAs_lane]
      exact ⟨free, left, cancelled_rests lane⟩
  · intro a args noCtx
    obtain ⟨env, t, part, -, -, run, work⟩ := cancel_taken aw running held kind found slot fresh state geom
    refine ⟨t, run, ?_⟩
    obtain ⟨k, hk⟩ : ∃ k, k = CancelLink.mk (wordAt rec 0) s.intake.counter := ⟨_, rfl⟩
    obtain ⟨w, hw⟩ : ∃ w, w = Work.setSlot { s.work with reserved := s.work.reserved + 1 } i (some { j with cancelLink := some k }) :=
      ⟨_, rfl⟩
    have slot_w : w.slot i = some { j with cancelLink := some k } := by rw [hw, slot_setSlot, if_pos rfl]
    have lane_w : ∀ n, w.lane n = s.work.lane n := fun n => by rw [hw]; rfl
    have bound_w : ∀ n, hasLane j.live n = true → (w.lane n).ctx.slot = some i := fun n hn => by rw [lane_w]; exact (lanes n hn).2
    obtain ⟨ns, hns⟩ : ∃ ns, ns = (lanesIn j.live).filter w.isLive := ⟨_, rfl⟩
    have live_ns : ∀ n ∈ ns, hasLane j.live n = true := fun n hn => by
      rw [hns] at hn
      exact mem_lanesIn.mp (List.mem_of_mem_filter hn)
    rw [cancelRunning_action (w := { s.work with reserved := s.work.reserved + 1 }) slot args, ← hk, ← hw, ← hns] at work
    rw [work, ← hk]
    refine ⟨slot_of_reach (P := fun j => j.cancelLink = some k) ?_ (reach_forLanes (fun w n => reach_cancelAction w env n a) ns w) ?_, ?_⟩
    · rintro j j' ⟨-, -, -, -, -, link, -⟩ h
      exact link.trans h
    · intro j' h
      cases slot_w.symm.trans h
      rfl
    rintro n l live rfl un
    have mem : n ∈ ns := by
      rw [hns]
      exact List.mem_filter.mpr ⟨mem_lanesIn.mpr live, isLive_iff.mpr ⟨i, _, bound_w n live, slot_w, live⟩⟩
    obtain ⟨u, before, -, after, reach, exact_⟩ := forLanes_at (f := fun w n => w.cancelAction env n a)
      (fun w n => Local.cancelAction w env n a) (fun w n => reach_cancelAction w env n a)
      (by rw [hns]; exact (lanesIn_nodup _).filter _) mem w
    obtain ⟨-, lane_u, lane_t⟩ := exact_ i (fun m hm => bound_w m (live_ns m hm)) (fun j' h => by
      cases slot_w.symm.trans h
      exact fun c h => nomatch noCtx.symm.trans h)
    rw [lane_w] at lane_u
    have live_u : u.isLive n = true := before.isLive (isLive_iff.mpr ⟨i, _, bound_w n live, slot_w, live⟩)
    refine ⟨fun idle powering => ?_, fun ends idle hold pulse => ?_, fun runs => ?_⟩
    · rw [cancelAction_powering (by rw [lane_u]; exact idle) (by rw [lane_u]; exact powering)] at after lane_t
      refine ⟨after.isLive (((sameJobs_modLane (move_markStop _ _).2.2.1).isLive n).trans live_u), lane_t.trans ?_⟩
      rw [lane_modLane, if_pos rfl, lane_u, markStop_unstopped un]
    · rw [cancelAction_hold (by rw [lane_u]; exact idle) (by rw [lane_u]; exact hold)] at lane_t reach
      obtain ⟨ju, slot_u, stays⟩ := before.job i _ (bound_w n live) slot_w (.inl live)
      obtain ⟨tag, mask', adm', -, args', -⟩ := stays.same
      have bound_u : (u.lane n).ctx.slot = some i := before.slot.trans (bound_w n live)
      have same : SameJobs u (u.modLane n Lane.toHold) := sameJobs_modLane rfl
      have action : (u.modLane n Lane.toHold).actionOf n = some a := by
        rw [same.actionOf n, actionOf_eq, jobOf_slot bound_u slot_u]
        exact congrArg some (args'.trans args)
      have left_body := (finalize_action (r := .cancelled) ((same.isLive n).trans live_u) action (by simp) env none).body
      have kept := finalize_kept (w := u.modLane n Lane.toHold) ((same.lane n).trans bound_u) slot_u (stays.live live).1
        (mask' ▸ (lanes n live).1) env .cancelled none
      dsimp only at tag adm'
      rw [tag, adm'] at kept
      rw [← lane_t, lane_modLane, if_pos rfl, lane_u] at left_body
      refine ⟨notLive_of_reach reach (finalize_notLive ..), taken_of_kept fun i' j' b c _ _ => ?_, ?_⟩
      · cases (lanes n live).2.symm.trans b
        cases slot.symm.trans c
        exact ⟨_, kept_of_reach reach kept⟩
      · exact ⟨congrArg (·.ctx.state) left_body, congrArg (·.lines) left_body, congrArg (·.eng.phase) left_body,
          congrArg (·.supply) left_body⟩
    · obtain ⟨lane_m, same⟩ := markLane_runsOn (w := u) (by rw [lane_u]; exact runs) (by rw [lane_u]; exact un) env
      have busy : (u.lane n).link.state ≠ .idle := by
        rintro h
        rw [lane_u] at h
        rw [Lane.Listens, h] at runs
        simp at runs
      have marks : u.cancelAction env n a = u.markLane env .cancel n := if_pos (by simp [Lane.linkIdle, busy])
      rw [marks] at after lane_t
      exact ⟨after.isLive ((same.isLive n).trans live_u), lane_t.trans (by rw [lane_m, lane_u])⟩
  · rintro s n l a aw rfl part live action settling stop
    obtain ⟨acts, hd⟩ := acting_of_mem part
    obtain ⟨t, run, after, -, -⟩ := laneEvent_yields (n := n) aw hd (fun env w => w.settleEnd env n)
    rw [settleEnd_eq settling]
    refine ⟨t, run, ?_⟩
    obtain ⟨lane, owner, idle, taken⟩ := settleEnd_cancelled acts live action stop
    rw [after.lane, after.isLive, after.owner]
    refine ⟨congrArg (·.ctx.state) lane, idle, congrArg (·.lines) lane, owner, fun h => ?_, fun h => ?_⟩
    · rw [if_pos h] at taken
      exact after.taken taken
    · rw [if_neg h] at taken
      exact after.taken taken

end Sys2Proof.Proofs
end

section
/-! An image job whose descriptor is invalid or cannot be read: O45. -/

namespace Sys2Proof.Proofs

-- One theorem at a time: a thread for each would ask for more stack than the check allows.
set_option Elab.async false

open Sys2Proof.Machine Sys2Proof.Laws

variable {s t u : State} {v w w' x : Work} {env : Env} {n m : LaneId} {i : SlotId} {j : JobSlot} {c : CtxId} {r : LaneResult}
  {l : Lane} {ns : List LaneId} {segs : List Segment}

/-! ## The checks of the segment table (R79) -/

/-- Where the segment before segment `k` ends, `floor` for the first. -/
def floorAt (floor : Nat) (segs : List Segment) : Nat → Nat
  | 0 => floor
  | k + 1 => (segs[k]?).elim floor fun g => g.addr.toNat + g.len.toNat

theorem floorAt_cons (floor : Nat) (g : Segment) (gs : List Segment) (k : Nat) (inside : k < gs.length) :
    floorAt floor (g :: gs) (k + 1) = floorAt (g.addr.toNat + g.len.toNat) gs k := by
  cases k with
  | zero => rfl
  | succ k => simp [floorAt, List.getElem?_eq_getElem (Nat.lt_of_succ_lt inside)]

theorem segmentFails_iff {k : Nat} {g : Segment} (h : segs[k]? = some g) :
    segmentFails segs k ↔ segmentValid (floorAt 0 segs k) g = false := by
  have valid : segmentValid (floorAt 0 segs k) g = false ↔ g.len.toNat = 0 ∨ 16777216 < g.len.toNat
      ∨ 2 ^ 32 < g.addr.toNat + g.len.toNat ∨ 2 ^ 64 < g.host.toNat + g.len.toNat ∨ g.addr.toNat < floorAt 0 segs k := by
    rw [← Bool.not_eq_true, segmentValid]
    simp only [Bool.and_eq_true, decide_eq_true_eq]
    omega
  have floor : g.addr.toNat < floorAt 0 segs k ↔ ∃ before, 0 < k ∧ segs[k - 1]? = some before
      ∧ g.addr.toNat < before.addr.toNat + before.len.toNat := by
    cases k with
    | zero => simp [floorAt]
    | succ k =>
      obtain ⟨before, hb⟩ : ∃ before, segs[k]? = some before :=
        ⟨_, List.getElem?_eq_getElem (Nat.lt_of_succ_lt (List.getElem?_eq_some_iff.mp h).1)⟩
      simp [floorAt, hb]
  rw [valid, floor]
  constructor
  · rintro ⟨g', h', fails⟩
    cases h.symm.trans h'
    exact fails
  · exact fun fails => ⟨g, h, fails⟩

theorem firstBadSegment_none {floor i : Nat} (h : ∀ k g, segs[k]? = some g → segmentValid (floorAt floor segs k) g = true) :
    firstBadSegment floor i segs = none := by
  induction segs generalizing floor i with
  | nil => rfl
  | cons g gs ih =>
    unfold firstBadSegment
    rw [if_pos (show segmentValid floor g = true from h 0 g rfl)]
    refine ih fun k g' hk => ?_
    rw [← floorAt_cons floor g gs k (List.getElem?_eq_some_iff.mp hk).1]
    exact h (k + 1) g' hk

theorem firstBadSegment_some {floor i k : Nat} {g : Segment} (at_k : segs[k]? = some g)
    (bad : segmentValid (floorAt floor segs k) g = false)
    (before : ∀ m, m < k → ∀ g, segs[m]? = some g → segmentValid (floorAt floor segs m) g = true) :
    firstBadSegment floor i segs = some (i + k) := by
  induction segs generalizing floor i k with
  | nil => exact nomatch at_k
  | cons first gs ih =>
    unfold firstBadSegment
    cases k with
    | zero =>
      cases at_k
      exact if_neg (by rw [show segmentValid floor g = false from bad]; exact Bool.false_ne_true)
    | succ k =>
      replace at_k : gs[k]? = some g := at_k
      have shift := fun m (hm : m < gs.length) => floorAt_cons floor first gs m hm
      rw [if_pos (show segmentValid floor first = true from before 0 (Nat.succ_pos k) first rfl), ih (k := k) at_k
        (by rw [← shift k (List.getElem?_eq_some_iff.mp at_k).1]; exact bad) fun m lt g' hm => by
          rw [← shift m (List.getElem?_eq_some_iff.mp hm).1]
          exact before (m + 1) (Nat.succ_lt_succ lt) g' hm]
      exact congrArg some (Nat.succ_add_eq_add_succ i k)

theorem firstBadSegment_good (h : ∀ k, ¬ segmentFails segs k) : firstBadSegment 0 0 segs = none :=
  firstBadSegment_none fun k g hk => by
    rw [← Bool.not_eq_false, ← segmentFails_iff hk]
    exact h k

theorem firstBadSegment_fails {k : Nat} (fails : segmentFails segs k) (first : ∀ m, m < k → ¬ segmentFails segs m) :
    firstBadSegment 0 0 segs = some k := by
  obtain ⟨g, hk, -⟩ := id fails
  rw [firstBadSegment_some hk ((segmentFails_iff hk).mp fails) fun m lt g hm => by
    rw [← Bool.not_eq_false, ← segmentFails_iff hm]
    exact first m lt, Nat.zero_add]

/-! ## The ends of the descriptor's reads (R78) -/

section
variable {ptr : HostAddr} {re : ReadEnd} (acts : s.env.acting = true)
include acts

theorem exec_headerEnd (port : s.port = some (.image c (.desc .header ptr))) (descriptor : (s.work.ctx c).state = .descriptor)
    (busy : (s.work.ctx c).descBusy = some .header) (fits : ReadEnd.fits 16 re = true) :
    exec (.descriptorHeaderReadEnd re) s = s.answer { s with port := none, work := s.work.headerEnd s.env c re } := by
  show execDescriptorHeaderReadEnd re s = _
  unfold execDescriptorHeaderReadEnd
  rw [port]
  dsimp only
  rw [if_pos fits, if_pos ⟨acts, by simp [Work.headerStands, descriptor, busy]⟩]
  rfl

theorem exec_tableEnd {count pageCode fill : Byte} (port : s.port = some (.image c (.desc (.table count pageCode fill) ptr)))
    (descriptor : (s.work.ctx c).state = .descriptor) (busy : (s.work.ctx c).descBusy = some (.table count pageCode fill))
    (fits : ReadEnd.fits (24 * count.toNat) re = true) : exec (.descriptorTableReadEnd re) s
      = s.answer { s with port := none, work := s.work.tableEnd s.env c count pageCode fill re } := by
  show execDescriptorTableReadEnd re s = _
  unfold execDescriptorTableReadEnd
  rw [port]
  dsimp only
  rw [if_pos fits, if_pos ⟨acts, by simp [Work.tableStands, descriptor, busy]⟩]
  rfl

end

/-! ## The lanes of an image job that are in no pass -/

/-- A lane of an image job leaves it where it is. -/
theorem settle_leaves (job : v.jobOf n = some j) (ctx : j.ctx = some c) (image : ∃ st f ca e lv p k, j.args = .program st f ca e lv p k)
    (out : (v.ctx c).passLanes = 0) (h : r ∈ [.notRun, .laneFaulted]) (env : Env) : v.settle env n r = v.leave env n := by
  have stays : unbound v n j = v := by
    obtain ⟨st, f, ca, e, lv, p, k, args⟩ := image
    unfold unbound
    rw [ctx, args]
    exact if_neg (by rw [out, show hasLane 0 n = false from hasLane_zero n]; exact Bool.false_ne_true)
  rw [settle_eq job, stays]
  refine destination_leaves (.inl ?_)
  simp only [List.mem_cons, List.not_mem_nil, or_false] at h ⊢
  tauto

/-- What the end of the job in slot `i` leaves as it was, until the job completes. -/
structure Untouched (i : SlotId) (w v : Work) : Prop where
  ctxs : v.ctxs = w.ctxs
  pool : v.pool = w.pool
  grantList : v.grantList = w.grantList
  slot : ∀ k, k ≠ i → v.slot k = w.slot k
  lane : ∀ m, body (v.lane m) = body (w.lane m)

theorem Untouched.letGo (h : Untouched i w v) (n : LaneId) : Untouched i w (letGo v n) where
  ctxs := h.ctxs
  pool := h.pool
  grantList := h.grantList
  slot := h.slot
  lane m := by
    rw [lane_letGo]
    split
    · next at_n =>
      rw [body_release, at_n]
      exact h.lane n
    · exact h.lane m

theorem completeAs_pool (w : Work) (env : Env) (i : SlotId) (d : Half) : (w.completeAs env i d).pool = w.pool := by
  unfold Work.completeAs
  split
  · rfl
  · dsimp only
    split <;> split <;> rfl

/-- All lanes of an image job end where they are, and it completes. -/
theorem image_job_ends (once : ns.Nodup) (some_ : ns ≠ []) (slot : w.slot i = some j) (ctx : j.ctx = some c)
    (image : ∃ st f ca e lv p k, j.args = .program st f ca e lv p k) (out : (w.ctx c).passLanes = 0)
    (bound : ∀ n ∈ ns, (w.lane n).ctx.slot = some i) (live : ∀ n, hasLane j.live n = true ↔ n ∈ ns)
    (owners : ∀ n, w.ownerOf n = some i ↔ n ∈ ns) (h : r ∈ [.notRun, .laneFaulted]) (env : Env) :
    ∃ (v : Work) (jr : JobSlot) (steps : Vector Step 8), Ended w r ns j jr ∧ Untouched i w v
      ∧ w.finalizeAll env ns r = v.completeAs env i 2 ∧ v.slot i = some { jr with lastSteps := steps } ∧ v.queue = w.queue
      ∧ ∀ m, v.ownerOf m = if m ∈ ns then none else w.ownerOf m := by
  obtain ⟨v, jr, steps, ended, -, untouched, eq, slot_v, queue, owner⟩ := end_together (env := env) (r := r) (T := Untouched i w) once some_
    slot bound live owners (fun v frame others lane => ⟨by rw [frame], by rw [frame], by rw [frame], others, fun m => by
      rw [lane]
      split <;> rfl⟩) (fun v jv n hn _ job args ctx' untouched => ⟨v, .refl, untouched.letGo n,
        settle_leaves job (ctx'.trans ctx) (args ▸ image) (by rw [Work.ctx, untouched.ctxs]; exact out) h env⟩)
  exact ⟨v, jr, steps, ended, untouched, eq, slot_v, queue, owner⟩

/-! ## A descriptor that is invalid or cannot be read (R10, R78, R79) -/

theorem imageFailed_eq (slot_c : (w.ctx c).slot = some i) (slot : w.slot i = some j) (env : Env) (f : ImageFailure) :
    w.imageFailed env c f = (w.setSlot i (some { j with imageFail := some f })).finalizeAll env (lanesIn j.live) .notRun := by
  unfold Work.imageFailed Work.ctxSlot
  rw [slot_c]
  dsimp only
  rw [ctxLive_of slot_c slot, Work.modSlot, slot]
  rfl

/-- What a failed image leaves in the completion entry (R18). -/
def failureIs (f : ImageFailure) (st : JobStatus) (d : Half) : Prop :=
  (f = .unreadable ∧ st = .imageUnreadable ∧ d = 0) ∨ ∃ b : Byte, f = .invalid b ∧ st = .imageInvalid ∧ d = b.setWidth 16

theorem status_failure {f : ImageFailure} {st : JobStatus} {d : Half} (h : failureIs f st d) (fails : j.imageFail = some f)
    (fresh : j.cancelLink = none) : j.status = st ∧ j.detail = d := by
  rcases h with ⟨rfl, rfl, rfl⟩ | ⟨b, rfl, rfl, rfl⟩
  · have status : j.status = .imageUnreadable := by rw [JobSlot.status, fresh, fails]; rfl
    exact ⟨status, by rw [JobSlot.detail, status]⟩
  · have status : j.status = .imageInvalid := by rw [JobSlot.status, fresh, fails]; rfl
    refine ⟨status, ?_⟩
    rw [JobSlot.detail, status]
    dsimp only
    rw [fails]

theorem headerEnd_fails {re : ReadEnd} {st : JobStatus} {d : Half} (running : w.ctxCancelled c = false)
    (h : (re = .error ∧ st = .imageUnreadable ∧ d = 0) ∨ ∃ data, re = .ok data ∧ st = .imageInvalid ∧ d = 0xFF#16
      ∧ (fieldAt data 0 1 = 0 ∨ 32 < fieldAt data 0 1 ∨ 2 < fieldAt data 1 1)) (env : Env) :
    ∃ f, w.headerEnd env c re = w.imageFailed env c f ∧ failureIs f st d := by
  rcases h with ⟨rfl, rfl, rfl⟩ | ⟨data, rfl, rfl, rfl, bad⟩
  · refine ⟨.unreadable, ?_, .inl ⟨rfl, rfl, rfl⟩⟩
    unfold Work.headerEnd
    exact if_neg (by simp [running])
  · refine ⟨.invalid 0xFF#8, ?_, .inr ⟨0xFF#8, rfl, rfl, rfl⟩⟩
    have invalid : ¬ headerValid (byteAt data 0) (byteAt data 1) = true := fun h => by
      rw [fieldAt_one, fieldAt_one] at bad
      simp only [headerValid, Bool.and_eq_true, decide_eq_true_eq] at h
      omega
    unfold Work.headerEnd
    dsimp only
    rw [if_neg invalid, if_neg (by simp [running])]

theorem tableEnd_fails {re : ReadEnd} {st : JobStatus} {d : Half} {count : Byte} (running : w.ctxCancelled c = false)
    (h : (re = .error ∧ st = .imageUnreadable ∧ d = 0) ∨ ∃ data k, re = .ok data ∧ st = .imageInvalid ∧ d = BitVec.ofNat 16 k
      ∧ count.toNat ≤ 32 ∧ segmentFails (segmentsOf data count.toNat) k
      ∧ ∀ m, m < k → ¬ segmentFails (segmentsOf data count.toNat) m) (env : Env) (pageCode fill : Byte) :
    ∃ f, w.tableEnd env c count pageCode fill re = w.imageFailed env c f ∧ failureIs f st d := by
  have on : ∀ a b : Work, (if w.ctxCancelled c = true then a else b) = b := fun a b => if_neg (by simp [running])
  rcases h with ⟨rfl, rfl, rfl⟩ | ⟨data, k, rfl, rfl, rfl, few, fails, first⟩
  · exact ⟨.unreadable, on _ _, .inl ⟨rfl, rfl, rfl⟩⟩
  · refine ⟨.invalid (BitVec.ofNat 8 k), ?_, .inr ⟨_, rfl, rfl, ?_⟩⟩
    · refine (on _ _).trans ?_
      dsimp only
      rw [firstBadSegment_fails fails first]
    · obtain ⟨g, at_k, -⟩ := fails
      have inside := (List.getElem?_eq_some_iff.mp at_k).1
      rw [segmentsOf, List.length_map, List.length_range] at inside
      exact BitVec.eq_of_toNat_eq (by simp; omega)

/-- Settles O45. -/
theorem descriptorRejectionEndsTheJob : Obligations.DescriptorRejectionEndsTheJob := by
  intro s c i j part ptr cmd re st d aw waits running port descriptor busy slot_c out slot ctx image fresh some_ live owners bound kind fails
  obtain ⟨acts, -⟩ := acting_of_mem running
  have goes : s.work.ctxCancelled c = false := by
    rw [Work.ctxCancelled, slot_c, Option.bind_some, slot]
    dsimp only
    rw [fresh]
    rfl
  obtain ⟨f, run, failure⟩ : ∃ f, exec cmd s = s.answer { s with port := none, work := s.work.imageFailed s.env c f }
      ∧ failureIs f st d := by
    rcases kind with ⟨rfl, rfl⟩ | ⟨count, pageCode, fill, rfl, rfl⟩
    · have fits : ReadEnd.fits 16 re = true := by
        rcases fails with ⟨rfl, -⟩ | ⟨data, rfl, -, ⟨-, len, -⟩ | ⟨_, _, _, _, other, -⟩⟩
        · rfl
        · exact decide_eq_true len
        · exact nomatch other
      obtain ⟨f, eq, failure⟩ := headerEnd_fails (re := re) (st := st) (d := d) goes (by
        rcases fails with h | ⟨data, h, h', ⟨-, -, rfl, bad⟩ | ⟨_, _, _, _, other, -⟩⟩
        · exact .inl h
        · exact .inr ⟨data, h, h', rfl, bad⟩
        · exact nomatch other) s.env
      refine ⟨f, ?_, failure⟩
      rw [exec_headerEnd acts port descriptor busy fits, eq]
    · have fits : ReadEnd.fits (24 * count.toNat) re = true := by
        rcases fails with ⟨rfl, -⟩ | ⟨data, rfl, -, ⟨other, -⟩ | ⟨_, _, _, _, at_, len, -⟩⟩
        · rfl
        · exact nomatch other
        · cases at_
          exact decide_eq_true len
      obtain ⟨f, eq, failure⟩ := tableEnd_fails (re := re) (st := st) (d := d) (count := count) goes (by
        rcases fails with h | ⟨data, h, h', ⟨other, -⟩ | ⟨_, _, _, k, at_, -, fails, first, few, rfl⟩⟩
        · exact .inl h
        · exact nomatch other
        · cases at_
          exact .inr ⟨data, k, h, h', rfl, few, fails, first⟩) s.env pageCode fill
      refine ⟨f, ?_, failure⟩
      rw [exec_tableEnd acts port descriptor busy fits, eq]
  rw [answer_noneWaits aw waits] at run
  obtain ⟨w, hw⟩ : ∃ w, w = s.work.setSlot i (some { j with imageFail := some f }) := ⟨_, rfl⟩
  have slot_w : w.slot i = some { j with imageFail := some f } := by rw [hw, slot_setSlot, if_pos rfl]
  have mem_live : ∀ n, n ∈ lanesIn j.live ↔ hasLane j.mask n = true := fun n => by rw [mem_lanesIn, live]
  obtain ⟨v, jr, steps, ended, untouched, eq, slot_v, queue, owner⟩ := image_job_ends (w := w) (r := .notRun) (c := c) (lanesIn_nodup j.live)
    (fun h => some_ (live_zero_iff.mpr fun n hn => by rw [← mem_live, h] at hn; exact nomatch hn)) slot_w ctx image
    (by rw [hw]; exact out) (fun n hn => by rw [hw]; exact bound n ((mem_live n).mp hn)) (fun n => mem_lanesIn.symm)
    (fun n => by rw [hw, mem_live]; exact (owners n).symm) (by simp) s.env
  rw [hw, ← imageFailed_eq slot_c slot] at eq
  obtain ⟨je, hje⟩ : ∃ je, je = { jr with lastSteps := steps } := ⟨_, rfl⟩
  rw [← hje] at slot_v
  have same : je = { j with imageFail := some f, state := je.state, results := je.results, lastSteps := je.lastSteps
                            copies := je.copies, live := je.live } := by
    rw [hje, ended.same]
  have fresh_e : je.cancelLink = none := by rw [same]; exact fresh
  have mask_e : je.mask = j.mask := by rw [same]
  obtain ⟨status, detail⟩ := status_failure failure (j := je) (by rw [same]) fresh_e
  have results : ∀ n, hasLane j.mask n = true → je.results.get n = some .notRun := fun n hn => by
    rw [hje]
    exact (ended.results n).trans (if_pos ((mem_live n).mpr hn))
  refine ⟨_, je.entry s.env.jobHead, run, rfl, ?_⟩
  simp only [refreshIrq_work]
  rw [eq]
  refine ⟨?_, ?_, ?_, status, detail, mask_e, mask_ext fun n => ?_, live_zero_iff.mpr fun n hn => ?_,
    live_zero_iff.mpr fun n hn => ?_, ?_, fun k hk => ?_, ?_, fun c' hc => ?_, ?_, fun n => ?_⟩
  · rw [completeAs_queue v s.env i 2 je slot_v, queue, fresh_e, hw]
    rfl
  · show je.tag = j.tag
    rw [same]
  · show je.adm = j.adm
    rw [same]
  · refine Bool.eq_iff_iff.mpr (mem_notRun.trans ?_)
    rw [mask_e]
    exact ⟨fun h => h.1, fun h => ⟨h, results n h⟩⟩
  · obtain ⟨mask, done⟩ := mem_succeeded.mp hn
    exact nomatch (results n (mask_e ▸ mask)).symm.trans done
  · obtain ⟨mask, res, is, -, ran⟩ := mem_failed.mp hn
    exact ran (Option.some.inj ((results n (mask_e ▸ mask)).symm.trans is)).symm
  · rw [completeAs_slot, if_pos rfl]
  · rw [completeAs_slot, if_neg hk, untouched.slot k hk, hw, slot_setSlot, if_neg hk]
  · rw [completeAs_ctx v s.env i 2 c slot_v, if_pos (by rw [same]; exact ctx)]
  · rw [completeAs_ctx v s.env i 2 c' slot_v, if_neg (by rw [same]; exact fun h => hc (Option.some.inj (h.symm.trans ctx))), Work.ctx,
      untouched.ctxs, hw]
    rfl
  · rw [completeAs_pool, untouched.pool, hw]
    rfl
  · have lane : body ((v.completeAs s.env i 2).lane n) = body (s.work.lane n) := by
      rw [completeAs_lane, untouched.lane, hw]
      rfl
    refine ⟨⟨congrArg (·.settings) lane, congrArg (·.link) lane, congrArg (·.supply) lane, congrArg (·.lines) lane⟩,
      congrArg (·.ctx.state) lane, ?_⟩
    rw [completeAs_owner, owner, hw]
    simp only [mem_live]
    rfl

end Sys2Proof.Proofs
end

section
/-! The grant of an image job: O22. -/

namespace Sys2Proof.Proofs

-- One theorem at a time: a thread for each would ask for more stack than the check allows.
set_option Elab.async false

open Sys2Proof.Machine Sys2Proof.Laws

variable {s t u : State} {v w w' x y : Work} {env : Env} {n m : LaneId} {i : SlotId} {j : JobSlot} {c : CtxId} {r : LaneResult}
  {l : Lane} {ns : List LaneId}

/-! ## Answers that free no slot -/

/-- With no slot freed, no record that waits for one is taken (R150). -/
theorem answer_occupied (aw : s.Awake) (h : ∀ i, u.work.slot i = none → s.work.slot i = none) : s.answer u = .next u.refreshIrq := by
  rw [answer_awake aw]
  rcases takeFreed_spec s u with e | ⟨r, a, i, full, -, -, -, free, -⟩
  · rw [e]
  · have empty : u.work.slot i = none := by simpa using List.find?_some free
    exact absurd (h i empty) (freeSlot_none_iff.mp full i)

/-! ## What an image job is handed (R8, R9) -/

theorem mem_allCtxs (c : CtxId) : c ∈ Config.allCtxs := by revert c; decide

theorem freeCtx_lowest (free : (w.ctx c).state = .free) (low : ∀ c', c' < c → (w.ctx c').state ≠ .free) : w.freeCtx = some c :=
  find?_lowest (by decide) (mem_allCtxs c) (decide_eq_true free) fun c' lt => decide_eq_false (low c' lt)

theorem pool_of_bufs (h : ∀ b, w'.buf b = w.buf b) : w'.pool = w.pool :=
  Vector.ext fun k hk => h ⟨k, hk⟩

/-- The tables once an image job has been handed its lanes and its context. -/
structure ImageHanded (w : Work) (i : SlotId) (j : JobSlot) (c : CtxId) (w' : Work) : Prop where
  lane : ∀ n, w'.lane n = if hasLane j.mask n = true then (w.lane n).granted i else w.lane n
  owner : ∀ n, w'.ownerOf n = if hasLane j.mask n = true then some i else w.ownerOf n
  grantList : w'.grantList = w.grantList.filter (fun k => k ≠ i)
  slot : ∀ k, w'.slot k = if k = i then some { j.granted with ctx := some c } else w.slot k
  ctx : ∀ e, w'.ctx e = if e = c then grantedCtx i j.args else w.ctx e
  pool : w'.pool = w.pool
  queue : w'.queue = w.queue
  reserved : w'.reserved = w.reserved

theorem handOver_image (needs : j.args.needsContext = true) (free : (w.ctx c).state = .free)
    (low : ∀ c', c' < c → (w.ctx c').state ≠ .free) : ImageHanded w i j c (w.handOver i j) := by
  obtain ⟨v, eq, lane, owner, grantList, slot, ctx, buf, queue, reserved⟩ := handOver_lanes w i j
  have taken : w.handOver i j = (v.setCtx c (grantedCtx i j.args)).setSlot i (some { j.granted with ctx := some c }) := by
    rw [eq, Work.takeCtx, if_pos (show j.granted.args.needsContext = true from needs),
      freeCtx_lowest (c := c) (by rw [ctx]; exact free) fun c' lt => by rw [ctx]; exact low c' lt]
    rfl
  rw [taken]
  refine ⟨lane, owner, grantList, fun k => ?_, fun e => ?_, pool_of_bufs buf, queue, reserved⟩
  · rw [slot_setSlot, slot_setCtx, slot]
    split <;> rfl
  · rw [ctx_setSlot, ctx_setCtx, ctx]

theorem grantJob_image (slot : w.slot i = some j) (waits : j.args.waitsForImage = true) (env : Env) :
    w.grantJob env i = grantOver w env i j := by
  unfold Work.grantJob
  rw [slot]
  exact if_pos waits

/-! ## Lanes that leave an image job that goes on -/

/-- The lanes leave; the job, which has live lanes left, stays as it is. -/
theorem settles_live (once : ns.Nodup) (slot : y.slot i = some j) (live : j.live ≠ 0) (ctx : j.ctx = some c)
    (image : ∃ st f ca e lv p k, j.args = .program st f ca e lv p k) (out : (y.ctx c).passLanes = 0)
    (bound : ∀ n ∈ ns, (y.lane n).ctx.slot = some i) (h : r ∈ [.notRun, .laneFaulted]) (env : Env) :
    ∃ v : Work, v = y.forLanes ns (fun w n => w.settle env n r) ∧ v = { y with lanes := v.lanes, owner := v.owner }
      ∧ (∀ m, v.lane m = if m ∈ ns then (y.lane m).release else y.lane m)
      ∧ ∀ m, v.ownerOf m = if m ∈ ns then none else y.ownerOf m := by
  induction ns generalizing y with
  | nil => exact ⟨y, rfl, rfl, fun m => by simp, fun m => by simp⟩
  | cons n ns ih =>
    obtain ⟨first, once⟩ := List.nodup_cons.mp once
    have other : ∀ m ∈ ns, m ≠ n := fun m hm => by
      rintro rfl
      exact first hm
    have bound_n := bound n (List.mem_cons_self ..)
    have goes : y.settle env n r = letGo y n :=
      (settle_leaves (jobOf_slot bound_n slot) ctx image out h env).trans (leave_live bound_n slot live env)
    obtain ⟨v, eq, frame, lane, owner⟩ := ih (y := letGo y n) once slot out fun m hm => by
      rw [lane_letGo, if_neg (other m hm)]
      exact bound m (List.mem_cons_of_mem _ hm)
    refine ⟨v, eq.trans (by rw [← goes]; rfl), frame.trans rfl, fun m => ?_, fun m => ?_⟩
    · rw [lane, lane_letGo]
      by_cases at_n : m = n
      · simp [at_n, first]
      · simp [at_n]
    · rw [owner, owner_letGo]
      by_cases at_n : m = n
      · simp [at_n]
      · simp [at_n]

/-- Settles O22. -/
theorem grantOfAnImageJob : Obligations.GrantOfAnImageJob := by
  intro s i j c steps fresh clearAll e level ptr key inFault aw part list slot args pointed some_ unowned free ctxFree low faults
  have needs : j.args.needsContext = true := by rw [args]; exact decide_eq_true pointed
  have waits : j.args.waitsForImage = true := by rw [args]; exact decide_eq_true pointed
  have handed : ImageHanded s.work i j c (s.work.handOver i j) := handOver_image needs ctxFree low
  obtain ⟨ns, hns⟩ : ∃ ns, ns = faultedAt (s.work.handOver i j) j := ⟨_, rfl⟩
  have mem_ns : ∀ n, n ∈ ns ↔ hasLane j.mask n = true ∧ inFault n := fun n => by
    rw [hns, faults]
    by_cases mask : hasLane j.mask n = true
    · rw [faulted_iff mask, args]
      simp [mask, JobArgs.isLaneAction]
    · rw [mem_faultedAt]
      simp [mask]
  have once : ns.Nodup := hns ▸ nodup_faultedAt _ _
  have image : ∃ st f ca e lv p k, ({ j.granted with ctx := some c } : JobSlot).args = .program st f ca e lv p k := ⟨_, _, _, _, _, _, _, args⟩
  have slot_h : (s.work.handOver i j).slot i = some { j.granted with ctx := some c } := by rw [handed.slot, if_pos rfl]
  have bound : ∀ n ∈ ns, ((s.work.handOver i j).lane n).ctx.slot = some i := fun n hn => by
    rw [handed.lane, if_pos ((mem_ns n).mp hn).1]
    rfl
  have out : ((s.work.handOver i j).ctx c).passLanes = 0 := by
    rw [handed.ctx, if_pos rfl, args]
    rfl
  have scan : s.work.grantScan s.env = (s.work.handOver i j).finalizeAll s.env ns .laneFaulted := by
    rw [grantScan_single list slot free, grantJob_image slot waits, grantOver, hns]
  have run : exec .grantScan s = s.answer { s with work := s.work.grantScan s.env } := by
    show s.answer s.grantScan = _
    rw [State.grantScan, if_pos (acting_of_mem part).1]
    rfl
  refine ⟨?_, ?_⟩
  · rintro ⟨k, mask_k, notFault⟩
    obtain ⟨y, jr, eq_y, ended, frame_y, slot_y, others_y, lane_y⟩ := records_spec (r := .laneFaulted) once slot_h bound
      fun n hn => ((mem_ns n).mp hn).1
    have live : jr.live ≠ 0 := fun zero => live_zero_iff.mp zero k ((ended.live k).mpr ⟨mask_k, fun h => notFault ((mem_ns k).mp h).2⟩)
    obtain ⟨v, eq_v, frame_v, lane_v, owner_v⟩ := settles_live (y := y) (r := .laneFaulted) (c := c) once slot_y live
      (by rw [ended.same]) (by rw [ended.same]; exact image) (by rw [frame_y]; exact out)
      (fun n hn => by rw [lane_y, if_pos hn]; exact bound n hn) (by simp) s.env
    have ends : s.work.grantScan s.env = v := by
      rw [scan, eq_v, eq_y]
      unfold Work.finalizeAll
      dsimp only
      rw [List.filter_eq_self.mpr fun n hn => isLive_iff.mpr ⟨i, _, bound n hn, slot_h, ((mem_ns n).mp hn).1⟩]
    have slot_v : ∀ m, v.slot m = if m = i then some jr else s.work.slot m := fun m => by
      rw [frame_v]
      show y.slot m = _
      by_cases at_i : m = i
      · rw [at_i, slot_y, if_pos rfl]
      · rw [others_y m at_i, handed.slot, if_neg at_i, if_neg at_i]
    have lane_in : ∀ n, n ∈ ns → v.lane n
        = (recordedLane { j.granted with ctx := some c } .laneFaulted ((s.work.lane n).granted i)).release := fun n hn => by
      rw [lane_v, if_pos hn, lane_y, if_pos hn, handed.lane, if_pos ((mem_ns n).mp hn).1]
    have lane_out : ∀ n, n ∉ ns → v.lane n = (s.work.handOver i j).lane n := fun n hn => by
      rw [lane_v, if_neg hn, lane_y, if_neg hn]
    have owner_t : ∀ n, v.ownerOf n = if n ∈ ns then none else (s.work.handOver i j).ownerOf n := fun n => by
      rw [owner_v, frame_y]
      rfl
    have steps_t : jr.lastSteps = Vector.replicate 8 .none := Vector.ext fun k hk => by
      refine (ended.lastSteps ⟨k, hk⟩).trans ?_
      split
      · next hn =>
        rw [handed.lane, if_pos ((mem_ns _).mp hn).1]
        exact (Vector.getElem_replicate hk).symm
      · rfl
    have state_t : jr.state = .running := ended.state.trans (if_neg fun h => live h.2)
    refine ⟨_, jr, run.trans (answer_occupied aw fun k none_ => ?_), rfl, ?_⟩
    · rw [show Work.slot _ k = v.slot k from congrArg (Work.slot · k) ends, slot_v] at none_
      split at none_
      · exact nomatch none_
      · exact none_
    simp only [refreshIrq_work, ends]
    refine ⟨?_, ?_, ?_, ?_, ?_, ?_, fun m hm => ?_, ?_, fun e he => ?_,
      fun n => ⟨fun out_n => ?_, fun mask fault => ?_, fun mask fault => ?_⟩⟩
    · rw [frame_v, frame_y, handed.grantList, list]
      simp
    · rw [frame_v, frame_y]
      exact handed.queue
    · rw [frame_v, frame_y]
      exact handed.reserved
    · rw [frame_v, frame_y]
      exact handed.pool
    · rw [slot_v, if_pos rfl]
    · rw [← state_t, ← steps_t]
      exact ended.same
    · rw [slot_v, if_neg hm]
    · rw [frame_v, frame_y]
      exact (handed.ctx c).trans ((if_pos rfl).trans (by rw [args]; rfl))
    · rw [frame_v, frame_y]
      exact (handed.ctx e).trans (if_neg he)
    · have out_ns : n ∉ ns := fun hn => by
        rw [mem_ns, out_n] at hn
        exact Bool.false_ne_true hn.1
      refine ⟨Bool.eq_false_iff.mpr fun h => ?_, ?_, ?_⟩
      · exact Bool.false_ne_true (out_n.symm.trans ((ended.live n).mp h).1)
      · rw [owner_t, if_neg out_ns, handed.owner, if_neg (by simp [out_n])]
      · rw [lane_out n out_ns, handed.lane, if_neg (by simp [out_n])]
    · have out_ns : n ∉ ns := fun hn => fault ((mem_ns n).mp hn).2
      refine ⟨(ended.live n).mpr ⟨mask, out_ns⟩, ?_, (ended.results n).trans (if_neg out_ns), ?_⟩
      · rw [owner_t, if_neg out_ns, handed.owner, if_pos mask]
      · have noCause : (s.work.lane n).causeAddr = none := if_neg fun h => fault ((faults n).mpr h)
        rw [lane_out n out_ns, handed.lane, if_pos mask, Lane.granted, noCause]
    · have in_ns : n ∈ ns := (mem_ns n).mpr ⟨mask, fault⟩
      refine ⟨Bool.eq_false_iff.mpr fun h => ((ended.live n).mp h).2 in_ns, ?_, (ended.results n).trans (if_pos in_ns), ?_⟩
      · rw [owner_t, if_pos in_ns]
      rw [lane_in n in_ns]
      refine ⟨(faults n).mp fault, rfl, rfl, ⟨rfl, rfl, rfl, rfl⟩, fun cause is => ⟨_, (ended.copies n).trans (if_pos in_ns), ?_⟩⟩
      rw [handed.lane, if_pos mask]
      have addr : (s.work.lane n).causeAddr = some ((resultCode cause).setWidth 32) := by
        rw [Lane.causeAddr, if_pos ((faults n).mp fault), is]
        rfl
      refine Eq.trans ?_ addr
      show JobSlot.faultAddrFor { j.granted with ctx := some c } ((s.work.lane n).granted i) .laneFaulted none = _
      unfold JobSlot.faultAddrFor
      dsimp only [JobSlot.granted]
      rw [args]
      exact if_pos rfl
  · intro all noneWaits fresh readable
    have live_ns : ∀ n, hasLane j.mask n = true ↔ n ∈ ns := fun n => by
      rw [mem_ns]
      exact ⟨fun h => ⟨h, all n h⟩, fun h => h.1⟩
    obtain ⟨v, jr, jsteps, ended, untouched, eq, slot_v, queue, owner⟩ := image_job_ends (r := .laneFaulted) (c := c) once
      (fun h => some_ (live_zero_iff.mpr fun n hn => by rw [live_ns, h] at hn; exact nomatch hn)) slot_h rfl image out bound live_ns
      (fun n => by
        rw [handed.owner, ← live_ns]
        by_cases mask : hasLane j.mask n = true
        · simp [mask]
        · simp [mask, unowned n]) (by simp) s.env
    rw [answer_noneWaits aw noneWaits] at run
    obtain ⟨je, hje⟩ : ∃ je, je = { jr with lastSteps := jsteps } := ⟨_, rfl⟩
    rw [← hje] at slot_v
    have same : je = { j.granted with ctx := some c, state := je.state, results := je.results, lastSteps := je.lastSteps
                                      copies := je.copies, live := je.live } := by
      rw [hje, ended.same]
    have mask_e : je.mask = j.mask := by rw [same]; rfl
    have results : ∀ n, hasLane j.mask n = true → je.results.get n = some .laneFaulted := fun n hn => by
      rw [hje]
      exact (ended.results n).trans (if_pos ((live_ns n).mp hn))
    have failed : je.failed = j.mask := mask_ext fun n => Bool.eq_iff_iff.mpr (mem_failed.trans (by
      rw [mask_e]
      exact ⟨fun h => h.1, fun h => ⟨h, _, results n h, nofun, nofun⟩⟩))
    have succeeded : je.succeeded = 0 := live_zero_iff.mpr fun n hn => by
      obtain ⟨mask, done⟩ := mem_succeeded.mp hn
      exact nomatch (results n (mask_e ▸ mask)).symm.trans done
    have notRun : je.notRun = 0 := live_zero_iff.mpr fun n hn => by
      obtain ⟨mask, ran⟩ := mem_notRun.mp hn
      exact nomatch (results n (mask_e ▸ mask)).symm.trans ran
    have status : je.status = .failed := by
      rw [status_noImage (by rw [same]; exact fresh) (by rw [same]; exact readable), succeeded, mask_e, if_neg (Ne.symm some_)]
      exact if_neg (not_not.mpr rfl)
    refine ⟨_, je.entry s.env.jobHead, run, ?_⟩
    simp only [refreshIrq_work, scan, eq]
    refine ⟨?_, ?_, ?_, status, mask_e, failed, succeeded, notRun, ?_, ?_, ?_, ?_, fun n => ?_⟩
    · rw [completeAs_queue v s.env i 2 je slot_v, queue, handed.queue, show je.cancelLink = none from by rw [same]; exact fresh]
    · show je.tag = j.tag
      rw [same]
      rfl
    · show je.adm = j.adm
      rw [same]
      rfl
    · rw [completeAs_slot, if_pos rfl]
    · rw [completeAs_grantList, untouched.grantList, handed.grantList, list]
      simp
    · rw [completeAs_ctx v s.env i 2 c slot_v, if_pos (by rw [same])]
    · rw [completeAs_pool, untouched.pool, handed.pool]
    · have lane : body ((v.completeAs s.env i 2).lane n) = body ((s.work.handOver i j).lane n) := by
        rw [completeAs_lane, untouched.lane]
      have pins : (s.work.lane n).SamePins ((s.work.handOver i j).lane n)
          ∧ ((s.work.handOver i j).lane n).ctx.state = (s.work.lane n).ctx.state := by
        rw [handed.lane]
        split <;> exact ⟨⟨rfl, rfl, rfl, rfl⟩, rfl⟩
      obtain ⟨⟨settings, link, supply, lines⟩, state⟩ := pins
      refine ⟨?_, ⟨(congrArg (·.settings) lane).trans settings, (congrArg (·.link) lane).trans link,
        (congrArg (·.supply) lane).trans supply, (congrArg (·.lines) lane).trans lines⟩, (congrArg (·.ctx.state) lane).trans state⟩
      rw [completeAs_owner, owner]
      by_cases mask : hasLane j.mask n = true
      · rw [if_pos ((live_ns n).mp mask), free n mask]
      · rw [if_neg fun h => mask ((live_ns n).mpr h), handed.owner, if_neg mask]

end Sys2Proof.Proofs
end

section
/-! An accepted descriptor starts the first pass and the lanes: O46. -/

namespace Sys2Proof.Proofs

-- One theorem at a time: a thread for each would ask for more stack than the check allows.
set_option Elab.async false

open Sys2Proof.Machine Sys2Proof.Laws

variable {s t u : State} {v w w' x y : Work} {env : Env} {n m : LaneId} {i : SlotId} {j : JobSlot} {c : CtxId}
  {l : Lane} {ns : List LaneId} {e : EndAction}

/-! ## The power-up of every lane of a job (R25) -/

/-- A lane in OFF as its power-up begins. -/
def poweredUp (env : Env) (l : Lane) : Lane := Lane.powerUp env { l with ctx := { l.ctx with step := .powerUp, stepPos := none } }

theorem setStep_eq (bound : (w.lane n).ctx.slot = some i) (slot : w.slot i = some j) (live : hasLane j.live n = true) (st : Step) :
    w.setStep n st = (w.modLane n (fun l => { l with ctx := { l.ctx with step := st, stepPos := none } })).setSlot i
      (some { j with lastSteps := vset j.lastSteps n st }) := by
  unfold Work.setStep
  dsimp only
  rw [lane_modLane, if_pos rfl, bound]
  dsimp only
  rw [Work.modSlot, show Work.slot (w.modLane n _) i = some j from slot, Option.map_some, if_pos live]

theorem startLane_off (bound : (w.lane n).ctx.slot = some i) (slot : w.slot i = some j) (live : hasLane j.live n = true)
    (session : j.args.endAction? = some e) (off : (w.lane n).ctx.state = .off) (env : Env) :
    w.startLane env n = (w.setLane n (poweredUp env (w.lane n))).setSlot i
      (some { j with lastSteps := vset j.lastSteps n .powerUp }) := by
  rw [startLane_session (isLive_iff.mpr ⟨i, j, bound, slot, live⟩) (jobOf_slot bound slot) session, (sessionStart_state w env n).1 off]
  unfold Work.beginPowerUp
  rw [setStep_eq bound slot live]
  unfold poweredUp Work.modLane Work.setLane Work.setSlot Work.lane
  simp

/-- Each lane in OFF begins its power-up. -/
theorem starts_off (once : ns.Nodup) (slot : w.slot i = some j) (session : j.args.endAction? = some e)
    (lanes : ∀ n ∈ ns, (w.lane n).ctx.slot = some i ∧ hasLane j.live n = true ∧ (w.lane n).ctx.state = .off) (env : Env) :
    ∃ (v : Work) (j' : JobSlot), v = w.forLanes ns (fun w n => w.startLane env n) ∧ v = { w with slots := v.slots, lanes := v.lanes }
      ∧ v.slot i = some j' ∧ j' = { j with lastSteps := j'.lastSteps } ∧ (∀ k, k ≠ i → v.slot k = w.slot k)
      ∧ (∀ n, j'.lastSteps.get n = if n ∈ ns then .powerUp else j.lastSteps.get n)
      ∧ ∀ n, v.lane n = if n ∈ ns then poweredUp env (w.lane n) else w.lane n := by
  induction ns generalizing w j with
  | nil => exact ⟨w, j, rfl, rfl, slot, rfl, fun _ _ => rfl, fun n => by simp, fun n => by simp⟩
  | cons n ns ih =>
    obtain ⟨first, once⟩ := List.nodup_cons.mp once
    have other : ∀ m ∈ ns, m ≠ n := fun m hm => by
      rintro rfl
      exact first hm
    obtain ⟨bound, live, off⟩ := lanes n (List.mem_cons_self ..)
    obtain ⟨x, hx⟩ : ∃ x, x = w.startLane env n := ⟨_, rfl⟩
    have eq := hx.trans (startLane_off bound slot live session off env)
    have lane_x : ∀ m, x.lane m = if m = n then poweredUp env (w.lane n) else w.lane m := fun m => by
      rw [eq]
      exact (lane_setLane ..)
    have slot_x : ∀ k, x.slot k = if k = i then some { j with lastSteps := vset j.lastSteps n .powerUp } else w.slot k := fun k => by
      rw [eq, slot_setSlot]
      rfl
    obtain ⟨v, j', ev, frame, slot_v, same, others, steps, lane_v⟩ := ih (w := x) (j := { j with lastSteps := vset j.lastSteps n .powerUp })
      once ((slot_x i).trans (if_pos rfl)) session fun m hm => by
        rw [lane_x, if_neg (other m hm)]
        exact lanes m (List.mem_cons_of_mem _ hm)
    refine ⟨v, j', ev.trans (by rw [hx]; rfl), frame.trans (by rw [eq]; rfl), slot_v, same,
      fun k hk => (others k hk).trans ((slot_x k).trans (if_neg hk)), fun m => ?_, fun m => ?_⟩
    · rw [steps]
      dsimp only
      rw [vset_get]
      by_cases at_n : m = n
      · simp [at_n]
      · simp [at_n]
    · rw [lane_v, lane_x]
      by_cases at_n : m = n
      · simp [at_n, first]
      · simp [at_n]

/-! ## The first pass (R80, R91, R93) -/

theorem forLanes_modLane_frame (ns : List LaneId) (w : Work) (f : Lane → Lane) :
    w.forLanes ns (fun w n => w.modLane n f) = { w with lanes := (w.forLanes ns (fun w n => w.modLane n f)).lanes } := by
  induction ns generalizing w with
  | nil => rfl
  | cons n ns ih => exact (ih (w.modLane n f)).trans rfl

/-- The context as a pass begins in it. -/
def passing (p : Pass) (live : LaneMask) (x : ImageCtx) : ImageCtx :=
  { x with
    state := (match p with | .write => .writePass | .check => .checkPass), passLanes := live
    nextPage := firstPage x.segs x.size
    writeDue := (match p with | .write => false | .check => x.writeDue)
    checkDue := (match p with | .write => x.checkDue | .check => false) }

/-- A lane whose pages are the first page and those after it. -/
def atStart (l : Lane) : Lane := { l with ctx := { l.ctx with cursor := .start } }

theorem beginPass_spec (w : Work) (c : CtxId) (p : Pass) :
    w.beginPass c p = { w with ctxs := (w.setCtx c (passing p (w.ctxLive c) (w.ctx c))).ctxs, lanes := (w.beginPass c p).lanes }
      ∧ ∀ m, (w.beginPass c p).lane m = if hasLane (w.ctxLive c) m = true then atStart (w.lane m) else w.lane m := by
  have eq : w.beginPass c p = (w.setCtx c (passing p (w.ctxLive c) (w.ctx c))).forLanes (lanesIn (w.ctxLive c))
      (fun w n => w.modLane n atStart) := rfl
  refine ⟨?_, fun m => ?_⟩
  · rw [eq]
    exact forLanes_modLane_frame ..
  · rw [eq, lane_forLanes (g := atStart) (fun _ _ _ => lane_modLane ..) (lanesIn_nodup _)]
    simp only [mem_lanesIn]
    rfl

/-- The context of an accepted image: the first pass that is due runs in it, or none does. -/
def started (runs : Bool) (live : LaneMask) (x : ImageCtx) : ImageCtx :=
  { x with
    state := if runs = false then .idle else if x.writeDue then .writePass else .checkPass
    passLanes := if runs then live else x.passLanes
    nextPage := if runs then firstPage x.segs x.size else none
    writeDue := false
    checkDue := runs && x.writeDue && x.checkDue }

theorem startPasses_spec {runs : Bool} (h : runs = (((w.ctx c).writeDue || (w.ctx c).checkDue) && w.ctxLive c != 0)) :
    w.startPasses c = { w with ctxs := (w.setCtx c (started runs (w.ctxLive c) (w.ctx c))).ctxs, lanes := (w.startPasses c).lanes }
      ∧ ∀ m, (w.startPasses c).lane m = if runs = true ∧ hasLane (w.ctxLive c) m = true then atStart (w.lane m) else w.lane m := by
  unfold Work.startPasses
  by_cases live : w.ctxLive c = 0
  · have idle : runs = false := by simp [h, live]
    subst idle
    rw [if_pos live]
    exact ⟨rfl, fun m => (if_neg (by simp)).symm⟩
  rw [if_neg live]
  have begins : ∀ p : Pass, runs = true → started runs (w.ctxLive c) (w.ctx c) = passing p (w.ctxLive c) (w.ctx c) →
      w.beginPass c p = { w with ctxs := (w.setCtx c (started runs (w.ctxLive c) (w.ctx c))).ctxs, lanes := (w.beginPass c p).lanes }
      ∧ ∀ m, (w.beginPass c p).lane m = if runs = true ∧ hasLane (w.ctxLive c) m = true then atStart (w.lane m) else w.lane m :=
    fun p on same => by
      rw [same]
      refine ⟨(beginPass_spec w c p).1, fun m => ?_⟩
      rw [(beginPass_spec w c p).2, on]
      simp
  cases write : (w.ctx c).writeDue with
  | true =>
    have on : runs = true := by rw [h, write, Bool.true_or, Bool.true_and, bne_iff_ne]; exact live
    exact begins .write on (by simp [started, passing, on, write])
  | false =>
    cases check : (w.ctx c).checkDue with
    | true =>
      have on : runs = true := by rw [h, check, Bool.or_true, Bool.true_and, bne_iff_ne]; exact live
      exact begins .check on (by simp [started, passing, on, write])
    | false =>
      have idle : runs = false := by simp [h, write, check]
      subst idle
      exact ⟨rfl, fun m => (if_neg (by simp)).symm⟩

/-- Settles O46. -/
theorem descriptorAcceptanceStartsTheLanes : Obligations.DescriptorAcceptanceStartsTheLanes := by
  rintro s c x p aw part rfl descriptor
  obtain ⟨acts, -⟩ := acting_of_mem part
  refine ⟨fun data port busy len few many code => ?_, ?_⟩
  · have valid : headerValid (byteAt data 0) (byteAt data 1) = true := by
      rw [fieldAt_one] at few many code
      simp only [headerValid, Bool.and_eq_true, decide_eq_true_eq]
      omega
    rw [exec_headerEnd (re := .ok data) acts port descriptor busy (decide_eq_true len)]
    have kept : s.work.headerEnd s.env c (.ok data) = s.work.modCtx c (fun x =>
        { x with descDue := some (.table (byteAt data 0) (byteAt data 1) (byteAt data 2)), descBusy := none }) := by
      unfold Work.headerEnd
      exact if_pos valid
    rw [kept]
    exact answer_slots aw rfl
  · intro data count pageCode fill segs g i j steps fresh clearAll runs e level ptr key port busy len segs_eq head good slot_c slot
      unlinked args runs_eq lanes
    have goes : s.work.ctxCancelled c = false := by
      rw [Work.ctxCancelled, slot_c, Option.bind_some, slot]
      dsimp only
      rw [unlinked]
      rfl
    have stepsOf : s.work.ctxSteps c = steps := by
      rw [Work.ctxSteps, Work.ctxSlot, slot_c, Option.bind_some, slot, Option.map_some, args]
    obtain ⟨w, hw⟩ : ∃ w, w = s.work.modCtx c (fun x =>
        { x with count := count, pageCode := pageCode, fill := fill, segs := segs, writeDue := steps.write, checkDue := steps.check
                 computed := List.replicate segs.length none, descDue := none, descBusy := none }) := ⟨_, rfl⟩
    have accepted : s.work.tableEnd s.env c count pageCode fill (.ok data)
        = (w.startPasses c).forLanes (lanesIn (w.ctxLive c)) (fun w n => w.startLane s.env n) := by
      unfold Work.tableEnd
      rw [if_neg (by simp [goes])]
      dsimp only
      rw [← segs_eq, firstBadSegment_good good]
      dsimp only
      unfold Work.imageAccepted
      dsimp only
      rw [stepsOf, ← hw]
    have ctx_w : ∀ d, w.ctx d = if d = c then { s.work.ctx c with
        count := count, pageCode := pageCode, fill := fill, segs := segs, writeDue := steps.write, checkDue := steps.check
        computed := List.replicate segs.length none, descDue := none, descBusy := none } else s.work.ctx d := fun d => by
      rw [hw]
      exact ctx_modCtx ..
    have slot_w : ∀ k, w.slot k = s.work.slot k := fun k => by rw [hw]; rfl
    have lane_w : ∀ n, w.lane n = s.work.lane n := fun n => by rw [hw]; rfl
    have live_w : w.ctxLive c = j.live := ctxLive_of (by rw [ctx_w, if_pos rfl]; exact slot_c) ((slot_w i).trans slot)
    obtain ⟨frame_y, lane_y⟩ := startPasses_spec (w := w) (c := c) (runs := runs) (by rw [ctx_w, if_pos rfl, live_w]; exact runs_eq)
    obtain ⟨y, hy⟩ : ∃ y, y = w.startPasses c := ⟨_, rfl⟩
    rw [live_w] at accepted frame_y lane_y
    rw [← hy] at accepted frame_y lane_y
    obtain ⟨v, j', eq_v, frame_v, slot_v, same, others, last, lane_v⟩ := starts_off (w := y) (i := i) (j := j) (e := e) (lanesIn_nodup j.live)
      (by rw [frame_y]; exact (slot_w i).trans slot) (by rw [args]; rfl) (fun n hn => by
        obtain ⟨bound, off⟩ := lanes n (mem_lanesIn.mp hn)
        refine ⟨?_, mem_lanesIn.mp hn, ?_⟩
        all_goals
          rw [lane_y, lane_w]
          split
        · exact bound
        · exact bound
        · exact off
        · exact off) s.env
    rw [← eq_v] at accepted
    have run := exec_tableEnd (re := .ok data) acts port descriptor busy (decide_eq_true len)
    rw [accepted, answer_occupied aw fun k none_ => ?_] at run
    rotate_left
    · by_cases at_i : k = i
      · subst at_i
        exact nomatch slot_v.symm.trans none_
      · rw [show Work.slot _ k = v.slot k from rfl, others k at_i, frame_y] at none_
        exact (slot_w k).symm.trans none_
    have ctx_v : ∀ d, v.ctx d = if d = c then started runs j.live (w.ctx c) else w.ctx d := fun d => by
      rw [frame_v, frame_y]
      exact ctx_setCtx ..
    rw [ctx_w, if_pos rfl] at ctx_v
    refine ⟨_, j', run, rfl, ?_, ?_, fun d hd => ?_, slot_v, same, fun k hk => ?_, ?_⟩
    · show v = { s.work with slots := v.slots, ctxs := v.ctxs, lanes := v.lanes }
      rw [frame_v, frame_y, hw]
      rfl
    · show v.ctx c = _
      rw [ctx_v, if_pos rfl]
      have first : firstPage segs (64 * 2 ^ pageCode.toNat)
          = some (g.addr.toNat / (64 * 2 ^ pageCode.toNat) * (64 * 2 ^ pageCode.toNat)) := by
        rw [firstPage, head]
        rfl
      rw [← first]
      rfl
    · show v.ctx d = _
      rw [ctx_v, if_neg hd, ctx_w, if_neg hd]
    · show v.slot k = _
      rw [others k hk, frame_y]
      exact slot_w k
    · rintro n l rfl
      show if _ then _ ∧ v.lane n = _ else _ ∧ v.lane n = _
      rw [last, lane_v, lane_y, lane_w]
      simp only [mem_lanesIn]
      by_cases live : hasLane j.live n = true
      · rw [if_pos live, if_pos live, if_pos live]
        refine ⟨rfl, ?_⟩
        rw [Nat.mul_comm 48000]
        cases runs
        · rw [if_neg fun h => Bool.false_ne_true h.1]
          rfl
        · rw [if_pos ⟨rfl, live⟩]
          rfl
      · rw [if_neg live, if_neg live, if_neg live, if_neg fun h => live h.2]
        exact ⟨rfl, rfl⟩

end Sys2Proof.Proofs
end

section
/-! The end of a page fetch: O47. -/

namespace Sys2Proof.Proofs

-- One theorem at a time: a thread for each would ask for more stack than the check allows.
set_option Elab.async false

open Sys2Proof.Machine Sys2Proof.Laws

variable {s t u : State} {v w w' : Work} {env : Env} {n m : LaneId} {i : SlotId} {j : JobSlot} {c d : CtxId} {x : ImageCtx}
  {r : LaneResult} {l : Lane} {ns : List LaneId} {f : Fetch}

/-! ## The running CRC-32 (R85) -/

theorem takePiece_keeps (data : List Byte) (x : ImageCtx) (q : Piece) :
    ∃ reg seg computed, x.takePiece data q = { x with crcReg := reg, crcSeg := seg, computed := computed } := by
  unfold ImageCtx.takePiece
  dsimp only
  split
  · exact ⟨_, _, _, rfl⟩
  · exact ⟨_, _, x.computed, rfl⟩

/-- A page that is taken in changes the running CRC and the values computed. -/
theorem takePage_keeps (x : ImageCtx) (p : Nat) (data : List Byte) :
    ∃ reg seg computed, x.takePage p data = { x with crcReg := reg, crcSeg := seg, computed := computed } := by
  have pieces : ∀ (ps : List Piece) (y : ImageCtx), ∃ reg seg computed,
      ps.foldl (fun x q => x.takePiece data q) y = { y with crcReg := reg, crcSeg := seg, computed := computed } := by
    intro ps
    induction ps with
    | nil => exact fun y => ⟨y.crcReg, y.crcSeg, y.computed, rfl⟩
    | cons q qs ih =>
      intro y
      obtain ⟨reg, seg, computed, eq⟩ := takePiece_keeps data y q
      obtain ⟨reg', seg', computed', eq'⟩ := ih (y.takePiece data q)
      exact ⟨reg', seg', computed', by rw [List.foldl_cons, eq', eq]⟩
  exact pieces _ x

/-- The CRC-32 of a segment that lies in one page. -/
theorem takePage_segment {g : Segment} {p : Nat} {data : List Byte} (one : x.segs = [g]) (none_ : x.computed = [none])
    (start : x.crcReg = 0xFFFFFFFF#32) (some_ : 0 < g.len.toNat) (low : p ≤ g.addr.toNat)
    (high : g.addr.toNat + g.len.toNat ≤ p + 64 * 2 ^ x.pageCode.toNat) :
    (x.takePage p data).computed = [some (crc32 (slice data (g.addr.toNat - p) g.len.toNat))] := by
  have stop : min (p + x.size) g.stop = g.stop := Nat.min_eq_right high
  have len : g.stop - g.addr.toNat = g.len.toNat := Nat.add_sub_cancel_left ..
  have pieces : x.pieces p = [{ seg := 0, host := addrPlus g.host 0, offset := g.addr.toNat - p, len := g.len.toNat, last := true }] := by
    unfold ImageCtx.pieces
    rw [one]
    unfold piecesFrom
    dsimp only
    rw [Nat.max_eq_right low, stop, if_pos (show g.addr.toNat < g.stop from Nat.lt_add_of_pos_right some_), len, Nat.sub_self]
    simp [piecesFrom]
  unfold ImageCtx.takePage
  rw [pieces, List.foldl_cons, List.foldl_nil]
  unfold ImageCtx.takePiece
  rw [if_pos rfl, start, none_]
  rfl

/-! ## The bytes of a read, and the whole page (R84, R88) -/

theorem fetchStands_of (state : (w.ctx c).state ∈ [.writePass, .checkPass]) (fetch : (w.ctx c).fetch = some f) :
    w.fetchStands c f = true := by
  simp only [List.mem_cons, List.not_mem_nil, or_false] at state
  simpa [Work.fetchStands, fetch] using state

theorem setBuf_setBuf (b : BufId) (p q : PageBuf) : (w.setBuf b p).setBuf b q = w.setBuf b q := by
  unfold Work.setBuf
  simp

/-- What a whole page leaves in its context. -/
def fetched (f : Fetch) (data : List Byte) (x : ImageCtx) : ImageCtx :=
  if x.state = .writePass then { x with fetch := none }.takePage f.page data else { x with fetch := none }

/-- The whole page is HELD in its buffer. -/
theorem fetchDone_eq (b : PageBuf) (w : Work) (c : CtxId) (f : Fetch) : (w.setBuf f.buf b).fetchDone c f
    = (w.setBuf f.buf { b with state := .held }).setCtx c (fetched f b.data (w.ctx c)) := by
  unfold Work.fetchDone Work.modBuf
  rw [buf_setBuf, if_pos rfl, setBuf_setBuf]
  dsimp only
  rw [buf_setBuf, if_pos rfl]
  rfl

theorem fetched_keeps (f : Fetch) (data : List Byte) (x : ImageCtx) : ∃ reg seg computed,
    fetched f data x = { x with fetch := none, crcReg := reg, crcSeg := seg, computed := computed } := by
  unfold fetched
  split
  · exact takePage_keeps _ _ _
  · exact ⟨x.crcReg, x.crcSeg, x.computed, rfl⟩

theorem forLanes_id {f : Work → LaneId → Work} (h : ∀ n ∈ ns, f w n = w) : w.forLanes ns f = w := by
  induction ns with
  | nil => rfl
  | cons n ns ih =>
    show (f w n).forLanes ns f = w
    rw [h n (List.mem_cons_self ..)]
    exact ih fun m hm => h m (List.mem_cons_of_mem _ hm)

/-- A read of a page fetch ends without error. -/
theorem exec_pageRead {rd : PageRead} {rest : List PageRead} {b : PageBuf} {data page : List Byte} (acts : s.env.acting = true)
    (port : s.port = some (.image c (.fetch f (rd :: rest)))) (fetch : (s.work.ctx c).fetch = some f)
    (state : (s.work.ctx c).state ∈ [.writePass, .checkPass]) (hb : b = s.work.buf f.buf) (len : data.length = rd.len)
    (whole : page = b.data.take rd.offset ++ data ++ b.data.drop (rd.offset + data.length)) :
    (rest ≠ [] → exec (.pageFetchReadEnd (.ok data)) s = s.answer { s with
      port := some (.image c (.fetch f rest)), work := s.work.setBuf f.buf { b with data := page } })
    ∧ (rest = [] → exec (.pageFetchReadEnd (.ok data)) s = s.answer { s with
      port := none, work := (s.work.setBuf f.buf { b with data := page }).pageHeld s.env c f }) := by
  have placed : s.work.placeRead c f rd.offset data = s.work.setBuf f.buf { b with data := page } := by
    rw [Work.placeRead, if_pos (fetchStands_of state fetch), Work.modBuf, ← hb, whole]
    rfl
  have reads : exec (.pageFetchReadEnd (.ok data)) s = s.answer (s.fetchRead c f rd rest data) := by
    show execPageFetchReadEnd (.ok data) s = _
    unfold execPageFetchReadEnd
    rw [port]
    dsimp only
    rw [if_pos len]
  rw [reads]
  unfold State.fetchRead State.onWork
  dsimp only
  rw [placed]
  constructor
  · intro more
    obtain ⟨rd', rest', rfl⟩ := List.exists_cons_of_ne_nil more
    rfl
  · rintro rfl
    dsimp only
    rw [if_pos ⟨acts, fetchStands_of state fetch⟩]
    rfl

/-! ## A lane that waits for the page (R88, R108) -/

/-- Lane `n` waits for the page of fetch `f`. -/
def waitsFor (w : Work) (c : CtxId) (f : Fetch) (n : LaneId) : Bool :=
  w.isLive n && (w.lane n).ctx.state = .ready && (w.lane n).linkIdle && (w.lane n).eng.held.isNone
    && (w.ctx c).pageAt (w.lane n).ctx.cursor = some f.page

theorem pageHeld_eq (w : Work) (env : Env) (c : CtxId) (f : Fetch) : w.pageHeld env c f
    = (w.fetchDone c f).forLanes (lanesIn ((w.fetchDone c f).ctx c).passLanes)
      (fun w n => if waitsFor w c f n then w.stepGo env n else w) := rfl

theorem waitsFor_ready (h : (w.lane n).ctx.state ≠ .ready) : waitsFor w c f n = false := by
  simp [waitsFor, h]

/-- The one lane that waits goes on. -/
theorem forLanes_one {f : Work → LaneId → Work} (once : ns.Nodup) (mem : n ∈ ns) (before : ∀ m, m ≠ n → m ∈ ns → f w m = w)
    (after : ∀ m, m ≠ n → m ∈ ns → f (f w n) m = f w n) : w.forLanes ns f = f w n := by
  obtain ⟨pre, post, rfl⟩ := List.append_of_mem mem
  obtain ⟨-, once_rest, apart⟩ := List.nodup_append.mp once
  obtain ⟨out_post, -⟩ := List.nodup_cons.mp once_rest
  have split : w.forLanes (pre ++ n :: post) f = (f (w.forLanes pre f) n).forLanes post f := by
    simp [Work.forLanes]
  rw [split, forLanes_id fun m hm => before m (fun h => apart m hm n (List.mem_cons_self ..) h) (List.mem_append_left _ hm),
    forLanes_id fun m hm => after m (by rintro rfl; exact out_post hm) (List.mem_append_right _ (List.mem_cons_of_mem _ hm))]

/-! ## An image read error (R94) -/

/-- The context is STOPPED and fetches no page. -/
def Stopped (c : CtxId) (w : Work) : Prop := (w.ctx c).state = .stopped ∧ (w.ctx c).fetch = none

theorem Stopped.of_ctx (h : Stopped c w) (same : v.ctx c = w.ctx c) : Stopped c v := by
  unfold Stopped
  rw [same]
  exact h

theorem stopped_freeBuf (h : Stopped c w) (b : BufId) : Stopped c (w.freeBuf b) := by
  unfold Work.freeBuf
  dsimp only
  split
  · exact h
  · next d _ =>
    by_cases at_c : c = d
    · subst at_c
      unfold Stopped
      rw [ctx_modCtx, if_pos rfl]
      refine ⟨h.1, ?_⟩
      dsimp only
      split
      · rfl
      · exact h.2
    · exact h.of_ctx (by rw [ctx_modCtx, if_neg at_c]; rfl)

theorem stopped_releaseBufs (h : Stopped c w) (bs : List BufId) : Stopped c (bs.foldl Work.releaseBuf w) := by
  induction bs generalizing w with
  | nil => exact h
  | cons b bs ih =>
    refine ih ?_
    unfold Work.releaseBuf
    dsimp only
    split
    · exact stopped_freeBuf h b
    · exact h

theorem stopped_endPass (h : Stopped c w) (d : CtxId) : Stopped c (w.endPass d) := by
  by_cases at_d : c = d
  · subst at_d
    rw [endPass_stopped h.1]
    exact h
  · rcases endPass_cases w d with ⟨ctx, -⟩ | eq | eq
    · exact h.of_ctx ((ctx c).trans (if_neg at_d))
    · rw [eq]
      exact h.of_ctx (by rw [ctx_modCtx, if_neg at_d])
    · rw [eq]
      exact h

theorem stopped_dropFromPass (h : Stopped c w) (d : CtxId) (m : LaneId) : Stopped c (w.dropFromPass d m) := by
  have dropped : Stopped c (w.modCtx d (fun x => { x with passLanes := dropLane x.passLanes m })) := by
    unfold Stopped
    rw [ctx_modCtx]
    split
    · next at_d => subst at_d; exact h
    · exact h
  unfold Work.dropFromPass
  dsimp only
  split
  · split
    · exact stopped_endPass dropped d
    · exact dropped
  · exact h

theorem stopped_passLeave (h : Stopped c w) (d : CtxId) (m : LaneId) : Stopped c (w.passLeave d m) := by
  unfold Work.passLeave
  split
  · exact stopped_dropFromPass (stopped_releaseBufs h _) d m
  · exact h

theorem stopped_settle (h : Stopped c w) (bound : (w.lane m).ctx.slot = some i) (slot : w.slot i = some j) (live : j.live ≠ 0)
    (env : Env) : Stopped c (w.settle env m .imageReadError) := by
  rw [settle_eq (jobOf_slot bound slot)]
  obtain ⟨x, hx⟩ : ∃ x, x = unbound w m j := ⟨_, rfl⟩
  have same : SameJobs w x := hx ▸ sameJobs_unbound w m j
  have stopped : Stopped c x := by
    rw [hx]
    unfold unbound
    split
    · exact stopped_freeBuf (stopped_freeBuf h _) _
    · exact stopped_passLeave h _ m
    · exact h
  have busy : ¬ Alone x m := fun alone => by
    obtain ⟨steps, slot'⟩ := same.slot slot
    have none_ := alone i _ ((same.lane m).trans bound) slot'
    exact live none_
  rw [← hx]
  unfold destination
  dsimp only
  split
  · exact stopped.of_ctx ((ctx_startEnd x env m _ c).resolve_right fun h => busy h.2)
  · exact stopped.of_ctx ((ctx_leave x env m c).resolve_right fun h => busy h.2)

theorem stopped_settles (h : Stopped c w) (once : ns.Nodup) (out : n ∉ ns) (bound : ∀ m ∈ ns, (w.lane m).ctx.slot = some i)
    (slot : w.slot i = some j) (at_n : (w.lane n).ctx.slot = some i) (live : hasLane j.live n = true) (env : Env) :
    Stopped c (w.forLanes ns (fun w m => w.settle env m .imageReadError)) := by
  induction ns generalizing w j with
  | nil => exact h
  | cons m ns ih =>
    obtain ⟨first, once⟩ := List.nodup_cons.mp once
    obtain ⟨hn, out⟩ := not_or.mp (List.mem_cons.not.mp out)
    have loc : Local m w (w.settle env m .imageReadError) := Local.settle ..
    have some_ : j.live ≠ 0 := fun zero => live_zero_iff.mp zero n live
    obtain ⟨j', slot', stays⟩ := loc.job n i j hn at_n slot (.inl live)
    refine ih (stopped_settle h (bound m (List.mem_cons_self ..)) slot some_ env) once out (fun k hk => ?_) slot'
      ((slot_others loc.others hn).trans at_n) (stays.live live).1
    rw [slot_others loc.others (by rintro rfl; exact first hk)]
    exact bound k (List.mem_cons_of_mem _ hk)

theorem ctx_record (w : Work) (n : LaneId) (r : LaneResult) (fa : Option Word) : (w.record n r fa).ctx c = w.ctx c := by
  unfold Work.record
  split
  · rfl
  · split
    · rfl
    · split <;> rfl

/-- The context stays STOPPED while lanes of its job stop and another lane of it is live. -/
theorem stopped_stopLanes (h : Stopped c w) (once : ns.Nodup) (bound : ∀ m ∈ ns, (w.lane m).ctx.slot = some i) (slot : w.slot i = some j)
    (at_n : (w.lane n).ctx.slot = some i) (live : hasLane j.live n = true) (stays : (w.lane n).stopsNow = false) (env : Env) :
    Stopped c (w.stopLanes env ns .imageError .imageReadError) := by
  obtain ⟨now, hnow⟩ : ∃ now, now = (ns.filter fun n => (w.lane n).stopsNow).filter w.isLive := ⟨_, rfl⟩
  have now_ns : ∀ m ∈ now, m ∈ ns := fun m hm => by
    rw [hnow] at hm
    exact List.mem_of_mem_filter (List.mem_of_mem_filter hm)
  have out : n ∉ now := fun hn => by
    rw [hnow] at hn
    have := (List.mem_filter.mp (List.mem_of_mem_filter hn)).2
    rw [stays] at this
    exact Bool.false_ne_true this
  obtain ⟨y, hy⟩ : ∃ y, y = w.forLanes now (fun w m => w.record m .imageReadError none) := ⟨_, rfl⟩
  have beside : Beside n w y := hy ▸ beside_forLanes (fun w m => Local.record w m .imageReadError none) out w
  obtain ⟨jy, slot_y, stays_y⟩ := beside.job i j at_n slot (.inl live)
  have stopped_y : Stopped c y := h.of_ctx (by rw [hy, forLanes_keeps (P := fun w => w.ctx c) fun _ _ => ctx_record ..])
  have settled := stopped_settles (w := y) (ns := now) stopped_y (hnow ▸ (once.filter _).filter _) out
    (fun m hm => by rw [hy, slot_records]; exact bound m (now_ns m hm)) slot_y (beside.slot.trans at_n) (stays_y.live live).1 env
  rw [hy, hnow] at settled
  refine settled.of_ctx ?_
  unfold Work.stopLanes
  refine forLanes_keeps (P := fun w => w.ctx c) (fun v m => ?_) _ _
  split
  · rw [markLane_image]
    rfl
  · rfl

/-- Settles O47. -/
theorem pageFetchFillsABuffer : Obligations.PageFetchFillsABuffer := by
  rintro s c x f rd rest b aw part port rfl fetch state hb owner at_page
  obtain ⟨acts, hd⟩ := acting_of_mem part
  refine ⟨fun data page len whole => ?_, ?_⟩
  · obtain ⟨more, last⟩ := exec_pageRead acts port fetch state hb len whole
    obtain ⟨w, hw⟩ : ∃ w, w = (s.work.setBuf f.buf { b with state := .held, data := page }).setCtx c
        (fetched f page (s.work.ctx c)) := ⟨_, rfl⟩
    have done : (s.work.setBuf f.buf { b with data := page }).fetchDone c f = w := by
      rw [fetchDone_eq, hw]
    have ctx_w : ∀ d, w.ctx d = if d = c then fetched f page (s.work.ctx c) else s.work.ctx d := fun d => by
      rw [hw]
      exact ctx_setCtx ..
    obtain ⟨reg, seg, computed, kept⟩ := fetched_keeps f page (s.work.ctx c)
    refine ⟨fun h => ?_, fun h idle => ?_, ?_⟩
    · rw [more h]
      exact answer_slots aw rfl
    · have held : (s.work.setBuf f.buf { b with data := page }).pageHeld s.env c f = w := by
        rw [pageHeld_eq, done]
        refine forLanes_id fun n hn => ?_
        rw [waitsFor_ready]
        · rfl
        · rw [mem_lanesIn, ctx_w, if_pos rfl, kept] at hn
          rw [hw]
          exact idle n hn
      have run := last h
      rw [held, answer_slots aw (by rw [hw]; rfl)] at run
      refine ⟨_, run, ?_, ?_, fun check => ?_, fun g write one none_ start some_ low high => ?_⟩
      all_goals simp only [refreshIrq_work, ctx_w, if_true]
      · rw [hw]
      · rw [kept]
      · unfold fetched
        rw [if_neg (by rw [check]; nofun)]
      · unfold fetched
        rw [if_pos write]
        exact takePage_segment (x := { s.work.ctx c with fetch := none }) one none_ start some_ low high
    · intro n l j steps fresh clearAll e level ptr key h hl inside ready step cursor idle held un ride live job ctx args only alone
      subst hl
      have size_w : (w.ctx c).size = 64 * 2 ^ (s.work.ctx c).pageCode.toNat := by
        rw [ctx_w, if_pos rfl, kept]
        rfl
      have buf_w : ∀ b', w.buf b' = if b' = f.buf then { b with state := .held, data := page } else s.work.buf b' := fun b' => by
        rw [hw]
        exact buf_setBuf ..
      have lane_w : ∀ m, w.lane m = s.work.lane m := fun m => by rw [hw]; rfl
      have same : SameJobs s.work w := by
        rw [hw]
        exact (sameJobs_setBuf _ _).trans (sameJobs_modCtx c fun _ => _)
      have prog : InProgram w n (s.work.lane n) steps clearAll level (some c) := by
        refine ⟨lane_w n, ⟨fresh, e, ptr, key, ?_⟩, ?_, (same.isLive n).trans live, un, ride⟩
        · rw [same.args n, job, Option.map_some, args]
        · rw [same.laneCtx n, Work.laneCtx, job]
          exact ctx
      have page_w : (w.ctx c).pageAt (w.lane n).ctx.cursor = some f.page := by rw [lane_w, cursor]; rfl
      have ready_w : w.pageReady c n = some (f.page, f.buf) := by
        rw [pageReady_at page_w, heldPage_some (b := f.buf)]
        · rfl
        · rw [buf_w, if_pos rfl]
        · rw [buf_w, if_pos rfl]; exact owner
        · rw [buf_w, if_pos rfl]; exact at_page
        · intro b' hb' _
          rw [buf_w, if_neg hb']
          exact only b' hb'
      have goes : w.stepGo s.env n = w.writeGo s.env n c := by
        obtain ⟨fresh, e, ptr, key, args⟩ := prog.args
        unfold Work.stepGo
        rw [args, prog.ctx]
        dsimp only
        rw [lane_w, if_pos step]
      have moved := (writeGo_moves prog s.env c).2.1 f.page f.buf ready_w
      rw [← goes] at moved
      have waits : waitsFor w c f n = true := by
        rw [waitsFor, prog.live, page_w, lane_w]
        simp [ready, Lane.linkIdle, idle, held]
      have mem : n ∈ lanesIn (w.ctx c).passLanes := by
        rw [ctx_w, if_pos rfl, kept]
        exact mem_lanesIn.mpr inside
      have others : ∀ m, m ≠ n → m ∈ lanesIn (w.ctx c).passLanes → (s.work.lane m).ctx.state ≠ .ready := fun m hm in_ => by
        rw [ctx_w, if_pos rfl, kept] at in_
        exact alone m hm (mem_lanesIn.mp in_)
      have held_ : (s.work.setBuf f.buf { b with data := page }).pageHeld s.env c f = w.stepGo s.env n := by
        rw [pageHeld_eq, done, forLanes_one (lanesIn_nodup _) mem]
        · exact if_pos waits
        · intro m hm in_
          exact if_neg (by rw [waitsFor_ready (by rw [lane_w]; exact others m hm in_)]; exact Bool.false_ne_true)
        · intro m hm in_
          rw [if_pos waits]
          exact if_neg (by rw [waitsFor_ready (by rw [moved.others m hm, lane_w]; exact others m hm in_)]; exact Bool.false_ne_true)
      have run := last h
      rw [held_] at run
      obtain ⟨t, answer, y, -, portOf⟩ := answer_yields aw { s with port := none, work := w.stepGo s.env n }
      refine ⟨t, run.trans answer, portOf, ?_, ?_⟩
      · rw [y.buf, moved.buf, buf_w, if_pos rfl]
      · have lane_t := (y.lane n).trans moved.lane
        rw [lane_t]
        refine ⟨rfl, rfl, rfl, rfl, ?_⟩
        rw [frameOut_write moved y, buf_w, if_pos rfl, size_w]
  · intro i j n slot_c slot live lanes free stop
    obtain ⟨w, hw⟩ : ∃ w, w = (s.work.modBuf f.buf (fun p => { p with state := .failed })).modCtx c
        (fun x => { x with state := .stopped, fetch := none }) := ⟨_, rfl⟩
    obtain ⟨v, hv⟩ : ∃ v, v = w.stopLanes s.env (lanesIn j.live) .imageError .imageReadError := ⟨_, rfl⟩
    have run : exec (.pageFetchReadEnd .error) s = s.answer { s with port := none, work := v } := by
      show execPageFetchReadEnd .error s = _
      unfold execPageFetchReadEnd State.fetchError
      rw [port]
      dsimp only
      rw [if_pos ⟨acts, fetchStands_of state fetch⟩, hv, hw, ← ctxLive_of slot_c slot]
      rfl
    have lane_w : ∀ m, w.lane m = s.work.lane m := fun m => by rw [hw]; rfl
    have slot_w : w.slot i = some j := by rw [hw]; exact slot
    have bound : ∀ m ∈ lanesIn j.live, (w.lane m).ctx.slot = some i := fun m hm => by
      rw [lane_w]
      exact lanes m (mem_lanesIn.mp hm)
    have at_n : (w.lane n).ctx.slot = some i := bound n (mem_lanesIn.mpr live)
    have live_w : w.isLive n = true := isLive_iff.mpr ⟨i, j, at_n, slot_w, live⟩
    have stopped_w : Stopped c w := by
      unfold Stopped
      rw [hw, ctx_modCtx, if_pos rfl]
      exact ⟨rfl, rfl⟩
    obtain ⟨t, answer, y, -, portOf⟩ := answer_yields aw { s with port := none, work := v }
    refine ⟨t, run.trans answer, portOf, fun idle no => ?_, fun busy => ?_⟩
    · obtain ⟨gone, result⟩ := stopLanes_now (w := w) (lanesIn_nodup _) (mem_lanesIn.mpr live) s.env .imageError .imageReadError
        (by
          rw [lane_w]
          simp only [List.mem_cons, List.not_mem_nil, or_false, not_or] at no
          simp [Lane.stopsNow, Lane.atBoundary, Lane.linkIdle, idle, free, no]) at_n slot_w live
      rw [← hv] at gone result
      refine ⟨(y.isLive n).trans gone, y.taken (taken_of_kept fun i' j' a b _ mask => ?_)⟩
      cases (lanes n live).symm.trans a
      cases slot.symm.trans b
      obtain ⟨-, o, -, kept⟩ := result mask
      exact ⟨o, kept⟩
    · have stays : (w.lane n).stopsNow = false := by
        rw [lane_w]
        rcases busy with link | powering
        · exact stopsNow_busy link
        · simp only [List.mem_cons, List.not_mem_nil, or_false] at powering
          rcases powering with h | h <;> simp [Lane.stopsNow, h]
      obtain ⟨u, before, after, -⟩ := stopLanes_later (w := w) (lanesIn_nodup _) (mem_lanesIn.mpr live) s.env .imageError .imageReadError
        stays live_w
      rw [← hv, markLane_image] at after
      obtain ⟨cur, st, pos, lane_u⟩ := before.lane
      obtain ⟨cur', st', pos', lane_v⟩ := after.lane
      rw [lane_w] at lane_u
      have same : SameJobs u (u.modLane n (Lane.markStop .imageError)) := sameJobs_modLane (move_markStop _ _).2.2.1
      have marks : Lane.markStop .imageError (u.lane n) = { u.lane n with eng := { (u.lane n).eng with stop := some .imageError } } := by
        rw [Lane.markStop, lane_u, show (s.work.lane n).eng.stop = none from stop]
      rw [lane_modLane, if_pos rfl, marks, lane_u] at lane_v
      refine ⟨(y.isLive n).trans (after.isLive ((same.isLive n).trans (before.isLive live_w))), ?_, ?_, ?_⟩
      · rw [y.lane, lane_v]
      · rw [y.lane, lane_v]
        exact ⟨rfl, rfl, rfl, rfl⟩
      · rw [y.ctx]
        exact hv ▸ stopped_stopLanes stopped_w (lanesIn_nodup _) bound slot_w at_n live stays s.env

end Sys2Proof.Proofs
end

section
/-! The checks before the first request of a PROGRAM or READOUT lane: O53. -/

namespace Sys2Proof.Proofs

-- One theorem at a time: a thread for each would ask for more stack than the check allows.
set_option Elab.async false

open Sys2Proof.Machine Sys2Proof.Laws

variable {s t u : State} {v w w' x : Work} {env : Env} {n m : LaneId} {i : SlotId} {j : JobSlot} {c : CtxId}
  {r : LaneResult} {l : Lane} {d : TargetDesc} {segs : List Segment} {code : Byte} {steps : StepSet} {guardLevel level : Nat}

/-! ## The checks of PROGRAM (R102 to R104) -/

theorem not_inRange (d : TargetDesc) (start len : Nat) :
    inRange d start len = false ↔ start < d.base.toNat ∨ d.base.toNat + d.size.toNat < start + len := by
  rw [← Bool.not_eq_true, inRange]
  simp only [Bool.and_eq_true, decide_eq_true_eq]
  omega

theorem rangeFault_outside {before after : List Segment} {g : Segment}
    (inside : ∀ h ∈ before, inRange d h.addr.toNat h.len.toNat = true) (outside : inRange d g.addr.toNat g.len.toNat = false) :
    rangeFault d (some (before ++ g :: after, code)) steps guardLevel = some (.outOfRange, g.addr) := by
  have first : (before ++ g :: after).find? (fun g => !inRange d g.addr.toNat g.len.toNat) = some g :=
    List.find?_eq_some_iff_append.mpr ⟨by simp [outside], before, after, rfl, fun h hh => by simp [inside h hh]⟩
  simp [rangeFault, imageFault, first]

theorem find_outside_none (inside : ∀ g ∈ segs, inRange d g.addr.toNat g.len.toNat = true) :
    segs.find? (fun g => !inRange d g.addr.toNat g.len.toNat) = none :=
  List.find?_eq_none.mpr fun g hg => by simp [inside g hg]

theorem rangeFault_geometry (inside : ∀ g ∈ segs, inRange d g.addr.toNat g.len.toNat = true) (differ : d.pageCode ≠ code) :
    rangeFault d (some (segs, code)) steps guardLevel
      = some (.geometryMismatch, BitVec.ofNat 32 (d.pageCode.toNat + 256 * code.toNat)) := by
  simp [rangeFault, imageFault, find_outside_none inside, differ]

/-- With the range and the geometry right, the protection level decides. -/
theorem rangeFault_protection {image : Option (List Segment × Byte)}
    (good : image = none ∨ (image = some (segs, code) ∧ (∀ g ∈ segs, inRange d g.addr.toNat g.len.toNat = true) ∧ d.pageCode = code)) :
    rangeFault d image steps guardLevel = (protectionFault d.protection.toNat steps guardLevel).map
      (fun k => (.targetRefused, causeWord statusDenied k .protection)) := by
  rcases good with rfl | ⟨rfl, inside, same⟩
  · rfl
  · have none_ : imageFault d segs code = none := by simp [imageFault, find_outside_none inside, same]
    unfold rangeFault
    rw [Option.bind_some, none_]

/-- Table 6-4: the first row that fails. -/
theorem protectionFault_first (level : Nat) (steps : StepSet) (guardLevel : Nat) :
    ((steps.clear = true ∧ 1 ≤ level) → protectionFault level steps guardLevel = some kindClear)
    ∧ ((steps.write = true ∧ steps.clear = false ∧ 1 ≤ level) → protectionFault level steps guardLevel = some kindWrite)
    ∧ ((steps.check = true ∧ steps.clear = false ∧ steps.write = false ∧ 2 ≤ level) →
        protectionFault level steps guardLevel = some kindRead)
    ∧ ((steps.sum = true ∧ steps.clear = false ∧ steps.write = false ∧ steps.check = false ∧ 2 ≤ level) →
        protectionFault level steps guardLevel = some kindSum)
    ∧ (¬ ((steps.clear = true ∨ steps.write = true) ∧ 1 ≤ level) → ¬ ((steps.check = true ∨ steps.sum = true) ∧ 2 ≤ level) →
        protectionFault level steps guardLevel = if steps.guard = true ∧ guardLevel < level then some kindGuard else none) := by
  unfold protectionFault
  refine ⟨fun h => if_pos h, fun ⟨write, clear, h⟩ => ?_, fun ⟨check, clear, write, h⟩ => ?_,
    fun ⟨sum, clear, write, check, h⟩ => ?_, fun h h' => ?_⟩
  · simp [write, clear, h]
  · simp [check, clear, write, h]
  · simp [sum, clear, write, check, h]
  · rw [if_neg fun q => h ⟨.inl q.1, q.2⟩, if_neg fun q => h ⟨.inr q.1, q.2⟩, if_neg fun q => h' ⟨.inl q.1, q.2⟩,
      if_neg fun q => h' ⟨.inr q.1, q.2⟩]

/-! ## The checks of READOUT at its grant (R118) -/

theorem slots_freeBuf (w : Work) (b : BufId) : (w.freeBuf b).slots = w.slots := by
  unfold Work.freeBuf
  dsimp only
  split <;> rfl

theorem slot_request (w : Work) (n : LaneId) (q : Request) (i : SlotId) : (w.request n q).slot i = w.slot i := by
  unfold Work.request Work.holdBack
  split <;> rfl

/-- The job that takes the result `r` of lane `n` with fault address `fa`. -/
theorem slot_recorded (bound : (w.lane n).ctx.slot = some i) (slot : w.slot i = some j) (live : hasLane j.live n = true)
    (r : LaneResult) (fa : Option Word) : (w.record n r fa).slot i = some { j with
      state := if dropLane j.live n = 0 then .ending else j.state
      results := vset j.results n (some r), lastSteps := vset j.lastSteps n (w.lane n).ctx.step
      copies := vset j.copies n (some (takenCopy w n j r fa)), live := dropLane j.live n } := by
  unfold Work.record
  rw [bound]
  dsimp only
  rw [slot]
  dsimp only
  rw [if_pos live, slot_setSlot, if_pos rfl]
  rfl

/-- A READOUT lane that a check ends goes on with CLOSE. -/
theorem readout_fails {e : EndAction} {fresh : Bool} {host key : HostAddr} {start len : Word}
    (bound : (w.lane n).ctx.slot = some i) (slot : w.slot i = some j) (live : hasLane j.live n = true)
    (args : j.args = .readout fresh e host key start len) (ctx : j.ctx = some c) (ready : (w.lane n).ctx.state = .ready)
    (session : (w.lane n).ctx.session = true) (answered : (w.lane n).ctx.answered = true) (ride : (w.lane n).supply.state ≠ .riding)
    (hr : r = .outOfRange ∨ r = .targetRefused) (fa : Option Word) (env : Env) :
    (w.finalize env n r fa).isLive n = false ∧ (w.finalize env n r fa).RecordedAt i j n r (w.lane n).ctx.step fa
      ∧ (w.finalize env n r fa).frameOut n = some (requestFrame 0x09#8 (w.lane n).ctx.seq []) := by
  have live_n : w.isLive n = true := isLive_iff.mpr ⟨i, j, bound, slot, live⟩
  obtain ⟨addr, lane⟩ := lane_record live_n r fa
  obtain ⟨x, hx⟩ : ∃ x, x = (w.record n r fa).freeFloors c := ⟨_, rfl⟩
  have lane_x : x.lane n = (w.record n r fa).lane n := by rw [hx, lane_freeFloors]
  rw [lane] at lane_x
  have slot_x : x.slot i = (w.record n r fa).slot i := by
    rw [hx, Work.slot, Work.freeFloors, slots_freeBuf, slots_freeBuf]
    rfl
  rw [slot_recorded bound slot live] at slot_x
  have ends : w.finalize env n r fa = x.request n ((x.lane n).closeRequest (.closeEnd e.afterFailure)) := by
    have bound_r : ((w.record n r fa).lane n).ctx.slot = some i := by rw [lane]; exact bound
    rw [Work.finalize, if_pos live_n, settle_eq (jobOf_slot bound_r (slot_recorded bound slot live r fa))]
    have frees : unbound (w.record n r fa) n { j with
        state := if dropLane j.live n = 0 then .ending else j.state
        results := vset j.results n (some r), lastSteps := vset j.lastSteps n (w.lane n).ctx.step
        copies := vset j.copies n (some (takenCopy w n j r fa)), live := dropLane j.live n } = x := by
      unfold unbound
      rw [hx]
      dsimp only
      rw [ctx, args]
    rw [frees, args]
    have begins : destination x env n (.readout fresh e host key start len) r = x.startEnd env n e.afterFailure := by
      rcases hr with rfl | rfl <;> rfl
    rw [begins]
    refine startEnd_close ?_ (by cases e <;> nofun) ?_ ?_ env
    all_goals rw [lane_x]
    · rw [show LaneCtx.state _ = LaneState.ready from ready]
      nofun
    · exact session
    · exact answered
  have at_i := (slot_request x n ((x.lane n).closeRequest (.closeEnd e.afterFailure)) i).trans slot_x
  rw [← ends] at at_i
  refine ⟨finalize_notLive .., .inl ⟨_, takenCopy w n j r fa, at_i, rfl, (vset_get ..).trans (if_pos rfl),
    hasLane_dropLane_self .., (vset_get ..).trans (if_pos rfl), (vset_get ..).trans (if_pos rfl), ?_⟩, ?_⟩
  · show j.faultAddrFor (w.lane n) r fa = fa
    unfold JobSlot.faultAddrFor
    rw [args]
    rcases hr with rfl | rfl <;> rfl
  · rw [ends, frameOut_request (by rw [lane_x]; exact ride), lane_x]
    rfl

/-- The scan's job for one lane that is not in FAULT starts that lane. -/
theorem grantJob_alone (slot : w.slot i = some j) (image : j.args.waitsForImage = false) (only : ∀ m, hasLane j.mask m = true ↔ m = n)
    (sound : (w.lane n).ctx.state ≠ .fault) (env : Env) : w.grantJob env i = (w.handOver i j).startLane env n := by
  have mask : hasLane j.mask n = true := (only n).mpr rfl
  have none_faulted : faultedAt (w.handOver i j) j = [] := List.eq_nil_iff_forall_not_mem.mpr fun m hm => by
    obtain rfl := (only m).mp (mem_faultedAt.mp hm).1
    exact sound ((faulted_iff mask).mp hm).2
  have all : startedAt (w.handOver i j) j = [n] := by
    refine List.perm_singleton.mp ((List.perm_ext_iff_of_nodup (nodup_startedAt ..) (List.nodup_singleton n)).mpr fun m => ?_)
    rw [mem_startedAt, none_faulted, only m, List.mem_singleton]
    exact and_iff_left (List.not_mem_nil)
  rw [grantJob_eq slot image, grantOver, none_faulted, all]
  rfl

/-- The lane in the step RANGE_CHECK, as its job's grant leaves it. -/
def rangeChecked (l : Lane) : Lane := { l with ctx := { l.ctx with step := .rangeCheck, stepPos := none } }

/-- The range check of READOUT: its three ways (R118). -/
theorem readoutStart_checks {start len : Nat} (un : (w.lane n).Unstopped) (desc : (w.lane n).ctx.desc = some d)
    (job : w.jobOf n = some j) (ctx : j.ctx = some c) (hv : v = w.enterStep n .rangeCheck none) (env : Env) :
    w.readoutStart env n start len = if inRange d start len = false then v.finalize env n .outOfRange (some (BitVec.ofNat 32 start))
      else if 2 ≤ d.protection.toNat then v.finalize env n .targetRefused (some 0x00040603#32) else v.enterRead env n c start len := by
  subst hv
  obtain ⟨j', job', -, ctx', -⟩ := job_after (sameJobs_enterStep w n .rangeCheck none) job
  have desc' : ((w.enterStep n .rangeCheck none).lane n).ctx.desc = some d := by rw [lane_enterStep, if_pos rfl]; exact desc
  unfold Work.readoutStart
  rw [goOn_unstopped un]
  dsimp only
  rw [desc', laneCtx_of_job job' (ctx'.trans ctx)]
  dsimp only
  cases inRange d start len <;> rfl

theorem buf_enterStep (st : Step) (p : Option Nat) (b : BufId) : (w.enterStep n st p).buf b = w.buf b := by
  show (w.setStep n st).buf b = w.buf b
  unfold Work.setStep
  dsimp only
  split
  · rfl
  · rfl

theorem firstStep_readout {fresh : Bool} {e : EndAction} {host key : HostAddr} {start len : Word} (job : w.jobOf n = some j)
    (args : j.args = .readout fresh e host key start len) (env : Env) :
    w.firstStep env n = w.readoutStart env n start.toNat len.toNat := by
  unfold Work.firstStep
  rw [job, Option.map_some, args]

/-- The READ of the first page begins in the first floor buffer (R119). -/
theorem enterRead_begins {start len : Nat} {b : BufId} (un : (w.lane n).Unstopped) (ride : (w.lane n).supply.state ≠ .riding)
    (ready : (w.lane n).ctx.state = .ready) (idle : (w.lane n).link.state = .idle) (floor : b.val = 2 * c.val)
    (free : (w.buf b).state = .free) {page size : Nat} (target : (w.lane n).targetPage = size) (first : page = roundDown start size)
    (env : Env) : ∃ (v : Work) (next : Option Nat), SameJobs w v ∧ (∀ b, v.buf b = w.buf b)
      ∧ v.lane n = { w.lane n with ctx := { (w.lane n).ctx with step := .read, stepPos := none }
                                   eng := { (w.lane n).eng with readPage := next } }
      ∧ w.enterRead env n c start len
        = (v.setBuf b { state := .filling, owner := some c, pass := .write, page := page, count := 1, data := [] }).request n
            ((w.lane n).readRequest (.readout page b) page size) := by
  obtain rfl : b = floorA c := Fin.ext floor
  subst first
  obtain ⟨x, hx⟩ : ∃ x, x = (w.enterStep n .read none).modLane n (fun l => { l with eng :=
    { l.eng with readPage := some (roundDown start size) } }) := ⟨_, rfl⟩
  have at_e : (w.enterStep n .read none).lane n = { w.lane n with ctx := { (w.lane n).ctx with step := .read, stepPos := none } } := by
    rw [lane_enterStep, if_pos rfl]
  have lane_x : x.lane n = { w.lane n with ctx := { (w.lane n).ctx with step := .read, stepPos := none }
                                           eng := { (w.lane n).eng with readPage := some (roundDown start size) } } := by
    rw [hx, lane_modLane, if_pos rfl, at_e]
  have same_e := sameJobs_enterStep w n .read none
  have buf_x : ∀ b, x.buf b = w.buf b := fun b => by rw [hx]; exact buf_enterStep .read none b
  have target_x : (x.lane n).targetPage = size := by rw [lane_x]; exact target
  obtain ⟨next, reads⟩ := readGo_into (w := x) (n := n) (c := c) (start := start) (len := len) (other := floorA c)
    (if_pos (by rw [Work.bufFree, buf_x, free]; rfl)) (by rw [lane_x]) (by rw [lane_x]; exact ready) (by rw [lane_x])
    (by rw [lane_x]; exact idle) (by rw [lane_x]; exact un) (by rw [lane_x]; exact ride)
  refine ⟨x.modLane n (reading next), next, ?_, fun b => buf_x b, ?_, ?_⟩
  · rw [hx]
    exact (same_e.trans (sameJobs_modLane rfl)).trans (sameJobs_modLane rfl)
  · rw [lane_modLane, if_pos rfl, lane_x]
    rfl
  · have target_e : ((w.enterStep n .read none).lane n).targetPage = size := by rw [at_e]; exact target
    unfold Work.enterRead
    rw [goOn_unstopped un, beginOrHold_begins ride]
    dsimp only
    rw [target_e, ← hx, reads, target_x, lane_x]
    rfl

/-- Settles O53. -/
theorem rangeGeometryAndProtection : Obligations.RangeGeometryAndProtection := by
  refine ⟨?_, fun d segs code steps guardLevel level hl outside out => ⟨fun before g after split before_in g_out => ?_,
    fun inside differ => ?_, fun image good => ?_⟩⟩
  · intro s i j n l c e host key start len d outside aw waits part list slot args only unowned free ctx_free low hl ready session
      answered desc un idle xfer ride out
    have mask : hasLane j.mask n = true := (only n).mpr rfl
    have image : j.args.waitsForImage = false := by rw [args]; rfl
    obtain ⟨t, run, work, -⟩ := exec_grant aw waits part list slot fun m hm => by rw [(only m).mp hm]; exact free
    rw [grantJob_alone slot image only (by rw [← hl, ready]; nofun)] at work
    have handed := handOver_image (w := s.work) (i := i) (j := j) (by rw [args]; rfl) ctx_free low
    obtain ⟨u, hu⟩ : ∃ u, u = s.work.handOver i j := ⟨_, rfl⟩
    rw [← hu] at work handed
    have lane_u : u.lane n = l.granted i := by rw [handed.lane n, if_pos mask, hl]
    have slot_u : u.slot i = some { j.granted with ctx := some c } := by rw [handed.slot, if_pos rfl]
    have bound_u : (u.lane n).ctx.slot = some i := by rw [lane_u]; rfl
    have job_u := jobOf_slot bound_u slot_u
    have starts : u.startLane s.env n = u.readoutStart s.env n start.toNat len.toNat := by
      rw [startLane_session (isLive_iff.mpr ⟨i, _, bound_u, slot_u, mask⟩) job_u (e := e) (by
          show j.args.endAction? = some e
          rw [args]
          rfl), (sessionStart_state ..).2.2 (by rw [lane_u]; exact ready),
        if_neg (by simp [Work.wantsFresh, job_u, args, JobSlot.granted, JobArgs.isFresh])]
      exact firstStep_readout job_u args s.env
    obtain ⟨v, hv⟩ : ∃ v, v = u.enterStep n .rangeCheck none := ⟨_, rfl⟩
    rw [starts, readoutStart_checks (by rw [lane_u]; exact un) (by rw [lane_u]; exact desc) job_u rfl hv] at work
    have lane_v : v.lane n = rangeChecked (l.granted i) := by rw [hv, lane_enterStep, if_pos rfl, lane_u]; rfl
    have bound_v : (v.lane n).ctx.slot = some i := by rw [lane_v]; rfl
    have slot_v : v.slot i = some { j.granted with ctx := some c, lastSteps := vset j.granted.lastSteps n .rangeCheck } := by
      rw [hv, Work.enterStep, setStep_eq bound_u slot_u mask]
      show Work.slot (Work.setSlot _ _ _) _ = _
      rw [slot_setSlot, if_pos rfl]
    have fails := fun (r : LaneResult) hr (fa : Option Word) => readout_fails (r := r) bound_v slot_v mask args rfl
      (by rw [lane_v]; exact ready) (by rw [lane_v]; exact session) (by rw [lane_v]; exact answered) (by rw [lane_v]; exact ride) hr
      fa s.env
    rw [lane_v] at fails
    refine ⟨t, run, fun outside => ?_, fun inside protected_ => ?_, fun inside allowed size page b hsize hpage floor free_b => ?_⟩
    · rw [work, if_pos ((not_inRange ..).mpr (out.mp outside)), BitVec.ofNat_toNat, BitVec.setWidth_eq]
      exact fails .outOfRange (.inl rfl) _
    · rw [work, if_neg fun h => inside (out.mpr ((not_inRange ..).mp h)), if_pos protected_]
      exact fails .targetRefused (.inr rfl) _
    · rw [if_neg fun h => inside (out.mpr ((not_inRange ..).mp h)), if_neg (by omega)] at work
      have target : (v.lane n).targetPage = size := by
        have desc_v : (v.lane n).ctx.desc = some d := by rw [lane_v]; exact desc
        rw [Lane.targetPage, desc_v, hsize]
        rfl
      have buf_v : ∀ b, v.buf b = s.work.buf b := fun b => by
        rw [hv, buf_enterStep, hu]
        obtain ⟨-, -, -, bufs, -⟩ := handOver_fields s.work i j
        exact bufs b
      obtain ⟨x, next, same, buf_x, lane_x, reads⟩ := enterRead_begins (w := v) (len := len.toNat) (c := c) (by rw [lane_v]; exact un)
        (by rw [lane_v]; exact ride) (by rw [lane_v]; exact ready) (by rw [lane_v]; exact idle) floor (by rw [buf_v]; exact free_b)
        target (show page = roundDown start.toNat size from hpage) s.env
      rw [reads] at work
      have ride_x : ((x.setBuf b { state := .filling, owner := some c, pass := .write, page := page, count := 1, data := [] }).lane
          n).supply.state ≠ .riding := by
        show (x.lane n).supply.state ≠ .riding
        rw [lane_x, lane_v]
        exact ride
      have lane_t := congrArg (fun w => Work.lane w n) work

      rw [request_begins ride_x, lane_setLane, if_pos rfl, show (Work.setBuf x b _).lane n = x.lane n from rfl, lane_x,
        lane_v] at lane_t
      have buf_t : t.work.buf b = { state := .filling, owner := some c, pass := .write, page := page, count := 1, data := [] } := by
        rw [work, buf_request, buf_setBuf, if_pos rfl]
      refine ⟨?_, by rw [lane_t]; rfl, by rw [lane_t]; rfl, by rw [buf_t], by rw [buf_t], by rw [buf_t], by rw [buf_t],
        by rw [lane_t]; rfl, ?_⟩
      · rw [work, ((same.trans (sameJobs_setBuf ..)).trans (sameJobs_request ..)).isLive n]
        exact isLive_iff.mpr ⟨i, _, bound_v, slot_v, mask⟩
      · exact frameOut_engine lane_t rfl (by nofun)
  · subst split
    refine rangeFault_outside (fun h hh => ?_) ((not_inRange ..).mpr ((out g).mp g_out))
    rw [← Bool.not_eq_false, not_inRange]
    exact fun q => before_in h hh ((out h).mpr q)
  · refine rangeFault_geometry (fun g hg => ?_) differ
    rw [← Bool.not_eq_false, not_inRange]
    exact fun q => inside g hg ((out g).mpr q)
  · have decides := rangeFault_protection (d := d) (segs := segs) (code := code) (steps := steps) (guardLevel := guardLevel)
      (image := image) (good.imp id fun ⟨some_, inside, same⟩ => ⟨some_, fun g hg => by
        rw [← Bool.not_eq_false, not_inRange]
        exact fun q => inside g hg ((out g).mpr q), same⟩)
    obtain ⟨clear, write, check, sum, guard⟩ := protectionFault_first level steps guardLevel
    rw [decides, ← hl]
    refine ⟨fun kind row => ?_, fun low low' low'' => ?_⟩
    · rcases row with ⟨rfl, h⟩ | ⟨rfl, h⟩ | ⟨rfl, h⟩ | ⟨rfl, h⟩ | ⟨rfl, on, above, low, low'⟩
      · rw [clear h]
        rfl
      · rw [write h]
        rfl
      · rw [check h]
        rfl
      · rw [sum h]
        rfl
      · rw [guard low low', if_pos ⟨on, above⟩]
        rfl
    · rw [guard low low', if_neg low'']
      rfl

end Sys2Proof.Proofs
end

section
/-! A ride window: how it opens, and what is taken when it ends with a return: O33. -/

namespace Sys2Proof.Proofs

-- One theorem at a time: a thread for each would ask for more stack than the check allows.
set_option Elab.async false

open Sys2Proof.Machine Sys2Proof.Laws

variable {s t u : State} {v w w' x : Work} {env : Env} {n m : LaneId} {i : SlotId} {j : JobSlot} {c : CtxId} {l : Lane}

/-! ## The return of the supply (R145) -/

/-- The lane with its supply back, nothing held back any more. -/
def backLane (l : Lane) : Lane := { l.supplyBack with eng := { l.supplyBack.eng with held := none } }

/-- The tables with that lane. -/
def backWork (w : Work) (n : LaneId) : Work := w.setLane n (backLane (w.lane n))

theorem at_backWork : (backWork w n).lane n = backLane (w.lane n) := (lane_setLane ..).trans (if_pos rfl)

theorem sameJobs_backWork (w : Work) (n : LaneId) : SameJobs w (backWork w n) := sameJobs_setLane rfl

theorem supplyBack_eq (l : Lane) : l.supplyBack = { l with
    ctx := { l.ctx with drops := if l.ctx.slot.isSome = true ∧ l.ctx.drops < 255 then l.ctx.drops + 1 else l.ctx.drops }
    supply := { l.supply with state := if l.supply.settle.isSome then .settling else .good, ride := none, level := .above } } := by
  have counted : (if l.ctx.slot.isSome then saturate l.ctx.drops else l.ctx.drops)
      = if l.ctx.slot.isSome = true ∧ l.ctx.drops < 255 then l.ctx.drops + 1 else l.ctx.drops := by
    unfold saturate
    cases l.ctx.slot.isSome <;> simp
  unfold Lane.supplyBack
  rw [counted]

/-- With its supply back, the lane is in no ride window. -/
theorem backLane_rides (l : Lane) : (backLane l).supply.state ≠ .riding := by
  show (if l.supply.settle.isSome then SupplyState.settling else .good) ≠ .riding
  split <;> nofun

/-- What is done with the action that was held back, the tables with the supply back. -/
def takes (w : Work) (env : Env) (n : LaneId) : Option Held → Work
  | none => w
  | some .entry => w.beginEntry env n
  | some .select => w.modLane n (Lane.selectPhase env)
  | some .presence => w.modLane n (Lane.presencePhase env)
  | some .pulse => w.pulseDone env n
  | some .startPulse => w.modLane n (Lane.startPulse env)
  | some (.request r) => w.request n r
  | some .keyRead => w.sendOpen n
  | some .step => w.stepGo env n
  | some (.begin st) => w.stepBegin env n st
  | some .resume => w.resumeStep env n

theorem takeHeld_eq (w : Work) (env : Env) (n : LaneId) : w.takeHeld env n
    = takes (w.modLane n (fun l => { l with eng := { l.eng with held := none } })) env n (w.lane n).eng.held := by
  unfold Work.takeHeld
  dsimp only
  cases (w.lane n).eng.held with
  | none => rfl
  | some h => cases h <;> rfl

theorem supplyReturn_acting (acts : env.acting = true) : w.supplyReturn env n = takes (backWork w n) env n (w.lane n).eng.held := by
  unfold Work.supplyReturn
  dsimp only
  rw [if_pos acts, takeHeld_eq, modLane_modLane, lane_modLane, if_pos rfl]
  rfl

/-- A part that does not act, and a lane with nothing held back. -/
theorem supplyReturn_only (h : env.acting = false ∨ (w.lane n).eng.held = none) :
    w.supplyReturn env n = w.setLane n (w.lane n).supplyBack := by
  cases acts : env.acting with
  | false =>
    unfold Work.supplyReturn
    dsimp only
    rw [if_neg (by simp [acts])]
    rfl
  | true =>
    have held : (w.lane n).eng.held = none := h.resolve_left (by simp [acts])
    have back : backLane (w.lane n) = (w.lane n).supplyBack := by
      unfold backLane
      rw [← show (w.lane n).supplyBack.eng.held = none from held]
    rw [supplyReturn_acting acts, held, ← back]
    rfl

/-! ## Only its own lane -/

namespace Local

theorem pulseDone (w : Work) (env : Env) (n : LaneId) : Local n w (w.pulseDone env n) := by
  unfold Work.pulseDone
  dsimp only
  split
  · exact Local.trans modLane (finalize _ env n _ _)
  · exact Local.trans modLane (leave _ env n)

theorem sendOpen (w : Work) (n : LaneId) : Local n w (w.sendOpen n) := by
  unfold Work.sendOpen
  dsimp only
  split
  · exact transfer w n _ _
  · exact request w n _

theorem stepBegin (w : Work) (env : Env) (n : LaneId) (st : Step) : Local n w (w.stepBegin env n st) := by
  unfold Work.stepBegin
  split
  · split
    · exact enterClear w env n _ _ _
    · exact enterWrite w env n _ _
    · exact enterCheck w env n _ _
    · exact enterSum w env n _ _
    · exact enterGuard w env n _ _
    · exact .refl
  · split
    · exact enterRead w env n _ _ _
    · exact .refl
  · exact exchangeStart w env n _ _
  · exact .refl

theorem resumeStep (w : Work) (env : Env) (n : LaneId) : Local n w (w.resumeStep env n) := by
  unfold Work.resumeStep
  split
  · exact .refl
  · refine goOn fun w => ?_
    split
    · exact holdBack w n _
    · exact (Local.trans (enterStep w n _ _) modLane).trans (request _ n _)

theorem takes (w : Work) (env : Env) (n : LaneId) (h : Option Held) : Local n w (takes w env n h) := by
  cases h with
  | none => exact .refl
  | some h =>
    cases h with
    | entry => exact beginEntry w env n
    | select => exact modLane
    | presence => exact modLane
    | pulse => exact pulseDone w env n
    | startPulse => exact modLane
    | request r => exact request w n r
    | keyRead => exact sendOpen w n
    | step => exact stepGo w env n
    | resume => exact resumeStep w env n
    | _ => exact stepBegin w env n _

end Local

/-! ## What is taken, kind by kind -/

section
variable {l : Lane}

theorem return_exec {stood : Nat} (stands : 20 ≤ stood) (riding : (s.work.lane n).supply.state = .riding) :
    exec (.supplyReturn n stood) s = s.answer (s.laneEvent n (fun env w => w.supplyReturn env n)) :=
  congrArg s.answer (if_pos ⟨by simp [Lane.riding, riding], (qualified_iff stood).mpr stands⟩)

/-- A return that changes its lane alone. -/
theorem return_only (aw : s.Awake) {stood : Nat} (stands : 20 ≤ stood) (riding : (s.work.lane n).supply.state = .riding)
    (part : s.part.state ≠ .draining) (h : s.work.supplyReturn s.env n = s.work.setLane n l) :
    exec (.supplyReturn n stood) s = .next (State.refreshIrq (s.withLane n l)) :=
  (return_exec stands riding).trans (laneEvent_eq aw (.inl part) h)

/-- An action held back that is a change of its lane alone. -/
theorem supplyReturn_modLane {h : Held} {f : Lane → Lane} (acts : env.acting = true) (held : (w.lane n).eng.held = some h)
    (takes_ : takes (backWork w n) env n (some h) = (backWork w n).modLane n f) :
    w.supplyReturn env n = w.setLane n (f (backLane (w.lane n))) := by
  rw [supplyReturn_acting acts, held, takes_, Work.modLane, at_backWork, backWork, setLane_setLane]

/-- A request that was held back begins (R51, R145). -/
theorem supplyReturn_request {r : Request} (acts : env.acting = true) (held : (w.lane n).eng.held = some (.request r)) :
    w.supplyReturn env n = w.setLane n ((backLane (w.lane n)).beginRequest ((backWork w n).payload n r) r) := by
  refine supplyReturn_modLane acts held ?_
  exact if_neg (by rw [at_backWork]; exact not_riding (backLane_rides _))

/-- A key read that was held back begins (R30, R145). -/
theorem supplyReturn_keyRead (acts : env.acting = true) (held : (w.lane n).eng.held = some .keyRead) (key : w.keyPointer n ≠ 0) :
    w.supplyReturn env n = w.setLane n { backLane (w.lane n) with eng := { (backLane (w.lane n)).eng with
      xfer := some (.keyRead (w.keyPointer n)), held := none } } := by
  refine supplyReturn_modLane acts held (f := fun l => { l with eng := { l.eng with
    xfer := some (.keyRead (w.keyPointer n)), held := none } }) ?_
  show (backWork w n).sendOpen n = _
  unfold Work.sendOpen
  dsimp only
  rw [(sameJobs_backWork w n).keyPointer n, if_pos key, transfer_begins (by rw [at_backWork]; exact backLane_rides _)]

/-- The EXCHANGE part that was held back (R124, R145). -/
theorem takes_exchange {fresh : Bool} {e : EndAction} {block key : HostAddr} {es : List ExchangeEntry}
    (job : w.jobOf n = some j) (args : j.args = .exchange fresh e block key es) (step : (w.lane n).ctx.step = .exchange) (env : Env) :
    takes (backWork w n) env n (some .step) = (backWork w n).exchangeGo env n block es := by
  obtain ⟨j', job', args', -⟩ := job_after (sameJobs_backWork w n) job
  exact stepGo_exchange (by rw [job', Option.map_some, args', args]) (by rw [at_backWork]; exact step) env

/-- The beginning of the step GUARD that was held back (R113, R145). -/
theorem takes_guard {steps : StepSet} {fresh clearAll : Bool} {e : EndAction} {level : Nat} {ptr key : HostAddr}
    (un : (w.lane n).Unstopped) (job : w.jobOf n = some j) (args : j.args = .program steps fresh clearAll e level ptr key)
    (guard : steps.guard = true) (env : Env) : takes (backWork w n) env n (some (.begin .guard))
      = ((backWork w n).enterStep n .guard none).request n ((backLane (w.lane n)).guardRequest level) := by
  obtain ⟨j', job', args', -⟩ := job_after (sameJobs_backWork w n) job
  have begins := enterGuard_begins (w := backWork w n) (n := n) (level := level) (by rw [at_backWork]; exact un)
    (by rw [at_backWork]; exact backLane_rides _) guard env
  rw [at_backWork] at begins
  rw [← begins]
  show (backWork w n).stepBegin env n .guard = _
  unfold Work.stepBegin
  rw [job', Option.map_some, args', args]

end

/-- Settles O33: a drop opens the window, and the return takes what it held back. -/
theorem rideWindow : Obligations.RideWindow := by
  intro s n l stood aw hl
  subst hl
  have drop_exec : 20 ≤ stood → (s.work.lane n).supply.level = .above → (s.work.lane n).supply.state ∈ [.settling, .good] →
      exec (.drop n stood) s = s.answer (s.laneEvent n (fun env w => w.drop env n)) := fun stands above watched => by
    simp only [List.mem_cons, List.not_mem_nil, or_false] at watched
    exact congrArg s.answer (if_pos ⟨by simp [Supply.watchesDrops, above, watched], (qualified_iff stood).mpr stands⟩)
  refine ⟨fun short => ?_, fun stands above watched policy sound => ?_, fun stands above watched fault part => ?_,
    fun stands riding part u onlyLane hu only => ?_⟩
  · have unqualified : ¬ qualified stood = true := by rw [qualified_iff]; omega
    refine ⟨?_, ?_⟩
    · exact (congrArg s.answer (if_neg fun h => unqualified h.2)).trans (answer_self aw)
    · exact (congrArg s.answer (if_neg fun h => unqualified h.2)).trans (answer_self aw)
  · rw [drop_exec stands above watched]
    have rides : s.work.drop s.env n = s.work.setLane n ((s.work.lane n).startRide s.env) := by
      unfold Work.drop
      dsimp only
      rw [if_neg sound, policy]
      rfl
    exact laneEvent_eq aw (.inr (by simp [Lane.atRest, Lane.riding])) rides
  · rw [drop_exec stands above watched]
    exact laneEvent_eq aw (.inl part) (if_pos fault)
  · rw [← supplyBack_eq] at hu
    subst hu
    refine ⟨fun idle => ?_, fun acts => ?_⟩
    · rw [only]
      refine return_only aw stands riding part (supplyReturn_only (idle.imp_left fun h => ?_))
      simp only [List.mem_cons, List.not_mem_nil, or_false] at h
      unfold State.env Env.acting
      rcases h with h | h
      · rw [h]; rfl
      · rw [h]; rfl
    · obtain ⟨acts, -⟩ := acting_of_mem acts
      refine ⟨fun held => ?_, fun held => ?_, fun held => ?_, fun held key => ?_, ?_⟩
      · rw [only]
        exact return_only aw stands riding part (supplyReturn_modLane acts held rfl)
      · rw [only, Nat.mul_comm 48000]
        exact return_only aw stands riding part (supplyReturn_modLane acts held rfl)
      · rw [only]
        exact return_only aw stands riding part (supplyReturn_modLane acts held rfl)
      · rw [only]
        exact return_only aw stands riding part (supplyReturn_keyRead acts held key)
      · obtain ⟨t, run, y, -⟩ := laneEvent_yields aw part (fun env w => w.supplyReturn env n) (n := n)
        rw [← return_exec stands riding] at run
        rw [supplyReturn_acting acts] at y
        have at_n := at_backWork (w := s.work) (n := n)
        have steady : ((backWork s.work n).lane n).supply.state ≠ .riding := by rw [at_n]; exact backLane_rides _
        refine ⟨t, run, fun m hm => ?_, fun held => ?_, fun held action => ?_, fun r held => ?_,
          fun j fresh e block key es k x held un job args step idx entry => ?_,
          fun j steps fresh clearAll e level ptr key held un job args guard => ?_, fun q held un resume => ?_⟩
        · rw [y.lane m]
          exact ((Local.setLane (l := backLane (s.work.lane n))).trans (Local.takes _ s.env n _)).others.pins hm
        · rw [held] at y
          have lane := (y.lane n).trans (beginEntry_lane ..)
          rw [if_pos rfl, if_neg steady, at_n] at lane
          rw [lane]
          exact ⟨rfl, rfl, rfl, rfl, rfl, rfl, rfl, rfl⟩
        · rw [held] at y
          have same := sameJobs_backWork s.work n
          obtain ⟨kept, slot, -, taken⟩ := pulseDone_leads (w := backWork s.work n) (n := n) (fun live => by
            rw [same.actionOf n]
            exact action (by rw [← same.isLive n, live])) s.env
          rw [at_n] at kept
          rw [y.lane n]
          exact ⟨congrArg (·.ctx.state) kept, congrArg (·.lines) kept, slot, y.taken (same.taken taken)⟩
        · have only_t := run.symm.trans (return_only aw stands riding part (supplyReturn_request acts held))
          have work : t.work = s.work.setLane n _ := congrArg State.work (Host.Outcome.next.inj only_t)
          have lane : t.work.lane n = _ := (congrArg (fun w => Work.lane w n) work).trans ((lane_setLane ..).trans (if_pos rfl))
          rw [lane]
          exact ⟨work, rfl, rfl, rfl, rfl, rfl, rfl⟩
        · rw [held, takes_exchange job args step] at y
          refine ⟨fun part len => ?_, fun part => ?_⟩
          · rw [y.lane n, exchangeGo_payload (by rw [at_n]; exact un) (by rw [at_n]; exact idx) entry (by rw [at_n]; exact part) len
              steady, lane_modLane, if_pos rfl]
            rfl
          · rw [y.lane n, exchangeGo_reply (by rw [at_n]; exact un) (by rw [at_n]; exact idx) entry (by rw [at_n]; exact part)
              steady rfl, lane_modLane, if_pos rfl]
            exact ⟨_, rfl⟩
        · rw [held, takes_guard un job args guard] at y
          have steady' : (((backWork s.work n).enterStep n .guard none).lane n).supply.state ≠ .riding := by
            rw [lane_enterStep, if_pos rfl]
            exact steady
          have lane := y.lane n
          rw [request_begins steady', lane_setLane, if_pos rfl, lane_enterStep, if_pos rfl, at_n] at lane
          exact ⟨by rw [lane]; rfl, by rw [lane]; rfl, by rw [lane]; rfl, frameOut_engine lane rfl (by nofun)⟩
        · rw [held] at y
          obtain ⟨p, -, at_⟩ := resumeStep_begins (w := backWork s.work n) (n := n) (by rw [at_n]; exact un) steady
            (by rw [at_n]; exact resume) s.env
          have lane := (y.lane n).trans at_
          rw [at_n] at lane
          rw [lane]
          exact ⟨rfl, rfl, rfl, rfl, rfl⟩

end Sys2Proof.Proofs
end
